-- ==== Sys2Proof/Word.lean ====
section
/-! DEFINITION. The word types of the engine (00_scope.md R12): a data word and a target address have
32 bits, a byte 8. Everything computed from them (parity, bit order, packing) stands under Machine/. -/

namespace Sys2Proof

/-- A 32-bit data word (R12). -/
abbrev Word := BitVec 32

/-- A 32-bit byte address of the target (R12); its arithmetic is modulo 2^32 (R13). -/
abbrev Addr32 := BitVec 32

/-- One byte. -/
abbrev Byte := BitVec 8

end Sys2Proof
end

