-- ==== Sys2Proof/Config.lean ====
section
/-! DEFINITION. The parameters of the engine (00_scope.md R11) as one plain record, their default values, and
the free values of the model. The record is held in the machine's state and no step writes it (R11, D1), so a
statement about every state is a statement for every value of the parameters (log 2). -/

namespace Sys2Proof

/-- The order of the two writes of `setRegister` (R11, R169, 90_conflicts.md C8). -/
inductive SetRegOrder where
  | selectThenData
  | dataThenSelect
deriving DecidableEq, Repr

/-- A run of `size` consecutive byte addresses from `base`. The predicates `legalRange` and `reachable` of R11 are
held as lists of regions: the address space is finite, so every predicate is such a list (log 2). -/
structure Region where
  base : Nat
  size : Nat
deriving DecidableEq, Repr

/-- The parameters of 00_scope.md R11. `turnaroundCycles` is fixed by the spec and stands below. -/
structure Config where
  /-- Pin identifiers and clock period of the Link Configuration (R25); no rule depends on them. -/
  clkPin : Nat
  dioPin : Nat
  clockPeriod : Nat
  /-- Level driven in idle cycles (D7). -/
  idleLevel : Bool
  /-- Idle cycles after a read exchange and after a failed exchange (D11). -/
  idleCycles : Nat
  /-- Idle cycles after a successful write exchange (D11). -/
  idleAfterWrite : Nat
  /-- Cycles with SWDIO high, then low, of a line reset (R96). -/
  lineResetHigh : Nat
  lineResetIdle : Nat
  /-- The protocol-activation bits, first on the wire first (R97). -/
  activationBits : List Bool
  multidropActivation : Option (List Bool)
  resetAfterActivation : Bool
  /-- Expected IDCODE bits [3:0] (R166). -/
  idLowNibble : BitVec 4
  /-- Re-issues of a transaction after WAIT (R147). -/
  waitRetryMax : Nat
  /-- Bounds of the three polls, in reads (R159). -/
  powerUpPollMax : Nat
  haltPollMax : Nat
  regRdyPollMax : Nat
  /-- Access-port number placed in SELECT (R99). -/
  apsel : BitVec 8
  /-- Value written to the MEM-AP CSW (R156). -/
  cswValue : Word
  /-- DRW accesses between TAR writes at most (R174). -/
  maxBurstWords : Nat
  /-- Whether `LOAD` runs the verification pass (R177). -/
  verify : Bool
  setRegOrder : SetRegOrder
  /-- `legalRange(true, ·)` and `legalRange(false, ·)` (R79). -/
  legalWhenRam : List Region
  legalOtherwise : List Region
  /-- `reachable` (R172). -/
  reachable : List Region
  /-- Size of the target's TAR auto-increment block (R210), a property of the target. The spec gives it no range; 0 means
  that no block is ever crossed: DESIGN CHOICE (log 25). -/
  tarWrapBytes : Nat
deriving DecidableEq, Repr

/-- Length of one turnaround (R11, R120): "one clock cycle", fixed. -/
def turnaroundCycles : Nat := 1

/-- The whole 32-bit address space as one region: the default of `legalRange` and `reachable` (D29, D30). -/
def Region.everything : Region := { base := 0, size := 4294967296 }

/-- The default parameters of R11. The pin identifiers and the clock period are OPEN without a default there
(no rule depends on them): 0, 1 and 1 are a DESIGN CHOICE (log 2). `activationBits` is 0xE79E, LSB first (R97). -/
def Config.defaults : Config where
  clkPin := 0
  dioPin := 1
  clockPeriod := 1
  idleLevel := false
  idleCycles := 2
  idleAfterWrite := 0
  lineResetHigh := 50
  lineResetIdle := 2
  activationBits := [false, true, true, true, true, false, false, true,
                     true, true, true, false, false, true, true, true]
  multidropActivation := none
  resetAfterActivation := true
  idLowNibble := 0x7
  waitRetryMax := 32
  powerUpPollMax := 10
  haltPollMax := 10
  regRdyPollMax := 10
  apsel := 0
  cswValue := 0x00000012
  maxBurstWords := 256
  verify := false
  setRegOrder := .selectThenData
  legalWhenRam := [Region.everything]
  legalOtherwise := [Region.everything]
  reachable := [Region.everything]
  tarWrapBytes := 1024

/-- FREE VALUE (log 1). The `n`-th bit the target presents once the scripted answers of `State.targetIn` are used
up: whatever the target or a floating line presents (R114), so it has no body. -/
opaque Config.targetBit : Nat → Bool

/-- FREE VALUE (log 8, log 9, log 22, log 27). The `n`-th value that the target decides and no rule states: TAR past its
auto-increment block, read-only bits of CTRL/STAT, the status bits of DHCSR, a posted read result. -/
opaque Config.targetWord : Nat → Word

end Sys2Proof
end

