-- ==== Sys2Proof/Syntax.lean ====
section
/-! DEFINITION. The engine's language: one constructor per row of spec/opcode_table.json (30_encoding.md R90 and
R103), and the operand registers a command reads (10_state.md R34). Operands are carried in registers, not in the
command word (R102), so the constructors have no fields. -/

namespace Sys2Proof

/-- The rows of the opcode table: sixteen wire requests (R90, R131 to R146), then nineteen commands (R103). -/
inductive Instr where
  | dpw0Abort | dpw4Ctrlstat | dpw8Select | dpwcReserved
  | dpr0Idcode | dpr4Ctrlstat | dpr8Resend | dprcRdbuff
  | apw0Csw | apw4Tar | apw8Reserved | apwcDrw
  | apr0Csw | apr4Tar | apr8Reserved | aprcDrw
  | linkClock | linkWrite | linkRead | linkTrn | linkLinereset
  | xfer
  | rdDp | wrDp | rdAp | wrAp | memWr32 | memRd32
  | connect | halt | setReg | resume
  | load | writeBlocks | verifyBlocks
deriving DecidableEq, Repr

/-- One buffer of the caller: its bytes and the length the caller gives for it (R172, argument (b)). -/
structure Buffer where
  bytes : List Byte
  len : Nat
deriving DecidableEq, Repr

/-- A Firmware Section (R17, R172): a target address, a byte sequence and its length. -/
structure Section where
  addr : Addr32
  bytes : List Byte
  len : Nat
deriving DecidableEq, Repr

/-- The arguments (a) to (f) of the caller-facing entry point from which the Load Plan is built (R172; log 21):
the addresses, the buffers with their lengths, the section count, the entry address, the initial stack pointer and
the RAM-policy flag. -/
structure LoadPlan where
  addrs : List Addr32
  buffers : List Buffer
  count : Nat
  entry : Addr32
  sp : Addr32
  ramPolicy : Bool
deriving DecidableEq, Repr

/-- The command operand registers (R34). -/
structure Operands where
  /-- `OP_APNDP`: true selects the access port. -/
  apndp : Bool
  /-- `OP_RNW`: true is a read. -/
  rnw : Bool
  /-- `OP_ADDR`: a DP address in bits [3:2], or an AP register address. -/
  addr : BitVec 8
  value : Word
  value2 : Word
  count : Nat
  /-- `OP_BITS`: first element first on the wire. -/
  bits : List Bool
  regId : BitVec 5
  plan : LoadPlan
deriving DecidableEq, Repr

/-- What the caller issues: one command word, in a byte, and the operands it places in the operand registers
with it (R4, R34, R102; log 3). -/
structure Issue where
  word : Byte
  operands : Operands
deriving DecidableEq, Repr

end Sys2Proof
end

