-- ==== Sys2Proof/Decode.lean ====
section
/-! DEFINITION. Decoding and encoding of one command word or wire request, each in one byte (30_encoding.md R87,
R90, R102, R103, R105, R107). A byte with bits [7:5] = 0 is a 5-bit command code `CMD[4:0]`; any other byte is read as a
request byte, whose Park bit is bit 7 (log 4). -/

namespace Sys2Proof

/-! ## The request byte -/

/-- `reqParity` (R124): the XOR of the four selector, direction and address bits. -/
def reqParity (apndp rnw a2 a3 : Bool) : Bool :=
  apndp ^^ rnw ^^ a2 ^^ a3

/-- The request byte of (APnDP, RnW, A[3:2]) (R87):
`0x81 | APnDP<<1 | RnW<<2 | A[2]<<3 | A[3]<<4 | Parity<<5`. -/
def requestByte (apndp rnw : Bool) (a : BitVec 2) : Byte :=
  let a2 := a.getLsbD 0
  let a3 := a.getLsbD 1
  let at_ (b : Bool) (k : Nat) : Byte := (BitVec.ofBool b).setWidth 8 <<< k
  0x81 ||| at_ apndp 1 ||| at_ rnw 2 ||| at_ a2 3 ||| at_ a3 4 ||| at_ (reqParity apndp rnw a2 a3) 5

/-- The wire request with these fields (R90). -/
def requestInstr (apndp rnw : Bool) (a : BitVec 2) : Instr :=
  match apndp, rnw, a.getLsbD 1, a.getLsbD 0 with
  | false, false, false, false => .dpw0Abort
  | false, false, false, true => .dpw4Ctrlstat
  | false, false, true, false => .dpw8Select
  | false, false, true, true => .dpwcReserved
  | false, true, false, false => .dpr0Idcode
  | false, true, false, true => .dpr4Ctrlstat
  | false, true, true, false => .dpr8Resend
  | false, true, true, true => .dprcRdbuff
  | true, false, false, false => .apw0Csw
  | true, false, false, true => .apw4Tar
  | true, false, true, false => .apw8Reserved
  | true, false, true, true => .apwcDrw
  | true, true, false, false => .apr0Csw
  | true, true, false, true => .apr4Tar
  | true, true, true, false => .apr8Reserved
  | true, true, true, true => .aprcDrw

/-! ## Decoding -/

/-- Why a byte is no instruction. -/
inductive DecodeError where
  /-- There is no byte. -/
  | noWord
  /-- A command code that R103 does not list (R107). -/
  | reservedCmd
  /-- No command word, and Start, Stop, Park or the parity bit is wrong (R105). -/
  | malformedRequest
deriving DecidableEq, Repr

/-- The command map (R103); the reserved codes (R107) have no row. -/
def commandInstr (code : BitVec 5) : Option Instr :=
  match code.toNat with
  | 0b00000 => some .linkClock
  | 0b00001 => some .linkWrite
  | 0b00010 => some .linkRead
  | 0b00011 => some .linkTrn
  | 0b00100 => some .linkLinereset
  | 0b01000 => some .xfer
  | 0b10000 => some .rdDp
  | 0b10001 => some .wrDp
  | 0b10010 => some .rdAp
  | 0b10011 => some .wrAp
  | 0b10100 => some .memWr32
  | 0b10101 => some .memRd32
  | 0b11000 => some .connect
  | 0b11001 => some .halt
  | 0b11010 => some .setReg
  | 0b11011 => some .resume
  | 0b11100 => some .load
  | 0b11101 => some .writeBlocks
  | 0b11110 => some .verifyBlocks
  | _ => none

/-- A byte read as a request (R87): Start = 1, Stop = 0, Park = 1 and the parity of R88, or no request (R105). -/
def decodeRequest (b : Byte) : Option Instr :=
  let apndp := b.getLsbD 1
  let rnw := b.getLsbD 2
  let a2 := b.getLsbD 3
  let a3 := b.getLsbD 4
  if b.getLsbD 0 && !b.getLsbD 6 && b.getLsbD 7 && b.getLsbD 5 == reqParity apndp rnw a2 a3 then
    some (requestInstr apndp rnw (BitVec.ofBool a3 ++ BitVec.ofBool a2))
  else none

/-- One byte as an instruction. -/
def decodeByte (b : Byte) : Except DecodeError Instr :=
  if b.extractLsb' 5 3 == 0 then
    match commandInstr (b.setWidth 5) with
    | some i => .ok i
    | none => .error .reservedCmd
  else
    match decodeRequest b with
    | some i => .ok i
    | none => .error .malformedRequest

/-- The decoder on any bytes: the first instruction and the bytes after it. Every instruction is one byte. -/
def decode : List Byte → Except DecodeError (Instr × List Byte)
  | [] => .error .noWord
  | b :: rest =>
    match decodeByte b with
    | .ok i => .ok (i, rest)
    | .error e => .error e

/-! ## Encoding -/

/-- The fields (APnDP, RnW, A[3:2]) of a wire request (R90); a command has none. -/
def Instr.requestFields : Instr → Option (Bool × Bool × BitVec 2)
  | .dpw0Abort => some (false, false, 0)
  | .dpw4Ctrlstat => some (false, false, 1)
  | .dpw8Select => some (false, false, 2)
  | .dpwcReserved => some (false, false, 3)
  | .dpr0Idcode => some (false, true, 0)
  | .dpr4Ctrlstat => some (false, true, 1)
  | .dpr8Resend => some (false, true, 2)
  | .dprcRdbuff => some (false, true, 3)
  | .apw0Csw => some (true, false, 0)
  | .apw4Tar => some (true, false, 1)
  | .apw8Reserved => some (true, false, 2)
  | .apwcDrw => some (true, false, 3)
  | .apr0Csw => some (true, true, 0)
  | .apr4Tar => some (true, true, 1)
  | .apr8Reserved => some (true, true, 2)
  | .aprcDrw => some (true, true, 3)
  | .linkClock | .linkWrite | .linkRead | .linkTrn | .linkLinereset | .xfer
  | .rdDp | .wrDp | .rdAp | .wrAp | .memWr32 | .memRd32
  | .connect | .halt | .setReg | .resume | .load | .writeBlocks | .verifyBlocks => none

/-- The command code of a command (R103); a wire request has none. -/
def Instr.commandCode : Instr → Option (BitVec 5)
  | .linkClock => some 0b00000
  | .linkWrite => some 0b00001
  | .linkRead => some 0b00010
  | .linkTrn => some 0b00011
  | .linkLinereset => some 0b00100
  | .xfer => some 0b01000
  | .rdDp => some 0b10000
  | .wrDp => some 0b10001
  | .rdAp => some 0b10010
  | .wrAp => some 0b10011
  | .memWr32 => some 0b10100
  | .memRd32 => some 0b10101
  | .connect => some 0b11000
  | .halt => some 0b11001
  | .setReg => some 0b11010
  | .resume => some 0b11011
  | .load => some 0b11100
  | .writeBlocks => some 0b11101
  | .verifyBlocks => some 0b11110
  | .dpw0Abort | .dpw4Ctrlstat | .dpw8Select | .dpwcReserved
  | .dpr0Idcode | .dpr4Ctrlstat | .dpr8Resend | .dprcRdbuff
  | .apw0Csw | .apw4Tar | .apw8Reserved | .apwcDrw
  | .apr0Csw | .apr4Tar | .apr8Reserved | .aprcDrw => none

/-- The byte of an instruction: its request byte (R87), or its command code in bits [4:0] (R103; log 4). -/
def encodeByte (i : Instr) : Byte :=
  match i.requestFields with
  | some (apndp, rnw, a) => requestByte apndp rnw a
  | none =>
    match i.commandCode with
    | some code => code.setWidth 8
    | none => 0

/-- The words of an instruction. -/
def encode (i : Instr) : List Byte := [encodeByte i]

/-! ## The host's view of the decoder -/

/-- The instruction bytes of a table word of `nbits` bits: the low `nbits` bits of `w`, one byte (every instruction has
one byte, so there is nothing above it). -/
def tableByte (nbits w : Nat) : Byte :=
  BitVec.ofNat 8 (w % 2 ^ nbits)

/-- What the decoder reads from an instruction whose bits are `w`, numbered as spec/opcode_table.json numbers them. -/
def decodeTableWord (nbits w : Nat) : Option Instr :=
  match decode [tableByte nbits w] with
  | .ok (i, _) => some i
  | .error _ => none

end Sys2Proof
end

