-- ==== Sys2Proof/Machine/Bits.lean ====
section
/-! DEFINITION. Bit order on the wire and byte order in a word (00_scope.md R14, 20_memory.md R70 and R71). -/

namespace Sys2Proof.Machine

/-- `bitsLSB(v, n)` of R14: the bits of `v`, bit 0 first. -/
def bitsLSB {n : Nat} (v : BitVec n) : List Bool :=
  (List.range n).map v.getLsbD

/-- `valLSB` of R14 as a number: the first bit has weight 1. -/
def natLSB : List Bool → Nat
  | [] => 0
  | b :: bs => b.toNat + 2 * natLSB bs

/-- `valLSB` of R14, in a register of `n` bits. -/
def valLSB (n : Nat) (bits : List Bool) : BitVec n :=
  BitVec.ofNat n (natLSB bits)

/-- The little-endian word of four bytes (R71, R173): the byte at the lowest address is bits [7:0]. -/
def wordOfBytes (b0 b1 b2 b3 : Byte) : Word :=
  b3 ++ b2 ++ b1 ++ b0

/-- The words of a byte sequence, four bytes each, in order (R173); a last group of fewer than four bytes gives no
word (an admitted plan has none, R172). -/
def wordsOfBytes : List Byte → List Word
  | b0 :: b1 :: b2 :: b3 :: rest => wordOfBytes b0 b1 b2 b3 :: wordsOfBytes rest
  | _ => []

/-- Byte `k` of a word: bits [8k+7 : 8k] (R71). -/
def byteOfWord (w : Word) (k : Nat) : Byte :=
  w.extractLsb' (8 * k) 8

end Sys2Proof.Machine
end

