-- ==== Sys2Proof/Machine/State.lean ====
section
/-! DEFINITION. The machine's state as plain data: every piece of state 10_state.md gives the engine, the target-side
registers and memory it reaches, and the model's own input fields (INVENTORY.md, State). Reset values are those of
10_state.md R64; the values R64 leaves unspecified are named in log 5 and log 6. -/

namespace Sys2Proof.Machine

/-! ## Outcomes a step can stop with -/

/-- The faults of the machine (60_exceptions.md R182). -/
inductive Fault where
  /-- Raised by LINK_WRITE, LINK_LINERESET, LINK_READ and by the start of every exchange when the drive direction
  would change without a turnaround (R115). Safe: the model stops where the chip would drive on. -/
  | directionHazard
deriving DecidableEq, Repr

/-- The refusals of the machine (60_exceptions.md R189). Each is safe: the model gives no meaning where the engine
might go on. -/
inductive Refusal where
  /-- An instruction that has no meaning in the model yet, by its mnemonic. Raised by `exec`. -/
  | notModelled (mnemonic : String)
  /-- A reserved command code (R107). Raised by `step`. -/
  | reservedCmd
  /-- A byte that is neither a command word nor a request byte of R90 (R105; log 4). Raised by `step`. -/
  | malformedRequest
  /-- A parameter outside its range (R189 BadParam; log 18). Raised by `step`. -/
  | badParam
  /-- `LOAD` while `busy` (R46). Raised by LOAD. -/
  | reentrant
  /-- A Load Plan that R172 does not admit. Raised by LOAD, WRITE_BLOCKS and VERIFY_BLOCKS (log 10). -/
  | badPlan
  /-- A DP address outside the command's set (R151, R152). Raised by RD_DP and WR_DP. -/
  | badDPAddr
  /-- An exchange with request 0x99 (R105, R129, R134). Raised by XFER and DPWC_RESERVED. -/
  | dpWrite0xC
  /-- An AP address with bits [1:0] ≠ 0 (R66). Raised by RD_AP and WR_AP. -/
  | badAPAddr
  /-- A memory address with bits [1:0] ≠ 0 (R157, R158). Raised by MEM_WR32 and MEM_RD32. -/
  | unaligned
deriving DecidableEq, Repr

/-! ## Enumerations -/

/-- Who drove SWDIO in the most recent cycle (R24). -/
inductive Dir where
  | none | host | target | released
deriving DecidableEq, Repr

/-- One SWCLK cycle of the trace (R47, R86): `H(b)`, `T(b)`, `Z`. -/
inductive Cycle where
  | h (b : Bool)
  | t (b : Bool)
  | z
deriving DecidableEq, Repr

/-- `OUTCOME`: the Acknowledge Outcome (R30). -/
inductive AckOutcome where
  | ok | wait | fault | proterr
deriving DecidableEq, Repr

/-- `conn` (R42). -/
inductive Conn where
  | idle | lineReset | activationSent | idCheck | powerUp | ready
deriving DecidableEq, Repr

/-- `load` (R43). -/
inductive Load where
  | notConnected | connected | halted | loaded | running | failed
deriving DecidableEq, Repr

/-- `phase` of the sequencer position (R44). These are also the `FailStep` values of R183. -/
inductive Phase where
  | none | lineReset | activationSent | idCheck | powerUp | halt | write | verify | setSP | setPC | setReg | resume
deriving DecidableEq, Repr

/-- `FailCause` (R183). -/
inductive FailCause where
  | waitExhausted | faultRepeated | recoveryFailed | idMismatch | pollTimeout | verifyMismatch
deriving DecidableEq, Repr

/-- A failure record (R45). -/
structure FailRecord where
  step : Phase
  cause : FailCause
  addr : Option Addr32
deriving DecidableEq, Repr

/-! ## The parts of the state -/

/-- Bit-Level Link (R21 to R24). -/
structure Link where
  clk : Bool
  oe : Bool
  dout : Bool
  lastDir : Dir
deriving DecidableEq, Repr

/-- Datapath registers (R26 to R33). -/
structure Datapath where
  req : BitVec 8
  ack : BitVec 3
  wdata : Word
  wpar : Bool
  rdata : Word
  rpar : Bool
  outcome : AckOutcome
  waitCount : Nat
  faultRetried : Bool
  pollCount : Nat
deriving DecidableEq, Repr

/-- Result registers (R34); `bits` is the list `LINK_READ` returns (R119; log 13). -/
structure Results where
  value : Word
  ok : Bool
  bits : List Bool
deriving DecidableEq, Repr

/-- Session State (R35 to R42, R45). -/
structure Session where
  selValid : Bool
  selCache : Word
  cswConfigured : Bool
  stickyCleared : Bool
  halted : Bool
  lastCtrlStat : Option Word
  tarValid : Bool
  nextAddr : Addr32
  burstCount : Nat
  conn : Conn
  failInfo : Option FailRecord
deriving DecidableEq, Repr

/-- The step in progress and the word position (R44). -/
structure Sequencer where
  phase : Phase
  sectionIndex : Nat
  wordIndex : Nat
deriving DecidableEq, Repr

/-- Target-side registers and memory (R50 to R62, R68) as the engine's acknowledged accesses leave them (log 7). -/
structure Target where
  idcode : Word
  ctrlStat : Word
  select : Word
  rdbuff : Word
  csw : Word
  tar : Addr32
  /-- DHCSR: the control bits as a write with the key set them (R59). -/
  dhcsr : Word
  /-- DHCSR: the status bits, of which the model knows what the last read of DHCSR showed (R59; log 27); S_HALT among
  them is Debug state, in which alone a DCRSR write takes effect (R208; log 22). -/
  dhcsrStatus : Word
  /-- RDBUFF is to return a read of DHCSR made since the last write at DHCSR or DCRSR (R54, R57; log 27). -/
  dhcsrPosted : Bool
  dcrsr : Word
  dcrdr : Word
  /-- Core registers 0 to 31, by number (R68): 32 words of their own (log 33), which no run of the core changes (log 31). -/
  coreRegs : List Word
  /-- Target memory in canonical form: addresses strictly rising, no listed byte 0 (R62; log 6). -/
  mem : List Host.Cell
  /-- How many values the target has decided (log 8, log 9): the counter of its free values. -/
  draws : Nat
deriving DecidableEq, Repr

end Sys2Proof.Machine

namespace Sys2Proof.Machine

/-- The state of the machine. -/
structure State where
  /-- The parameters (R11, R25); no step writes them. -/
  cfg : Config
  link : Link
  dp : Datapath
  op : Operands
  res : Results
  sess : Session
  load : Load
  seq : Sequencer
  busy : Bool
  /-- Every SWCLK cycle produced, oldest first (R47). -/
  trace : List Cycle
  target : Target
  /-- The bits the target presents next, first sampled first; after them, free values (log 1). -/
  targetIn : List Bool
  /-- How many free bits have been drawn (log 1). -/
  draws : Nat
  /-- Commands the caller has issued and the engine has not accepted yet, oldest first (log 3). -/
  inbox : List Issue
deriving DecidableEq, Repr

/-! ## Reset (R64, R198) -/

/-- The Load Plan operand at reset: no section, entry and stack pointer 0 (log 5). -/
def LoadPlan.unwritten : LoadPlan :=
  { addrs := [], buffers := [], count := 0, entry := 0, sp := 0, ramPolicy := false }

def Operands.unwritten : Operands where
  apndp := false
  rnw := false
  addr := 0
  value := 0
  value2 := 0
  count := 0
  bits := []
  regId := 0
  plan := LoadPlan.unwritten

def Link.reset (cfg : Config) : Link :=
  { clk := false, oe := false, dout := cfg.idleLevel, lastDir := .none }

def Datapath.reset : Datapath where
  req := 0
  ack := 0
  wdata := 0
  wpar := false
  rdata := 0
  rpar := false
  outcome := .ok
  waitCount := 0
  faultRetried := false
  pollCount := 0

def Session.reset : Session where
  selValid := false
  selCache := 0
  cswConfigured := false
  stickyCleared := false
  halted := false
  lastCtrlStat := none
  tarValid := false
  nextAddr := 0
  burstCount := 0
  conn := .idle
  failInfo := none

def Target.unknown : Target where
  idcode := 1
  ctrlStat := 0
  select := 0
  rdbuff := 0
  csw := 0
  tar := 0
  dhcsr := 0
  dhcsrStatus := 0
  dhcsrPosted := false
  dcrsr := 0
  dcrdr := 0
  coreRegs := List.replicate 32 0
  mem := []
  draws := 0

/-- Engine reset under given parameters (R198). -/
def State.resetWith (cfg : Config) : State where
  cfg := cfg
  link := Link.reset cfg
  dp := Datapath.reset
  op := Operands.unwritten
  res := { value := 0, ok := false, bits := [] }
  sess := Session.reset
  load := .notConnected
  seq := { phase := .none, sectionIndex := 0, wordIndex := 0 }
  busy := false
  trace := []
  target := Target.unknown
  targetIn := []
  draws := 0
  inbox := []

/-- Engine reset with the default parameters (R11, R64, R198). -/
def State.reset : State := State.resetWith Config.defaults

end Sys2Proof.Machine
end

