-- ==== Sys2Proof/Machine/Flags.lean ====
section
/-! DEFINITION. The computations behind the engine's condition flags: data parity (41_packet.md R125, R126), the class
of an acknowledge (R127), and the outcome of an exchange, with the numeric codes of 60_exceptions.md R183. The parity of
a request stands with its encoding (Decode.lean). -/

namespace Sys2Proof.Machine

/-- `parity32(w)`: the XOR of the 32 bits (R14, R92, R125). -/
def parity32 (w : Word) : Bool :=
  (bitsLSB w).foldl (· ^^ ·) false

/-- `classify(ACK[2:0])` (R127). -/
def classify (ack : BitVec 3) : AckOutcome :=
  if ack = 0b001 then .ok
  else if ack = 0b010 then .wait
  else if ack = 0b100 then .fault
  else .proterr

/-- The outcome of a read whose ACK is OK: `PROTERR` on a parity mismatch (R126, R129). -/
def readOutcome (rdata : Word) (rpar : Bool) : AckOutcome :=
  if rpar = parity32 rdata then .ok else .proterr

/-- The code of a `FailStep` (R183). -/
def failStepCode : Phase → Nat
  | .none => 0
  | .lineReset => 1
  | .activationSent => 2
  | .idCheck => 3
  | .powerUp => 4
  | .halt => 5
  | .write => 6
  | .verify => 7
  | .setSP => 8
  | .setPC => 9
  | .setReg => 10
  | .resume => 11

/-- The code of a `FailCause` (R183). -/
def failCauseCode : FailCause → Nat
  | .waitExhausted => 1
  | .faultRepeated => 2
  | .recoveryFailed => 3
  | .idMismatch => 4
  | .pollTimeout => 5
  | .verifyMismatch => 6

end Sys2Proof.Machine
end

