-- ==== Sys2Proof/Machine/Operands.lean ====
section
/-! DEFINITION. Every operand form the spec gives: register addresses and their checks (30_encoding.md R89, R99,
R100, R107), memory addresses (R157, R158), the Load Plan and its admission (44_memory_loader.md R172, R173), and
the ranges of the parameters (60_exceptions.md R189, BadParam). -/

namespace Sys2Proof.Machine

/-! ## Register and memory addresses -/

/-- The 2-bit offset `A[3:2]` of a register address (R89). -/
def regOffset (addr : BitVec 8) : BitVec 2 :=
  addr.extractLsb' 2 2

/-- `OP_ADDR ∈ {0x0, 0x4, 0x8, 0xC}`: the addresses `RD_DP` admits (R151). -/
def dpReadAddrOk (addr : BitVec 8) : Bool :=
  addr == 0x0 || addr == 0x4 || addr == 0x8 || addr == 0xC

/-- `OP_ADDR ∈ {0x0, 0x4, 0x8}`: the addresses `WR_DP` admits (R152). -/
def dpWriteAddrOk (addr : BitVec 8) : Bool :=
  addr == 0x0 || addr == 0x4 || addr == 0x8

/-- An AP register address has bits [1:0] = 0 (R66). -/
def apAddrOk (addr : BitVec 8) : Bool :=
  addr.extractLsb' 0 2 == 0

/-- A memory address of `MEM_WR32` and `MEM_RD32` has bits [1:0] = 0 (R157, R158). -/
def memAddrOk (addr : Addr32) : Bool :=
  addr.extractLsb' 0 2 == 0

/-- The bank of an AP register address: bits [7:4] (R99). -/
def apBank (addr : BitVec 8) : BitVec 4 :=
  addr.extractLsb' 4 4

/-- `SELECT(k) = {apsel[7:0], 16'h0000, k[3:0], 4'h0}` (R99). -/
def selectValue (cfg : Config) (bank : BitVec 4) : Word :=
  cfg.apsel ++ (0 : BitVec 16) ++ bank ++ (0 : BitVec 4)

/-- The DCRSR value of a core-register write: `0x00010000 | r` (R100). -/
def dcrsrValue (regId : BitVec 5) : Word :=
  0x00010000 ||| regId.setWidth 32

/-! ## Constant data words and test masks (R101) and the fixed addresses (R78) -/

def abortClear : Word := 0x0000001E
def powerUpRequest : Word := 0x50000000
def powerUpAcks : Word := 0xA0000000
def dhcsrHalt : Word := 0xA05F0003
def dhcsrResume : Word := 0xA05F0001
def sHalt : Word := 0x00020000
def sRegRdy : Word := 0x00010000

def dhcsrAddr : Addr32 := 0xE000EDF0
def dcrsrAddr : Addr32 := 0xE000EDF4
def dcrdrAddr : Addr32 := 0xE000EDF8

/-- DP register offsets `A[3:2]` by name (R49). -/
def dpAbort : BitVec 2 := 0
def dpCtrlStat : BitVec 2 := 1
def dpSelect : BitVec 2 := 2
def dpRdbuff : BitVec 2 := 3

/-- MEM-AP register addresses, bank 0 (R55 to R57). -/
def apCsw : BitVec 8 := 0x00
def apTar : BitVec 8 := 0x04
def apDrw : BitVec 8 := 0x0C

/-! ## The Load Plan -/

/-- The sections of a plan: its addresses paired with its buffers, in order (R172). -/
def planSections (p : LoadPlan) : List Section :=
  List.zipWith (fun a b => { addr := a, bytes := b.bytes, len := b.len }) p.addrs p.buffers

/-- The words of a section: `s.len / 4` of them, the word `j` of R173 at index `j`. -/
def sectionWords (s : Section) : List Word :=
  wordsOfBytes (s.bytes.take s.len)

def inRegion (a : Nat) (r : Region) : Bool :=
  decide (r.base ≤ a) && decide (a < r.base + r.size)

/-- `legalRange(ramPolicy, addr)` (R79). -/
def legalRange (cfg : Config) (ramPolicy : Bool) (addr : Addr32) : Bool :=
  (if ramPolicy then cfg.legalWhenRam else cfg.legalOtherwise).any (inRegion addr.toNat)

/-- `reachable(addr)` (R172). -/
def reachable (cfg : Config) (addr : Addr32) : Bool :=
  cfg.reachable.any (inRegion addr.toNat)

/-- R172 condition 1: the count equals the number of addresses and of buffers, and each `len` is the length of its
`bytes`. -/
def countsAgree (p : LoadPlan) : Bool :=
  p.count == p.addrs.length && p.count == p.buffers.length
    && p.buffers.all fun b => b.len == b.bytes.length

/-- R172 condition 2: entry and stack pointer are non-zero and reachable. -/
def entryAndSpOk (cfg : Config) (p : LoadPlan) : Bool :=
  p.entry != 0 && p.sp != 0 && reachable cfg p.entry && reachable cfg p.sp

/-- Two sections share a byte address (R172 condition 3). -/
def sectionsOverlap (s t : Section) : Bool :=
  decide (0 < s.len) && decide (0 < t.len)
    && decide (s.addr.toNat < t.addr.toNat + t.len) && decide (t.addr.toNat < s.addr.toNat + s.len)

def sectionsDisjoint : List Section → Bool
  | [] => true
  | s :: rest => rest.all (fun t => !sectionsOverlap s t) && sectionsDisjoint rest

/-- R172 condition 4: address and length are multiples of 4. -/
def sectionAligned (s : Section) : Bool :=
  s.addr.toNat % 4 == 0 && s.len % 4 == 0

/-- R172 condition 5: `addr + len ≤ 2^32`. -/
def sectionFits (s : Section) : Bool :=
  decide (s.addr.toNat + s.len ≤ 4294967296)

/-- R172 condition 6: every byte address of the section is legal under the RAM-policy flag. -/
def sectionLegal (cfg : Config) (ramPolicy : Bool) (s : Section) : Bool :=
  (List.range s.len).all fun i => legalRange cfg ramPolicy (s.addr + BitVec.ofNat 32 i)

/-- `admitted(plan)`: the six conditions of R172. -/
def planAdmitted (cfg : Config) (p : LoadPlan) : Bool :=
  countsAgree p && entryAndSpOk cfg p && sectionsDisjoint (planSections p)
    && (planSections p).all sectionAligned && (planSections p).all sectionFits
    && (planSections p).all (sectionLegal cfg p.ramPolicy)

/-! ## Parameters -/

/-- The parameter ranges whose breach is `BadParam` (R189): the line-reset minima, the burst limit, the poll bounds,
and a CSW value with 32-bit size and single increment. -/
def paramsValid (cfg : Config) : Bool :=
  decide (50 ≤ cfg.lineResetHigh) && decide (2 ≤ cfg.lineResetIdle) && decide (1 ≤ cfg.maxBurstWords)
    && decide (1 ≤ cfg.powerUpPollMax) && decide (1 ≤ cfg.haltPollMax) && decide (1 ≤ cfg.regRdyPollMax)
    && cfg.cswValue.extractLsb' 0 3 == 0b010 && cfg.cswValue.extractLsb' 4 2 == 0b01

end Sys2Proof.Machine
end

