-- ==== Sys2Proof/Machine/Ops.lean ====
section
/-! DEFINITION. The shared operations of the machine: target memory, free values, the three cycle primitives of the
Bit-Level Link (40_link.md R111 to R113), the effects of an acknowledged access on the target-side registers, the
failure entry (60_exceptions.md R186), the fresh session (43_connection_control.md R161), and the sequencing of
operations that may stop. -/

namespace Sys2Proof.Machine

/-! ## Target memory (R62, R67): a canonical list of cells -/

/-- What an unlisted byte of target memory reads as (log 6). -/
def memDefault : Byte := 0

/-- The byte at an address. -/
def readByte : List Host.Cell → Nat → Byte
  | [], _ => memDefault
  | (k, b) :: rest, a => if a = k then b else readByte rest a

/-- Store one byte, keeping the canonical form. -/
def writeByte : List Host.Cell → Nat → Byte → List Host.Cell
  | [], a, v => if v = memDefault then [] else [(a, v)]
  | (k, b) :: rest, a, v =>
    if a < k then (if v = memDefault then (k, b) :: rest else (a, v) :: (k, b) :: rest)
    else if a = k then (if v = memDefault then rest else (a, v) :: rest)
    else (k, b) :: writeByte rest a v

/-- The canonical form from a lower bound on: addresses strictly rising and inside the 32-bit space, no byte listed
that an unlisted address reads as. -/
def cellsFrom : Nat → List Host.Cell → Bool
  | _, [] => true
  | lo, (k, b) :: rest => decide (lo ≤ k) && decide (k < 4294967296) && decide (b ≠ memDefault) && cellsFrom (k + 1) rest

/-- The canonical form of target memory. -/
def Memory.wf (m : List Host.Cell) : Bool := cellsFrom 0 m

/-- The address of byte `k` of the word at `a`, modulo 2^32 (R13, R71). -/
def byteAddr (a : Addr32) (k : Nat) : Nat := (a + BitVec.ofNat 32 k).toNat

/-- `MemRead(a, 4)` (R14), little-endian (R71). -/
def readWord (m : List Host.Cell) (a : Addr32) : Word :=
  wordOfBytes (readByte m (byteAddr a 0)) (readByte m (byteAddr a 1)) (readByte m (byteAddr a 2)) (readByte m (byteAddr a 3))

/-- `MemWrite(a, 4, v)` (R14): DRW bits [8k+7:8k] go to address `a + k` (R71). All four bytes are stored in one transition, as
if by one atomic store (R75, N-atomic): DESIGN CHOICE (log 37). -/
def writeWord (m : List Host.Cell) (a : Addr32) (v : Word) : List Host.Cell :=
  let m := writeByte m (byteAddr a 0) (byteOfWord v 0)
  let m := writeByte m (byteAddr a 1) (byteOfWord v 1)
  let m := writeByte m (byteAddr a 2) (byteOfWord v 2)
  writeByte m (byteAddr a 3) (byteOfWord v 3)

/-! ## Free values -/

/-- The bit the target presents in the next target-driven cycle (R112, R114): the next scripted bit, or, when there is
none, a free value (log 1). -/
def sampleBit (s : State) : Bool × State :=
  match s.targetIn with
  | b :: rest => (b, { s with targetIn := rest })
  | [] => (Config.targetBit s.draws, { s with draws := s.draws + 1 })

/-- A value that the target decides and no rule states (log 8, log 9, log 22, log 27). Its counter is the target's own, so that
what the target holds never changes a bit the engine samples. -/
def drawWord (t : Target) : Word × Target :=
  (Config.targetWord t.draws, { t with draws := t.draws + 1 })

/-! ## Cycle primitives (R110 to R113): `clk` rises and falls within the cycle and rests at 0 -/

/-- `cycleH(b)` (R111). -/
def cycleH (b : Bool) (s : State) : State :=
  { s with
    link := { clk := false, oe := true, dout := b, lastDir := .host }
    trace := s.trace ++ [.h b] }

/-- `cycleT() -> b` (R112). -/
def cycleT (s : State) : Bool × State :=
  let (b, s) := sampleBit s
  (b, { s with
        link := { s.link with clk := false, oe := false, lastDir := .target }
        trace := s.trace ++ [.t b] })

/-- `cycleZ()` (R113). -/
def cycleZ (s : State) : State :=
  { s with
    link := { s.link with clk := false, oe := false, lastDir := .released }
    trace := s.trace ++ [.z] }

/-- A list of host-driven cycles, first element first on the wire. -/
def driveBits : List Bool → State → State
  | [], s => s
  | b :: bs, s => driveBits bs (cycleH b s)

/-- `n` target-driven cycles and the bits sampled, first sampled first. -/
def sampleBits : Nat → State → List Bool × State
  | 0, s => ([], s)
  | n + 1, s =>
    let (b, s) := cycleT s
    let (bs, s) := sampleBits n s
    (b :: bs, s)

/-- `idle(n)` (R116). -/
def idle (n : Nat) (s : State) : State :=
  driveBits (List.replicate n s.cfg.idleLevel) s

/-- A turnaround (R120): `turnaroundCycles` released cycles. No target register changes (log 29). -/
def turnaround (s : State) : State :=
  turnaroundCycles.repeat cycleZ s

/-- A line reset (R96, R121): `lineResetHigh` cycles at 1, then `lineResetIdle` cycles at 0.
No target register changes: DESIGN CHOICE (log 29). -/
def lineReset (s : State) : State :=
  driveBits (List.replicate s.cfg.lineResetHigh true ++ List.replicate s.cfg.lineResetIdle false) s

/-! ## Effects of an acknowledged access on the target-side registers (R76, R131 to R146; log 7) -/

/-- `CSW.Size` is 32-bit (R55). -/
def csw32 (csw : Word) : Bool := csw.extractLsb' 0 3 == 0b010

/-- `CSW.AddrInc` (R55). -/
def cswInc (csw : Word) : BitVec 2 := csw.extractLsb' 4 2

/-- CTRL/STAT fields that a write sets (R52: the RW fields; not the reserved bits [25:24], log 36), the acknowledge bits a
power-up request may set, and the sticky flags STICKYORUN, STICKYCMP, STICKYERR, WDATAERR. -/
def ctrlStatRW : Word := 0x54FFFF0D
def ctrlStatAcks : Word := 0xA8000000
def stickyFlags : Word := 0x000000B2

/-- CSW bits a write does not set (R55: DeviceEn, TrInProg). They keep the value of reset, also when a read of CSW shows
another: DESIGN CHOICE (log 28). -/
def cswRO : Word := 0x000000C0

/-- The bits of `a` where `mask` is 1 and of `b` elsewhere. -/
def merge (mask a b : Word) : Word := (a &&& mask) ||| (b &&& ~~~mask)

/-- The sticky flags an ABORT value clears (R51); DAPABORT, bit 0, changes no register: DESIGN CHOICE (log 30), nor do the
reserved bits [31:5]: DESIGN CHOICE (log 36). -/
def abortMask (v : Word) : Word :=
  let at_ (from_ to_ : Nat) : Word := if v.getLsbD from_ then BitVec.twoPow 32 to_ else 0
  at_ 1 4 ||| at_ 2 5 ||| at_ 3 7 ||| at_ 4 1

/-- CTRL/STAT is the register at DP address 0x4 while SELECT.DPBANKSEL = 0 (R49). -/
def dpBankZero (t : Target) : Bool := t.select.extractLsb' 0 4 == 0

/-- The MEM-AP's bank 0 is selected: SELECT.APSEL = `apsel` and SELECT.APBANKSEL = 0 (R53, R66). -/
def memApSelected (cfg : Config) (t : Target) : Bool :=
  t.select.extractLsb' 24 8 == cfg.apsel && t.select.extractLsb' 4 4 == 0

/-- The core is in Debug state (R208): S_HALT of DHCSR (R59), which is what the last read of DHCSR showed, and a free value
between a DHCSR write and the next read of DHCSR (log 22, log 27). -/
def coreHalted (t : Target) : Bool := t.dhcsrStatus.getLsbD 17

/-- TAR after one DRW access (R56, R210): unchanged with AddrInc off, plus 4 with AddrInc single, 32-bit size and no
block boundary crossed, and otherwise a free value (log 8). With `tarWrapBytes = 0`, a block size the spec neither
gives a meaning nor refuses, no boundary is ever crossed: DESIGN CHOICE (log 25). -/
def advanceTar (cfg : Config) (t : Target) : Target :=
  if cswInc t.csw = 0b00 then t
  else if cswInc t.csw = 0b01 ∧ csw32 t.csw = true
      ∧ t.tar.toNat / cfg.tarWrapBytes = (t.tar.toNat + 4) / cfg.tarWrapBytes then
    { t with tar := t.tar + 4 }
  else
    let (w, t) := drawWord t
    { t with tar := w }

/-- The status bits of DHCSR (R59): S_REGRDY, S_HALT, S_SLEEP, S_LOCKUP, S_RETIRE_ST, S_RESET_ST. -/
def dhcsrStatusBits : Word := 0x030F0000

/-- The status bits in `mask` after a write that changes what the core does (R59, R76): free values until DHCSR is read
again, and a read made before the write no longer shows them (log 27). -/
def freeDhcsrStatus (mask : Word) (t : Target) : Target :=
  let (w, t) := drawWord t
  { t with dhcsrStatus := merge mask w t.dhcsrStatus, dhcsrPosted := false }

/-- A DHCSR write (R59): it takes effect only with DBGKEY = 0xA05F; the control bits take the data, the status bits are
the core's (log 27). A core that the write releases or steps (R170) changes none of its registers 0 to 31, nor DCRSR or DCRDR,
while it runs: DESIGN CHOICE (log 31). Bits [15:4] of the data are dropped: DESIGN CHOICE (log 36). -/
def writeDhcsr (v : Word) (t : Target) : Target :=
  if v.extractLsb' 16 16 = 0xA05F then freeDhcsrStatus dhcsrStatusBits { t with dhcsr := v &&& 0x0000000F } else t

/-- A DCRSR write (R60, R208, R209): effective in Debug state only; with REGWnR = 1 the register REGSEL receives
DCRDR, with REGWnR = 0 DCRDR receives a value no rule states (log 22). No other register changes with the one selected, each
number from 0 to 31 naming a register of its own (R68): DESIGN CHOICE (log 33). The transfer is complete at once (log 22), and
bits [31:17] and [15:5] have no effect: DESIGN CHOICE (log 36). -/
def writeDcrsr (v : Word) (t : Target) : Target :=
  let t := { t with dcrsr := v }
  if coreHalted t then
    if v.getLsbD 16 then { t with coreRegs := t.coreRegs.set (v.extractLsb' 0 5).toNat t.dcrdr }
    else
      let (w, t) := drawWord t
      { t with dcrdr := w }
  else t

/-- A 32-bit store at a target address: the core debug registers at their word addresses (R59 to R61; a DCRSR write starts
a transfer, so S_REGRDY is the core's, R209, log 27), target memory elsewhere (R57, R62; log 24). -/
def storeTarget (a : Addr32) (v : Word) (t : Target) : Target :=
  if a = dhcsrAddr then writeDhcsr v t
  else if a = dcrsrAddr then freeDhcsrStatus sRegRdy (writeDcrsr v t)
  else if a = dcrdrAddr then { t with dcrdr := v }
  else { t with mem := writeWord t.mem a v }

/-- A DRW write (R57, R142): `MemWrite(TAR, 4, v)`, then TAR advances. Under another size than 32-bit the stored word is
a free value (log 8). -/
def writeDrw (cfg : Config) (v : Word) (t : Target) : Target :=
  if csw32 t.csw then advanceTar cfg (storeTarget t.tar v t)
  else
    let (w, t) := drawWord t
    advanceTar cfg (storeTarget t.tar w t)

/-- A CTRL/STAT write (R52, R132): the RW fields take the data; the acknowledge bits are the target's (log 9), the other
read-only bits, READOK among them, stay (log 28), and so do the reserved bits [25:24]: DESIGN CHOICE (log 36). The fields
written do nothing else, and with another DPBANKSEL than 0 (R49) the write changes nothing: DESIGN CHOICE (log 30). -/
def writeCtrlStat (v : Word) (t : Target) : Target :=
  if dpBankZero t then
    let (w, t) := drawWord t
    { t with ctrlStat := merge ctrlStatRW v (merge ctrlStatAcks w t.ctrlStat) }
  else t

/-- The target's effect of a write acknowledged OK, once its data phase is complete (R75, R131 to R134, R139 to R142). A
write at another AP register than CSW, TAR and DRW (R58, R66, R141: 0x08, and BD0 to BD3, CFG, BASE, IDR and every other
register outside bank 0, or another access port) changes no target register and no byte of memory: no source says what
it does, so this is a DESIGN CHOICE (log 26). A CSW write sets every bit but the read-only ones (log 28). An AP write has its
effect whatever CTRL/STAT shows of the power-up acknowledges (R207): DESIGN CHOICE (log 34). Every write has it whatever the
sticky flags show (R203) and at once: DESIGN CHOICE (log 35, log 37). A SELECT write stores all 32 bits, the reserved bits [23:8]
(R53) included: DESIGN CHOICE (log 36). -/
def targetWrite (cfg : Config) (apndp : Bool) (a : BitVec 2) (v : Word) (t : Target) : Target :=
  if apndp then
    if memApSelected cfg t then
      if a = 0 then { t with csw := merge cswRO t.csw v }
      else if a = 1 then { t with tar := v }
      else if a = 3 then writeDrw cfg v t
      else t
    else t
  else
    if a = dpAbort then { t with ctrlStat := t.ctrlStat &&& ~~~(abortMask v) }
    else if a = dpCtrlStat then writeCtrlStat v t
    else if a = dpSelect then { t with select := v }
    else t

/-- The AP access at offset `a` is one of DRW (R57). -/
def reachesDrw (cfg : Config) (a : BitVec 2) (t : Target) : Bool :=
  memApSelected cfg t && a == 3

/-- An AP read starts an access whose result is the target's (R54, R76; log 9); a DRW read is a `MemRead(TAR, 4)` (R57).
READOK (R52) keeps the value that the last read of CTRL/STAT showed: DESIGN CHOICE (log 28). -/
def postRead (cfg : Config) (a : BitVec 2) (t : Target) : Target :=
  let (w, u) := drawWord t
  { u with rdbuff := w, dhcsrPosted := reachesDrw cfg a t && csw32 t.csw && t.tar == dhcsrAddr }

/-- The target's effect of an AP read acknowledged OK (R57, R76, R143 to R146): the access starts, and one of DRW advances
TAR. A read at another AP register than CSW, TAR and DRW (R58, R66, R145: 0x08, and every register outside bank 0 or of
another access port) changes nothing but the pending result: DESIGN CHOICE (log 26). The access starts whatever CTRL/STAT shows
of the power-up acknowledges (R207; log 34) and of the sticky flags (R203; log 35): DESIGN CHOICE. -/
def targetReadAp (cfg : Config) (a : BitVec 2) (t : Target) : Target :=
  if reachesDrw cfg a t then advanceTar cfg (postRead cfg a t) else postRead cfg a t

/-- RDBUFF is known to hold `d` (R54): when it returns a read of DHCSR, the status bits are those of `d` (R59; log 27). No
bit of CTRL/STAT or CSW changes with it (log 28), and no copy of DCRDR, TAR or memory takes `d`, the register or word that was
read included (R61): DESIGN CHOICE (log 32). It is so also when a FAULT was answered to an RDBUFF read before, and `d` is what the
retry returned, of which R153 says only that it is the target's: DESIGN CHOICE (log 27). -/
def showRdbuff (d : Word) (t : Target) : Target :=
  { t with
    rdbuff := d
    dhcsrStatus := if t.dhcsrPosted then d &&& dhcsrStatusBits else t.dhcsrStatus }

/-- A DP read acknowledged OK has no effect on the target (R135 to R138); when its data `d` arrived with the right
parity, the register read is known to hold `d` (log 9), bit 0 of IDCODE being 1 whatever arrived (R50: RAO). -/
def targetReadDp (a : BitVec 2) (d : Word) (t : Target) : Target :=
  if a = 0 then { t with idcode := d ||| 0x00000001 }
  else if a = dpCtrlStat then
    if dpBankZero t then { t with ctrlStat := d } else t
  else if a = dpRdbuff then showRdbuff d t
  else t

/-- The target's side of a read acknowledged OK, once its data phase is complete; `d` is the data that arrived with the
right parity, none otherwise. -/
def targetRead (cfg : Config) (apndp : Bool) (a : BitVec 2) (d : Option Word) (t : Target) : Target :=
  if apndp then targetReadAp cfg a t
  else match d with
    | some d => targetReadDp a d t
    | none => t

/-- A FAULT acknowledge tells of a sticky error (R91, R203) but not of which flag: the four sticky flags are the
target's until CTRL/STAT is read (log 9). `dhcsrPosted` stays: a later RDBUFF read is still taken as the result of the read of
DHCSR (R153): DESIGN CHOICE (log 27). -/
def targetFault (t : Target) : Target :=
  let (w, t) := drawWord t
  { t with ctrlStat := merge stickyFlags w t.ctrlStat }

/-! ## Operations that may stop -/

/-- How an operation ends other than by running to its end (R182): at a `raise Fail`, at the model's one fault, or at
a refusal. -/
inductive Stop where
  | failed
  | fault (f : Fault)
  | refused (r : Refusal)
deriving DecidableEq, Repr

/-- An operation of the engine: it runs on the state and gives a value, or stops. -/
abbrev Engine (α : Type) := EStateM Stop State α

/-- `raise Fail(seq.phase, cause, addr)`, the engine's failure entry (R183, R186): the first failure is kept, RES_OK is
false, and inside a LOAD `load` becomes Failed and `busy` false. Nothing else changes and no cycle is produced. -/
def failEntry (cause : FailCause) (addr : Option Addr32) (s : State) : State :=
  { s with
    sess := { s.sess with failInfo := some (s.sess.failInfo.getD { step := s.seq.phase, cause := cause, addr := addr }) }
    res := { s.res with ok := false }
    load := if s.busy then .failed else s.load
    busy := false }

/-- `raise Fail(...)`: the failure entry, and the end of the command and of every command enclosing it (R186). -/
def raiseFail {α : Type} (cause : FailCause) (addr : Option Addr32) : Engine α :=
  fun s => .error .failed (failEntry cause addr s)

/-- `refuse(reason)` (R189). -/
def refuse {α : Type} (r : Refusal) : Engine α :=
  fun s => .error (.refused r) s

/-- `if bad then refuse(reason)`. -/
def refuseUnless (good : Bool) (r : Refusal) : Engine Unit :=
  if good then pure () else refuse r

/-- `if lastDir = d then fault DirectionHazard` (R115). -/
def checkDir (d : Dir) : Engine Unit :=
  fun s => if s.link.lastDir = d then .error (.fault .directionHazard) s else .ok () s

/-- The outcome of a command (R182): completion, with or without a failure, is a next state. -/
def finish (m : Engine Unit) (s : State) : Host.Outcome State Fault Refusal :=
  match m s with
  | .ok _ t => .next t
  | .error .failed t => .next t
  | .error (.fault f) _ => .fault f
  | .error (.refused r) _ => .refused r

/-! ## Small writes -/

/-- `RES_OK <- ok`. -/
def setOk (ok : Bool) (s : State) : State := { s with res := { s.res with ok := ok } }

/-- `seq.phase <- p` (R44). -/
def setPhase (p : Phase) (s : State) : State := { s with seq := { s.seq with phase := p } }

/-- `conn <- c; seq.phase <- p` (R162). -/
def enterStep (c : Conn) (p : Phase) (s : State) : State :=
  setPhase p { s with sess := { s.sess with conn := c } }

/-- A fresh Session State (R161). The Link, `load`, `selCache` and `nextAddr` are not written (log 15). -/
def freshSession (s : State) : State :=
  { s with
    sess := { s.sess with
      selValid := false
      cswConfigured := false
      stickyCleared := false
      halted := false
      lastCtrlStat := none
      tarValid := false
      burstCount := 0
      failInfo := none
      conn := .idle } }

end Sys2Proof.Machine
end

