-- ==== Sys2Proof/Machine/Fetch.lean ====
section
/-! DEFINITION. How the engine takes its next command: it has no program counter and fetches nothing (R84); after reset
it waits for a command (R198), and a caller issues a command word with its operands (R4, R34, R102; log 3). -/

namespace Sys2Proof.Machine

/-- What the engine finds when it looks for a command. -/
inductive Fetched where
  /-- Nothing is issued: the engine waits. -/
  | waiting
  /-- The command word is refused before any state is looked at (R188). -/
  | refused (r : Refusal)
  /-- The instruction, and the state with its operands placed. -/
  | run (i : Instr) (s : State)

/-- The refusal of a word the decoder rejects. -/
def decodeRefusal : DecodeError → Refusal
  | .reservedCmd => .reservedCmd
  | .malformedRequest => .malformedRequest
  | .noWord => .malformedRequest

/-- The state in which an accepted command runs: it has left the inbox and its operands are in the operand registers. -/
def acceptIssue (c : Issue) (rest : List Issue) (s : State) : State :=
  { s with op := c.operands, inbox := rest }

/-- The next command of the inbox. Parameters out of range are refused first (R189 BadParam: "refused at configuration,
so no command is accepted"; log 18), then a word that is no instruction (R188). -/
def nextCommand (s : State) : Fetched :=
  match s.inbox with
  | [] => .waiting
  | c :: rest =>
    if paramsValid s.cfg then
      match decodeByte c.word with
      | .ok i => .run i (acceptIssue c rest s)
      | .error e => .refused (decodeRefusal e)
    else .refused .badParam

/-- The caller issues one table word as the next command, with the operands that stand in the operand registers. -/
def issueWord (nbits w : Nat) (s : State) : State :=
  { s with inbox := { word := tableByte nbits w, operands := s.op } :: s.inbox }

end Sys2Proof.Machine
end

