-- ==== Sys2Proof/Machine/Link.lean ====
section
/-! DEFINITION. The link commands (40_link.md R115, R117 to R121). The cycles of raw link commands change no target register
and no target memory, a whole exchange put on the wire by them included: the spec is silent there (R205), and this is a
DESIGN CHOICE (log 29). -/

namespace Sys2Proof.Machine

/-- `clockPulse()` (R117): one more cycle of the present drive state; no effect on the target (log 29). -/
def linkClock (s : State) : State :=
  if s.link.oe then cycleH s.link.dout s else cycleZ s

/-- `writeBits(bitSequence)` (R118). Its bits reach no target register, whatever exchange they are part of (R205):
DESIGN CHOICE (log 29). -/
def linkWrite (bits : List Bool) : Engine Unit := do
  checkDir .target
  modify (driveBits bits)

/-- The sampling of `readBits(count)` (R119): `RES_VALUE` for up to 32 bits, the bit list for any number (log 13).
No effect on the target (log 29). -/
def linkSample (n : Nat) (s : State) : State :=
  let (bits, s) := sampleBits n s
  { s with res := { s.res with
      bits := bits
      value := if n ≤ 32 then valLSB 32 bits else s.res.value } }

/-- `readBits(count)` (R119); no effect on the target (log 29). -/
def linkRead (n : Nat) : Engine Unit := do
  checkDir .host
  modify (linkSample n)

/-- `turnaround()` (R120); no effect on the target (log 29). -/
def linkTrn : Engine Unit :=
  modify turnaround

/-- The line reset as a link command (R121); no effect on the target (log 29). -/
def linkLinereset : Engine Unit := do
  checkDir .target
  modify lineReset

/-! ## Meanings -/

/-- LINK_CLOCK (R117). -/
def execLinkClock (s : State) : Host.Outcome State Fault Refusal :=
  .next (linkClock s)

/-- LINK_WRITE (R118). -/
def execLinkWrite (s : State) : Host.Outcome State Fault Refusal :=
  finish (linkWrite s.op.bits) s

/-- LINK_READ (R119). -/
def execLinkRead (s : State) : Host.Outcome State Fault Refusal :=
  finish (linkRead s.op.count) s

/-- LINK_TRN (R120). -/
def execLinkTrn (s : State) : Host.Outcome State Fault Refusal :=
  finish linkTrn s

/-- LINK_LINERESET (R121). -/
def execLinkLinereset (s : State) : Host.Outcome State Fault Refusal :=
  finish linkLinereset s

end Sys2Proof.Machine
end

