-- ==== Sys2Proof/Machine/Packet.lean ====
section
/-! DEFINITION. The Packet Protocol: one request/acknowledge/data exchange (41_packet.md R129), XFER, and the sixteen
wire requests, each executed through it (R131 to R146; log 17). -/

namespace Sys2Proof.Machine

/-- One transaction (R17, R129): the port, the direction, the offset A[3:2], and the data of a write. -/
structure Request where
  apndp : Bool
  rnw : Bool
  a : BitVec 2
  data : Word
deriving DecidableEq, Repr

def Request.readDp (a : BitVec 2) : Request := { apndp := false, rnw := true, a := a, data := 0 }
def Request.writeDp (a : BitVec 2) (v : Word) : Request := { apndp := false, rnw := false, a := a, data := v }
def Request.readAp (a : BitVec 2) : Request := { apndp := true, rnw := true, a := a, data := 0 }
def Request.writeAp (a : BitVec 2) (v : Word) : Request := { apndp := true, rnw := false, a := a, data := v }

/-! ## The phases of an exchange (R129) -/

/-- `REQ` and its eight cycles, then the turnaround to the target. -/
def requestPhase (rq : Request) (s : State) : State :=
  let req := requestByte rq.apndp rq.rnw rq.a
  cycleZ (driveBits (bitsLSB req) { s with dp := { s.dp with req := req } })

/-- The three acknowledge cycles and their class. -/
def ackPhase (s : State) : State :=
  let (bits, s) := sampleBits 3 s
  let ack := valLSB 3 bits
  { s with dp := { s.dp with ack := ack, outcome := classify ack } }

/-- The data phase of a read whose ACK is OK: 32 data bits and parity, with no turnaround before them, then the turnaround
to the host and the idle cycles (R93, R126). -/
def readPhase (rq : Request) (s : State) : State :=
  let (bits, s) := sampleBits 32 s
  let (p, s) := sampleBits 1 s
  let rdata : Word := valLSB 32 bits
  let rpar := p.getD 0 false
  let s := { s with dp := { s.dp with rdata := rdata, rpar := rpar, outcome := readOutcome rdata rpar } }
  let known := if s.dp.outcome = .ok then some rdata else none
  let s := { s with target := targetRead s.cfg rq.apndp rq.a known s.target }
  let s := idle s.cfg.idleCycles (cycleZ s)
  { s with res := { s.res with value := rdata } }

/-- The data phase of a write whose ACK is OK: the turnaround to the host, 32 data bits and parity, then the idle cycles
(R94, R125). The target acts once it has all 33 bits (R75), and has acted wholly before the next exchange: DESIGN CHOICE
(log 37). -/
def writePhase (rq : Request) (s : State) : State :=
  let s := cycleZ s
  let s := { s with dp := { s.dp with wdata := rq.data, wpar := parity32 rq.data } }
  let s := driveBits (bitsLSB rq.data ++ [parity32 rq.data]) s
  let s := { s with target := targetWrite s.cfg rq.apndp rq.a rq.data s.target }
  idle s.cfg.idleAfterWrite s

/-- The end of an exchange whose ACK is not OK: no data phase (R95). -/
def noDataPhase (s : State) : State :=
  let s := idle s.cfg.idleCycles (cycleZ s)
  if s.dp.outcome = .fault then { s with target := targetFault s.target } else s

/-- One exchange (R129), once its checks have passed. -/
def exchange (rq : Request) (s : State) : State :=
  let s := ackPhase (requestPhase rq s)
  let s :=
    if s.dp.outcome = .ok then
      if rq.rnw then readPhase rq s else writePhase rq s
    else noDataPhase s
  setOk (s.dp.outcome == .ok) s

/-- Request 0x99: the DP write at address 0xC, which the engine does not emit (R105). -/
def Request.isDpWriteC (rq : Request) : Bool :=
  !rq.apndp && !rq.rnw && rq.a == 3

/-- `XFER` (R129): the refusal of request 0x99, the direction check, the exchange. -/
def xfer (rq : Request) : Engine Unit := do
  refuseUnless (!rq.isDpWriteC) .dpWrite0xC
  checkDir .target
  modify (exchange rq)

/-! ## Meanings -/

/-- XFER (R129): bits [3:2] of OP_ADDR are the offset (log 14). -/
def execXfer (s : State) : Host.Outcome State Fault Refusal :=
  finish (xfer { apndp := s.op.apndp, rnw := s.op.rnw, a := regOffset s.op.addr, data := s.op.value }) s

/-- DPW0_ABORT, request 0x81 (R131). -/
def execDpw0Abort (s : State) : Host.Outcome State Fault Refusal :=
  finish (xfer (Request.writeDp 0 s.op.value)) s

/-- DPW4_CTRLSTAT, request 0xA9 (R132). -/
def execDpw4Ctrlstat (s : State) : Host.Outcome State Fault Refusal :=
  finish (xfer (Request.writeDp 1 s.op.value)) s

/-- DPW8_SELECT, request 0xB1 (R133). -/
def execDpw8Select (s : State) : Host.Outcome State Fault Refusal :=
  finish (xfer (Request.writeDp 2 s.op.value)) s

/-- DPWC_RESERVED, request 0x99: "a direct command producing it is refused" (R134). -/
def execDpwcReserved (s : State) : Host.Outcome State Fault Refusal :=
  finish (xfer (Request.writeDp 3 s.op.value)) s

/-- DPR0_IDCODE, request 0xA5 (R135). -/
def execDpr0Idcode (s : State) : Host.Outcome State Fault Refusal :=
  finish (xfer (Request.readDp 0)) s

/-- DPR4_CTRLSTAT, request 0x8D (R136). -/
def execDpr4Ctrlstat (s : State) : Host.Outcome State Fault Refusal :=
  finish (xfer (Request.readDp 1)) s

/-- DPR8_RESEND, request 0x95 (R137). -/
def execDpr8Resend (s : State) : Host.Outcome State Fault Refusal :=
  finish (xfer (Request.readDp 2)) s

/-- DPRC_RDBUFF, request 0xBD (R138). -/
def execDprcRdbuff (s : State) : Host.Outcome State Fault Refusal :=
  finish (xfer (Request.readDp 3)) s

/-- APW0_CSW, request 0xA3 (R139). -/
def execApw0Csw (s : State) : Host.Outcome State Fault Refusal :=
  finish (xfer (Request.writeAp 0 s.op.value)) s

/-- APW4_TAR, request 0x8B (R140). -/
def execApw4Tar (s : State) : Host.Outcome State Fault Refusal :=
  finish (xfer (Request.writeAp 1 s.op.value)) s

/-- APW8_RESERVED, request 0x93 (R141). Acknowledged OK it changes nothing on the target: DESIGN CHOICE (log 26). -/
def execApw8Reserved (s : State) : Host.Outcome State Fault Refusal :=
  finish (xfer (Request.writeAp 2 s.op.value)) s

/-- APWC_DRW, request 0xBB (R142). -/
def execApwcDrw (s : State) : Host.Outcome State Fault Refusal :=
  finish (xfer (Request.writeAp 3 s.op.value)) s

/-- APR0_CSW, request 0x87 (R143). -/
def execApr0Csw (s : State) : Host.Outcome State Fault Refusal :=
  finish (xfer (Request.readAp 0)) s

/-- APR4_TAR, request 0xAF (R144). -/
def execApr4Tar (s : State) : Host.Outcome State Fault Refusal :=
  finish (xfer (Request.readAp 1)) s

/-- APR8_RESERVED, request 0xB7 (R145). -/
def execApr8Reserved (s : State) : Host.Outcome State Fault Refusal :=
  finish (xfer (Request.readAp 2)) s

/-- APRC_DRW, request 0x9F (R146). -/
def execAprcDrw (s : State) : Host.Outcome State Fault Refusal :=
  finish (xfer (Request.readAp 3)) s

end Sys2Proof.Machine
end

