-- ==== Sys2Proof/Machine/RegisterAccess.lean ====
section
/-! DEFINITION. The Register Access Layer (42_register_access.md): the WAIT retry, FAULT recovery, the bank cache, the
four register commands, the MEM-AP word helpers and the bounded poll. -/

namespace Sys2Proof.Machine

/-! ## Retry and recovery (R147 to R149) -/

/-- The exchanges of an attempt series with `n` re-issues left (R147). When it ends, `OUTCOME` is WAIT exactly when the
bound was exceeded (the `WAITX` of R147). -/
def attempts (rq : Request) : Nat → Engine Unit
  | 0 => xfer rq
  | n + 1 => do
    xfer rq
    if (← get).dp.outcome = .wait then
      modify fun s => { s with dp := { s.dp with waitCount := s.dp.waitCount + 1 } }
      attempts rq n

/-- `series` (R147). -/
def series (rq : Request) : Engine Unit := do
  modify fun s => { s with dp := { s.dp with waitCount := 0 } }
  attempts rq (← get).cfg.waitRetryMax

/-- A transaction of a recovery: subject to the WAIT policy, not to recovery (R149). -/
def recoveryStep (rq : Request) : Engine Unit := do
  series rq
  match (← get).dp.outcome with
  | .ok => pure ()
  | .wait => raiseFail .waitExhausted none
  | .fault | .proterr => raiseFail .recoveryFailed none

/-- `recover()` (R149): read CTRL/STAT, then clear the sticky flags through ABORT. -/
def recover : Engine Unit := do
  recoveryStep (Request.readDp dpCtrlStat)
  modify fun s => { s with sess := { s.sess with lastCtrlStat := some s.dp.rdata } }
  recoveryStep (Request.writeDp dpAbort abortClear)
  modify fun s => { s with sess := { s.sess with stickyCleared := true } }

/-- `faultRetried <- b` (R32). -/
def setFaultRetried (b : Bool) (s : State) : State :=
  { s with dp := { s.dp with faultRetried := b } }

/-- `transact` (R148): the full policy of a register access. -/
def transact (rq : Request) : Engine Unit := do
  modify (setFaultRetried false)
  series rq
  match (← get).dp.outcome with
  | .ok => pure ()
  | .wait => raiseFail .waitExhausted none
  | .fault | .proterr =>
    recover
    modify (setFaultRetried true)
    series rq
    match (← get).dp.outcome with
    | .ok => pure ()
    | .wait => raiseFail .waitExhausted none
    | .fault | .proterr => raiseFail .faultRepeated none

/-! ## Bank selection (R150) -/

/-- `selCache <- v; selValid <- true`. -/
def cacheSelect (v : Word) (s : State) : State :=
  { s with sess := { s.sess with selCache := v, selValid := true } }

/-- `bankCheck(apAddr)` (R150). -/
def bankCheck (addr : BitVec 8) : Engine Unit := do
  let s ← get
  let want := selectValue s.cfg (apBank addr)
  if !s.sess.selValid || s.sess.selCache != want then
    transact (Request.writeDp dpSelect want)
    modify (cacheSelect want)

/-! ## Register commands (R151 to R155) -/

/-- `RES_VALUE <- RDATA`. -/
def resultFromRdata (s : State) : State :=
  { s with res := { s.res with value := s.dp.rdata } }

/-- `readDP(addr)` (R151). -/
def rdDp (addr : BitVec 8) : Engine Unit := do
  refuseUnless (dpReadAddrOk addr) .badDPAddr
  transact (Request.readDp (regOffset addr))
  modify resultFromRdata
  modify (setOk true)

/-- What `WR_DP` keeps true after its write (R152): the bank cache for SELECT, `stickyCleared` for ABORT. -/
def afterWrDp (addr : BitVec 8) (v : Word) (s : State) : State :=
  if addr = 0x8 then cacheSelect v s
  else if addr = 0x0 then { s with sess := { s.sess with stickyCleared := true } }
  else s

/-- `writeDP(addr, value)` (R152). -/
def wrDp (addr : BitVec 8) (v : Word) : Engine Unit := do
  refuseUnless (dpWriteAddrOk addr) .badDPAddr
  transact (Request.writeDp (regOffset addr) v)
  modify (afterWrDp addr v)
  modify (setOk true)

/-- `readAP(addr)` (R153): the posted read, then its result from RDBUFF (R154). -/
def rdAp (addr : BitVec 8) : Engine Unit := do
  refuseUnless (apAddrOk addr) .badAPAddr
  bankCheck addr
  transact (Request.readAp (regOffset addr))
  transact (Request.readDp dpRdbuff)
  modify resultFromRdata
  modify (setOk true)

/-- `writeAP(addr, value)` (R155). At the reserved address 0x08 the write, acknowledged OK, changes nothing on the target:
DESIGN CHOICE (log 26). -/
def wrAp (addr : BitVec 8) (v : Word) : Engine Unit := do
  refuseUnless (apAddrOk addr) .badAPAddr
  bankCheck addr
  transact (Request.writeAp (regOffset addr) v)
  modify (setOk true)

/-! ## MEM-AP word helpers and polling (R156 to R159) -/

/-- `ENSURE_CSW` (R156). -/
def ensureCsw : Engine Unit := do
  let s ← get
  if !s.sess.cswConfigured then
    wrAp apCsw s.cfg.cswValue
    modify fun s => { s with sess := { s.sess with cswConfigured := true } }

/-- `tarValid <- false`. -/
def forgetTar (s : State) : State :=
  { s with sess := { s.sess with tarValid := false } }

/-- `MEM_WR32 a, v` (R157). -/
def memWr32 (addr : Addr32) (v : Word) : Engine Unit := do
  refuseUnless (memAddrOk addr) .unaligned
  ensureCsw
  wrAp apTar addr
  wrAp apDrw v
  modify forgetTar

/-- `MEM_RD32 a` (R158). -/
def memRd32 (addr : Addr32) : Engine Unit := do
  refuseUnless (memAddrOk addr) .unaligned
  ensureCsw
  wrAp apTar addr
  rdAp apDrw
  modify resultFromRdata
  modify forgetTar

/-- The reads of a poll with `n` left (R159); `v` is the value last read. -/
def pollReads (readOp : Engine Unit) (mask : Word) : Nat → Word → Engine (Bool × Word)
  | 0, v => pure (false, v)
  | n + 1, _ => do
    readOp
    let v := (← get).res.value
    modify fun s => { s with dp := { s.dp with pollCount := s.dp.pollCount + 1 } }
    if v &&& mask = mask then pure (true, v) else pollReads readOp mask n v

/-- `poll(readOp, mask, bound)` (R159). `pause()` produces no cycle and changes no state. -/
def poll (readOp : Engine Unit) (mask : Word) (bound : Nat) : Engine (Bool × Word) := do
  modify fun s => { s with dp := { s.dp with pollCount := 0 } }
  pollReads readOp mask bound 0

/-! ## Meanings -/

/-- RD_DP (R151). -/
def execRdDp (s : State) : Host.Outcome State Fault Refusal :=
  finish (rdDp s.op.addr) s

/-- WR_DP (R152). -/
def execWrDp (s : State) : Host.Outcome State Fault Refusal :=
  finish (wrDp s.op.addr s.op.value) s

/-- RD_AP (R153). -/
def execRdAp (s : State) : Host.Outcome State Fault Refusal :=
  finish (rdAp s.op.addr) s

/-- WR_AP (R155). -/
def execWrAp (s : State) : Host.Outcome State Fault Refusal :=
  finish (wrAp s.op.addr s.op.value) s

/-- MEM_WR32 (R157). -/
def execMemWr32 (s : State) : Host.Outcome State Fault Refusal :=
  finish (memWr32 s.op.value s.op.value2) s

/-- MEM_RD32 (R158). -/
def execMemRd32 (s : State) : Host.Outcome State Fault Refusal :=
  finish (memRd32 s.op.value) s

end Sys2Proof.Machine
end

