-- ==== Sys2Proof/Machine/Connection.lean ====
section
/-! DEFINITION. The Connection Sequencer (43_connection_control.md R161 to R167). -/

namespace Sys2Proof.Machine

/-- Step ActivationSent (R164, R165): the activation bits, the optional multidrop code, the optional second line reset. -/
def sendActivation : Engine Unit := do
  let cfg := (← get).cfg
  linkWrite cfg.activationBits
  match cfg.multidropActivation with
  | some m => linkWrite m
  | none => pure ()
  if cfg.resetAfterActivation then linkLinereset

/-- Step IdCheck (R166). -/
def idCheck : Engine Unit := do
  rdDp 0x0
  let s ← get
  if s.res.value.extractLsb' 0 4 ≠ s.cfg.idLowNibble then
    raiseFail .idMismatch none

/-- Step PowerUp (R167). -/
def powerUp : Engine Unit := do
  wrDp 0x0 abortClear
  wrDp 0x4 powerUpRequest
  let (ok, v) ← poll (rdDp 0x4) powerUpAcks (← get).cfg.powerUpPollMax
  modify fun s => { s with sess := { s.sess with lastCtrlStat := some v } }
  if !ok then raiseFail .pollTimeout none

/-- `CONNECT` (R162): the steps in order, each entered before it runs. -/
def connect : Engine Unit := do
  modify freshSession
  modify (enterStep .lineReset .lineReset)
  linkLinereset
  modify (enterStep .activationSent .activationSent)
  sendActivation
  modify (enterStep .idCheck .idCheck)
  idCheck
  modify (enterStep .powerUp .powerUp)
  powerUp
  modify fun s => { s with sess := { s.sess with conn := .ready } }
  modify (setOk true)

/-- CONNECT (R162). -/
def execConnect (s : State) : Host.Outcome State Fault Refusal :=
  finish connect s

end Sys2Proof.Machine
end

