-- ==== Sys2Proof/Machine/TargetControl.lean ====
section
/-! DEFINITION. Target Control (43_connection_control.md R168 to R170). -/

namespace Sys2Proof.Machine

/-- `halted <- b` (R39). -/
def setHalted (b : Bool) (s : State) : State :=
  { s with sess := { s.sess with halted := b } }

/-- `halt()` (R168). -/
def halt : Engine Unit := do
  modify (setPhase .halt)
  memWr32 dhcsrAddr dhcsrHalt
  let (ok, _) ← poll (memRd32 dhcsrAddr) sHalt (← get).cfg.haltPollMax
  if !ok then raiseFail .pollTimeout none
  modify (setHalted true)
  modify (setOk true)

/-- The step of `SET_REG r` (R169): SetSP, SetPC or SetReg. -/
def setRegPhase (regId : BitVec 5) : Phase :=
  if regId = 13 then .setSP else if regId = 15 then .setPC else .setReg

/-- The poll of the transfer-complete flag (R169). -/
def awaitRegRdy : Engine Unit := do
  let (ok, _) ← poll (memRd32 dhcsrAddr) sRegRdy (← get).cfg.regRdyPollMax
  if !ok then raiseFail .pollTimeout none

/-- `setRegister(regId, value)` (R169). -/
def setReg (regId : BitVec 5) (v : Word) : Engine Unit := do
  modify (setPhase (setRegPhase regId))
  match (← get).cfg.setRegOrder with
  | .selectThenData =>
    memWr32 dcrsrAddr (dcrsrValue regId)
    awaitRegRdy
    memWr32 dcrdrAddr v
  | .dataThenSelect =>
    memWr32 dcrdrAddr v
    memWr32 dcrsrAddr (dcrsrValue regId)
    awaitRegRdy
  modify (setOk true)

/-- `resume()` (R170). -/
def resume : Engine Unit := do
  modify (setPhase .resume)
  memWr32 dhcsrAddr dhcsrResume
  modify (setHalted false)
  modify (setOk true)

/-! ## Meanings -/

/-- HALT (R168). -/
def execHalt (s : State) : Host.Outcome State Fault Refusal :=
  finish halt s

/-- SET_REG (R169). -/
def execSetReg (s : State) : Host.Outcome State Fault Refusal :=
  finish (setReg s.op.regId s.op.value) s

/-- RESUME (R170). -/
def execResume (s : State) : Host.Outcome State Fault Refusal :=
  finish resume s

end Sys2Proof.Machine
end

