-- ==== Sys2Proof/Machine/Loader.lean ====
section
/-! DEFINITION. The Memory Loader and the load operation (44_memory_loader.md R174 to R178). -/

namespace Sys2Proof.Machine

/-- The two passes (R174). -/
inductive PassOp where
  | write
  | verify
deriving DecidableEq, Repr

/-- `tarValid <- true; burstCount <- 0`: a TAR write of the pass (R174). -/
def startBurst (s : State) : State :=
  { s with sess := { s.sess with tarValid := true, burstCount := 0 } }

/-- `tarValid <- false; burstCount <- 0`: TAR tracking at the start of a pass (R174). -/
def startPass (s : State) : State :=
  { s with sess := { s.sess with tarValid := false, burstCount := 0 } }

/-- `nextAddr <- a + 4; burstCount <- burstCount + 1` (R174). -/
def advanceBurst (a : Addr32) (s : State) : State :=
  { s with sess := { s.sess with nextAddr := a + 4, burstCount := s.sess.burstCount + 1 } }

/-- A pass writes TAR before the word at `a`: at the start, at a discontinuity, or when the burst limit is reached
(R174). -/
def needsTar (a : Addr32) (s : State) : Bool :=
  !s.sess.tarValid || a != s.sess.nextAddr || s.sess.burstCount == s.cfg.maxBurstWords

/-- One word of a pass (R174): `w` is the plan's word at address `a`, the word `j` of its section. -/
def passWord (op : PassOp) (j : Nat) (a : Addr32) (w : Word) : Engine Unit := do
  modify fun s => { s with seq := { s.seq with wordIndex := j } }
  if needsTar a (← get) then
    wrAp apTar a
    modify startBurst
  match op with
  | .write => wrAp apDrw w
  | .verify =>
    rdAp apDrw
    if (← get).res.value ≠ w then raiseFail .verifyMismatch (some a)
  modify (advanceBurst a)

/-- The words of a section from index `j` on; word `j` stands at `base + 4j` (R173). -/
def passWords (op : PassOp) (base : Addr32) : Nat → List Word → Engine Unit
  | _, [] => pure ()
  | j, w :: ws => do
    passWord op j (base + BitVec.ofNat 32 (4 * j)) w
    passWords op base (j + 1) ws

/-- The sections of a plan from index `k` on. -/
def passSections (op : PassOp) : Nat → List Section → Engine Unit
  | _, [] => pure ()
  | k, sec :: rest => do
    modify fun s => { s with seq := { s.seq with sectionIndex := k } }
    passWords op sec.addr 0 (sectionWords sec)
    passSections op (k + 1) rest

/-- `pass(plan, op)` (R174). -/
def pass (op : PassOp) (p : LoadPlan) : Engine Unit := do
  ensureCsw
  modify startPass
  passSections op 0 (planSections p)

/-- The write pass (R175). -/
def writeBlocks (p : LoadPlan) : Engine Unit := do
  modify (setPhase .write)
  pass .write p
  modify (setOk true)

/-- The verification pass (R176). -/
def verifyBlocks (p : LoadPlan) : Engine Unit := do
  modify (setPhase .verify)
  pass .verify p
  modify (setOk true)

/-- `load <- l` (R43). -/
def setLoad (l : Load) (s : State) : State := { s with load := l }

/-- `busy <- true; trace <- []; load <- NotConnected` (R177). -/
def beginLoad (s : State) : State :=
  { s with busy := true, trace := [], load := .notConnected }

/-- `load <- Running; busy <- false` (R177). -/
def endLoad (s : State) : State :=
  { s with load := .running, busy := false }

/-- The steps of an accepted load operation, in order (R177). -/
def runLoad (p : LoadPlan) : Engine Unit := do
  modify beginLoad
  connect
  modify (setLoad .connected)
  halt
  modify (setLoad .halted)
  writeBlocks p
  if (← get).cfg.verify then verifyBlocks p
  modify (setLoad .loaded)
  setReg 13 p.sp
  setReg 15 p.entry
  resume
  modify endLoad
  modify (setOk true)

/-- `LOAD plan` (R177): refused while busy (R46), then refused for a plan that is not admitted (R172). -/
def loadPlan (p : LoadPlan) : Engine Unit := do
  let s ← get
  refuseUnless (!s.busy) .reentrant
  refuseUnless (planAdmitted s.cfg p) .badPlan
  runLoad p

/-- A pass issued as a command: its plan must be admitted (R73, R175; log 10). -/
def admittedPlan (p : LoadPlan) : Engine Unit := do
  refuseUnless (planAdmitted (← get).cfg p) .badPlan

/-! ## Meanings -/

/-- LOAD (R177). -/
def execLoad (s : State) : Host.Outcome State Fault Refusal :=
  finish (loadPlan s.op.plan) s

/-- WRITE_BLOCKS (R175). -/
def execWriteBlocks (s : State) : Host.Outcome State Fault Refusal :=
  finish (do admittedPlan s.op.plan; writeBlocks s.op.plan) s

/-- VERIFY_BLOCKS (R176). -/
def execVerifyBlocks (s : State) : Host.Outcome State Fault Refusal :=
  finish (do admittedPlan s.op.plan; verifyBlocks s.op.plan) s

end Sys2Proof.Machine
end

