-- ==== Sys2Proof/Machine/Dispatch.lean ====
section
/-! DEFINITION. The dispatch of an instruction to its meaning, one arm per constructor. -/

namespace Sys2Proof.Machine

def exec (i : Instr) (s : State) : Host.Outcome State Fault Refusal :=
  match i with
  | .dpw0Abort => Sys2Proof.Machine.execDpw0Abort s
  | .dpw4Ctrlstat => Sys2Proof.Machine.execDpw4Ctrlstat s
  | .dpw8Select => Sys2Proof.Machine.execDpw8Select s
  | .dpwcReserved => Sys2Proof.Machine.execDpwcReserved s
  | .dpr0Idcode => Sys2Proof.Machine.execDpr0Idcode s
  | .dpr4Ctrlstat => Sys2Proof.Machine.execDpr4Ctrlstat s
  | .dpr8Resend => Sys2Proof.Machine.execDpr8Resend s
  | .dprcRdbuff => Sys2Proof.Machine.execDprcRdbuff s
  | .apw0Csw => Sys2Proof.Machine.execApw0Csw s
  | .apw4Tar => Sys2Proof.Machine.execApw4Tar s
  | .apw8Reserved => Sys2Proof.Machine.execApw8Reserved s
  | .apwcDrw => Sys2Proof.Machine.execApwcDrw s
  | .apr0Csw => Sys2Proof.Machine.execApr0Csw s
  | .apr4Tar => Sys2Proof.Machine.execApr4Tar s
  | .apr8Reserved => Sys2Proof.Machine.execApr8Reserved s
  | .aprcDrw => Sys2Proof.Machine.execAprcDrw s
  | .linkClock => Sys2Proof.Machine.execLinkClock s
  | .linkWrite => Sys2Proof.Machine.execLinkWrite s
  | .linkRead => Sys2Proof.Machine.execLinkRead s
  | .linkTrn => Sys2Proof.Machine.execLinkTrn s
  | .linkLinereset => Sys2Proof.Machine.execLinkLinereset s
  | .xfer => Sys2Proof.Machine.execXfer s
  | .rdDp => Sys2Proof.Machine.execRdDp s
  | .wrDp => Sys2Proof.Machine.execWrDp s
  | .rdAp => Sys2Proof.Machine.execRdAp s
  | .wrAp => Sys2Proof.Machine.execWrAp s
  | .memWr32 => Sys2Proof.Machine.execMemWr32 s
  | .memRd32 => Sys2Proof.Machine.execMemRd32 s
  | .connect => Sys2Proof.Machine.execConnect s
  | .halt => Sys2Proof.Machine.execHalt s
  | .setReg => Sys2Proof.Machine.execSetReg s
  | .resume => Sys2Proof.Machine.execResume s
  | .load => Sys2Proof.Machine.execLoad s
  | .writeBlocks => Sys2Proof.Machine.execWriteBlocks s
  | .verifyBlocks => Sys2Proof.Machine.execVerifyBlocks s

end Sys2Proof.Machine
end

