-- ==== Sys2Proof/Machine/Step.lean ====
section
/-! DEFINITION. One step of the machine: the engine takes its next command and completes it (R81, R188; log 16). -/

namespace Sys2Proof.Machine

/-- One step. With nothing issued the engine waits: nothing changes (R198). The target keeps its power from step to step, and
with it all that it holds (R197): DESIGN CHOICE (log 38). -/
def step (s : State) : Host.Outcome State Fault Refusal :=
  match nextCommand s with
  | .waiting => .next s
  | .refused r => .refused r
  | .run i t => exec i t

/-- The state with a table word issued as the next command (log 3). -/
def State.withFetchWord (s : State) (nbits w : Nat) : State :=
  issueWord nbits w s

end Sys2Proof.Machine
end

