-- ==== Sys2Proof/WellFormed.lean ====
section
/-! DEFINITION. Which instructions, with which operands, are in the engine's language: the operand checks of
60_exceptions.md R189 and 30_encoding.md R105, R107 in one predicate. `Reentrant` and `BadParam` are no property of
the instruction and its operands and are not here. -/

namespace Sys2Proof

open Machine in
/-- The instruction with these operands is in the engine's language (R105, R107, R189). -/
def Instr.wellFormed (cfg : Config) (op : Operands) : Instr → Bool
  | .dpwcReserved => false
  | .xfer => !(!op.apndp && !op.rnw && regOffset op.addr == 3)
  | .rdDp => dpReadAddrOk op.addr
  | .wrDp => dpWriteAddrOk op.addr
  | .rdAp | .wrAp => apAddrOk op.addr
  | .memWr32 | .memRd32 => memAddrOk op.value
  | .load | .writeBlocks | .verifyBlocks => planAdmitted cfg op.plan
  | .dpw0Abort | .dpw4Ctrlstat | .dpw8Select
  | .dpr0Idcode | .dpr4Ctrlstat | .dpr8Resend | .dprcRdbuff
  | .apw0Csw | .apw4Tar | .apw8Reserved | .apwcDrw
  | .apr0Csw | .apr4Tar | .apr8Reserved | .aprcDrw
  | .linkClock | .linkWrite | .linkRead | .linkTrn | .linkLinereset
  | .connect | .halt | .setReg | .resume => true

end Sys2Proof
end

