-- ==== Sys2Proof/Safety.lean ====
section
/-! DEFINITION. The terms in which claims about the machine are made: the observation of a run (00_scope.md R19), the
wire formats (30_encoding.md R93 to R97), the target's answers, the state an exchange leaves under given answers, the
accesses of the word helpers and passes, and what counts as a safe state. -/

namespace Sys2Proof.Machine

/-! ## The observation of a run (R19, R181) -/

/-- What a run shows: the boolean result, the failure record and the cycle trace (R19). -/
structure Observation where
  result : Bool
  failInfo : Option FailRecord
  trace : List Cycle
deriving DecidableEq, Repr

def observe (s : State) : Observation :=
  { result := s.res.ok, failInfo := s.sess.failInfo, trace := s.trace }

/-- What crosses the caller boundary of a LOAD: one boolean (R181). -/
def callerResult (s : State) : Bool := s.res.ok

/-! ## Wire formats (R86, R93 to R97) -/

def hostCycles (bits : List Bool) : List Cycle := bits.map .h
def targetCycles (bits : List Bool) : List Cycle := bits.map .t

/-- `n` idle cycles (R116). -/
def idleRun (cfg : Config) (n : Nat) : List Cycle := List.replicate n (.h cfg.idleLevel)

/-- The request byte of a transaction on the wire, and the turnaround to the target (R87, R93 to R95). -/
def requestCycles (rq : Request) : List Cycle :=
  hostCycles (bitsLSB (requestByte rq.apndp rq.rnw rq.a)) ++ [.z]

/-- The three acknowledges, first sampled bit first (R91). -/
def okAck : List Bool := [true, false, false]
def waitAck : List Bool := [false, true, false]
def faultAck : List Bool := [false, false, true]

/-- A read exchange with ACK OK (R93); `p` is the parity bit the target sends with the data `d`. -/
def readFrame (cfg : Config) (rq : Request) (d : Word) (p : Bool) : List Cycle :=
  requestCycles rq ++ targetCycles okAck ++ targetCycles (bitsLSB d ++ [p]) ++ [.z] ++ idleRun cfg cfg.idleCycles

/-- A write exchange with ACK OK (R94). -/
def writeFrame (cfg : Config) (rq : Request) : List Cycle :=
  requestCycles rq ++ targetCycles okAck ++ [.z] ++ hostCycles (bitsLSB rq.data ++ [parity32 rq.data])
    ++ idleRun cfg cfg.idleAfterWrite

/-- An exchange whose ACK is not OK (R95). -/
def failFrame (cfg : Config) (rq : Request) (ack : List Bool) : List Cycle :=
  requestCycles rq ++ targetCycles ack ++ [.z] ++ idleRun cfg cfg.idleCycles

/-- A line reset (R96). -/
def lineResetCycles (cfg : Config) : List Cycle :=
  List.replicate cfg.lineResetHigh (.h true) ++ List.replicate cfg.lineResetIdle (.h false)

/-- The activation sequence (R97). -/
def activationCycles (cfg : Config) : List Cycle :=
  hostCycles cfg.activationBits ++ hostCycles (cfg.multidropActivation.getD [])
    ++ (if cfg.resetAfterActivation then lineResetCycles cfg else [])

/-! ## The state an exchange leaves (R129) -/

/-- The link after a released cycle that follows a request: Park, the last request bit, was 1 (R87). -/
def releasedLink : Link := { clk := false, oe := false, dout := true, lastDir := .released }

/-- The link after host-driven cycles, of which the last is `b`. -/
def drivingLink (b : Bool) : Link := { clk := false, oe := true, dout := b, lastDir := .host }

/-- The link after `n` idle cycles. -/
def idledLink (cfg : Config) (n : Nat) (l : Link) : Link :=
  if n = 0 then l else drivingLink cfg.idleLevel

/-- After a read exchange answered OK with data `d` and parity bit `p`; `inp` and `n` are the answers left. -/
def readDone (rq : Request) (d : Word) (p : Bool) (inp : List Bool) (n : Nat) (s : State) : State :=
  { s with
    link := idledLink s.cfg s.cfg.idleCycles releasedLink
    dp := { s.dp with
      req := requestByte rq.apndp rq.rnw rq.a, ack := 0b001, rdata := d, rpar := p
      outcome := if p = parity32 d then .ok else .proterr }
    res := { s.res with value := d, ok := decide (p = parity32 d) }
    trace := s.trace ++ readFrame s.cfg rq d p
    target := targetRead s.cfg rq.apndp rq.a (if p = parity32 d then some d else none) s.target
    targetIn := inp
    draws := n }

/-- After a write exchange answered OK. -/
def writeDone (rq : Request) (inp : List Bool) (n : Nat) (s : State) : State :=
  { s with
    link := idledLink s.cfg s.cfg.idleAfterWrite (drivingLink (parity32 rq.data))
    dp := { s.dp with
      req := requestByte rq.apndp rq.rnw rq.a, ack := 0b001, wdata := rq.data, wpar := parity32 rq.data, outcome := .ok }
    res := { s.res with ok := true }
    trace := s.trace ++ writeFrame s.cfg rq
    target := targetWrite s.cfg rq.apndp rq.a rq.data s.target
    targetIn := inp
    draws := n }

/-- After an exchange whose acknowledge bits `ack` are not OK. -/
def failDone (rq : Request) (ack : List Bool) (inp : List Bool) (n : Nat) (s : State) : State :=
  { s with
    link := idledLink s.cfg s.cfg.idleCycles releasedLink
    dp := { s.dp with
      req := requestByte rq.apndp rq.rnw rq.a, ack := valLSB 3 ack, outcome := classify (valLSB 3 ack) }
    res := { s.res with ok := false }
    trace := s.trace ++ failFrame s.cfg rq ack
    target := if classify (valLSB 3 ack) = .fault then targetFault s.target else s.target
    targetIn := inp
    draws := n }

/-! ## Exchanges with their answers -/

/-- A transaction and what the target answers to one exchange of it: the three acknowledge bits, and the data and parity
bit it sends when a read is acknowledged OK. -/
structure Access where
  rq : Request
  ack : List Bool
  answer : Word
  parity : Bool
deriving DecidableEq, Repr

/-- The bits the target presents. -/
def Access.bits (a : Access) : List Bool :=
  if a.ack = okAck ∧ a.rq.rnw = true then a.ack ++ (bitsLSB a.answer ++ [a.parity]) else a.ack

/-- The cycles of the exchange (R93 to R95). -/
def Access.cycles (cfg : Config) (a : Access) : List Cycle :=
  if a.ack = okAck then
    if a.rq.rnw then readFrame cfg a.rq a.answer a.parity else writeFrame cfg a.rq
  else failFrame cfg a.rq a.ack

/-- The effect on the target: only an exchange acknowledged OK has one, but a FAULT may change the sticky flags. -/
def Access.onTarget (cfg : Config) (t : Target) (a : Access) : Target :=
  if a.ack = okAck then
    if a.rq.rnw then targetRead cfg a.rq.apndp a.rq.a (if a.parity = parity32 a.answer then some a.answer else none) t
    else targetWrite cfg a.rq.apndp a.rq.a a.rq.data t
  else if a.ack = faultAck then targetFault t
  else t

/-- The outcome of the exchange (R126, R127, R129). -/
def Access.outcome (a : Access) : AckOutcome :=
  if a.ack = okAck then
    if a.rq.rnw then readOutcome a.answer a.parity else .ok
  else classify (valLSB 3 a.ack)

/-- The state after the exchange; `inp` and `n` are the answers left. -/
def Access.done (a : Access) (inp : List Bool) (n : Nat) (s : State) : State :=
  if a.ack = okAck then
    if a.rq.rnw then readDone a.rq a.answer a.parity inp n s else writeDone a.rq inp n s
  else failDone a.rq a.ack inp n s

def answerBits (as : List Access) : List Bool := as.flatMap Access.bits
def wireCycles (cfg : Config) (as : List Access) : List Cycle := as.flatMap (Access.cycles cfg)
def targetAfter (cfg : Config) (as : List Access) (t : Target) : Target := as.foldl (Access.onTarget cfg) t

/-- A write answered OK. -/
def Access.write (rq : Request) : Access := { rq := rq, ack := okAck, answer := 0, parity := false }

/-- A read answered OK with data `d` and its parity. -/
def Access.read (rq : Request) (d : Word) : Access := { rq := rq, ack := okAck, answer := d, parity := parity32 d }

/-- An exchange answered WAIT. -/
def Access.waiting (rq : Request) : Access := { rq := rq, ack := waitAck, answer := 0, parity := false }

/-- `a` is answered FAULT, malformed, or with wrong parity (R126, R148). -/
def Access.broken (a : Access) : Prop :=
  a.ack.length = 3 ∧ (a.outcome = .fault ∨ a.outcome = .proterr)

/-- The SELECT write of the bank check before an access to AP register `addr`, if the cache calls for one (R150). -/
def bankAccesses (cfg : Config) (ss : Session) (addr : BitVec 8) : List Access :=
  if ss.selValid ∧ ss.selCache = selectValue cfg (apBank addr) then []
  else [Access.write (Request.writeDp dpSelect (selectValue cfg (apBank addr)))]

/-- The session after an access to AP register `addr` (R150). -/
def withBank (cfg : Config) (ss : Session) (addr : BitVec 8) : Session :=
  { ss with selValid := true, selCache := selectValue cfg (apBank addr) }

/-- `a` after `k` answers WAIT to its transaction (R147). -/
def Access.waited (k : Nat) (a : Access) : List Access := List.replicate k (Access.waiting a.rq) ++ [a]

/-- One answer WAIT more than the bound lets the engine re-issue (R147). -/
def waitedOut (cfg : Config) (rq : Request) : List Access := List.replicate (1 + cfg.waitRetryMax) (Access.waiting rq)

/-! ## The register commands (R151 to R155) -/

/-- The accesses of a register command whose reads are answered with `posted`, the posted read of `RD_AP`, and `v`, the last
read: the bank check before an AP access, then the command's own transactions. -/
def commandAccesses (cfg : Config) (op : Operands) (ss : Session) (posted v : Word) : Instr → List Access
  | .rdDp => [Access.read (Request.readDp (regOffset op.addr)) v]
  | .wrDp => [Access.write (Request.writeDp (regOffset op.addr) op.value)]
  | .rdAp => bankAccesses cfg ss op.addr
      ++ [Access.read (Request.readAp (regOffset op.addr)) posted, Access.read (Request.readDp dpRdbuff) v]
  | .wrAp => bankAccesses cfg ss op.addr ++ [Access.write (Request.writeAp (regOffset op.addr) op.value)]
  | _ => []

/-- The session after a register command (R150, R152). -/
def commandSession (cfg : Config) (op : Operands) (ss : Session) : Instr → Session
  | .wrDp =>
    if op.addr = 0x0 then { ss with stickyCleared := true }
    else if op.addr = 0x8 then { ss with selCache := op.value, selValid := true } else ss
  | .rdAp | .wrAp => withBank cfg ss op.addr
  | _ => ss

/-- The session in which a register command makes a transaction, when `before` are its accesses before it: after the first of
an AP access's the bank is checked (R150). -/
def sessionBefore (cfg : Config) (op : Operands) (ss : Session) (before : List Access) : Session :=
  if before = [] then ss else withBank cfg ss op.addr

/-- The session after a recovery that read CTRL/STAT as `ctrl` (R149). -/
def recovered (ctrl : Word) (ss : Session) : Session := { ss with lastCtrlStat := some ctrl, stickyCleared := true }

/-- The accesses of a recovery (R149) that reads CTRL/STAT as `ctrl`, after `j` and `k` answers WAIT to its two transactions. -/
def recovery (ctrl : Word) (j k : Nat) : List Access :=
  (Access.read (Request.readDp dpCtrlStat) ctrl).waited j ++ (Access.write (Request.writeDp dpAbort 0x0000001E)).waited k

/-- The accesses of `ENSURE_CSW` (R156). -/
def cswAccesses (cfg : Config) (ss : Session) : List Access :=
  if ss.cswConfigured then []
  else bankAccesses cfg ss apCsw ++ [Access.write (Request.writeAp 0 cfg.cswValue)]

/-- The session after `ENSURE_CSW` (R156). -/
def withCsw (cfg : Config) (ss : Session) : Session :=
  if ss.cswConfigured then ss else { withBank cfg ss apCsw with cswConfigured := true }

/-- The session after `MEM_WR32` or `MEM_RD32` (R157, R158). -/
def afterMem (cfg : Config) (ss : Session) : Session :=
  { withBank cfg (withCsw cfg ss) apTar with tarValid := false }

/-- The accesses of `MEM_WR32 a, v` (R157). -/
def memWriteAccesses (cfg : Config) (ss : Session) (a : Addr32) (v : Word) : List Access :=
  cswAccesses cfg ss ++ bankAccesses cfg (withCsw cfg ss) apTar
    ++ [Access.write (Request.writeAp 1 a), Access.write (Request.writeAp 3 v)]

/-- The accesses of `MEM_RD32 a`: the posted read is answered `posted`, RDBUFF `v` (R154, R158). -/
def memReadAccesses (cfg : Config) (ss : Session) (a : Addr32) (posted v : Word) : List Access :=
  cswAccesses cfg ss ++ bankAccesses cfg (withCsw cfg ss) apTar
    ++ [Access.write (Request.writeAp 1 a), Access.read (Request.readAp 3) posted, Access.read (Request.readDp dpRdbuff) v]

/-- Reads of DHCSR by a poll, each answered (posted, value), in a session with CSW and bank set (R159). -/
def pollAccesses (cfg : Config) (ss : Session) : List (Word × Word) → List Access
  | [] => []
  | (p, v) :: rest => memReadAccesses cfg ss dhcsrAddr p v ++ pollAccesses cfg (afterMem cfg ss) rest

/-- From `s` to `t` the engine produced exactly the cycles `wire`, left the target as `tgt` and used the answers up to
`rest`; it wrote no parameter, operand register, waiting command or bit list, and drew no free bit. -/
structure Ran (wire : List Cycle) (tgt : Target) (rest : List Bool) (s t : State) : Prop where
  cfg : t.cfg = s.cfg
  op : t.op = s.op
  inbox : t.inbox = s.inbox
  bits : t.res.bits = s.res.bits
  trace : t.trace = s.trace ++ wire
  target : t.target = tgt
  answers : t.targetIn = rest
  draws : t.draws = s.draws
  turned : t.link.lastDir ≠ .target

/-- The accesses of `SET_REG` (R169) in the order of the parameter; `reads` are the answers of the register-ready poll. -/
def setRegAccesses (cfg : Config) (ss : Session) (r : BitVec 5) (v : Word) (reads : List (Word × Word)) : List Access :=
  match cfg.setRegOrder with
  | .selectThenData => memWriteAccesses cfg ss dcrsrAddr (dcrsrValue r)
      ++ (pollAccesses cfg (afterMem cfg ss) reads ++ memWriteAccesses cfg (afterMem cfg ss) dcrdrAddr v)
  | .dataThenSelect => memWriteAccesses cfg ss dcrdrAddr v
      ++ (memWriteAccesses cfg (afterMem cfg ss) dcrsrAddr (dcrsrValue r) ++ pollAccesses cfg (afterMem cfg ss) reads)

/-- The accesses of a `SET_REG` whose poll reads `reads` without seeing the flag: under the source's order DCRDR is not
written (R169). -/
def setRegTimeoutAccesses (cfg : Config) (ss : Session) (r : BitVec 5) (v : Word) (reads : List (Word × Word)) : List Access :=
  match cfg.setRegOrder with
  | .selectThenData => memWriteAccesses cfg ss dcrsrAddr (dcrsrValue r) ++ pollAccesses cfg (afterMem cfg ss) reads
  | .dataThenSelect => memWriteAccesses cfg ss dcrdrAddr v
      ++ (memWriteAccesses cfg (afterMem cfg ss) dcrsrAddr (dcrsrValue r) ++ pollAccesses cfg (afterMem cfg ss) reads)

/-- The accesses of `CONNECT` after the activation (R166, R167): IDCODE is read as `id`, then the sticky clear and the
power-up request are written, then CTRL/STAT is read as `reads`. -/
def connectAccesses (id : Word) (reads : List Word) : List Access :=
  Access.read (Request.readDp 0) id :: Access.write (Request.writeDp dpAbort abortClear)
    :: Access.write (Request.writeDp dpCtrlStat powerUpRequest) :: reads.map (Access.read (Request.readDp dpCtrlStat))

/-- The session of a `CONNECT` that ended in Ready, whose last CTRL/STAT read gave `v` (R161, R167). -/
def connectedSession (ss : Session) (v : Word) : Session :=
  { ss with
    selValid := false
    cswConfigured := false
    stickyCleared := true
    halted := false
    lastCtrlStat := some v
    tarValid := false
    burstCount := 0
    conn := .ready
    failInfo := none }

/-! ## The words of a plan (R173, R174) -/

/-- The words of a section with their target addresses, from word index `j` on. -/
def wordsAt (base : Addr32) : Nat → List Word → List (Addr32 × Word)
  | _, [] => []
  | j, w :: ws => (base + BitVec.ofNat 32 (4 * j), w) :: wordsAt base (j + 1) ws

/-- Every word of a plan with its target address, in plan order (R173, R174). -/
def planWords (p : LoadPlan) : List (Addr32 × Word) :=
  (planSections p).flatMap fun s => wordsAt s.addr 0 (sectionWords s)

/-- TAR is known to hold `a` and the burst limit is not reached: the pass writes no TAR before the word at `a` (R174). -/
abbrev tarKnown (cfg : Config) (ss : Session) (a : Addr32) : Prop :=
  ss.tarValid = true ∧ ss.nextAddr = a ∧ ss.burstCount ≠ cfg.maxBurstWords

/-- The session once TAR holds the address `a` of the next word of a pass (R174). -/
def tarSession (cfg : Config) (ss : Session) (a : Addr32) : Session :=
  if tarKnown cfg ss a then withBank cfg ss apDrw else { withBank cfg ss apTar with tarValid := true, burstCount := 0 }

/-- The session after the word at `a` of a pass (R174). -/
def wordSession (cfg : Config) (ss : Session) (a : Addr32) : Session :=
  { tarSession cfg ss a with nextAddr := a + 4, burstCount := (tarSession cfg ss a).burstCount + 1 }

/-- The session after words of a pass. -/
def wordsSession (cfg : Config) (ss : Session) (ws : List (Addr32 × Word)) : Session :=
  ws.foldl (fun ss w => wordSession cfg ss w.1) ss

/-- The TAR write before the word at `a`, if the pass makes one, with the bank check of the first access (R150, R174). -/
def tarAccesses (cfg : Config) (ss : Session) (a : Addr32) : List Access :=
  if tarKnown cfg ss a then bankAccesses cfg ss apDrw
  else bankAccesses cfg ss apTar ++ [Access.write (Request.writeAp 1 a)]

/-- The accesses of the words of a write pass (R174). -/
def writeWordAccesses (cfg : Config) : Session → List (Addr32 × Word) → List Access
  | _, [] => []
  | ss, (a, w) :: rest =>
    tarAccesses cfg ss a ++ Access.write (Request.writeAp 3 w) :: writeWordAccesses cfg (wordSession cfg ss a) rest

/-- The accesses of the words of a verification pass that reads back the words given with each address, from the pass's
word `k` on; `posted k` is the data of the posted read of its word `k` (R146, R154, R174, R176). -/
def verifyWordAccesses (posted : Nat → Word) (cfg : Config) : Nat → Session → List (Addr32 × Word) → List Access
  | _, _, [] => []
  | k, ss, (a, w) :: rest =>
    tarAccesses cfg ss a ++ Access.read (Request.readAp 3) (posted k) :: Access.read (Request.readDp dpRdbuff) w
      :: verifyWordAccesses posted cfg (k + 1) (wordSession cfg ss a) rest

/-- The step and position a pass leaves (R44, R174): the last section, and the last word of the last section that has a
word; a plan without one leaves the index alone. -/
def passPosition (p : LoadPlan) (q : Sequencer) : Sequencer :=
  { q with
    sectionIndex := if planSections p = [] then q.sectionIndex else (planSections p).length - 1
    wordIndex := (((planSections p).filter fun sec => sectionWords sec ≠ []).getLast?.map
      fun sec => (sectionWords sec).length - 1).getD q.wordIndex }

/-- The session in which the words of a pass begin (R174). -/
def passSession (cfg : Config) (ss : Session) : Session :=
  { withCsw cfg ss with tarValid := false, burstCount := 0 }

/-- No burst crosses a block of the target's TAR auto-increment (R210): a word written without a TAR write lies in the
block of the word before it. -/
def burstsStay (cfg : Config) : Session → List (Addr32 × Word) → Prop
  | _, [] => True
  | ss, (a, _) :: rest =>
    (tarKnown cfg ss a → (a - 4).toNat / cfg.tarWrapBytes = ((a - 4).toNat + 4) / cfg.tarWrapBytes)
      ∧ burstsStay cfg (wordSession cfg ss a) rest

/-- No burst of a pass over the plan crosses a block (R210). -/
def planStays (cfg : Config) (p : LoadPlan) : Prop :=
  burstsStay cfg (passSession cfg Session.reset) (planWords p)

/-- No word of the plan stands at a core debug register: every word goes to target memory (R59 to R62). -/
def planInMemory (p : LoadPlan) : Prop :=
  ∀ w ∈ planWords p, w.1 ≠ dhcsrAddr ∧ w.1 ≠ dcrsrAddr ∧ w.1 ≠ dcrdrAddr

/-- Target memory after `MemWrite(a, 4, w)` for each word, in order (R175). -/
def storeWords (m : List Host.Cell) (ws : List (Addr32 × Word)) : List Host.Cell :=
  ws.foldl (fun m w => writeWord m w.1 w.2) m

/-! ## The load operation (R177) -/

/-- What the target answers in a load operation in which every exchange is answered OK at once: the data of every read. The
early reads of a poll do not show its bits, the last one does. -/
structure LoadAnswers where
  idcode : Word
  powerUp : List Word
  powerUpLast : Word
  halt : List (Word × Word)
  haltLast : Word × Word
  /-- Data of the posted read of each word of the verification pass. -/
  posted : Nat → Word
  sp : List (Word × Word)
  spLast : Word × Word
  pc : List (Word × Word)
  pcLast : Word × Word

/-- The identification matches and every poll sees its bits within its bound (R159, R166 to R169). -/
structure LoadAnswers.Good (cfg : Config) (r : LoadAnswers) : Prop where
  id : r.idcode.extractLsb' 0 4 = cfg.idLowNibble
  powerUpEarly : ∀ v ∈ r.powerUp, v &&& powerUpAcks ≠ powerUpAcks
  powerUpSeen : r.powerUpLast &&& powerUpAcks = powerUpAcks
  powerUpBound : r.powerUp.length < cfg.powerUpPollMax
  haltEarly : ∀ v ∈ r.halt, v.2 &&& sHalt ≠ sHalt
  haltSeen : r.haltLast.2 &&& sHalt = sHalt
  haltBound : r.halt.length < cfg.haltPollMax
  spEarly : ∀ v ∈ r.sp, v.2 &&& sRegRdy ≠ sRegRdy
  spSeen : r.spLast.2 &&& sRegRdy = sRegRdy
  spBound : r.sp.length < cfg.regRdyPollMax
  pcEarly : ∀ v ∈ r.pc, v.2 &&& sRegRdy ≠ sRegRdy
  pcSeen : r.pcLast.2 &&& sRegRdy = sRegRdy
  pcBound : r.pc.length < cfg.regRdyPollMax

/-- The sessions after `CONNECT`, `HALT`, the write pass, the passes, and the two register writes of a load operation. -/
def LoadAnswers.connected (r : LoadAnswers) (ss : Session) : Session := connectedSession ss r.powerUpLast
def LoadAnswers.afterHalt (cfg : Config) (r : LoadAnswers) (ss : Session) : Session :=
  { afterMem cfg (r.connected ss) with halted := true }
def LoadAnswers.written (cfg : Config) (p : LoadPlan) (r : LoadAnswers) (ss : Session) : Session :=
  wordsSession cfg (passSession cfg (r.afterHalt cfg ss)) (planWords p)
def LoadAnswers.loaded (cfg : Config) (p : LoadPlan) (r : LoadAnswers) (ss : Session) : Session :=
  if cfg.verify then wordsSession cfg (passSession cfg (r.written cfg p ss)) (planWords p) else r.written cfg p ss
def LoadAnswers.ready (cfg : Config) (p : LoadPlan) (r : LoadAnswers) (ss : Session) : Session :=
  afterMem cfg (r.loaded cfg p ss)

/-- The accesses of a load operation, in the order of R177: `CONNECT`, `HALT`, the write pass, the verification pass when
enabled, the stack pointer, then the program counter, then the release of the core. -/
def loadAccesses (cfg : Config) (p : LoadPlan) (r : LoadAnswers) (ss : Session) : List Access :=
  connectAccesses r.idcode (r.powerUp ++ [r.powerUpLast])
    ++ (memWriteAccesses cfg (r.connected ss) dhcsrAddr dhcsrHalt
        ++ pollAccesses cfg (afterMem cfg (r.connected ss)) (r.halt ++ [r.haltLast]))
    ++ (cswAccesses cfg (r.afterHalt cfg ss) ++ writeWordAccesses cfg (passSession cfg (r.afterHalt cfg ss)) (planWords p))
    ++ (if cfg.verify then cswAccesses cfg (r.written cfg p ss)
          ++ verifyWordAccesses r.posted cfg 0 (passSession cfg (r.written cfg p ss)) (planWords p)
        else [])
    ++ setRegAccesses cfg (r.loaded cfg p ss) 13 p.sp (r.sp ++ [r.spLast])
    ++ setRegAccesses cfg (r.ready cfg p ss) 15 p.entry (r.pc ++ [r.pcLast])
    ++ memWriteAccesses cfg (r.ready cfg p ss) dhcsrAddr dhcsrResume

/-! ## Which instruction does what, for claims over several instructions -/

/-- The transaction of a wire request (R131 to R146) or of `XFER` (R129); no other instruction is one exchange. -/
def wireRequest (op : Operands) (i : Instr) : Option Request :=
  if i = .xfer then some { apndp := op.apndp, rnw := op.rnw, a := regOffset op.addr, data := op.value }
  else i.requestFields.map fun f => { apndp := f.1, rnw := f.2.1, a := f.2.2, data := op.value }

/-- A command above the packet layer: it reports its failure in `RES_OK` and `failInfo` (R182, R186). -/
def Layered (i : Instr) : Prop :=
  i ∈ [Instr.rdDp, .wrDp, .rdAp, .wrAp, .memWr32, .memRd32, .connect, .halt, .setReg, .resume, .load, .writeBlocks, .verifyBlocks]

/-- The step a command of Target Control or of the Memory Loader enters (R44); another command changes no step. -/
def phaseOf (op : Operands) (p : Phase) : Instr → Phase
  | .halt => .halt
  | .setReg => setRegPhase op.regId
  | .resume => .resume
  | .writeBlocks => .write
  | .verifyBlocks => .verify
  | .connect => .powerUp
  | .load => .resume
  | _ => p

/-- Every byte of `m'` reads as in `m`. -/
def SameBytes (m m' : List Host.Cell) : Prop :=
  ∀ a, readByte m' a = readByte m a

/-- Every byte outside the word at `a` reads as before. -/
def SameBytesBut (a : Addr32) (m m' : List Host.Cell) : Prop :=
  ∀ b, (∀ k < 4, b ≠ byteAddr a k) → readByte m' b = readByte m b

/-- The bytes of the words of a plan. -/
def inPlan (p : LoadPlan) (b : Nat) : Prop :=
  ∃ w ∈ planWords p, ∃ k < 4, b = byteAddr w.1 k

/-- The address a transaction stores to, when it is a DRW write that reaches the MEM-AP (R57, R142): the address in TAR. -/
def storeAddr (cfg : Config) (rq : Request) (t : Target) : Option Addr32 :=
  if rq.apndp = true ∧ rq.rnw = false ∧ rq.a = 3 ∧ memApSelected cfg t = true then some t.tar else none

/-- The core's debug registers and registers are as before (R59 to R61, R68); of DHCSR the control bits, since its status
bits are the core's (log 27). That the core does not change them while it runs is the model's choice (log 31). -/
def SameCoreRegs (t t' : Target) : Prop :=
  t'.dhcsr = t.dhcsr ∧ t'.dcrsr = t.dcrsr ∧ t'.dcrdr = t.dcrdr ∧ t'.coreRegs = t.coreRegs

/-! ## What the engine puts on the wire -/

/-- One unit of what the layered commands put on the wire: a line reset (R96), the activation bits or the multidrop code
(R97), or one exchange (R93 to R95) with a request that is not 0x99 (R105), whatever the target answers in it. -/
inductive Segment (cfg : Config) : List Cycle → Prop where
  | lineReset : Segment cfg (lineResetCycles cfg)
  | activation (bits : List Bool) (h : bits = cfg.activationBits ∨ cfg.multidropActivation = some bits) :
      Segment cfg (hostCycles bits)
  | exchange (a : Access) (h : a.ack.length = 3) (hc : a.rq.isDpWriteC = false) : Segment cfg (a.cycles cfg)

/-! ## The plans that a load operation admits (R172) -/

/-- An address lies in one of some regions (R79, R172). -/
def InRegions (rs : List Region) (a : Nat) : Prop := ∃ r ∈ rs, r.base ≤ a ∧ a < r.base + r.size

/-- The six conditions of R172, on the arguments of the entry point; a section is an address with its buffer. -/
structure Admits (cfg : Config) (p : LoadPlan) : Prop where
  countAddrs : p.count = p.addrs.length
  countBuffers : p.count = p.buffers.length
  lengths : ∀ b ∈ p.buffers, b.len = b.bytes.length
  entry : p.entry ≠ 0 ∧ InRegions cfg.reachable p.entry.toNat
  sp : p.sp ≠ 0 ∧ InRegions cfg.reachable p.sp.toNat
  apart : (p.addrs.zip p.buffers).Pairwise fun s t => ∀ i < s.2.len, ∀ j < t.2.len, s.1.toNat + i ≠ t.1.toNat + j
  aligned : ∀ s ∈ p.addrs.zip p.buffers, s.1.toNat % 4 = 0 ∧ s.2.len % 4 = 0
  fits : ∀ s ∈ p.addrs.zip p.buffers, s.1.toNat + s.2.len ≤ 2 ^ 32
  legal : ∀ s ∈ p.addrs.zip p.buffers, ∀ i < s.2.len,
    InRegions (if p.ramPolicy then cfg.legalWhenRam else cfg.legalOtherwise) (s.1.toNat + i)

/-! ## Safe states -/

/-- Who drives SWDIO in a cycle. -/
def Cycle.dir : Cycle → Dir
  | .h _ => .host
  | .t _ => .target
  | .z => .released

/-- A host-driven and a target-driven cycle never stand next to each other: a turnaround separates every change of
driver (R115, R130, R201). -/
def wellTurned : List Cycle → Bool
  | a :: b :: rest =>
    !(a.dir == .host && b.dir == .target) && !(a.dir == .target && b.dir == .host) && wellTurned (b :: rest)
  | _ => true

/-- The link state agrees with the trace: SWCLK rests at 0 (R21), the host drives SWDIO exactly after a host-driven cycle
(R22), `lastDir` is the driver of the last cycle (R24), and the trace keeps the turnaround rule (R201). -/
structure LinkSafe (s : State) : Prop where
  clkRests : s.link.clk = false
  drives : s.link.oe = true ↔ s.link.lastDir = .host
  lastDriver : ∀ c, s.trace.getLast? = some c → c.dir = s.link.lastDir
  turned : wellTurned s.trace = true

/-- The iteration counters stay within their bounds (R31, R33, R193). -/
structure CountersSafe (s : State) : Prop where
  wait : s.dp.waitCount ≤ s.cfg.waitRetryMax
  poll : s.dp.pollCount ≤ s.cfg.powerUpPollMax ∨ s.dp.pollCount ≤ s.cfg.haltPollMax ∨ s.dp.pollCount ≤ s.cfg.regRdyPollMax
  burst : s.sess.burstCount ≤ s.cfg.maxBurstWords

/-- Between commands no load operation is in progress, and `load` is at a state in which one starts or ends (R43, R46,
R178). -/
structure LoadSafe (s : State) : Prop where
  notBusy : s.busy = false
  atRest : s.load = .notConnected ∨ s.load = .running ∨ s.load = .failed

/-- The target's memory is canonical, it has its 32 core registers, and bit 0 of IDCODE reads 1 (R50, R62, R68). -/
structure TargetSafe (s : State) : Prop where
  rao : s.target.idcode.getLsbD 0 = true
  memory : Memory.wf s.target.mem = true
  registers : s.target.coreRegs.length = 32

/-- The MEM-AP transfers 32-bit words with single increment once the session has written CSW (R37, R156, R206). -/
def CswTrue (s : State) : Prop :=
  s.sess.cswConfigured = true → csw32 s.target.csw = true ∧ cswInc s.target.csw = 0b01

/-- The bank cache, when valid, holds what the target's SELECT holds (R36, R205). -/
def BankCacheTrue (s : State) : Prop :=
  s.sess.selValid = true → s.target.select = s.sess.selCache

/-- `REQ` holds its reset value or a request byte the engine may emit: one of R87 other than 0x99 (R88, R105). -/
def RequestSafe (s : State) : Prop :=
  s.dp.req = 0 ∨ ∃ apndp rnw a, s.dp.req = requestByte apndp rnw a ∧ s.dp.req ≠ 0x99

end Sys2Proof.Machine
end

