-- ==== Sys2Proof/Certificates/Slice0/Obligations.lean ====
section
/-! DEFINITION. The statements for the provers, in the order of OBLIGATIONS.json. "Turned" means that the last cycle was not
target-driven, the condition under which host-driven cycles may start (R115). A script is a value of `targetIn`: the bits the target
presents; a statement without a script holds for every answer of the target, scripted or free. What an acknowledged exchange does to
the target's registers and memory is the model's (log 7 to log 9, log 22, log 24 to log 28, log 30 to log 38): among these, that the
target keeps its power (log 38), that the core's registers do not change while it runs (log 31), and that an access has its effect,
wholly and at once (log 37), whatever the power-up acknowledges (log 34) and the sticky flags (log 35) show. -/

section Statements

open Sys2Proof Sys2Proof.Machine

/-! ## Encoding and stepping -/

/-- R87: the eight fields of a request byte, and its value. -/
def Obligations.RequestByteLayout : Prop :=
  ∀ (apndp rnw : Bool) (a : BitVec 2),
    let b := requestByte apndp rnw a
    let parity := apndp ^^ rnw ^^ a.getLsbD 0 ^^ a.getLsbD 1
    b.getLsbD 0 = true ∧ b.getLsbD 1 = apndp ∧ b.getLsbD 2 = rnw ∧ b.getLsbD 3 = a.getLsbD 0 ∧ b.getLsbD 4 = a.getLsbD 1 ∧
      b.getLsbD 5 = parity ∧ b.getLsbD 6 = false ∧ b.getLsbD 7 = true ∧
      b.toNat = 0x81 + 2 * apndp.toNat + 4 * rnw.toNat + 8 * (a.getLsbD 0).toNat + 16 * (a.getLsbD 1).toNat + 32 * parity.toNat

/-- Words of R90 and R103, written out, decode to the rows they stand for. That the 5-bit code of R103 stands in bits [4:0] of a
byte whose bits [7:5] are zero is the model's choice (log 4). -/
def Obligations.TableWordsDecode : Prop :=
  decode [0b10000001] = .ok (.dpw0Abort, []) ∧ decode [0b10110001] = .ok (.dpw8Select, []) ∧
  decode [0b10011001] = .ok (.dpwcReserved, []) ∧ decode [0b10100101] = .ok (.dpr0Idcode, []) ∧
  decode [0b10111101] = .ok (.dprcRdbuff, []) ∧ decode [0b10001011] = .ok (.apw4Tar, []) ∧
  decode [0b10111011] = .ok (.apwcDrw, []) ∧ decode [0b10011111] = .ok (.aprcDrw, []) ∧
  decode [0b00000010] = .ok (.linkRead, []) ∧ decode [0b00001000] = .ok (.xfer, []) ∧
  decode [0b00010011] = .ok (.wrAp, []) ∧ decode [0b00010100] = .ok (.memWr32, []) ∧
  decode [0b00011010] = .ok (.setReg, []) ∧ decode [0b00011100] = .ok (.load, [])

/-- Decoding an encoded instruction gives it back and leaves what follows, and a byte that decodes is the encoding of what it
decodes to (R87, R90, R103, R105, R107). -/
def Obligations.DecodeAndEncodeAgree : Prop :=
  (∀ i rest, decode (encode i ++ rest) = .ok (i, rest)) ∧
  ∀ b rest i left, decode (b :: rest) = .ok (i, left) → left = rest ∧ encode i = [b]

/-- R107, R105, R189: a reserved command code, and a byte that is neither a command code nor a request byte of R87, are
refused. That such a byte is refused under its own name is the model's choice (log 4). -/
def Obligations.ReservedWordsRefused : Prop :=
  ∀ s c rest, s.inbox = c :: rest → paramsValid s.cfg = true →
    (c.word.toNat ∈ [0b00101, 0b00110, 0b00111, 0b01001, 0b01010, 0b01011, 0b01100, 0b01101, 0b01110, 0b01111, 0b10110, 0b10111,
        0b11111] → step s = .refused .reservedCmd) ∧
    (32 ≤ c.word.toNat → (∀ apndp rnw a, c.word ≠ requestByte apndp rnw a) → step s = .refused .malformedRequest)

/-- The next issued command that decodes to `i` runs as `exec i`, with its operands in the operand registers (log 3). -/
def Obligations.StepRunsTheDecodedInstruction : Prop :=
  ∀ s c rest i, s.inbox = c :: rest → paramsValid s.cfg = true → decode [c.word] = .ok (i, []) →
    step s = exec i { s with op := c.operands, inbox := rest }

/-- R198: with nothing issued the engine waits. R189 (BadParam): under a parameter outside its range no command is accepted
(that the check comes when a command is taken: log 18). -/
def Obligations.StepWaitsOrChecksParameters : Prop :=
  ∀ s, (s.inbox = [] → step s = .next s) ∧
    (s.inbox ≠ [] → (s.cfg.lineResetHigh < 50 ∨ s.cfg.lineResetIdle < 2 ∨ s.cfg.maxBurstWords = 0 ∨ s.cfg.powerUpPollMax = 0 ∨
      s.cfg.haltPollMax = 0 ∨ s.cfg.regRdyPollMax = 0 ∨ s.cfg.cswValue.extractLsb' 0 3 ≠ 0b010 ∨
      s.cfg.cswValue.extractLsb' 4 2 ≠ 0b01) → step s = .refused .badParam)

/-- R64, R198: every value the spec gives for reset. -/
def Obligations.ResetValues : Prop :=
  ∀ cfg, let s := State.resetWith cfg
    s.cfg = cfg ∧ s.link = { clk := false, oe := false, dout := cfg.idleLevel, lastDir := .none } ∧
    s.dp.waitCount = 0 ∧ s.dp.pollCount = 0 ∧ s.dp.faultRetried = false ∧
    s.sess.selValid = false ∧ s.sess.cswConfigured = false ∧ s.sess.stickyCleared = false ∧ s.sess.halted = false ∧
    s.sess.lastCtrlStat = none ∧ s.sess.tarValid = false ∧ s.sess.burstCount = 0 ∧ s.sess.conn = .idle ∧ s.sess.failInfo = none ∧
    s.load = .notConnected ∧ s.seq.phase = .none ∧ s.busy = false ∧ s.trace = []

/-- The invariants stated below hold at reset. That `REQ` is 0 there and what the target's side holds is the model's choice
(log 5, log 6). -/
def Obligations.ResetIsSafe : Prop :=
  ∀ cfg, let s := State.resetWith cfg
    LinkSafe s ∧ CountersSafe s ∧ LoadSafe s ∧ TargetSafe s ∧ RequestSafe s ∧ BankCacheTrue s ∧ CswTrue s

/-! ## Link commands -/

/-- R117: one more cycle of the present drive state, and nothing else changes; that the target's side does not is the model's
choice (log 29). -/
def Obligations.LinkClockRepeatsTheDrive : Prop :=
  ∀ s, exec .linkClock s = .next { s with
    link := { s.link with clk := false, lastDir := if s.link.oe then .host else .released }
    trace := s.trace ++ [if s.link.oe then .h s.link.dout else .z] }

/-- R118: the bits in order, host-driven, and nothing else changes; no bits change nothing at all; after a target-driven
cycle, a fault. That the target's side does not change is the model's choice (log 29). -/
def Obligations.LinkWriteDrivesItsBits : Prop :=
  ∀ s, (s.link.lastDir = .target → exec .linkWrite s = .fault .directionHazard) ∧
    (s.link.lastDir ≠ .target → s.op.bits = [] → exec .linkWrite s = .next s) ∧
    ∀ bs b, s.link.lastDir ≠ .target → s.op.bits = bs ++ [b] → exec .linkWrite s = .next { s with
      link := { clk := false, oe := true, dout := b, lastDir := .host }
      trace := s.trace ++ s.op.bits.map .h }

/-- R119: `OP_COUNT` bits the target presents, first sampled first; up to 32 of them also as a value whose bit `k` is the
`k`-th sampled bit. The bit list is kept as a result, and `RES_VALUE` stands for more than 32 bits: the model's choice
(log 13). Scripted bits come first, then free ones (log 1). That the target's side does not change is the model's choice
(log 29). -/
def Obligations.LinkReadSamplesTheTarget : Prop :=
  ∀ s, (s.link.lastDir = .host → exec .linkRead s = .fault .directionHazard) ∧
    (s.link.lastDir ≠ .host → ∃ bits v, bits.length = s.op.count ∧
      bits.take s.targetIn.length = s.targetIn.take s.op.count ∧
      (s.op.count ≤ 32 → ∀ k < 32, v.getLsbD k = bits.getD k false) ∧ (32 < s.op.count → v = s.res.value) ∧
      exec .linkRead s = .next { s with
        link := if s.op.count = 0 then s.link else { s.link with clk := false, oe := false, lastDir := .target }
        res := { s.res with value := v, bits := bits }
        trace := s.trace ++ bits.map .t
        targetIn := s.targetIn.drop s.op.count
        draws := s.draws + (s.op.count - s.targetIn.length) })

/-- R120: one released cycle, and nothing else changes; that the target's side does not is the model's choice (log 29). -/
def Obligations.LinkTrnReleasesOneCycle : Prop :=
  ∀ s, exec .linkTrn s = .next { s with
    link := { s.link with clk := false, oe := false, lastDir := .released }, trace := s.trace ++ [.z] }

/-- R121: the line reset, whatever `idleLevel` is, and nothing else changes; after a target-driven cycle, a fault; below the
minimum lengths no command is accepted (log 18). That the target's side does not change is the model's choice (log 29). -/
def Obligations.LineResetDrivesItsCycles : Prop :=
  ∀ s, (s.link.lastDir = .target → exec .linkLinereset s = .fault .directionHazard) ∧
    (s.link.lastDir ≠ .target → 50 ≤ s.cfg.lineResetHigh → 2 ≤ s.cfg.lineResetIdle → exec .linkLinereset s = .next { s with
      link := { clk := false, oe := true, dout := false, lastDir := .host }
      trace := s.trace ++ (List.replicate s.cfg.lineResetHigh (.h true) ++ List.replicate s.cfg.lineResetIdle (.h false)) }) ∧
    ((s.cfg.lineResetHigh < 50 ∨ s.cfg.lineResetIdle < 2) → s.inbox ≠ [] → step s = .refused .badParam)

/-- R115, R188: a well-formed command that would start with host-driven cycles faults after a target-driven cycle, before its
first cycle; the two passes are left out, since one with no word to move performs no cycle. -/
def Obligations.HostCyclesAfterTargetCyclesFault : Prop :=
  ∀ i s, i.wellFormed s.cfg s.op = true → s.link.lastDir = .target → (i = .load → s.busy = false) →
    i ∉ [Instr.linkClock, .linkRead, .linkTrn, .writeBlocks, .verifyBlocks] → exec i s = .fault .directionHazard

/-! ## One exchange -/

/-- R93: a read acknowledged OK by the target with data `d` and parity bit `p`, for every read request and `XFER`: the frame
and its length, and the whole next state, the effect on the target included (log 7 to log 9, log 17; AP 0x08 and other
banks: log 26; READOK: log 28; what a read of RDBUFF leaves alone: log 32; AP access without power: log 34; sticky
flags set: log 35). The data is delivered in `RES_VALUE` also when the parity is wrong (log 11). -/
def Obligations.ReadExchangeCompletes : Prop :=
  ∀ i s rq d p rest, wireRequest s.op i = some rq → rq.rnw = true → s.link.lastDir ≠ .target →
    s.targetIn = [true, false, false] ++ (bitsLSB d ++ [p]) ++ rest →
    exec i s = .next (readDone rq d p rest s.draws s) ∧
    (readDone rq d p rest s.draws s).trace = s.trace ++
      ((bitsLSB (requestByte rq.apndp rq.rnw rq.a)).map .h ++ [.z] ++ [.t true, .t false, .t false] ++ (bitsLSB d).map .t ++ [.t p]
        ++ [.z] ++ List.replicate s.cfg.idleCycles (.h s.cfg.idleLevel)) ∧
    (readFrame s.cfg rq d p).length = 46 + s.cfg.idleCycles

/-- R94: a write acknowledged OK, for every write request but 0x99, and `XFER`: the frame and its length, and the whole next
state, the effect on the target included (log 7 to log 9, log 17; AP 0x08 and other banks: log 26; read-only bits: log 28;
the other fields of DP registers: log 30; core registers: log 31, log 33; AP access without power: log 34; sticky flags
set: log 35; reserved bits: log 36; the write complete at once: log 37). -/
def Obligations.WriteExchangeCompletes : Prop :=
  ∀ i s rq rest, wireRequest s.op i = some rq → rq.rnw = false → ¬(rq.apndp = false ∧ rq.a = 3) → s.link.lastDir ≠ .target →
    s.targetIn = [true, false, false] ++ rest →
    exec i s = .next (writeDone rq rest s.draws s) ∧
    (writeDone rq rest s.draws s).trace = s.trace ++
      ((bitsLSB (requestByte rq.apndp rq.rnw rq.a)).map .h ++ [.z] ++ [.t true, .t false, .t false] ++ [.z]
        ++ (bitsLSB s.op.value).map .h ++ [.h (parity32 s.op.value)] ++ List.replicate s.cfg.idleAfterWrite (.h s.cfg.idleLevel)) ∧
    (writeFrame s.cfg rq).length = 46 + s.cfg.idleAfterWrite

/-- R95: an exchange whose acknowledge is not OK has no data phase, for every request but 0x99, and `XFER`: the
frame and its length, and the whole next state; a FAULT leaves the sticky flags to the target (log 9). -/
def Obligations.FailedExchangeHasNoData : Prop :=
  ∀ i s rq ack rest, wireRequest s.op i = some rq → ¬(rq.apndp = false ∧ rq.rnw = false ∧ rq.a = 3) → s.link.lastDir ≠ .target →
    ack.length = 3 → ack ≠ [true, false, false] → s.targetIn = ack ++ rest →
    exec i s = .next (failDone rq ack rest s.draws s) ∧
    (failDone rq ack rest s.draws s).trace = s.trace ++
      ((bitsLSB (requestByte rq.apndp rq.rnw rq.a)).map .h ++ [.z] ++ ack.map .t ++ [.z]
        ++ List.replicate s.cfg.idleCycles (.h s.cfg.idleLevel)) ∧
    (failFrame s.cfg rq ack).length = 13 + s.cfg.idleCycles

/-- R126, R127, R129: the class of an exchange, whatever the target answers, and what every exchange leaves unchanged; the
outcome is OK exactly for the acknowledge 0b001 with, for a read, the right parity. `RES_VALUE` is written also when the parity
is wrong (log 11). -/
def Obligations.ExchangeOutcomeAndFrame : Prop :=
  ∀ i s rq, wireRequest s.op i = some rq → ¬(rq.apndp = false ∧ rq.rnw = false ∧ rq.a = 3) → s.link.lastDir ≠ .target →
    ∃ t, exec i s = .next t ∧
      t.dp.req = requestByte rq.apndp rq.rnw rq.a ∧
      (t.dp.outcome = .ok ↔ t.dp.ack = 0b001 ∧ (rq.rnw = true → t.dp.rpar = parity32 t.dp.rdata)) ∧
      (t.dp.outcome = .wait ↔ t.dp.ack = 0b010) ∧ (t.dp.outcome = .fault ↔ t.dp.ack = 0b100) ∧
      (t.res.ok = true ↔ t.dp.outcome = .ok) ∧
      (rq.rnw = true → t.dp.ack = 0b001 → t.res.value = t.dp.rdata) ∧
      (¬(rq.rnw = true ∧ t.dp.ack = 0b001) → t.dp.rdata = s.dp.rdata ∧ t.dp.rpar = s.dp.rpar ∧ t.res.value = s.res.value) ∧
      (¬(rq.rnw = false ∧ t.dp.ack = 0b001) → t.dp.wdata = s.dp.wdata ∧ t.dp.wpar = s.dp.wpar) ∧
      (rq.rnw = false → t.dp.ack = 0b001 → t.dp.wdata = s.op.value ∧ t.dp.wpar = parity32 s.op.value) ∧
      t.dp.waitCount = s.dp.waitCount ∧ t.dp.faultRetried = s.dp.faultRetried ∧ t.dp.pollCount = s.dp.pollCount ∧
      t.cfg = s.cfg ∧ t.op = s.op ∧ t.inbox = s.inbox ∧ t.res.bits = s.res.bits ∧ t.sess = s.sess ∧ t.load = s.load ∧
      t.seq = s.seq ∧ t.busy = s.busy ∧ t.link.lastDir ≠ .target

/-- R57, R59, R75: target memory and the core's registers after one exchange, whatever the target answers. The address stored
to is TAR, and only for a DRW write acknowledged OK that reaches the MEM-AP (log 7). The status bits of DHCSR change only at a
read of RDBUFF and at a store at DHCSR or DCRSR (log 27). That a write at AP 0x08 stores nothing: log 26. That a running core
leaves its registers as they are: log 31. That the store is complete with the exchange: log 37. That under another CSW size than 32
bits the free word is stored at TAR, and nowhere else, is the model's choice (log 8). -/
def Obligations.ExchangeStoresAtTar : Prop :=
  ∀ i s rq t, wireRequest s.op i = some rq → exec i s = .next t →
    (∀ a, storeAddr s.cfg rq s.target = some a → SameBytesBut a s.target.mem t.target.mem) ∧
    (storeAddr s.cfg rq s.target = none ∨ t.dp.ack ≠ 0b001 → SameBytes s.target.mem t.target.mem ∧ SameCoreRegs s.target t.target) ∧
    (¬(rq.apndp = false ∧ rq.rnw = true ∧ rq.a = 3) →
      storeAddr s.cfg rq s.target ∉ [some dhcsrAddr, some dcrsrAddr] ∨ t.dp.ack ≠ 0b001 →
      t.target.dhcsrStatus = s.target.dhcsrStatus)

/-- R56, R57, R142, R146: a DRW access acknowledged OK, with 32-bit size and single increment in CSW, advances TAR by 4 inside its
auto-increment block; a write stores its word at TAR, little endian, away from the core debug registers, and a read, with right
or wrong parity, stores nothing (log 7, log 24, log 31; a block of 0 bytes is never left, log 25). That the data of a read is
delivered in `RES_VALUE` also when its parity is wrong is the model's choice (log 11). That it is so whatever the
power-up acknowledges and the sticky flags show is the model's choice (log 34, log 35), and so is that the word is stored whole
and at once (log 37). -/
def Obligations.DrwAccessesUseTar : Prop :=
  ∀ s, s.link.lastDir ≠ .target → memApSelected s.cfg s.target = true → csw32 s.target.csw = true →
    cswInc s.target.csw = 0b01 →
    let inBlock := s.target.tar.toNat / s.cfg.tarWrapBytes = (s.target.tar.toNat + 4) / s.cfg.tarWrapBytes
    (∀ rest, s.targetIn = [true, false, false] ++ rest → Memory.wf s.target.mem = true →
      ∃ t, exec .apwcDrw s = .next t ∧ (inBlock → t.target.tar = s.target.tar + 4) ∧
        (s.target.tar ∉ [dhcsrAddr, dcrsrAddr, dcrdrAddr] →
          (∀ k < 4, readByte t.target.mem (byteAddr s.target.tar k) = s.op.value.extractLsb' (8 * k) 8) ∧
          SameBytesBut s.target.tar s.target.mem t.target.mem ∧ SameCoreRegs s.target t.target)) ∧
    ∀ d p rest, s.targetIn = [true, false, false] ++ (bitsLSB d ++ [p]) ++ rest →
      ∃ t, exec .aprcDrw s = .next t ∧ (inBlock → t.target.tar = s.target.tar + 4) ∧ t.res.value = d ∧
        t.target.mem = s.target.mem ∧ SameCoreRegs s.target t.target ∧ t.target.select = s.target.select ∧
        t.target.csw = s.target.csw

/-- R51 to R53, R131 to R133, R139, R140: what a write acknowledged OK does to the register it names (log 7, log 9,
log 28, log 30; AP access without power: log 34; sticky flags set: log 35; the reserved bits of SELECT, CTRL/STAT and
ABORT: log 36). -/
def Obligations.WritesReachTheirRegisters : Prop :=
  ∀ s rest, s.link.lastDir ≠ .target → s.targetIn = [true, false, false] ++ rest →
    (∃ t, exec .dpw8Select s = .next t ∧ t.target = { s.target with select := s.op.value }) ∧
    (∃ t, exec .dpw0Abort s = .next t ∧ t.target = { s.target with ctrlStat := t.target.ctrlStat } ∧
      ∀ k < 32, t.target.ctrlStat.getLsbD k = (s.target.ctrlStat.getLsbD k &&
        !(decide (k = 4) && s.op.value.getLsbD 1) && !(decide (k = 5) && s.op.value.getLsbD 2) &&
        !(decide (k = 7) && s.op.value.getLsbD 3) && !(decide (k = 1) && s.op.value.getLsbD 4))) ∧
    (s.target.select.extractLsb' 0 4 = 0 → ∃ t, exec .dpw4Ctrlstat s = .next t ∧
      t.target = { s.target with ctrlStat := t.target.ctrlStat, draws := t.target.draws } ∧
      t.target.ctrlStat.getLsbD 28 = s.op.value.getLsbD 28 ∧ t.target.ctrlStat.getLsbD 30 = s.op.value.getLsbD 30) ∧
    (memApSelected s.cfg s.target = true → ∃ t, exec .apw4Tar s = .next t ∧ t.target = { s.target with tar := s.op.value }) ∧
    (memApSelected s.cfg s.target = true → ∃ t, exec .apw0Csw s = .next t ∧
      t.target = { s.target with csw := t.target.csw } ∧ csw32 t.target.csw = csw32 s.op.value ∧
      cswInc t.target.csw = cswInc s.op.value)

/-- R134: a direct command that would produce request 0x99, the DP write at 0xC, is refused, in every state; and it is never
emitted: whatever the target answers, every command but the raw link commands puts on the wire line resets, activation bits and
exchanges with another request, and nothing else. -/
def Obligations.DpWriteAtCIsRefused : Prop :=
  requestByte false false 3 = 0x99 ∧
  ∀ s, exec .dpwcReserved s = .refused .dpWrite0xC ∧
    (s.op.apndp = false → s.op.rnw = false → s.op.addr.extractLsb' 2 2 = 3 → exec .xfer s = .refused .dpWrite0xC) ∧
    (s.op.addr = 0xC → exec .wrDp s = .refused .badDPAddr) ∧
    ∀ i t, i ∉ [Instr.linkClock, .linkWrite, .linkRead, .linkTrn] → exec i s = .next t →
      ∃ parts : List (List Cycle), t.trace = (if i = .load then [] else s.trace) ++ parts.flatten ∧
        ∀ w ∈ parts, w = lineResetCycles s.cfg ∨
          (∃ bits, (bits = s.cfg.activationBits ∨ s.cfg.multidropActivation = some bits) ∧ w = bits.map .h) ∨
          ∃ a : Access, a.ack.length = 3 ∧ requestByte a.rq.apndp a.rq.rnw a.rq.a ≠ 0x99 ∧ w = a.cycles s.cfg

/-- R189: the operand refusals of the register, memory and loader commands, in every state; R188: `Reentrant` before
`BadPlan`. R172: a load operation admits exactly the plans that meet the six conditions (log 21). A pass refuses a plan that is not
admitted (log 10). -/
def Obligations.BadOperandsRefused : Prop :=
  ∀ s, (s.op.addr ∉ [0x0, 0x4, 0x8, 0xC] → exec .rdDp s = .refused .badDPAddr) ∧
    (s.op.addr ∉ [0x0, 0x4, 0x8] → exec .wrDp s = .refused .badDPAddr) ∧
    (s.op.addr.extractLsb' 0 2 ≠ 0 → exec .rdAp s = .refused .badAPAddr ∧ exec .wrAp s = .refused .badAPAddr) ∧
    (s.op.value.extractLsb' 0 2 ≠ 0 → exec .memWr32 s = .refused .unaligned ∧ exec .memRd32 s = .refused .unaligned) ∧
    (s.busy = true → exec .load s = .refused .reentrant) ∧
    (planAdmitted s.cfg s.op.plan = true ↔ Admits s.cfg s.op.plan) ∧
    (¬Admits s.cfg s.op.plan → (s.busy = false → exec .load s = .refused .badPlan) ∧
      exec .writeBlocks s = .refused .badPlan ∧ exec .verifyBlocks s = .refused .badPlan)

/-! ## Register access -/

/-- R151: `RD_DP` whose read is answered OK with `v`: one exchange, and `v` is the result. -/
def Obligations.RdDpReturnsTheRegister : Prop :=
  ∀ s v rest, s.op.addr ∈ [0x0, 0x4, 0x8, 0xC] → s.link.lastDir ≠ .target →
    let as := [Access.read (Request.readDp (s.op.addr.extractLsb' 2 2)) v]
    s.targetIn = answerBits as ++ rest →
    ∃ t, exec .rdDp s = .next t ∧ Ran (wireCycles s.cfg as) (targetAfter s.cfg as s.target) rest s t ∧
      t.res.value = v ∧ t.res.ok = true ∧ t.sess = s.sess

/-- R152: `WR_DP` answered OK: one exchange; a SELECT write keeps the bank cache true, an ABORT write sets `stickyCleared`. -/
def Obligations.WrDpWritesTheRegister : Prop :=
  ∀ s rest, s.op.addr ∈ [0x0, 0x4, 0x8] → s.link.lastDir ≠ .target →
    let as := [Access.write (Request.writeDp (s.op.addr.extractLsb' 2 2) s.op.value)]
    s.targetIn = answerBits as ++ rest →
    ∃ t, exec .wrDp s = .next t ∧ Ran (wireCycles s.cfg as) (targetAfter s.cfg as s.target) rest s t ∧ t.res.ok = true ∧
      (s.op.addr = 0x0 → t.sess = { s.sess with stickyCleared := true }) ∧ (s.op.addr = 0x4 → t.sess = s.sess) ∧
      (s.op.addr = 0x8 → t.sess = { s.sess with selCache := s.op.value, selValid := true })

/-- R150, R153, R154: `RD_AP` answered OK: the bank check, the posted read, whose data is discarded, then RDBUFF, whose data is
the result. -/
def Obligations.RdApReturnsRdbuff : Prop :=
  ∀ s posted v rest, s.op.addr.extractLsb' 0 2 = 0 → s.link.lastDir ≠ .target →
    let as := bankAccesses s.cfg s.sess s.op.addr
      ++ [Access.read (Request.readAp (s.op.addr.extractLsb' 2 2)) posted, Access.read (Request.readDp dpRdbuff) v]
    s.targetIn = answerBits as ++ rest →
    ∃ t, exec .rdAp s = .next t ∧ Ran (wireCycles s.cfg as) (targetAfter s.cfg as s.target) rest s t ∧
      t.res.value = v ∧ t.res.ok = true ∧ t.sess = withBank s.cfg s.sess s.op.addr

/-- R150, R155: `WR_AP` answered OK: the bank check, then one write. -/
def Obligations.WrApWritesTheRegister : Prop :=
  ∀ s rest, s.op.addr.extractLsb' 0 2 = 0 → s.link.lastDir ≠ .target →
    let as := bankAccesses s.cfg s.sess s.op.addr ++ [Access.write (Request.writeAp (s.op.addr.extractLsb' 2 2) s.op.value)]
    s.targetIn = answerBits as ++ rest →
    ∃ t, exec .wrAp s = .next t ∧ Ran (wireCycles s.cfg as) (targetAfter s.cfg as s.target) rest s t ∧
      t.res.ok = true ∧ t.sess = withBank s.cfg s.sess s.op.addr

/-- R156, R157: `MEM_WR32` answered OK: CSW when the session has not written it, TAR every time, DRW; TAR tracking is
forgotten. -/
def Obligations.MemWr32WritesTarThenDrw : Prop :=
  ∀ s rest, s.op.value.extractLsb' 0 2 = 0 → s.link.lastDir ≠ .target →
    let as := memWriteAccesses s.cfg s.sess s.op.value s.op.value2
    s.targetIn = answerBits as ++ rest →
    ∃ t, exec .memWr32 s = .next t ∧ Ran (wireCycles s.cfg as) (targetAfter s.cfg as s.target) rest s t ∧
      t.res.ok = true ∧ t.sess = afterMem s.cfg s.sess

/-- R156, R158: `MEM_RD32` answered OK: CSW when the session has not written it, TAR every time, the posted DRW read, RDBUFF,
whose data is the result. R59: with the session's caches true, a read of DHCSR shows its status bits (log 7, log 27, log 34,
log 35). -/
def Obligations.MemRd32ReadsThroughRdbuff : Prop :=
  ∀ s posted v rest, s.op.value.extractLsb' 0 2 = 0 → s.link.lastDir ≠ .target →
    let as := memReadAccesses s.cfg s.sess s.op.value posted v
    s.targetIn = answerBits as ++ rest →
    ∃ t, exec .memRd32 s = .next t ∧ Ran (wireCycles s.cfg as) (targetAfter s.cfg as s.target) rest s t ∧
      t.res.value = v ∧ t.res.ok = true ∧ t.sess = afterMem s.cfg s.sess ∧
      (s.op.value = 0xE000EDF0 → paramsValid s.cfg = true → BankCacheTrue s → CswTrue s →
        t.target.dhcsrStatus = v &&& 0x030F0000)

/-- R147, R148: the WAIT policy, on every transaction of the four register commands, the SELECT write of a bank check, the posted
read and the RDBUFF read included: answered WAIT `k` times and then OK, with `k` within the bound, exactly `k + 1` exchanges, and
the command ends as if it had been answered OK at once; answered WAIT always, exactly `1 + waitRetryMax` exchanges, the failure
WaitExhausted, and no exchange after it. -/
def Obligations.WaitIsRetriedWithinItsBound : Prop :=
  ∀ i s posted v before a after rest, i ∈ [Instr.rdDp, .wrDp, .rdAp, .wrAp] → i.wellFormed s.cfg s.op = true →
    s.link.lastDir ≠ .target → commandAccesses s.cfg s.op s.sess posted v i = before ++ a :: after →
    let out := before ++ waitedOut s.cfg a.rq
    (∀ k ≤ s.cfg.waitRetryMax,
      let as := before ++ a.waited k ++ after
      s.targetIn = answerBits as ++ rest →
      ∃ t, exec i s = .next t ∧ Ran (wireCycles s.cfg as) (targetAfter s.cfg as s.target) rest s t ∧ t.res.ok = true ∧
        (i = .rdDp ∨ i = .rdAp → t.res.value = v) ∧ (after = [] → t.dp.waitCount = k) ∧ t.load = s.load ∧
        t.sess = commandSession s.cfg s.op s.sess i) ∧
    (s.targetIn = answerBits out ++ rest → s.busy = false →
      ∃ t, exec i s = .next t ∧ Ran (wireCycles s.cfg out) (targetAfter s.cfg out s.target) rest s t ∧ t.res.ok = false ∧
        t.dp.waitCount = s.cfg.waitRetryMax ∧ t.load = s.load ∧
        t.sess = { sessionBefore s.cfg s.op s.sess before with
          failInfo := some (s.sess.failInfo.getD { step := s.seq.phase, cause := .waitExhausted, addr := none }) })

/-- R148, R149, R185: one FAULT or protocol error (a malformed acknowledge, or a read with wrong parity) in any transaction of
the four register commands is recovered: CTRL/STAT is read, ABORT written with 0x1E, the transaction issued once more; nothing of
it is a failure. Each of the four series has the WAIT bound of R147 for itself. What the target holds after it is the model's
(log 7, log 9), also that the value of a retried RDBUFF read is taken as status bits of a read of DHCSR (R153; log 27). -/
def Obligations.OneFaultIsRecovered : Prop :=
  ∀ i s posted v before a after (bad : Access) ctrl k0 k1 k2 k3 rest, i ∈ [Instr.rdDp, .wrDp, .rdAp, .wrAp] →
    i.wellFormed s.cfg s.op = true → s.link.lastDir ≠ .target →
    commandAccesses s.cfg s.op s.sess posted v i = before ++ a :: after →
    bad.broken → bad.rq = a.rq → (∀ k ∈ [k0, k1, k2, k3], k ≤ s.cfg.waitRetryMax) →
    let as := before ++ bad.waited k0 ++ recovery ctrl k1 k2 ++ a.waited k3 ++ after
    s.targetIn = answerBits as ++ rest →
    ∃ t, exec i s = .next t ∧ Ran (wireCycles s.cfg as) (targetAfter s.cfg as s.target) rest s t ∧ t.res.ok = true ∧
      (i = .rdDp ∨ i = .rdAp → t.res.value = v) ∧ (after = [] → t.dp.faultRetried = true ∧ t.dp.waitCount = k3) ∧
      t.load = s.load ∧ t.sess = recovered ctrl (commandSession s.cfg s.op s.sess i)

/-- R147 to R149, R187: what ends a register command after a first FAULT or protocol error in one of its transactions: one in the
recovery's CTRL/STAT read or in its ABORT write, as RecoveryFailed; one in the re-issued transaction, as FaultRepeated; WAIT beyond
the bound in any of these three, as WaitExhausted. No exchange follows. -/
def Obligations.SecondFaultIsFatal : Prop :=
  ∀ i s posted v before a after (bad bad2 : Access) ctrl k0 k1 k2 k3 rest, i ∈ [Instr.rdDp, .wrDp, .rdAp, .wrAp] →
    i.wellFormed s.cfg s.op = true → s.link.lastDir ≠ .target → s.busy = false →
    commandAccesses s.cfg s.op s.sess posted v i = before ++ a :: after →
    bad.broken → bad.rq = a.rq → bad2.broken → (∀ k ∈ [k0, k1, k2, k3], k ≤ s.cfg.waitRetryMax) →
    let first := before ++ bad.waited k0
    let read := (Access.read (Request.readDp dpCtrlStat) ctrl).waited k1
    let ss := sessionBefore s.cfg s.op s.sess before
    let failsWith := fun (as : List Access) (cause : FailCause) (ss : Session) => s.targetIn = answerBits as ++ rest →
      ∃ t, exec i s = .next t ∧ Ran (wireCycles s.cfg as) (targetAfter s.cfg as s.target) rest s t ∧ t.res.ok = false ∧
        t.load = s.load ∧ t.sess = { ss with
          failInfo := some (s.sess.failInfo.getD { step := s.seq.phase, cause := cause, addr := none }) }
    (bad2.rq = Request.readDp dpCtrlStat → failsWith (first ++ bad2.waited k1) .recoveryFailed ss) ∧
    failsWith (first ++ waitedOut s.cfg (Request.readDp dpCtrlStat)) .waitExhausted ss ∧
    (bad2.rq = Request.writeDp dpAbort 0x0000001E →
      failsWith (first ++ read ++ bad2.waited k2) .recoveryFailed { ss with lastCtrlStat := some ctrl }) ∧
    failsWith (first ++ read ++ waitedOut s.cfg (Request.writeDp dpAbort 0x0000001E)) .waitExhausted
      { ss with lastCtrlStat := some ctrl } ∧
    (bad2.rq = a.rq → failsWith (first ++ recovery ctrl k1 k2 ++ bad2.waited k3) .faultRepeated (recovered ctrl ss)) ∧
    failsWith (first ++ recovery ctrl k1 k2 ++ waitedOut s.cfg a.rq) .waitExhausted (recovered ctrl ss)

/-! ## Connection and target control -/

/-- R162 to R167: `CONNECT` to Ready: line reset, activation, the matching IDCODE, the sticky clear, the power-up request, and
CTRL/STAT reads until both acknowledges show. That `selCache` and `nextAddr`, which R64 leaves unspecified then, keep their values
is the model's choice (log 15); that line reset and activation change no target register, too (log 29). -/
def Obligations.ConnectReachesReady : Prop :=
  ∀ s id early last rest, s.link.lastDir ≠ .target → id.extractLsb' 0 4 = s.cfg.idLowNibble →
    (∀ v ∈ early, v &&& 0xA0000000 ≠ 0xA0000000) → last &&& 0xA0000000 = 0xA0000000 → early.length < s.cfg.powerUpPollMax →
    let as := connectAccesses id (early ++ [last])
    s.targetIn = answerBits as ++ rest →
    ∃ t, exec .connect s = .next t ∧
      Ran (lineResetCycles s.cfg ++ activationCycles s.cfg ++ wireCycles s.cfg as) (targetAfter s.cfg as s.target) rest s t ∧
      t.sess = connectedSession s.sess last ∧ t.res.ok = true ∧ t.load = s.load ∧ t.busy = s.busy ∧ t.seq.phase = .powerUp

/-- R166, R167, R186: an IDCODE that does not match ends `CONNECT` at IdCheck with IdMismatch, before any other access; a poll
that sees no power-up acknowledge within its bound ends it at PowerUp with PollTimeout. Line reset and activation change no target
register by the model's choice (log 29). -/
def Obligations.ConnectFailsAtItsStep : Prop :=
  ∀ s id reads rest, s.link.lastDir ≠ .target → s.busy = false →
    (id.extractLsb' 0 4 ≠ s.cfg.idLowNibble →
      let as := [Access.read (Request.readDp 0) id]
      s.targetIn = answerBits as ++ rest →
      ∃ t, exec .connect s = .next t ∧
        Ran (lineResetCycles s.cfg ++ activationCycles s.cfg ++ wireCycles s.cfg as) (targetAfter s.cfg as s.target) rest s t ∧
        t.sess.conn = .idCheck ∧ t.sess.failInfo = some { step := .idCheck, cause := .idMismatch, addr := none } ∧
        t.res.ok = false ∧ t.load = s.load) ∧
    (id.extractLsb' 0 4 = s.cfg.idLowNibble → (∀ v ∈ reads, v &&& 0xA0000000 ≠ 0xA0000000) →
      reads.length = s.cfg.powerUpPollMax →
      let as := connectAccesses id reads
      s.targetIn = answerBits as ++ rest →
      ∃ t, exec .connect s = .next t ∧
        Ran (lineResetCycles s.cfg ++ activationCycles s.cfg ++ wireCycles s.cfg as) (targetAfter s.cfg as s.target) rest s t ∧
        t.sess.conn = .powerUp ∧ t.sess.failInfo = some { step := .powerUp, cause := .pollTimeout, addr := none } ∧
        t.res.ok = false ∧ t.load = s.load)

/-- R168: `HALT` whose poll sees S_HALT within its bound: the DHCSR write, the reads, `halted`. R59: with the session's caches
true, DHCSR then has C_HALT and C_DEBUGEN as written and S_HALT as read (log 7, log 27, log 34, log 35, log 37). -/
def Obligations.HaltSeesTheCoreHalted : Prop :=
  ∀ s early last rest, s.link.lastDir ≠ .target → (∀ r ∈ early, r.2.getLsbD 17 = false) → last.2.getLsbD 17 = true →
    early.length < s.cfg.haltPollMax →
    let as := memWriteAccesses s.cfg s.sess 0xE000EDF0 0xA05F0003 ++ pollAccesses s.cfg (afterMem s.cfg s.sess) (early ++ [last])
    s.targetIn = answerBits as ++ rest →
    ∃ t, exec .halt s = .next t ∧ Ran (wireCycles s.cfg as) (targetAfter s.cfg as s.target) rest s t ∧
      t.sess = { afterMem s.cfg s.sess with halted := true } ∧ t.res.ok = true ∧ t.seq.phase = .halt ∧ t.load = s.load ∧
      (paramsValid s.cfg = true → BankCacheTrue s → CswTrue s →
        t.target.dhcsr = 0x00000003 ∧ t.target.dhcsrStatus = last.2 &&& 0x030F0000)

/-- R169: `SET_REG`, in the order of the parameter, whose poll sees S_REGRDY within its bound; the value is passed unchanged. -/
def Obligations.SetRegWritesSelectAndData : Prop :=
  ∀ s early last rest, s.link.lastDir ≠ .target → (∀ r ∈ early, r.2.getLsbD 16 = false) → last.2.getLsbD 16 = true →
    early.length < s.cfg.regRdyPollMax →
    let select := 0x00010000 ||| s.op.regId.setWidth 32
    let ss := afterMem s.cfg s.sess
    let polled := pollAccesses s.cfg ss (early ++ [last])
    let as := if s.cfg.setRegOrder = .selectThenData then
        memWriteAccesses s.cfg s.sess 0xE000EDF4 select ++ polled ++ memWriteAccesses s.cfg ss 0xE000EDF8 s.op.value
      else memWriteAccesses s.cfg s.sess 0xE000EDF8 s.op.value ++ memWriteAccesses s.cfg ss 0xE000EDF4 select ++ polled
    s.targetIn = answerBits as ++ rest →
    ∃ t, exec .setReg s = .next t ∧ Ran (wireCycles s.cfg as) (targetAfter s.cfg as s.target) rest s t ∧
      t.sess = ss ∧ t.res.ok = true ∧ t.load = s.load ∧
      t.seq.phase = if s.op.regId = 13 then .setSP else if s.op.regId = 15 then .setPC else .setReg

/-- R170: `RESUME`: one DHCSR write with C_HALT = 0, and no poll. -/
def Obligations.ResumeReleasesTheCore : Prop :=
  ∀ s rest, s.link.lastDir ≠ .target →
    let as := memWriteAccesses s.cfg s.sess 0xE000EDF0 0xA05F0001
    s.targetIn = answerBits as ++ rest →
    ∃ t, exec .resume s = .next t ∧ Ran (wireCycles s.cfg as) (targetAfter s.cfg as s.target) rest s t ∧
      t.sess = { afterMem s.cfg s.sess with halted := false } ∧ t.res.ok = true ∧ t.seq.phase = .resume ∧ t.load = s.load

/-- R159, R168, R169: a poll of `HALT` or `SET_REG` that makes its bound of reads without seeing its bit is fatal as PollTimeout,
after exactly that many reads; under the source's order `SET_REG` then writes no DCRDR. -/
def Obligations.ControlPollsTimeOut : Prop :=
  ∀ s reads rest, s.link.lastDir ≠ .target → s.busy = false →
    ((∀ r ∈ reads, r.2.getLsbD 17 = false) → reads.length = s.cfg.haltPollMax →
      let as := memWriteAccesses s.cfg s.sess 0xE000EDF0 0xA05F0003 ++ pollAccesses s.cfg (afterMem s.cfg s.sess) reads
      s.targetIn = answerBits as ++ rest →
      ∃ t, exec .halt s = .next t ∧ Ran (wireCycles s.cfg as) (targetAfter s.cfg as s.target) rest s t ∧ t.res.ok = false ∧
        t.load = s.load ∧ t.sess = { afterMem s.cfg s.sess with
          failInfo := some (s.sess.failInfo.getD { step := .halt, cause := .pollTimeout, addr := none }) }) ∧
    ((∀ r ∈ reads, r.2.getLsbD 16 = false) → reads.length = s.cfg.regRdyPollMax →
      let as := setRegTimeoutAccesses s.cfg s.sess s.op.regId s.op.value reads
      s.targetIn = answerBits as ++ rest →
      ∃ t, exec .setReg s = .next t ∧ Ran (wireCycles s.cfg as) (targetAfter s.cfg as s.target) rest s t ∧ t.res.ok = false ∧
        t.load = s.load ∧ t.sess = { afterMem s.cfg s.sess with
          failInfo := some (s.sess.failInfo.getD { step := setRegPhase s.op.regId, cause := .pollTimeout, addr := none }) })

/-- R57, R59, R61, R157, R168, R170: with the session's caches true, a memory write that succeeds reaches its address,
whatever the target answered on the way (log 7, log 24), and whatever the power-up acknowledges and the sticky flags show
(log 34, log 35). The core's registers stay as they are in the command (log 31). That a write acknowledged OK is done, wholly and
at once, is the model's choice (log 37). -/
def Obligations.SuccessfulWritesReachTheTarget : Prop :=
  ∀ s t, paramsValid s.cfg = true → BankCacheTrue s → CswTrue s →
    (exec .memWr32 s = .next t → t.res.ok = true →
      (s.op.value ∉ [dhcsrAddr, dcrsrAddr, dcrdrAddr] → t.target.mem = writeWord s.target.mem s.op.value s.op.value2 ∧
        SameCoreRegs s.target t.target) ∧
      (s.op.value = dcrdrAddr → t.target.dcrdr = s.op.value2)) ∧
    (exec .halt s = .next t → t.res.ok = true → t.target.dhcsr = 0x00000003) ∧
    (exec .resume s = .next t → t.res.ok = true → t.target.dhcsr = 0x00000001)

/-- R169, R208, R209: what a `SET_REG` that succeeds leaves in the core. In Debug state, under DataThenSelect, the register holds
the value; under the source's order it holds the DCRDR value from before, and the value stays in DCRDR. Outside Debug state no
register changes. Debug state is S_HALT as the last read of DHCSR showed it, a free value after a DHCSR write (log 22, log 27). That
no other register changes with it is the model's choice (log 31, log 33), and so is that it needs no power-up acknowledge (log 34),
no clear sticky flags (log 35) and no time for the transfer (log 22, log 37; the access: log 7). -/
def Obligations.SetRegReachesTheCore : Prop :=
  ∀ s t, paramsValid s.cfg = true → BankCacheTrue s → CswTrue s → exec .setReg s = .next t → t.res.ok = true →
    t.target.dcrdr = s.op.value ∧ t.target.dhcsr = s.target.dhcsr ∧ t.target.coreRegs =
      if coreHalted s.target then s.target.coreRegs.set s.op.regId.toNat
        (if s.cfg.setRegOrder = .dataThenSelect then s.op.value else s.target.dcrdr)
      else s.target.coreRegs

/-! ## Loading -/

/-- R44, R174, R175: the write pass over an admitted plan, every exchange answered OK, and the sequencer position it leaves. -/
def Obligations.WriteBlocksWritesEveryWord : Prop :=
  ∀ s rest, planAdmitted s.cfg s.op.plan = true → s.link.lastDir ≠ .target →
    let as := cswAccesses s.cfg s.sess ++ writeWordAccesses s.cfg (passSession s.cfg s.sess) (planWords s.op.plan)
    s.targetIn = answerBits as ++ rest →
    ∃ t, exec .writeBlocks s = .next t ∧ Ran (wireCycles s.cfg as) (targetAfter s.cfg as s.target) rest s t ∧
      t.res.ok = true ∧ t.seq = passPosition s.op.plan { s.seq with phase := .write } ∧ t.load = s.load ∧
      t.sess = wordsSession s.cfg (passSession s.cfg s.sess) (planWords s.op.plan)

/-- R44, R174, R176: the verification pass over an admitted plan whose words read back as given, each posted read with data of
its own, and the sequencer position it leaves. -/
def Obligations.VerifyBlocksReadsEveryWord : Prop :=
  ∀ s posted rest, planAdmitted s.cfg s.op.plan = true → s.link.lastDir ≠ .target →
    let as := cswAccesses s.cfg s.sess ++ verifyWordAccesses posted s.cfg 0 (passSession s.cfg s.sess) (planWords s.op.plan)
    s.targetIn = answerBits as ++ rest →
    ∃ t, exec .verifyBlocks s = .next t ∧ Ran (wireCycles s.cfg as) (targetAfter s.cfg as s.target) rest s t ∧
      t.res.ok = true ∧ t.seq = passPosition s.op.plan { s.seq with phase := .verify } ∧ t.load = s.load ∧
      t.sess = wordsSession s.cfg (passSession s.cfg s.sess) (planWords s.op.plan)

/-- R44, R176, R188: the first word that reads back differently ends the verification pass with its address and position, and no
later word is read. Each posted read has data of its own. The words before it in its section are `before`, the sections before
its section `earlier`. -/
def Obligations.VerifyMismatchNamesTheWord : Prop :=
  ∀ s posted got earlier sec later before w after rest, planAdmitted s.cfg s.op.plan = true → s.link.lastDir ≠ .target →
    s.busy = false → planSections s.op.plan = earlier ++ sec :: later → sectionWords sec = before ++ w :: after → got ≠ w →
    let a := sec.addr + BitVec.ofNat 32 (4 * before.length)
    let read := earlier.flatMap (fun sec => wordsAt sec.addr 0 (sectionWords sec)) ++ wordsAt sec.addr 0 before
    let ss := wordsSession s.cfg (passSession s.cfg s.sess) read
    let as := cswAccesses s.cfg s.sess ++ (verifyWordAccesses posted s.cfg 0 (passSession s.cfg s.sess) read
      ++ (tarAccesses s.cfg ss a ++ [Access.read (Request.readAp 3) (posted read.length), Access.read (Request.readDp dpRdbuff) got]))
    s.targetIn = answerBits as ++ rest →
    ∃ t, exec .verifyBlocks s = .next t ∧ Ran (wireCycles s.cfg as) (targetAfter s.cfg as s.target) rest s t ∧
      t.res.ok = false ∧ t.load = s.load ∧
      t.seq = { phase := .verify, sectionIndex := earlier.length, wordIndex := before.length } ∧
      t.sess.failInfo = some (s.sess.failInfo.getD { step := .verify, cause := .verifyMismatch, addr := some a })

/-- R177: the load operation, every exchange answered OK and every poll within its bound: `CONNECT`, `HALT`, the write pass, the
verification pass when enabled, the stack pointer, then the entry address unchanged, `RESUME`; it ends Running and returns
true. Line reset and activation change no target register by the model's choice (log 29). -/
def Obligations.LoadRunsToRunning : Prop :=
  ∀ s r rest, s.busy = false → planAdmitted s.cfg s.op.plan = true → s.link.lastDir ≠ .target → LoadAnswers.Good s.cfg r →
    let as := loadAccesses s.cfg s.op.plan r s.sess
    s.targetIn = answerBits as ++ rest →
    ∃ t, exec .load s = .next t ∧
      Ran (lineResetCycles s.cfg ++ activationCycles s.cfg ++ wireCycles s.cfg as) (targetAfter s.cfg as s.target) rest
        { s with trace := [] } t ∧
      t.load = .running ∧ t.busy = false ∧ t.res.ok = true ∧ t.sess.failInfo = none ∧ t.sess.conn = .ready ∧
      t.sess.halted = false ∧ t.seq.phase = .resume

/-- R177, R178, R181, R186: a load operation ends, whatever the target answers, in one of two ways: Running, with result true,
or Failed, with result false and a failure record. -/
def Obligations.LoadEndsRunningOrFailed : Prop :=
  ∀ s t, exec .load s = .next t → t.busy = false ∧
    (t.load = .running ∧ callerResult t = true ∧ t.sess.failInfo = none ∧ t.sess.conn = .ready ∨
      t.load = .failed ∧ callerResult t = false ∧ ∃ r, t.sess.failInfo = some r ∧ r.step = t.seq.phase)

/-- R175, R177, R186, R210: when no burst crosses an auto-increment block and no word of the plan stands at a core debug
register, a load operation changes target memory only in the plan's bytes, whatever the target answers, and one that ends
Running leaves the plan's bytes there, little endian (log 7, log 25, log 29). That a word acknowledged OK is stored, wholly and at
once, is the model's choice, also when the next exchange is answered FAULT (log 37) or a sticky flag shows (log 35). -/
def Obligations.LoadPlacesTheImage : Prop :=
  ∀ s t, paramsValid s.cfg = true → TargetSafe s → planStays s.cfg s.op.plan → planInMemory s.op.plan → exec .load s = .next t →
    (∀ b, ¬inPlan s.op.plan b → readByte t.target.mem b = readByte s.target.mem b) ∧
    (t.load = .running → ∀ w ∈ planWords s.op.plan, readWord t.target.mem w.1 = w.2)

/-- R168 to R170, R177, R208, R209: a load operation under DataThenSelect that ends Running has released the core, with debug still
enabled, and changed no core register but the stack pointer and the program counter, each of which holds the plan's value or, since
a register write takes effect only in Debug state (log 22), the value from before, whatever the target answers. When every exchange
is answered OK and every poll sees its bit, the stack pointer is the plan's, and so is the program counter when S_HALT still shows
in the last read of the poll between the two (log 7, log 25, log 27, log 29). That the core changes none of its registers while it
runs, before the halt and after the release, is the model's choice (log 31), and so are 32 registers of their own (log 33) and that
an acknowledged write is done at once, whatever the sticky flags show (log 35, log 37). -/
def Obligations.LoadSetsTheCore : Prop :=
  ∀ s, paramsValid s.cfg = true → planStays s.cfg s.op.plan → planInMemory s.op.plan → s.cfg.setRegOrder = .dataThenSelect →
    let before := s.target.coreRegs
    let stacked := before.set 13 s.op.plan.sp
    (∀ t, exec .load s = .next t → t.load = .running →
      t.target.coreRegs ∈ [before, stacked, before.set 15 s.op.plan.entry, stacked.set 15 s.op.plan.entry] ∧
      t.target.dhcsr = 0x00000001) ∧
    ∀ r rest, s.busy = false → planAdmitted s.cfg s.op.plan = true → s.link.lastDir ≠ .target → LoadAnswers.Good s.cfg r →
      s.targetIn = answerBits (loadAccesses s.cfg s.op.plan r s.sess) ++ rest →
      ∃ t, exec .load s = .next t ∧ t.load = .running ∧ t.target.dhcsr = 0x00000001 ∧
        t.target.coreRegs = if r.spLast.2.getLsbD 17 then stacked.set 15 s.op.plan.entry else stacked

/-- R180, R199: two load operations with the same parameters, plan and answers of the target show the same observation and end
alike, whatever sessions, registers, traces and targets they start from. -/
def Obligations.LoadDependsOnAnswersAlone : Prop :=
  ∀ s s' t t', s.cfg = s'.cfg → s.op.plan = s'.op.plan → s.targetIn = s'.targetIn → s.draws = s'.draws →
    s.link.lastDir ≠ .target → s'.link.lastDir ≠ .target → exec .load s = .next t → exec .load s' = .next t' →
    observe t = observe t' ∧ t.load = t'.load ∧ t.sess.conn = t'.sess.conn ∧ t.targetIn = t'.targetIn ∧ t.draws = t'.draws

/-! ## Rules of the whole machine, whatever the target answers -/

/-- R182: every command of the engine's language completes when the link is turned for it. -/
def Obligations.WellFormedCommandsComplete : Prop :=
  ∀ i s, i.wellFormed s.cfg s.op = true → s.link.lastDir ≠ .target → (i = .linkRead → s.link.lastDir ≠ .host) →
    (i = .load → s.busy = false) → ∃ t, exec i s = .next t

/-- R182, R186: a command above the packet layer ends with `RES_OK` true and no new failure, or with `RES_OK` false and a
failure record; the record of an earlier failure is kept, but by `CONNECT` and `LOAD`, which start a fresh session. -/
def Obligations.CommandsReportTheirFailure : Prop :=
  ∀ i s t, Layered i → exec i s = .next t →
    let before := if i = .connect ∨ i = .load then none else s.sess.failInfo
    (t.res.ok = true ∧ t.sess.failInfo = before) ∨
    (t.res.ok = false ∧ ∃ r, t.sess.failInfo = some r ∧ (r = before.getD r) ∧ (before = none → r.step = t.seq.phase))

/-- R11, R25, R34, R47, R178: no instruction writes a parameter, an operand register or a waiting command; the record of cycles
only grows, but `LOAD` empties it first; outside a load operation no command other than `LOAD` writes `load` or `busy` (that no
sequence writes an operand register: log 12). -/
def Obligations.WhatOnlyLoadWrites : Prop :=
  ∀ i s t, exec i s = .next t → t.cfg = s.cfg ∧ t.op = s.op ∧ t.inbox = s.inbox ∧
    (∃ w, t.trace = (if i = .load then [] else s.trace) ++ w) ∧
    (i ≠ .load → s.busy = false → t.load = s.load ∧ t.busy = false)

/-- The frame of the four register commands (R151 to R155, R160), whatever the target answers: the session but for the bank cache,
`stickyCleared`, `lastCtrlStat` and `failInfo`; the target's registers but for those the command or a recovery accesses (the
status bits of DHCSR: log 27; AP address 0x08: log 26; a running core's registers: log 31; a read of DCRDR: log 32). -/
def Obligations.RegisterCommandFrame : Prop :=
  ∀ i s t, i ∈ [Instr.rdDp, .wrDp, .rdAp, .wrAp] → s.busy = false → exec i s = .next t →
    t.load = s.load ∧ t.busy = s.busy ∧ t.seq = s.seq ∧ t.res.bits = s.res.bits ∧ t.dp.pollCount = s.dp.pollCount ∧
    t.sess = { s.sess with
      selValid := t.sess.selValid, selCache := t.sess.selCache, stickyCleared := t.sess.stickyCleared
      lastCtrlStat := t.sess.lastCtrlStat, failInfo := t.sess.failInfo } ∧
    (i = .rdDp ∨ i = .wrDp ∧ s.op.addr ≠ 0x8 →
      t.sess.selValid = s.sess.selValid ∧ t.sess.selCache = s.sess.selCache ∧ t.target.select = s.target.select) ∧
    (i ≠ .rdDp → t.target.idcode = s.target.idcode) ∧
    (i = .wrDp ∨ i ≠ .rdAp ∧ s.op.addr.extractLsb' 2 2 ≠ 3 → t.target.dhcsrStatus = s.target.dhcsrStatus) ∧
    (i ≠ .wrAp ∨ s.op.addr.extractLsb' 2 2 ≠ 0 → t.target.csw = s.target.csw) ∧
    (i = .rdDp ∨ i = .wrDp ∨ (i = .rdAp ∧ s.op.addr.extractLsb' 2 2 ≠ 3) ∨
      (i = .wrAp ∧ s.op.addr.extractLsb' 2 2 ≠ 1 ∧ s.op.addr.extractLsb' 2 2 ≠ 3) → t.target.tar = s.target.tar) ∧
    (i = .wrAp → s.op.addr.extractLsb' 2 2 = 3 → SameBytesBut s.target.tar s.target.mem t.target.mem) ∧
    (i ≠ .wrAp ∨ s.op.addr.extractLsb' 2 2 ≠ 3 → SameBytes s.target.mem t.target.mem ∧ SameCoreRegs s.target t.target)

/-- The frame of the memory helpers and of Target Control (R157, R158, R168 to R170), whatever the target answers: `MEM_WR32`
changes no byte of target memory outside the word at its address, the others none at all. That the core changes none of its
registers while it runs, after `RESUME` too, is the model's choice (log 31), and so is that a read of DCRDR leaves the model's
copy of it (log 32). -/
def Obligations.MemoryCommandFrame : Prop :=
  ∀ i s t, i ∈ [Instr.memWr32, .memRd32, .halt, .setReg, .resume] → s.busy = false → exec i s = .next t →
    t.load = s.load ∧ t.busy = s.busy ∧ t.res.bits = s.res.bits ∧ t.seq = { s.seq with phase := phaseOf s.op s.seq.phase i } ∧
    t.sess = { s.sess with
      selValid := t.sess.selValid, selCache := t.sess.selCache, cswConfigured := t.sess.cswConfigured
      stickyCleared := t.sess.stickyCleared, halted := t.sess.halted, lastCtrlStat := t.sess.lastCtrlStat
      tarValid := t.sess.tarValid, failInfo := t.sess.failInfo } ∧
    (i ≠ .halt → i ≠ .resume → t.sess.halted = s.sess.halted) ∧
    t.target.idcode = s.target.idcode ∧
    (i = .memWr32 → SameBytesBut s.op.value s.target.mem t.target.mem) ∧
    (i ≠ .memWr32 → SameBytes s.target.mem t.target.mem) ∧
    (i = .memRd32 ∨ i = .memWr32 ∧ s.op.value ∉ [dhcsrAddr, dcrsrAddr, dcrdrAddr] → SameCoreRegs s.target t.target) ∧
    (i = .halt ∨ i = .resume →
      t.target.dcrsr = s.target.dcrsr ∧ t.target.dcrdr = s.target.dcrdr ∧ t.target.coreRegs = s.target.coreRegs) ∧
    (i = .setReg → t.target.dhcsr = s.target.dhcsr)

/-- The frame of the two passes (R174 to R176), whatever the target answers: the verification pass changes no byte of target memory;
the write pass, with the session's caches true, no burst across an auto-increment block and no word at a core debug register,
changes only the plan's bytes (log 7; under `tarWrapBytes` = 0, where no burst crosses a block: log 25). That the core leaves its
registers as they are: log 31. That the reads of a verification pass leave memory and DCRDR as the model holds them, whatever they
show: log 32. That an acknowledged TAR or CSW write is done at once, whatever the sticky flags show: log 35, log 37. -/
def Obligations.PassFrame : Prop :=
  ∀ i s t, i ∈ [Instr.writeBlocks, .verifyBlocks] → s.busy = false → exec i s = .next t →
    t.load = s.load ∧ t.busy = s.busy ∧ t.res.bits = s.res.bits ∧ t.seq.phase = phaseOf s.op s.seq.phase i ∧
    t.sess = { s.sess with
      selValid := t.sess.selValid, selCache := t.sess.selCache, cswConfigured := t.sess.cswConfigured
      stickyCleared := t.sess.stickyCleared, lastCtrlStat := t.sess.lastCtrlStat, tarValid := t.sess.tarValid
      nextAddr := t.sess.nextAddr, burstCount := t.sess.burstCount, failInfo := t.sess.failInfo } ∧
    t.target.idcode = s.target.idcode ∧
    (i = .verifyBlocks → SameBytes s.target.mem t.target.mem ∧ SameCoreRegs s.target t.target) ∧
    (i = .writeBlocks → paramsValid s.cfg = true → BankCacheTrue s → CswTrue s → planStays s.cfg s.op.plan →
      planInMemory s.op.plan → SameCoreRegs s.target t.target ∧
      ∀ b, ¬inPlan s.op.plan b → readByte t.target.mem b = readByte s.target.mem b)

/-- The frame of `CONNECT` (R161 to R167), whatever the target answers: it creates the session but writes neither `selCache` nor
`nextAddr` (log 15), and accesses no AP register; line reset and activation change no target register by the model's choice
(log 29), and so does a core that runs (log 31). -/
def Obligations.ConnectFrame : Prop :=
  ∀ s t, s.busy = false → exec .connect s = .next t →
    t.load = s.load ∧ t.busy = s.busy ∧ t.res.bits = s.res.bits ∧
    t.seq = { s.seq with phase := t.seq.phase } ∧
    t.sess.selValid = false ∧ t.sess.selCache = s.sess.selCache ∧ t.sess.cswConfigured = false ∧ t.sess.halted = false ∧
    t.sess.tarValid = false ∧ t.sess.nextAddr = s.sess.nextAddr ∧ t.sess.burstCount = 0 ∧
    t.target = { s.target with
      idcode := t.target.idcode, ctrlStat := t.target.ctrlStat, draws := t.target.draws }

/-! ## Invariants of every step -/

/-- R21, R22, R24, R130, R201: every step keeps the link state true to the record of cycles, and a turnaround at every change of
driver. -/
def Obligations.StepKeepsTheLinkSafe : Prop :=
  ∀ s t, LinkSafe s → step s = .next t → LinkSafe t

/-- R31, R33, R193: every step keeps the iteration counters within their bounds. -/
def Obligations.StepKeepsTheCountersBounded : Prop :=
  ∀ s t, CountersSafe s → step s = .next t → CountersSafe t

/-- R43, R46, R50, R62, R68, R178: between commands no load operation is in progress, bit 0 of the target's IDCODE reads 1, its
memory keeps its canonical form, and the core its 32 registers (each number a register of its own: log 33). -/
def Obligations.StepKeepsLoadAndTargetSafe : Prop :=
  ∀ s t, step s = .next t → (LoadSafe s → LoadSafe t) ∧ (TargetSafe s → TargetSafe t)

/-- R87, R88, R93 to R97, R105: every command but the raw link commands puts on the wire only line resets, activation bits and
exchanges whose request is one of R87 and never 0x99, and `REQ` never holds another byte; its reset value 0 is the model's choice
(log 5). -/
def Obligations.OnlyLegalRequestsAreEmitted : Prop :=
  (∀ s t, RequestSafe s → step s = .next t → RequestSafe t) ∧
  ∀ i s t, i ∉ [Instr.linkClock, .linkWrite, .linkRead, .linkTrn] → exec i s = .next t →
    ∃ parts : List (List Cycle), (∀ w ∈ parts, Segment s.cfg w) ∧
      t.trace = (if i = .load then [] else s.trace) ++ parts.flatten

/-- R36, R37, R205, R206: the bank cache holds what SELECT holds, and CSW is configured when the session says so, after every
instruction that does not write SELECT or CSW behind the session's back (log 7): every one but `XFER` and DPW8_SELECT, for CSW
also but APW0_CSW and `WR_AP`. That an AP write at 0x08 leaves SELECT and CSW as they were is the model's choice (log 26), and
so it is of the raw link commands, line reset and activation (log 29). R205 makes the cache exact while the target does not reset
its DP: that it never does in a session, nor its AP, is the model's choice (log 30), and so is that a write acknowledged OK
needs no power-up acknowledge (log 34) and no clear sticky flags (log 35) and is done at once (log 37). -/
def Obligations.SessionCachesStayTrue : Prop :=
  ∀ i s t, i ∉ [Instr.xfer, .dpw8Select] → BankCacheTrue s → exec i s = .next t →
    BankCacheTrue t ∧ (i ∉ [Instr.apw0Csw, .wrAp] → paramsValid s.cfg = true → CswTrue s → CswTrue t)

end Statements
end

