-- ==== Sys2Proof/Laws/Bits.lean ====
section
/-! SUPPORT. Bit order: a value sent LSB first and collected LSB first is the value (R70), and the packing of bytes
into words (R71, R173). -/

namespace Sys2Proof.Machine

@[simp] theorem length_bitsLSB {n : Nat} (v : BitVec n) : (bitsLSB v).length = n := by
  simp [bitsLSB]

theorem natLSB_lt (bits : List Bool) : natLSB bits < 2 ^ bits.length := by
  induction bits with
  | nil => simp [natLSB]
  | cons b bs ih =>
    have hb : b.toNat ≤ 1 := Bool.toNat_le b
    simp only [natLSB, List.length_cons, Nat.pow_succ]
    omega

theorem testBit_natLSB (bits : List Bool) (i : Nat) : (natLSB bits).testBit i = bits.getD i false := by
  induction bits generalizing i with
  | nil => simp [natLSB]
  | cons b bs ih =>
    cases i with
    | zero => cases b <;> simp [natLSB, Nat.testBit_zero]
    | succ i =>
      rw [Nat.testBit_succ]
      have : (natLSB (b :: bs)) / 2 = natLSB bs := by
        have hb : b.toNat ≤ 1 := Bool.toNat_le b
        simp only [natLSB]
        omega
      rw [this, ih]
      simp

/-- Bit `k` of the collected value is the `k`-th bit (R14, R70). -/
theorem getLsbD_valLSB (n : Nat) (bits : List Bool) (k : Nat) (hk : k < n) : (valLSB n bits).getLsbD k = bits.getD k false := by
  rw [valLSB, BitVec.getLsbD_ofNat, testBit_natLSB, decide_eq_true hk, Bool.true_and]

/-- A value sent LSB first (R70) and collected LSB first is the value. -/
@[simp] theorem valLSB_bitsLSB {n : Nat} (v : BitVec n) : valLSB n (bitsLSB v) = v := by
  apply BitVec.eq_of_getLsbD_eq
  intro i hi
  simp only [valLSB, BitVec.getLsbD_ofNat, testBit_natLSB, hi, decide_true, Bool.true_and]
  rw [List.getD_eq_getElem?_getD]
  simp [bitsLSB, hi]

/-- The bits of a collected value are the bits collected. -/
theorem bitsLSB_valLSB (bits : List Bool) : bitsLSB (valLSB bits.length bits) = bits := by
  apply List.ext_getElem
  · simp
  · intro i h1 h2
    simp only [bitsLSB, List.getElem_map, List.getElem_range, valLSB, BitVec.getLsbD_ofNat, testBit_natLSB, h2,
      decide_true, Bool.true_and]
    simp [List.getD_eq_getElem?_getD, h2]

theorem wordsOfBytes_length (n : Nat) (bs : List Byte) (h : bs.length = 4 * n) : (wordsOfBytes bs).length = n := by
  induction n generalizing bs with
  | zero =>
    have : bs = [] := List.length_eq_zero_iff.mp (by omega)
    subst this
    rfl
  | succ n ih =>
    match bs, h with
    | b0 :: b1 :: b2 :: b3 :: rest, h =>
      simp only [wordsOfBytes, List.length_cons]
      rw [ih rest (by simp only [List.length_cons] at h; omega)]

/-- The word `j` of R173: bytes `4j` to `4j + 3`, little-endian. -/
theorem wordsOfBytes_getElem (n : Nat) (bs : List Byte) (h : bs.length = 4 * n) (j : Nat) (hj : j < n) :
    (wordsOfBytes bs).getD j 0 =
      wordOfBytes (bs.getD (4 * j) 0) (bs.getD (4 * j + 1) 0) (bs.getD (4 * j + 2) 0) (bs.getD (4 * j + 3) 0) := by
  induction n generalizing bs j with
  | zero => omega
  | succ n ih =>
    match bs, h with
    | b0 :: b1 :: b2 :: b3 :: rest, h =>
      cases j with
      | zero => simp [wordsOfBytes]
      | succ j =>
        have hr : rest.length = 4 * n := by simp only [List.length_cons] at h; omega
        have := ih rest hr j (by omega)
        simp only [wordsOfBytes, List.getD_cons_succ, this, Nat.mul_add, Nat.mul_one]

/-- Byte `k` of a word packed from four bytes is the byte at offset `k` (R71). -/
theorem byteOfWord_wordOfBytes (b0 b1 b2 b3 : Byte) :
    byteOfWord (wordOfBytes b0 b1 b2 b3) 0 = b0 ∧ byteOfWord (wordOfBytes b0 b1 b2 b3) 1 = b1 ∧
      byteOfWord (wordOfBytes b0 b1 b2 b3) 2 = b2 ∧ byteOfWord (wordOfBytes b0 b1 b2 b3) 3 = b3 := by
  refine ⟨?_, ?_, ?_, ?_⟩ <;>
    · apply BitVec.eq_of_getLsbD_eq
      intro i hi
      simp only [byteOfWord, wordOfBytes, BitVec.getLsbD_extractLsb', BitVec.getLsbD_append]
      interval_cases i <;> simp

/-- The class of an acknowledge, by the bits sampled (R91, R127). -/
theorem classify_bits (b0 b1 b2 : Bool) :
    classify (valLSB 3 [b0, b1, b2]) =
      match b0, b1, b2 with
      | true, false, false => .ok
      | false, true, false => .wait
      | false, false, true => .fault
      | _, _, _ => .proterr := by
  cases b0 <;> cases b1 <;> cases b2 <;> rfl

end Sys2Proof.Machine
end

