-- ==== Sys2Proof/Laws/State.lean ====
section
/-! SUPPORT. What each named update of the state writes and what it leaves alone: one lemma per field per update, true by
rfl. Later proofs cite these and never unfold a record update. -/

namespace Sys2Proof.Machine

/-! One host-driven cycle (R111). -/

@[simp] theorem cycleH_cfg (b : Bool) (s : State) : (cycleH b s).cfg = s.cfg := rfl
@[simp] theorem cycleH_link (b : Bool) (s : State) : (cycleH b s).link = { clk := false, oe := true, dout := b, lastDir := .host } := rfl
@[simp] theorem cycleH_dp (b : Bool) (s : State) : (cycleH b s).dp = s.dp := rfl
@[simp] theorem cycleH_op (b : Bool) (s : State) : (cycleH b s).op = s.op := rfl
@[simp] theorem cycleH_res (b : Bool) (s : State) : (cycleH b s).res = s.res := rfl
@[simp] theorem cycleH_sess (b : Bool) (s : State) : (cycleH b s).sess = s.sess := rfl
@[simp] theorem cycleH_load (b : Bool) (s : State) : (cycleH b s).load = s.load := rfl
@[simp] theorem cycleH_seq (b : Bool) (s : State) : (cycleH b s).seq = s.seq := rfl
@[simp] theorem cycleH_busy (b : Bool) (s : State) : (cycleH b s).busy = s.busy := rfl
@[simp] theorem cycleH_trace (b : Bool) (s : State) : (cycleH b s).trace = s.trace ++ [.h b] := rfl
@[simp] theorem cycleH_target (b : Bool) (s : State) : (cycleH b s).target = s.target := rfl
@[simp] theorem cycleH_targetIn (b : Bool) (s : State) : (cycleH b s).targetIn = s.targetIn := rfl
@[simp] theorem cycleH_draws (b : Bool) (s : State) : (cycleH b s).draws = s.draws := rfl
@[simp] theorem cycleH_inbox (b : Bool) (s : State) : (cycleH b s).inbox = s.inbox := rfl

/-! One released cycle (R113). -/

@[simp] theorem cycleZ_cfg (s : State) : (cycleZ s).cfg = s.cfg := rfl
@[simp] theorem cycleZ_link (s : State) : (cycleZ s).link = { s.link with clk := false, oe := false, lastDir := .released } := rfl
@[simp] theorem cycleZ_dp (s : State) : (cycleZ s).dp = s.dp := rfl
@[simp] theorem cycleZ_op (s : State) : (cycleZ s).op = s.op := rfl
@[simp] theorem cycleZ_res (s : State) : (cycleZ s).res = s.res := rfl
@[simp] theorem cycleZ_sess (s : State) : (cycleZ s).sess = s.sess := rfl
@[simp] theorem cycleZ_load (s : State) : (cycleZ s).load = s.load := rfl
@[simp] theorem cycleZ_seq (s : State) : (cycleZ s).seq = s.seq := rfl
@[simp] theorem cycleZ_busy (s : State) : (cycleZ s).busy = s.busy := rfl
@[simp] theorem cycleZ_trace (s : State) : (cycleZ s).trace = s.trace ++ [.z] := rfl
@[simp] theorem cycleZ_target (s : State) : (cycleZ s).target = s.target := rfl
@[simp] theorem cycleZ_targetIn (s : State) : (cycleZ s).targetIn = s.targetIn := rfl
@[simp] theorem cycleZ_draws (s : State) : (cycleZ s).draws = s.draws := rfl
@[simp] theorem cycleZ_inbox (s : State) : (cycleZ s).inbox = s.inbox := rfl

/-! `RES_OK <- b`. -/

@[simp] theorem setOk_cfg (b : Bool) (s : State) : (setOk b s).cfg = s.cfg := rfl
@[simp] theorem setOk_link (b : Bool) (s : State) : (setOk b s).link = s.link := rfl
@[simp] theorem setOk_dp (b : Bool) (s : State) : (setOk b s).dp = s.dp := rfl
@[simp] theorem setOk_op (b : Bool) (s : State) : (setOk b s).op = s.op := rfl
@[simp] theorem setOk_res (b : Bool) (s : State) : (setOk b s).res = { s.res with ok := b } := rfl
@[simp] theorem setOk_sess (b : Bool) (s : State) : (setOk b s).sess = s.sess := rfl
@[simp] theorem setOk_load (b : Bool) (s : State) : (setOk b s).load = s.load := rfl
@[simp] theorem setOk_seq (b : Bool) (s : State) : (setOk b s).seq = s.seq := rfl
@[simp] theorem setOk_busy (b : Bool) (s : State) : (setOk b s).busy = s.busy := rfl
@[simp] theorem setOk_trace (b : Bool) (s : State) : (setOk b s).trace = s.trace := rfl
@[simp] theorem setOk_target (b : Bool) (s : State) : (setOk b s).target = s.target := rfl
@[simp] theorem setOk_targetIn (b : Bool) (s : State) : (setOk b s).targetIn = s.targetIn := rfl
@[simp] theorem setOk_draws (b : Bool) (s : State) : (setOk b s).draws = s.draws := rfl
@[simp] theorem setOk_inbox (b : Bool) (s : State) : (setOk b s).inbox = s.inbox := rfl

/-! `seq.phase <- p`. -/

@[simp] theorem setPhase_cfg (p : Phase) (s : State) : (setPhase p s).cfg = s.cfg := rfl
@[simp] theorem setPhase_link (p : Phase) (s : State) : (setPhase p s).link = s.link := rfl
@[simp] theorem setPhase_dp (p : Phase) (s : State) : (setPhase p s).dp = s.dp := rfl
@[simp] theorem setPhase_op (p : Phase) (s : State) : (setPhase p s).op = s.op := rfl
@[simp] theorem setPhase_res (p : Phase) (s : State) : (setPhase p s).res = s.res := rfl
@[simp] theorem setPhase_sess (p : Phase) (s : State) : (setPhase p s).sess = s.sess := rfl
@[simp] theorem setPhase_load (p : Phase) (s : State) : (setPhase p s).load = s.load := rfl
@[simp] theorem setPhase_seq (p : Phase) (s : State) : (setPhase p s).seq = { s.seq with phase := p } := rfl
@[simp] theorem setPhase_busy (p : Phase) (s : State) : (setPhase p s).busy = s.busy := rfl
@[simp] theorem setPhase_trace (p : Phase) (s : State) : (setPhase p s).trace = s.trace := rfl
@[simp] theorem setPhase_target (p : Phase) (s : State) : (setPhase p s).target = s.target := rfl
@[simp] theorem setPhase_targetIn (p : Phase) (s : State) : (setPhase p s).targetIn = s.targetIn := rfl
@[simp] theorem setPhase_draws (p : Phase) (s : State) : (setPhase p s).draws = s.draws := rfl
@[simp] theorem setPhase_inbox (p : Phase) (s : State) : (setPhase p s).inbox = s.inbox := rfl

/-! A step of CONNECT is entered (R162). -/

@[simp] theorem enterStep_cfg (c : Conn) (p : Phase) (s : State) : (enterStep c p s).cfg = s.cfg := rfl
@[simp] theorem enterStep_link (c : Conn) (p : Phase) (s : State) : (enterStep c p s).link = s.link := rfl
@[simp] theorem enterStep_dp (c : Conn) (p : Phase) (s : State) : (enterStep c p s).dp = s.dp := rfl
@[simp] theorem enterStep_op (c : Conn) (p : Phase) (s : State) : (enterStep c p s).op = s.op := rfl
@[simp] theorem enterStep_res (c : Conn) (p : Phase) (s : State) : (enterStep c p s).res = s.res := rfl
@[simp] theorem enterStep_sess (c : Conn) (p : Phase) (s : State) : (enterStep c p s).sess = { s.sess with conn := c } := rfl
@[simp] theorem enterStep_load (c : Conn) (p : Phase) (s : State) : (enterStep c p s).load = s.load := rfl
@[simp] theorem enterStep_seq (c : Conn) (p : Phase) (s : State) : (enterStep c p s).seq = { s.seq with phase := p } := rfl
@[simp] theorem enterStep_busy (c : Conn) (p : Phase) (s : State) : (enterStep c p s).busy = s.busy := rfl
@[simp] theorem enterStep_trace (c : Conn) (p : Phase) (s : State) : (enterStep c p s).trace = s.trace := rfl
@[simp] theorem enterStep_target (c : Conn) (p : Phase) (s : State) : (enterStep c p s).target = s.target := rfl
@[simp] theorem enterStep_targetIn (c : Conn) (p : Phase) (s : State) : (enterStep c p s).targetIn = s.targetIn := rfl
@[simp] theorem enterStep_draws (c : Conn) (p : Phase) (s : State) : (enterStep c p s).draws = s.draws := rfl
@[simp] theorem enterStep_inbox (c : Conn) (p : Phase) (s : State) : (enterStep c p s).inbox = s.inbox := rfl

/-! The fresh session (R161). -/

@[simp] theorem freshSession_cfg (s : State) : (freshSession s).cfg = s.cfg := rfl
@[simp] theorem freshSession_link (s : State) : (freshSession s).link = s.link := rfl
@[simp] theorem freshSession_dp (s : State) : (freshSession s).dp = s.dp := rfl
@[simp] theorem freshSession_op (s : State) : (freshSession s).op = s.op := rfl
@[simp] theorem freshSession_res (s : State) : (freshSession s).res = s.res := rfl
@[simp] theorem freshSession_sess (s : State) : (freshSession s).sess = { s.sess with selValid := false, cswConfigured := false, stickyCleared := false, halted := false, lastCtrlStat := none, tarValid := false, burstCount := 0, failInfo := none, conn := .idle } := rfl
@[simp] theorem freshSession_load (s : State) : (freshSession s).load = s.load := rfl
@[simp] theorem freshSession_seq (s : State) : (freshSession s).seq = s.seq := rfl
@[simp] theorem freshSession_busy (s : State) : (freshSession s).busy = s.busy := rfl
@[simp] theorem freshSession_trace (s : State) : (freshSession s).trace = s.trace := rfl
@[simp] theorem freshSession_target (s : State) : (freshSession s).target = s.target := rfl
@[simp] theorem freshSession_targetIn (s : State) : (freshSession s).targetIn = s.targetIn := rfl
@[simp] theorem freshSession_draws (s : State) : (freshSession s).draws = s.draws := rfl
@[simp] theorem freshSession_inbox (s : State) : (freshSession s).inbox = s.inbox := rfl

/-! The bank cache is set (R150). -/

@[simp] theorem cacheSelect_cfg (v : Word) (s : State) : (cacheSelect v s).cfg = s.cfg := rfl
@[simp] theorem cacheSelect_link (v : Word) (s : State) : (cacheSelect v s).link = s.link := rfl
@[simp] theorem cacheSelect_dp (v : Word) (s : State) : (cacheSelect v s).dp = s.dp := rfl
@[simp] theorem cacheSelect_op (v : Word) (s : State) : (cacheSelect v s).op = s.op := rfl
@[simp] theorem cacheSelect_res (v : Word) (s : State) : (cacheSelect v s).res = s.res := rfl
@[simp] theorem cacheSelect_sess (v : Word) (s : State) : (cacheSelect v s).sess = { s.sess with selCache := v, selValid := true } := rfl
@[simp] theorem cacheSelect_load (v : Word) (s : State) : (cacheSelect v s).load = s.load := rfl
@[simp] theorem cacheSelect_seq (v : Word) (s : State) : (cacheSelect v s).seq = s.seq := rfl
@[simp] theorem cacheSelect_busy (v : Word) (s : State) : (cacheSelect v s).busy = s.busy := rfl
@[simp] theorem cacheSelect_trace (v : Word) (s : State) : (cacheSelect v s).trace = s.trace := rfl
@[simp] theorem cacheSelect_target (v : Word) (s : State) : (cacheSelect v s).target = s.target := rfl
@[simp] theorem cacheSelect_targetIn (v : Word) (s : State) : (cacheSelect v s).targetIn = s.targetIn := rfl
@[simp] theorem cacheSelect_draws (v : Word) (s : State) : (cacheSelect v s).draws = s.draws := rfl
@[simp] theorem cacheSelect_inbox (v : Word) (s : State) : (cacheSelect v s).inbox = s.inbox := rfl

/-! `faultRetried <- b`. -/

@[simp] theorem setFaultRetried_cfg (b : Bool) (s : State) : (setFaultRetried b s).cfg = s.cfg := rfl
@[simp] theorem setFaultRetried_link (b : Bool) (s : State) : (setFaultRetried b s).link = s.link := rfl
@[simp] theorem setFaultRetried_dp (b : Bool) (s : State) : (setFaultRetried b s).dp = { s.dp with faultRetried := b } := rfl
@[simp] theorem setFaultRetried_op (b : Bool) (s : State) : (setFaultRetried b s).op = s.op := rfl
@[simp] theorem setFaultRetried_res (b : Bool) (s : State) : (setFaultRetried b s).res = s.res := rfl
@[simp] theorem setFaultRetried_sess (b : Bool) (s : State) : (setFaultRetried b s).sess = s.sess := rfl
@[simp] theorem setFaultRetried_load (b : Bool) (s : State) : (setFaultRetried b s).load = s.load := rfl
@[simp] theorem setFaultRetried_seq (b : Bool) (s : State) : (setFaultRetried b s).seq = s.seq := rfl
@[simp] theorem setFaultRetried_busy (b : Bool) (s : State) : (setFaultRetried b s).busy = s.busy := rfl
@[simp] theorem setFaultRetried_trace (b : Bool) (s : State) : (setFaultRetried b s).trace = s.trace := rfl
@[simp] theorem setFaultRetried_target (b : Bool) (s : State) : (setFaultRetried b s).target = s.target := rfl
@[simp] theorem setFaultRetried_targetIn (b : Bool) (s : State) : (setFaultRetried b s).targetIn = s.targetIn := rfl
@[simp] theorem setFaultRetried_draws (b : Bool) (s : State) : (setFaultRetried b s).draws = s.draws := rfl
@[simp] theorem setFaultRetried_inbox (b : Bool) (s : State) : (setFaultRetried b s).inbox = s.inbox := rfl

/-! `RES_VALUE <- RDATA`. -/

@[simp] theorem resultFromRdata_cfg (s : State) : (resultFromRdata s).cfg = s.cfg := rfl
@[simp] theorem resultFromRdata_link (s : State) : (resultFromRdata s).link = s.link := rfl
@[simp] theorem resultFromRdata_dp (s : State) : (resultFromRdata s).dp = s.dp := rfl
@[simp] theorem resultFromRdata_op (s : State) : (resultFromRdata s).op = s.op := rfl
@[simp] theorem resultFromRdata_res (s : State) : (resultFromRdata s).res = { s.res with value := s.dp.rdata } := rfl
@[simp] theorem resultFromRdata_sess (s : State) : (resultFromRdata s).sess = s.sess := rfl
@[simp] theorem resultFromRdata_load (s : State) : (resultFromRdata s).load = s.load := rfl
@[simp] theorem resultFromRdata_seq (s : State) : (resultFromRdata s).seq = s.seq := rfl
@[simp] theorem resultFromRdata_busy (s : State) : (resultFromRdata s).busy = s.busy := rfl
@[simp] theorem resultFromRdata_trace (s : State) : (resultFromRdata s).trace = s.trace := rfl
@[simp] theorem resultFromRdata_target (s : State) : (resultFromRdata s).target = s.target := rfl
@[simp] theorem resultFromRdata_targetIn (s : State) : (resultFromRdata s).targetIn = s.targetIn := rfl
@[simp] theorem resultFromRdata_draws (s : State) : (resultFromRdata s).draws = s.draws := rfl
@[simp] theorem resultFromRdata_inbox (s : State) : (resultFromRdata s).inbox = s.inbox := rfl

/-! `tarValid <- false`. -/

@[simp] theorem forgetTar_cfg (s : State) : (forgetTar s).cfg = s.cfg := rfl
@[simp] theorem forgetTar_link (s : State) : (forgetTar s).link = s.link := rfl
@[simp] theorem forgetTar_dp (s : State) : (forgetTar s).dp = s.dp := rfl
@[simp] theorem forgetTar_op (s : State) : (forgetTar s).op = s.op := rfl
@[simp] theorem forgetTar_res (s : State) : (forgetTar s).res = s.res := rfl
@[simp] theorem forgetTar_sess (s : State) : (forgetTar s).sess = { s.sess with tarValid := false } := rfl
@[simp] theorem forgetTar_load (s : State) : (forgetTar s).load = s.load := rfl
@[simp] theorem forgetTar_seq (s : State) : (forgetTar s).seq = s.seq := rfl
@[simp] theorem forgetTar_busy (s : State) : (forgetTar s).busy = s.busy := rfl
@[simp] theorem forgetTar_trace (s : State) : (forgetTar s).trace = s.trace := rfl
@[simp] theorem forgetTar_target (s : State) : (forgetTar s).target = s.target := rfl
@[simp] theorem forgetTar_targetIn (s : State) : (forgetTar s).targetIn = s.targetIn := rfl
@[simp] theorem forgetTar_draws (s : State) : (forgetTar s).draws = s.draws := rfl
@[simp] theorem forgetTar_inbox (s : State) : (forgetTar s).inbox = s.inbox := rfl

/-! `halted <- b`. -/

@[simp] theorem setHalted_cfg (b : Bool) (s : State) : (setHalted b s).cfg = s.cfg := rfl
@[simp] theorem setHalted_link (b : Bool) (s : State) : (setHalted b s).link = s.link := rfl
@[simp] theorem setHalted_dp (b : Bool) (s : State) : (setHalted b s).dp = s.dp := rfl
@[simp] theorem setHalted_op (b : Bool) (s : State) : (setHalted b s).op = s.op := rfl
@[simp] theorem setHalted_res (b : Bool) (s : State) : (setHalted b s).res = s.res := rfl
@[simp] theorem setHalted_sess (b : Bool) (s : State) : (setHalted b s).sess = { s.sess with halted := b } := rfl
@[simp] theorem setHalted_load (b : Bool) (s : State) : (setHalted b s).load = s.load := rfl
@[simp] theorem setHalted_seq (b : Bool) (s : State) : (setHalted b s).seq = s.seq := rfl
@[simp] theorem setHalted_busy (b : Bool) (s : State) : (setHalted b s).busy = s.busy := rfl
@[simp] theorem setHalted_trace (b : Bool) (s : State) : (setHalted b s).trace = s.trace := rfl
@[simp] theorem setHalted_target (b : Bool) (s : State) : (setHalted b s).target = s.target := rfl
@[simp] theorem setHalted_targetIn (b : Bool) (s : State) : (setHalted b s).targetIn = s.targetIn := rfl
@[simp] theorem setHalted_draws (b : Bool) (s : State) : (setHalted b s).draws = s.draws := rfl
@[simp] theorem setHalted_inbox (b : Bool) (s : State) : (setHalted b s).inbox = s.inbox := rfl

/-! TAR written by a pass (R174). -/

@[simp] theorem startBurst_cfg (s : State) : (startBurst s).cfg = s.cfg := rfl
@[simp] theorem startBurst_link (s : State) : (startBurst s).link = s.link := rfl
@[simp] theorem startBurst_dp (s : State) : (startBurst s).dp = s.dp := rfl
@[simp] theorem startBurst_op (s : State) : (startBurst s).op = s.op := rfl
@[simp] theorem startBurst_res (s : State) : (startBurst s).res = s.res := rfl
@[simp] theorem startBurst_sess (s : State) : (startBurst s).sess = { s.sess with tarValid := true, burstCount := 0 } := rfl
@[simp] theorem startBurst_load (s : State) : (startBurst s).load = s.load := rfl
@[simp] theorem startBurst_seq (s : State) : (startBurst s).seq = s.seq := rfl
@[simp] theorem startBurst_busy (s : State) : (startBurst s).busy = s.busy := rfl
@[simp] theorem startBurst_trace (s : State) : (startBurst s).trace = s.trace := rfl
@[simp] theorem startBurst_target (s : State) : (startBurst s).target = s.target := rfl
@[simp] theorem startBurst_targetIn (s : State) : (startBurst s).targetIn = s.targetIn := rfl
@[simp] theorem startBurst_draws (s : State) : (startBurst s).draws = s.draws := rfl
@[simp] theorem startBurst_inbox (s : State) : (startBurst s).inbox = s.inbox := rfl

/-! TAR tracking at the start of a pass (R174). -/

@[simp] theorem startPass_cfg (s : State) : (startPass s).cfg = s.cfg := rfl
@[simp] theorem startPass_link (s : State) : (startPass s).link = s.link := rfl
@[simp] theorem startPass_dp (s : State) : (startPass s).dp = s.dp := rfl
@[simp] theorem startPass_op (s : State) : (startPass s).op = s.op := rfl
@[simp] theorem startPass_res (s : State) : (startPass s).res = s.res := rfl
@[simp] theorem startPass_sess (s : State) : (startPass s).sess = { s.sess with tarValid := false, burstCount := 0 } := rfl
@[simp] theorem startPass_load (s : State) : (startPass s).load = s.load := rfl
@[simp] theorem startPass_seq (s : State) : (startPass s).seq = s.seq := rfl
@[simp] theorem startPass_busy (s : State) : (startPass s).busy = s.busy := rfl
@[simp] theorem startPass_trace (s : State) : (startPass s).trace = s.trace := rfl
@[simp] theorem startPass_target (s : State) : (startPass s).target = s.target := rfl
@[simp] theorem startPass_targetIn (s : State) : (startPass s).targetIn = s.targetIn := rfl
@[simp] theorem startPass_draws (s : State) : (startPass s).draws = s.draws := rfl
@[simp] theorem startPass_inbox (s : State) : (startPass s).inbox = s.inbox := rfl

/-! One DRW access of a pass (R174). -/

@[simp] theorem advanceBurst_cfg (a : Addr32) (s : State) : (advanceBurst a s).cfg = s.cfg := rfl
@[simp] theorem advanceBurst_link (a : Addr32) (s : State) : (advanceBurst a s).link = s.link := rfl
@[simp] theorem advanceBurst_dp (a : Addr32) (s : State) : (advanceBurst a s).dp = s.dp := rfl
@[simp] theorem advanceBurst_op (a : Addr32) (s : State) : (advanceBurst a s).op = s.op := rfl
@[simp] theorem advanceBurst_res (a : Addr32) (s : State) : (advanceBurst a s).res = s.res := rfl
@[simp] theorem advanceBurst_sess (a : Addr32) (s : State) : (advanceBurst a s).sess = { s.sess with nextAddr := a + 4, burstCount := s.sess.burstCount + 1 } := rfl
@[simp] theorem advanceBurst_load (a : Addr32) (s : State) : (advanceBurst a s).load = s.load := rfl
@[simp] theorem advanceBurst_seq (a : Addr32) (s : State) : (advanceBurst a s).seq = s.seq := rfl
@[simp] theorem advanceBurst_busy (a : Addr32) (s : State) : (advanceBurst a s).busy = s.busy := rfl
@[simp] theorem advanceBurst_trace (a : Addr32) (s : State) : (advanceBurst a s).trace = s.trace := rfl
@[simp] theorem advanceBurst_target (a : Addr32) (s : State) : (advanceBurst a s).target = s.target := rfl
@[simp] theorem advanceBurst_targetIn (a : Addr32) (s : State) : (advanceBurst a s).targetIn = s.targetIn := rfl
@[simp] theorem advanceBurst_draws (a : Addr32) (s : State) : (advanceBurst a s).draws = s.draws := rfl
@[simp] theorem advanceBurst_inbox (a : Addr32) (s : State) : (advanceBurst a s).inbox = s.inbox := rfl

/-! `load <- l`. -/

@[simp] theorem setLoad_cfg (l : Load) (s : State) : (setLoad l s).cfg = s.cfg := rfl
@[simp] theorem setLoad_link (l : Load) (s : State) : (setLoad l s).link = s.link := rfl
@[simp] theorem setLoad_dp (l : Load) (s : State) : (setLoad l s).dp = s.dp := rfl
@[simp] theorem setLoad_op (l : Load) (s : State) : (setLoad l s).op = s.op := rfl
@[simp] theorem setLoad_res (l : Load) (s : State) : (setLoad l s).res = s.res := rfl
@[simp] theorem setLoad_sess (l : Load) (s : State) : (setLoad l s).sess = s.sess := rfl
@[simp] theorem setLoad_load (l : Load) (s : State) : (setLoad l s).load = l := rfl
@[simp] theorem setLoad_seq (l : Load) (s : State) : (setLoad l s).seq = s.seq := rfl
@[simp] theorem setLoad_busy (l : Load) (s : State) : (setLoad l s).busy = s.busy := rfl
@[simp] theorem setLoad_trace (l : Load) (s : State) : (setLoad l s).trace = s.trace := rfl
@[simp] theorem setLoad_target (l : Load) (s : State) : (setLoad l s).target = s.target := rfl
@[simp] theorem setLoad_targetIn (l : Load) (s : State) : (setLoad l s).targetIn = s.targetIn := rfl
@[simp] theorem setLoad_draws (l : Load) (s : State) : (setLoad l s).draws = s.draws := rfl
@[simp] theorem setLoad_inbox (l : Load) (s : State) : (setLoad l s).inbox = s.inbox := rfl

/-! A LOAD is accepted (R177). -/

@[simp] theorem beginLoad_cfg (s : State) : (beginLoad s).cfg = s.cfg := rfl
@[simp] theorem beginLoad_link (s : State) : (beginLoad s).link = s.link := rfl
@[simp] theorem beginLoad_dp (s : State) : (beginLoad s).dp = s.dp := rfl
@[simp] theorem beginLoad_op (s : State) : (beginLoad s).op = s.op := rfl
@[simp] theorem beginLoad_res (s : State) : (beginLoad s).res = s.res := rfl
@[simp] theorem beginLoad_sess (s : State) : (beginLoad s).sess = s.sess := rfl
@[simp] theorem beginLoad_load (s : State) : (beginLoad s).load = .notConnected := rfl
@[simp] theorem beginLoad_seq (s : State) : (beginLoad s).seq = s.seq := rfl
@[simp] theorem beginLoad_busy (s : State) : (beginLoad s).busy = true := rfl
@[simp] theorem beginLoad_trace (s : State) : (beginLoad s).trace = [] := rfl
@[simp] theorem beginLoad_target (s : State) : (beginLoad s).target = s.target := rfl
@[simp] theorem beginLoad_targetIn (s : State) : (beginLoad s).targetIn = s.targetIn := rfl
@[simp] theorem beginLoad_draws (s : State) : (beginLoad s).draws = s.draws := rfl
@[simp] theorem beginLoad_inbox (s : State) : (beginLoad s).inbox = s.inbox := rfl

/-! A LOAD ends in Running (R177). -/

@[simp] theorem endLoad_cfg (s : State) : (endLoad s).cfg = s.cfg := rfl
@[simp] theorem endLoad_link (s : State) : (endLoad s).link = s.link := rfl
@[simp] theorem endLoad_dp (s : State) : (endLoad s).dp = s.dp := rfl
@[simp] theorem endLoad_op (s : State) : (endLoad s).op = s.op := rfl
@[simp] theorem endLoad_res (s : State) : (endLoad s).res = s.res := rfl
@[simp] theorem endLoad_sess (s : State) : (endLoad s).sess = s.sess := rfl
@[simp] theorem endLoad_load (s : State) : (endLoad s).load = .running := rfl
@[simp] theorem endLoad_seq (s : State) : (endLoad s).seq = s.seq := rfl
@[simp] theorem endLoad_busy (s : State) : (endLoad s).busy = false := rfl
@[simp] theorem endLoad_trace (s : State) : (endLoad s).trace = s.trace := rfl
@[simp] theorem endLoad_target (s : State) : (endLoad s).target = s.target := rfl
@[simp] theorem endLoad_targetIn (s : State) : (endLoad s).targetIn = s.targetIn := rfl
@[simp] theorem endLoad_draws (s : State) : (endLoad s).draws = s.draws := rfl
@[simp] theorem endLoad_inbox (s : State) : (endLoad s).inbox = s.inbox := rfl

/-! The failure entry (R186). -/

@[simp] theorem failEntry_cfg (c : FailCause) (a : Option Addr32) (s : State) : (failEntry c a s).cfg = s.cfg := rfl
@[simp] theorem failEntry_link (c : FailCause) (a : Option Addr32) (s : State) : (failEntry c a s).link = s.link := rfl
@[simp] theorem failEntry_dp (c : FailCause) (a : Option Addr32) (s : State) : (failEntry c a s).dp = s.dp := rfl
@[simp] theorem failEntry_op (c : FailCause) (a : Option Addr32) (s : State) : (failEntry c a s).op = s.op := rfl
@[simp] theorem failEntry_res (c : FailCause) (a : Option Addr32) (s : State) : (failEntry c a s).res = { s.res with ok := false } := rfl
@[simp] theorem failEntry_sess (c : FailCause) (a : Option Addr32) (s : State) : (failEntry c a s).sess = { s.sess with failInfo := some (s.sess.failInfo.getD { step := s.seq.phase, cause := c, addr := a }) } := rfl
@[simp] theorem failEntry_load (c : FailCause) (a : Option Addr32) (s : State) : (failEntry c a s).load = if s.busy then .failed else s.load := rfl
@[simp] theorem failEntry_seq (c : FailCause) (a : Option Addr32) (s : State) : (failEntry c a s).seq = s.seq := rfl
@[simp] theorem failEntry_busy (c : FailCause) (a : Option Addr32) (s : State) : (failEntry c a s).busy = false := rfl
@[simp] theorem failEntry_trace (c : FailCause) (a : Option Addr32) (s : State) : (failEntry c a s).trace = s.trace := rfl
@[simp] theorem failEntry_target (c : FailCause) (a : Option Addr32) (s : State) : (failEntry c a s).target = s.target := rfl
@[simp] theorem failEntry_targetIn (c : FailCause) (a : Option Addr32) (s : State) : (failEntry c a s).targetIn = s.targetIn := rfl
@[simp] theorem failEntry_draws (c : FailCause) (a : Option Addr32) (s : State) : (failEntry c a s).draws = s.draws := rfl
@[simp] theorem failEntry_inbox (c : FailCause) (a : Option Addr32) (s : State) : (failEntry c a s).inbox = s.inbox := rfl

/-! A command is accepted (log 3). -/

@[simp] theorem acceptIssue_cfg (c : Issue) (r : List Issue) (s : State) : (acceptIssue c r s).cfg = s.cfg := rfl
@[simp] theorem acceptIssue_link (c : Issue) (r : List Issue) (s : State) : (acceptIssue c r s).link = s.link := rfl
@[simp] theorem acceptIssue_dp (c : Issue) (r : List Issue) (s : State) : (acceptIssue c r s).dp = s.dp := rfl
@[simp] theorem acceptIssue_op (c : Issue) (r : List Issue) (s : State) : (acceptIssue c r s).op = c.operands := rfl
@[simp] theorem acceptIssue_res (c : Issue) (r : List Issue) (s : State) : (acceptIssue c r s).res = s.res := rfl
@[simp] theorem acceptIssue_sess (c : Issue) (r : List Issue) (s : State) : (acceptIssue c r s).sess = s.sess := rfl
@[simp] theorem acceptIssue_load (c : Issue) (r : List Issue) (s : State) : (acceptIssue c r s).load = s.load := rfl
@[simp] theorem acceptIssue_seq (c : Issue) (r : List Issue) (s : State) : (acceptIssue c r s).seq = s.seq := rfl
@[simp] theorem acceptIssue_busy (c : Issue) (r : List Issue) (s : State) : (acceptIssue c r s).busy = s.busy := rfl
@[simp] theorem acceptIssue_trace (c : Issue) (r : List Issue) (s : State) : (acceptIssue c r s).trace = s.trace := rfl
@[simp] theorem acceptIssue_target (c : Issue) (r : List Issue) (s : State) : (acceptIssue c r s).target = s.target := rfl
@[simp] theorem acceptIssue_targetIn (c : Issue) (r : List Issue) (s : State) : (acceptIssue c r s).targetIn = s.targetIn := rfl
@[simp] theorem acceptIssue_draws (c : Issue) (r : List Issue) (s : State) : (acceptIssue c r s).draws = s.draws := rfl
@[simp] theorem acceptIssue_inbox (c : Issue) (r : List Issue) (s : State) : (acceptIssue c r s).inbox = r := rfl

/-! The status bits of DHCSR are the core's (R59; log 27). -/

@[simp] theorem freeDhcsrStatus_idcode (m : Word) (t : Target) : (freeDhcsrStatus m t).idcode = t.idcode := rfl
@[simp] theorem freeDhcsrStatus_ctrlStat (m : Word) (t : Target) : (freeDhcsrStatus m t).ctrlStat = t.ctrlStat := rfl
@[simp] theorem freeDhcsrStatus_select (m : Word) (t : Target) : (freeDhcsrStatus m t).select = t.select := rfl
@[simp] theorem freeDhcsrStatus_rdbuff (m : Word) (t : Target) : (freeDhcsrStatus m t).rdbuff = t.rdbuff := rfl
@[simp] theorem freeDhcsrStatus_csw (m : Word) (t : Target) : (freeDhcsrStatus m t).csw = t.csw := rfl
@[simp] theorem freeDhcsrStatus_tar (m : Word) (t : Target) : (freeDhcsrStatus m t).tar = t.tar := rfl
@[simp] theorem freeDhcsrStatus_dhcsr (m : Word) (t : Target) : (freeDhcsrStatus m t).dhcsr = t.dhcsr := rfl
@[simp] theorem freeDhcsrStatus_dcrsr (m : Word) (t : Target) : (freeDhcsrStatus m t).dcrsr = t.dcrsr := rfl
@[simp] theorem freeDhcsrStatus_dcrdr (m : Word) (t : Target) : (freeDhcsrStatus m t).dcrdr = t.dcrdr := rfl
@[simp] theorem freeDhcsrStatus_coreRegs (m : Word) (t : Target) : (freeDhcsrStatus m t).coreRegs = t.coreRegs := rfl
@[simp] theorem freeDhcsrStatus_mem (m : Word) (t : Target) : (freeDhcsrStatus m t).mem = t.mem := rfl
@[simp] theorem freeDhcsrStatus_dhcsrPosted (m : Word) (t : Target) : (freeDhcsrStatus m t).dhcsrPosted = false := rfl

/-! A DHCSR write (R59). -/

@[simp] theorem writeDhcsr_idcode (v : Word) (t : Target) : (writeDhcsr v t).idcode = t.idcode := by unfold writeDhcsr; split <;> rfl
@[simp] theorem writeDhcsr_ctrlStat (v : Word) (t : Target) : (writeDhcsr v t).ctrlStat = t.ctrlStat := by unfold writeDhcsr; split <;> rfl
@[simp] theorem writeDhcsr_select (v : Word) (t : Target) : (writeDhcsr v t).select = t.select := by unfold writeDhcsr; split <;> rfl
@[simp] theorem writeDhcsr_rdbuff (v : Word) (t : Target) : (writeDhcsr v t).rdbuff = t.rdbuff := by unfold writeDhcsr; split <;> rfl
@[simp] theorem writeDhcsr_csw (v : Word) (t : Target) : (writeDhcsr v t).csw = t.csw := by unfold writeDhcsr; split <;> rfl
@[simp] theorem writeDhcsr_tar (v : Word) (t : Target) : (writeDhcsr v t).tar = t.tar := by unfold writeDhcsr; split <;> rfl
@[simp] theorem writeDhcsr_dcrsr (v : Word) (t : Target) : (writeDhcsr v t).dcrsr = t.dcrsr := by unfold writeDhcsr; split <;> rfl
@[simp] theorem writeDhcsr_dcrdr (v : Word) (t : Target) : (writeDhcsr v t).dcrdr = t.dcrdr := by unfold writeDhcsr; split <;> rfl
@[simp] theorem writeDhcsr_coreRegs (v : Word) (t : Target) : (writeDhcsr v t).coreRegs = t.coreRegs := by unfold writeDhcsr; split <;> rfl
@[simp] theorem writeDhcsr_mem (v : Word) (t : Target) : (writeDhcsr v t).mem = t.mem := by unfold writeDhcsr; split <;> rfl
@[simp] theorem writeDhcsr_dhcsr (v : Word) (t : Target) :
    (writeDhcsr v t).dhcsr = if v.extractLsb' 16 16 = 0xA05F then v &&& 0x0000000F else t.dhcsr := by unfold writeDhcsr; split <;> rfl

/-! An AP read starts an access (R54). -/

@[simp] theorem postRead_idcode (c : Config) (a : BitVec 2) (t : Target) : (postRead c a t).idcode = t.idcode := rfl
@[simp] theorem postRead_ctrlStat (c : Config) (a : BitVec 2) (t : Target) : (postRead c a t).ctrlStat = t.ctrlStat := rfl
@[simp] theorem postRead_select (c : Config) (a : BitVec 2) (t : Target) : (postRead c a t).select = t.select := rfl
@[simp] theorem postRead_csw (c : Config) (a : BitVec 2) (t : Target) : (postRead c a t).csw = t.csw := rfl
@[simp] theorem postRead_tar (c : Config) (a : BitVec 2) (t : Target) : (postRead c a t).tar = t.tar := rfl
@[simp] theorem postRead_dhcsr (c : Config) (a : BitVec 2) (t : Target) : (postRead c a t).dhcsr = t.dhcsr := rfl
@[simp] theorem postRead_dhcsrStatus (c : Config) (a : BitVec 2) (t : Target) : (postRead c a t).dhcsrStatus = t.dhcsrStatus := rfl
@[simp] theorem postRead_dcrsr (c : Config) (a : BitVec 2) (t : Target) : (postRead c a t).dcrsr = t.dcrsr := rfl
@[simp] theorem postRead_dcrdr (c : Config) (a : BitVec 2) (t : Target) : (postRead c a t).dcrdr = t.dcrdr := rfl
@[simp] theorem postRead_coreRegs (c : Config) (a : BitVec 2) (t : Target) : (postRead c a t).coreRegs = t.coreRegs := rfl
@[simp] theorem postRead_mem (c : Config) (a : BitVec 2) (t : Target) : (postRead c a t).mem = t.mem := rfl

/-! RDBUFF is known (R54; log 27). -/

@[simp] theorem showRdbuff_idcode (d : Word) (t : Target) : (showRdbuff d t).idcode = t.idcode := rfl
@[simp] theorem showRdbuff_ctrlStat (d : Word) (t : Target) : (showRdbuff d t).ctrlStat = t.ctrlStat := rfl
@[simp] theorem showRdbuff_select (d : Word) (t : Target) : (showRdbuff d t).select = t.select := rfl
@[simp] theorem showRdbuff_rdbuff (d : Word) (t : Target) : (showRdbuff d t).rdbuff = d := rfl
@[simp] theorem showRdbuff_csw (d : Word) (t : Target) : (showRdbuff d t).csw = t.csw := rfl
@[simp] theorem showRdbuff_tar (d : Word) (t : Target) : (showRdbuff d t).tar = t.tar := rfl
@[simp] theorem showRdbuff_dhcsr (d : Word) (t : Target) : (showRdbuff d t).dhcsr = t.dhcsr := rfl
@[simp] theorem showRdbuff_dcrsr (d : Word) (t : Target) : (showRdbuff d t).dcrsr = t.dcrsr := rfl
@[simp] theorem showRdbuff_dcrdr (d : Word) (t : Target) : (showRdbuff d t).dcrdr = t.dcrdr := rfl
@[simp] theorem showRdbuff_coreRegs (d : Word) (t : Target) : (showRdbuff d t).coreRegs = t.coreRegs := rfl
@[simp] theorem showRdbuff_mem (d : Word) (t : Target) : (showRdbuff d t).mem = t.mem := rfl
@[simp] theorem showRdbuff_draws (d : Word) (t : Target) : (showRdbuff d t).draws = t.draws := rfl
@[simp] theorem showRdbuff_dhcsrPosted (d : Word) (t : Target) : (showRdbuff d t).dhcsrPosted = t.dhcsrPosted := rfl
@[simp] theorem showRdbuff_dhcsrStatus (d : Word) (t : Target) :
    (showRdbuff d t).dhcsrStatus = if t.dhcsrPosted then d &&& dhcsrStatusBits else t.dhcsrStatus := rfl

end Sys2Proof.Machine
end

