-- ==== Sys2Proof/Laws/Link.lean ====
section
/-! SUPPORT. The Bit-Level Link: what a list of host-driven cycles and a run of target-driven cycles do, once for
all. -/

namespace Sys2Proof.Machine

/-! ## Host-driven cycles -/

@[simp] theorem driveBits_nil (s : State) : driveBits [] s = s := rfl

/-- The link after a list of host-driven cycles (R118: no bits change nothing). -/
def drivenLink : List Bool → Link → Link
  | [], l => l
  | b :: bs, _ => { clk := false, oe := true, dout := (b :: bs).getLast (by simp), lastDir := .host }

/-- A list of host-driven cycles in closed form. -/
theorem driveBits_eq (bits : List Bool) (s : State) :
    driveBits bits s = { s with link := drivenLink bits s.link, trace := s.trace ++ bits.map .h } := by
  induction bits generalizing s with
  | nil => simp [drivenLink]
  | cons b bs ih =>
    simp only [driveBits, ih]
    cases bs with
    | nil => simp [drivenLink, cycleH]
    | cons c cs => simp [drivenLink, cycleH]

@[simp] theorem driveBits_trace (bits : List Bool) (s : State) : (driveBits bits s).trace = s.trace ++ bits.map .h := by
  rw [driveBits_eq]
@[simp] theorem driveBits_link (bits : List Bool) (s : State) : (driveBits bits s).link = drivenLink bits s.link := by
  rw [driveBits_eq]
@[simp] theorem driveBits_cfg (bits : List Bool) (s : State) : (driveBits bits s).cfg = s.cfg := by rw [driveBits_eq]
@[simp] theorem driveBits_dp (bits : List Bool) (s : State) : (driveBits bits s).dp = s.dp := by rw [driveBits_eq]
@[simp] theorem driveBits_op (bits : List Bool) (s : State) : (driveBits bits s).op = s.op := by rw [driveBits_eq]
@[simp] theorem driveBits_res (bits : List Bool) (s : State) : (driveBits bits s).res = s.res := by rw [driveBits_eq]
@[simp] theorem driveBits_sess (bits : List Bool) (s : State) : (driveBits bits s).sess = s.sess := by rw [driveBits_eq]
@[simp] theorem driveBits_load (bits : List Bool) (s : State) : (driveBits bits s).load = s.load := by rw [driveBits_eq]
@[simp] theorem driveBits_seq (bits : List Bool) (s : State) : (driveBits bits s).seq = s.seq := by rw [driveBits_eq]
@[simp] theorem driveBits_busy (bits : List Bool) (s : State) : (driveBits bits s).busy = s.busy := by rw [driveBits_eq]
@[simp] theorem driveBits_target (bits : List Bool) (s : State) : (driveBits bits s).target = s.target := by rw [driveBits_eq]
@[simp] theorem driveBits_targetIn (bits : List Bool) (s : State) : (driveBits bits s).targetIn = s.targetIn := by rw [driveBits_eq]
@[simp] theorem driveBits_draws (bits : List Bool) (s : State) : (driveBits bits s).draws = s.draws := by rw [driveBits_eq]
@[simp] theorem driveBits_inbox (bits : List Bool) (s : State) : (driveBits bits s).inbox = s.inbox := by rw [driveBits_eq]

@[simp] theorem drivenLink_nil (l : Link) : drivenLink [] l = l := rfl

theorem drivenLink_cons (b : Bool) (bs : List Bool) (l : Link) :
    (drivenLink (b :: bs) l).lastDir = .host ∧ (drivenLink (b :: bs) l).oe = true ∧ (drivenLink (b :: bs) l).clk = false :=
  ⟨rfl, rfl, rfl⟩

theorem drivenLink_of_ne {bits : List Bool} (h : bits ≠ []) (l : Link) :
    (drivenLink bits l).lastDir = .host ∧ (drivenLink bits l).oe = true ∧ (drivenLink bits l).clk = false := by
  cases bits with
  | nil => exact absurd rfl h
  | cons b bs => exact drivenLink_cons b bs l

/-- Host-driven cycles never leave the target as the last driver. -/
theorem drivenLink_not_target (bits : List Bool) (l : Link) (h : l.lastDir ≠ .target) :
    (drivenLink bits l).lastDir ≠ .target := by
  cases bits with
  | nil => exact h
  | cons b bs => simp [drivenLink_cons]

/-- Idle cycles in closed form (R116). -/
theorem idle_eq (n : Nat) (s : State) :
    idle n s = { s with
      link := drivenLink (List.replicate n s.cfg.idleLevel) s.link
      trace := s.trace ++ List.replicate n (.h s.cfg.idleLevel) } := by
  simp [idle, driveBits_eq]

/-- A turnaround is one released cycle (R11, R120). -/
theorem turnaround_eq (s : State) : turnaround s = cycleZ s := rfl

/-- A line reset in closed form (R96, R121). -/
theorem lineReset_eq (s : State) :
    lineReset s = { s with
      link := drivenLink (List.replicate s.cfg.lineResetHigh true ++ List.replicate s.cfg.lineResetIdle false) s.link
      trace := s.trace ++ (List.replicate s.cfg.lineResetHigh (.h true) ++ List.replicate s.cfg.lineResetIdle (.h false)) } := by
  simp [lineReset, driveBits_eq]

/-! ## Target-driven cycles -/

/-- What one target-driven cycle leaves alone, and what it appends to the trace (R112). -/
theorem cycleT_spec (s : State) :
    (cycleT s).2 = { s with
      link := { s.link with clk := false, oe := false, lastDir := .target }
      trace := s.trace ++ [.t (cycleT s).1]
      targetIn := (cycleT s).2.targetIn
      draws := (cycleT s).2.draws } := by
  unfold cycleT sampleBit
  cases s.targetIn <;> rfl

/-- A scripted bit is the bit sampled. -/
theorem cycleT_scripted (s : State) (b : Bool) (rest : List Bool) (h : s.targetIn = b :: rest) :
    cycleT s = (b, { s with
      link := { s.link with clk := false, oe := false, lastDir := .target }
      trace := s.trace ++ [.t b]
      targetIn := rest }) := by
  unfold cycleT sampleBit
  rw [h]

/-- The link after `n` target-driven cycles. -/
def sampledLink (n : Nat) (l : Link) : Link :=
  if n = 0 then l else { l with clk := false, oe := false, lastDir := .target }

/-- A run of target-driven cycles: it samples `n` bits, appends them to the trace, and leaves everything but the link, the
trace and the answers alone. -/
theorem sampleBits_spec (n : Nat) (s : State) :
    (sampleBits n s).1.length = n ∧
    (sampleBits n s).2 = { s with
      link := sampledLink n s.link
      trace := s.trace ++ (sampleBits n s).1.map .t
      targetIn := (sampleBits n s).2.targetIn
      draws := (sampleBits n s).2.draws } := by
  induction n generalizing s with
  | zero => simp [sampleBits, sampledLink]
  | succ n ih =>
    have h := ih (cycleT s).2
    refine ⟨by simp [sampleBits, h.1], ?_⟩
    have h2 := h.2
    simp only [sampleBits]
    rw [h2, cycleT_spec s]
    by_cases hn : n = 0 <;> simp [sampledLink, hn]

/-- Scripted answers are the bits sampled. -/
theorem sampleBits_scripted (bits rest : List Bool) (s : State) (h : s.targetIn = bits ++ rest) :
    sampleBits bits.length s = (bits, { s with
      link := sampledLink bits.length s.link
      trace := s.trace ++ bits.map .t
      targetIn := rest }) := by
  induction bits generalizing s with
  | nil =>
    simp only [List.nil_append] at h
    subst h
    simp [sampleBits, sampledLink]
  | cons b bs ih =>
    have hc := cycleT_scripted s b (bs ++ rest) (by simpa using h)
    simp only [List.length_cons, sampleBits, hc]
    rw [ih]
    · by_cases hn : bs.length = 0 <;> simp [sampledLink, hn]
    · rfl

/-- Which answers a run of target-driven cycles uses: the scripted bits first, then free ones. -/
theorem sampleBits_answers (n : Nat) (s : State) :
    (sampleBits n s).1.take s.targetIn.length = s.targetIn.take n ∧ (sampleBits n s).2.targetIn = s.targetIn.drop n ∧
      (sampleBits n s).2.draws = s.draws + (n - s.targetIn.length) := by
  induction n generalizing s with
  | zero => simp [sampleBits]
  | succ n ih =>
    obtain ⟨h1, h2, h3⟩ := ih (cycleT s).2
    cases hin : s.targetIn with
    | nil =>
      have hc : (cycleT s).2.targetIn = [] ∧ (cycleT s).2.draws = s.draws + 1 := by simp [cycleT, sampleBit, hin]
      simp only [sampleBits, h2, h3, hc]
      simp only [List.drop_nil, List.length_nil, List.take_zero, List.take_nil, true_and]
      omega
    | cons b rest =>
      have hc := cycleT_scripted s b rest hin
      rw [hc] at h1 h2 h3
      simp only [sampleBits, hc, h2, h3, List.length_cons, List.take_succ_cons, h1, List.drop_succ_cons, true_and]
      omega

end Sys2Proof.Machine
end

