-- ==== Sys2Proof/Laws/Exchange.lean ====
section
/-! SUPPORT. Everything one exchange can do (R129), once: `exchange_cases` for any answers, and the three scripted
forms. -/

namespace Sys2Proof.Machine

theorem drivenLink_replicate (n : Nat) (cfg : Config) (l : Link) :
    drivenLink (List.replicate n cfg.idleLevel) l = idledLink cfg n l := by
  cases n with
  | zero => rfl
  | succ n =>
    simp only [List.replicate_succ, drivenLink, idledLink, drivingLink]
    rw [if_neg (by omega)]
    congr 1
    have h : List.getLast (cfg.idleLevel :: List.replicate n cfg.idleLevel) (by simp) ∈
        List.replicate (n + 1) cfg.idleLevel := by
      rw [List.replicate_succ]
      exact List.getLast_mem _
    exact List.eq_of_mem_replicate h

theorem drivenLink_append_single (bits : List Bool) (b : Bool) (l : Link) :
    drivenLink (bits ++ [b]) l = drivingLink b := by
  cases bits with
  | nil => rfl
  | cons c cs => simp [drivenLink, drivingLink]

/-- Park, the last bit of every request byte, is 1 (R87). -/
theorem drivenLink_request (apndp rnw : Bool) (a : BitVec 2) (l : Link) :
    drivenLink (bitsLSB (requestByte apndp rnw a)) l = drivingLink true := by
  have ha : a = 0 ∨ a = 1 ∨ a = 2 ∨ a = 3 := by revert a; decide
  obtain rfl | rfl | rfl | rfl := ha <;> cases apndp <;> cases rnw <;> rfl

@[simp] theorem valLSB_okAck : valLSB 3 okAck = 1#3 := by decide
@[simp] theorem classify_ok : classify 1#3 = .ok := by decide

/-- The state after the request and the acknowledge of an exchange. -/
theorem request_ack (rq : Request) (s : State) :
    ∃ ack : List Bool, ∃ inp n, ack.length = 3 ∧
      ackPhase (requestPhase rq s) = { s with
        link := { clk := false, oe := false, dout := true, lastDir := .target }
        dp := { s.dp with
          req := requestByte rq.apndp rq.rnw rq.a, ack := valLSB 3 ack, outcome := classify (valLSB 3 ack) }
        trace := s.trace ++ (requestCycles rq ++ targetCycles ack)
        targetIn := inp
        draws := n } := by
  obtain ⟨h1, h2⟩ := sampleBits_spec 3 (requestPhase rq s)
  refine ⟨(sampleBits 3 (requestPhase rq s)).1, (sampleBits 3 (requestPhase rq s)).2.targetIn,
    (sampleBits 3 (requestPhase rq s)).2.draws, h1, ?_⟩
  generalize hb : (sampleBits 3 (requestPhase rq s)).1 = bits at *
  generalize hi : (sampleBits 3 (requestPhase rq s)).2.targetIn = inp at *
  generalize hn : (sampleBits 3 (requestPhase rq s)).2.draws = n at *
  simp only [ackPhase, hb, h2]
  simp [requestPhase, driveBits_eq, cycleZ, sampledLink, drivenLink_request, drivingLink, requestCycles, hostCycles,
    targetCycles]

theorem request_ack_scripted (rq : Request) (s : State) (ack rest : List Bool) (hl : ack.length = 3)
    (h : s.targetIn = ack ++ rest) :
    ackPhase (requestPhase rq s) = { s with
      link := { clk := false, oe := false, dout := true, lastDir := .target }
      dp := { s.dp with
        req := requestByte rq.apndp rq.rnw rq.a, ack := valLSB 3 ack, outcome := classify (valLSB 3 ack) }
      trace := s.trace ++ (requestCycles rq ++ targetCycles ack)
      targetIn := rest } := by
  have h3 := sampleBits_scripted ack rest (requestPhase rq s)
    (by simp [requestPhase, driveBits_eq, cycleZ, h])
  rw [hl] at h3
  simp only [ackPhase, h3]
  simp [requestPhase, driveBits_eq, cycleZ, sampledLink, drivenLink_request, drivingLink, requestCycles, hostCycles,
    targetCycles]

theorem classify_eq_ok (a : BitVec 3) : classify a = .ok ↔ a = 0b001 := by
  revert a; decide

theorem valLSB_eq_one (ack : List Bool) (h : ack.length = 3) : valLSB 3 ack = 0b001 ↔ ack = okAck := by
  match ack, h with
  | [b0, b1, b2], _ => cases b0 <;> cases b1 <;> cases b2 <;> simp [okAck, valLSB, natLSB]

theorem readOutcome_eq (d : Word) (p : Bool) : readOutcome d p = if p = parity32 d then .ok else .proterr := rfl

/-- The read data phase in closed form, for the bits sampled. -/
theorem exchange_read (rq : Request) (s : State) (hr : rq.rnw = true)
    (h : classify (ackPhase (requestPhase rq s)).dp.ack = .ok) :
    ∃ d p inp n, exchange rq s = readDone rq d p inp n s := by
  obtain ⟨ack, inp0, n0, hl, ha⟩ := request_ack rq s
  rw [ha] at h
  have hok : ack = okAck := (valLSB_eq_one ack hl).1 ((classify_eq_ok _).1 h)
  obtain ⟨b1, b2⟩ := sampleBits_spec 32 (ackPhase (requestPhase rq s))
  obtain ⟨c1, c2⟩ := sampleBits_spec 1 (sampleBits 32 (ackPhase (requestPhase rq s))).2
  generalize hbits : sampleBits 32 (ackPhase (requestPhase rq s)) = S1 at *
  generalize hp : sampleBits 1 S1.2 = S2 at *
  obtain ⟨bits, s1⟩ := S1
  obtain ⟨ps, s2⟩ := S2
  simp only at b1 b2 c1 c2
  match ps, c1 with
  | [p], _ =>
    refine ⟨valLSB 32 bits, p, s2.targetIn, s2.draws, ?_⟩
    have hbb : bitsLSB (valLSB 32 bits) = bits := by
      have := bitsLSB_valLSB bits
      rwa [b1] at this
    have hdp : (ackPhase (requestPhase rq s)).dp.outcome = .ok := by
      rw [ha]; exact h
    simp only [exchange, hdp, if_true, hr, readPhase, hbits, hp]
    rw [c2, b2, ha, hok]
    by_cases hpp : p = parity32 (valLSB 32 bits)
    · simp [readDone, idle_eq, drivenLink_replicate, cycleZ, sampledLink, releasedLink, setOk, readOutcome, readFrame,
        targetCycles, idleRun, hbb, ← hpp]
    · simp [readDone, idle_eq, drivenLink_replicate, cycleZ, sampledLink, releasedLink, setOk, readOutcome, readFrame,
        targetCycles, idleRun, hbb, hpp]

/-- The write data phase in closed form. -/
theorem exchange_write (rq : Request) (s : State) (hr : rq.rnw = false)
    (h : classify (ackPhase (requestPhase rq s)).dp.ack = .ok) :
    ∃ inp n, exchange rq s = writeDone rq inp n s := by
  obtain ⟨ack, inp0, n0, hl, ha⟩ := request_ack rq s
  rw [ha] at h
  have hok : ack = okAck := (valLSB_eq_one ack hl).1 ((classify_eq_ok _).1 h)
  refine ⟨inp0, n0, ?_⟩
  have hdp : (ackPhase (requestPhase rq s)).dp.outcome = .ok := by
    rw [ha]; exact h
  simp only [exchange, hdp, if_true, hr, writePhase]
  rw [ha, hok]
  simp [writeDone, idle_eq, drivenLink_replicate, cycleZ, driveBits_eq, drivenLink_append_single, setOk, writeFrame,
    targetCycles, hostCycles, idleRun]

/-- An exchange whose acknowledge is not OK, in closed form. -/
theorem exchange_fail (rq : Request) (s : State) (h : classify (ackPhase (requestPhase rq s)).dp.ack ≠ .ok) :
    ∃ ack inp n, ack.length = 3 ∧ classify (valLSB 3 ack) ≠ .ok ∧ exchange rq s = failDone rq ack inp n s := by
  obtain ⟨ack, inp0, n0, hl, ha⟩ := request_ack rq s
  rw [ha] at h
  refine ⟨ack, inp0, n0, hl, h, ?_⟩
  have hdp : (ackPhase (requestPhase rq s)).dp.outcome ≠ .ok := by
    rw [ha]; exact h
  have h' : classify (valLSB 3 ack) ≠ .ok := h
  simp only [exchange, if_neg hdp, noDataPhase]
  rw [ha]
  by_cases hf : classify (valLSB 3 ack) = .fault
  · simp [failDone, idle_eq, drivenLink_replicate, cycleZ, releasedLink, setOk, failFrame, targetCycles, idleRun, hf]
  · simp [failDone, idle_eq, drivenLink_replicate, cycleZ, releasedLink, setOk, failFrame, targetCycles, idleRun, hf, h']

/-- EVERYTHING AN EXCHANGE CAN DO, whatever the target answers (R93 to R95, R129): a read answered OK, a write answered
OK, or an exchange without a data phase. -/
theorem exchange_cases (rq : Request) (s : State) :
    (rq.rnw = true ∧ ∃ d p inp n, exchange rq s = readDone rq d p inp n s) ∨
    (rq.rnw = false ∧ ∃ inp n, exchange rq s = writeDone rq inp n s) ∨
    (∃ ack inp n, ack.length = 3 ∧ classify (valLSB 3 ack) ≠ .ok ∧ exchange rq s = failDone rq ack inp n s) := by
  by_cases h : classify (ackPhase (requestPhase rq s)).dp.ack = .ok
  · cases hr : rq.rnw with
    | true => exact .inl ⟨rfl, exchange_read rq s hr h⟩
    | false => exact .inr (.inl ⟨rfl, exchange_write rq s hr h⟩)
  · exact .inr (.inr (exchange_fail rq s h))

/-! ## Scripted answers -/

theorem exchange_read_scripted (rq : Request) (s : State) (d : Word) (p : Bool) (rest : List Bool) (hr : rq.rnw = true)
    (h : s.targetIn = okAck ++ (bitsLSB d ++ [p]) ++ rest) : exchange rq s = readDone rq d p rest s.draws s := by
  have ha := request_ack_scripted rq s okAck (bitsLSB d ++ [p] ++ rest) rfl (by simpa using h)
  have hdp : (ackPhase (requestPhase rq s)).dp.outcome = .ok := by rw [ha]; simp
  have hb := sampleBits_scripted (bitsLSB d) ([p] ++ rest) (ackPhase (requestPhase rq s)) (by rw [ha]; simp)
  simp only [length_bitsLSB] at hb
  have hp := sampleBits_scripted [p] rest (sampleBits 32 (ackPhase (requestPhase rq s))).2 (by rw [hb])
  simp only [List.length_singleton] at hp
  simp only [exchange, hdp, if_true, hr, readPhase, hp]
  rw [hb, ha]
  by_cases hpp : p = parity32 d
  · simp [readDone, idle_eq, drivenLink_replicate, cycleZ, sampledLink, releasedLink, setOk, readOutcome, readFrame,
      targetCycles, idleRun, ← hpp]
  · simp [readDone, idle_eq, drivenLink_replicate, cycleZ, sampledLink, releasedLink, setOk, readOutcome, readFrame,
      targetCycles, idleRun, hpp]

theorem exchange_write_scripted (rq : Request) (s : State) (rest : List Bool) (hr : rq.rnw = false)
    (h : s.targetIn = okAck ++ rest) : exchange rq s = writeDone rq rest s.draws s := by
  have ha := request_ack_scripted rq s okAck rest rfl h
  have hdp : (ackPhase (requestPhase rq s)).dp.outcome = .ok := by rw [ha]; simp
  simp only [exchange, hdp, if_true, hr, writePhase]
  rw [ha]
  simp [writeDone, idle_eq, drivenLink_replicate, cycleZ, driveBits_eq, drivenLink_append_single, setOk, writeFrame,
    targetCycles, hostCycles, idleRun]

theorem exchange_fail_scripted (rq : Request) (s : State) (ack rest : List Bool) (hl : ack.length = 3)
    (hne : classify (valLSB 3 ack) ≠ .ok) (h : s.targetIn = ack ++ rest) :
    exchange rq s = failDone rq ack rest s.draws s := by
  have ha := request_ack_scripted rq s ack rest hl h
  have hdp : (ackPhase (requestPhase rq s)).dp.outcome ≠ .ok := by rw [ha]; exact hne
  simp only [exchange, if_neg hdp, noDataPhase]
  rw [ha]
  by_cases hf : classify (valLSB 3 ack) = .fault
  · simp [failDone, idle_eq, drivenLink_replicate, cycleZ, releasedLink, setOk, failFrame, targetCycles, idleRun, hf]
  · simp [failDone, idle_eq, drivenLink_replicate, cycleZ, releasedLink, setOk, failFrame, targetCycles, idleRun, hf, hne]

theorem classify_eq_fault (ack : List Bool) (h : ack.length = 3) : classify (valLSB 3 ack) = .fault ↔ ack = faultAck := by
  match ack, h with
  | [b0, b1, b2], _ => cases b0 <;> cases b1 <;> cases b2 <;> decide

theorem classify_ne_ok (ack : List Bool) (h : ack.length = 3) : classify (valLSB 3 ack) ≠ .ok ↔ ack ≠ okAck := by
  rw [Ne, Ne, classify_eq_ok, ← valLSB_eq_one ack h]

/-- An exchange with its answer next. -/
theorem exchange_access (a : Access) (s : State) (rest : List Bool) (hl : a.ack.length = 3) (h : s.targetIn = a.bits ++ rest) :
    exchange a.rq s = a.done rest s.draws s := by
  unfold Access.bits at h
  unfold Access.done
  by_cases hk : a.ack = okAck
  · rw [if_pos hk]
    cases hr : a.rq.rnw with
    | true =>
      rw [if_pos rfl]
      exact exchange_read_scripted a.rq s _ _ _ hr (by rw [h, if_pos ⟨hk, hr⟩, hk])
    | false => exact exchange_write_scripted a.rq s rest hr (by rw [h, if_neg (by simp [hr]), hk])
  · rw [if_neg hk]
    exact exchange_fail_scripted a.rq s a.ack rest hl ((classify_ne_ok _ hl).2 hk) (by rw [h, if_neg (by simp [hk])])

end Sys2Proof.Machine
end

