-- ==== Sys2Proof/Laws/Engine.lean ====
section
/-! SUPPORT. Sequencing of operations that may stop: evaluation of a bind, and the one shape in which a property of the
state is carried through an operation (`Keeps`), with its closure lemmas up to the policy of R148. -/

namespace Sys2Proof.Machine

variable {α β : Type}

/-! ## Evaluation -/

theorem bind_of_ok {m : Engine α} {f : α → Engine β} {s t : State} {a : α} (h : m s = .ok a t) : (m >>= f) s = f a t := by
  show EStateM.bind m f s = _
  simp only [EStateM.bind, h]

theorem bind_of_error {m : Engine α} {f : α → Engine β} {s t : State} {e : Stop} (h : m s = .error e t) :
    (m >>= f) s = .error e t := by
  show EStateM.bind m f s = _
  simp only [EStateM.bind, h]

@[simp] theorem pure_run (a : α) (s : State) : (pure a : Engine α) s = .ok a s := rfl
@[simp] theorem get_run (s : State) : (get : Engine State) s = .ok s s := rfl
@[simp] theorem modify_run (f : State → State) (s : State) : (modify f : Engine Unit) s = .ok () (f s) := rfl
@[simp] theorem get_bind (f : State → Engine β) (s : State) : (get >>= f) s = f s s := rfl
@[simp] theorem modify_bind (g : State → State) (f : Unit → Engine β) (s : State) :
    ((modify g : Engine Unit) >>= f) s = f () (g s) := rfl
@[simp] theorem raiseFail_run (c : FailCause) (a : Option Addr32) (s : State) :
    (raiseFail c a : Engine α) s = .error .failed (failEntry c a s) := rfl
@[simp] theorem refuse_run (r : Refusal) (s : State) : (refuse r : Engine α) s = .error (.refused r) s := rfl
@[simp] theorem refuseUnless_true (r : Refusal) : refuseUnless true r = pure () := rfl
@[simp] theorem refuseUnless_false (r : Refusal) : refuseUnless false r = refuse r := rfl

theorem checkDir_ok {d : Dir} {s : State} (h : s.link.lastDir ≠ d) : checkDir d s = .ok () s := by
  simp [checkDir, h]

theorem checkDir_fault {d : Dir} {s : State} (h : s.link.lastDir = d) : checkDir d s = .error (.fault .directionHazard) s := by
  simp [checkDir, h]

theorem finish_ok {m : Engine Unit} {s t : State} (h : m s = .ok () t) : finish m s = .next t := by simp [finish, h]
theorem finish_failed {m : Engine Unit} {s t : State} (h : m s = .error .failed t) : finish m s = .next t := by
  simp [finish, h]

/-! ## Carrying a property -/

/-- From a state with `P`, `m` ends in one with `Q`, or raises a failure and ends in one with `E`; it stops with a fault
or a refusal only if `X`. -/
def Ends (X : Prop) (P : State → Prop) (m : Engine α) (Q : α → State → Prop) (E : State → Prop) : Prop :=
  ∀ s, P s → match m s with
    | .ok a t => Q a t
    | .error .failed t => E t
    | .error _ _ => X

/-- `m` keeps `P` while it runs; where it raises a failure it ends with `E`. -/
abbrev Keeps (X : Prop) (P E : State → Prop) (m : Engine α) : Prop := Ends X P m (fun _ => P) E

theorem Ends.bind {X : Prop} {P E : State → Prop} {Q : α → State → Prop} {R : β → State → Prop} {m : Engine α} {f : α → Engine β}
    (hm : Ends X P m Q E) (hf : ∀ a, Ends X (Q a) (f a) R E) : Ends X P (m >>= f) R E := by
  intro s hs
  have h := hm s hs
  cases hr : m s with
  | ok a t =>
    rw [bind_of_ok hr]
    rw [hr] at h
    exact hf a t h
  | error e t =>
    rw [bind_of_error hr]
    rw [hr] at h
    cases e <;> exact h

theorem ends_pure {X : Prop} {P E : State → Prop} {Q : α → State → Prop} {a : α} (h : ∀ s, P s → Q a s) :
    Ends X P (pure a : Engine α) Q E := h

theorem ends_get {X : Prop} {P E : State → Prop} : Ends X P get (fun a t => a = t ∧ P t) E := fun _ h => ⟨rfl, h⟩

theorem ends_modify {X : Prop} {P E : State → Prop} {Q : Unit → State → Prop} {f : State → State} (h : ∀ s, P s → Q () (f s)) :
    Ends X P (modify f) Q E := h

theorem Ends.weaken {X : Prop} {P P' E E' : State → Prop} {Q Q' : α → State → Prop} {m : Engine α} (h : Ends X P m Q E)
    (hp : ∀ s, P' s → P s) (hq : ∀ a s, Q a s → Q' a s) (he : ∀ s, E s → E' s) : Ends X P' m Q' E' := by
  intro s hs
  have := h s (hp s hs)
  split <;> simp_all

/-- Two properties at once. -/
theorem Ends.and {α : Type} {X : Prop} {P P' E E' : State → Prop} {Q Q' : α → State → Prop} {m : Engine α} (h : Ends X P m Q E)
    (h' : Ends X P' m Q' E') : Ends X (fun s => P s ∧ P' s) m (fun a s => Q a s ∧ Q' a s) (fun s => E s ∧ E' s) := by
  intro s hs
  have h1 := h s hs.1
  have h2 := h' s hs.2
  revert h1 h2
  rcases m s with ⟨a, t⟩ | ⟨e, t⟩
  · exact fun a b => ⟨a, b⟩
  · cases e
    · exact fun a b => ⟨a, b⟩
    · exact fun a _ => a
    · exact fun a _ => a

section Keeps
variable {X : Prop} {P E : State → Prop}

theorem keeps_pure (a : α) : Keeps X P E (pure a : Engine α) := fun _ h => h
theorem keeps_get : Keeps X P E (get : Engine State) := fun _ h => h
theorem keeps_modify {f : State → State} (h : ∀ s, P s → P (f s)) : Keeps X P E (modify f) := h
theorem keeps_bind {m : Engine α} {f : α → Engine β} (hm : Keeps X P E m) (hf : ∀ a, Keeps X P E (f a)) : Keeps X P E (m >>= f) :=
  Ends.bind hm hf
theorem keeps_getBind {f : State → Engine β} (hf : ∀ a, Keeps X P E (f a)) : Keeps X P E (get >>= f) :=
  keeps_bind keeps_get hf
/-- A read of the state, of which `P` holds. -/
theorem keeps_getBindOf {f : State → Engine β} (hf : ∀ a, P a → Keeps X P E (f a)) : Keeps X P E (get >>= f) :=
  fun s hs => hf s hs s hs
theorem keeps_raiseFail {c : FailCause} {a : Option Addr32} (h : ∀ s, P s → E (failEntry c a s)) :
    Keeps X P E (raiseFail c a : Engine α) := h
theorem keeps_refuseUnless {good : Bool} {r : Refusal} (h : good = true ∨ X) : Keeps X P E (refuseUnless good r) := by
  intro s hs
  cases good with
  | true => exact hs
  | false => exact h.resolve_left (by simp)
theorem keeps_checkDir {d : Dir} (h : ∀ s, P s → s.link.lastDir = d → X) : Keeps X P E (checkDir d) := by
  intro s hs
  by_cases hd : s.link.lastDir = d
  · rw [checkDir_fault hd]; exact h s hs hd
  · rw [checkDir_ok hd]; exact hs
theorem keeps_ite {c : Prop} [Decidable c] {m n : Engine α} (hm : c → Keeps X P E m) (hn : ¬c → Keeps X P E n) :
    Keeps X P E (if c then m else n) := by
  split
  · exact hm ‹_›
  · exact hn ‹_›

end Keeps

theorem ends_ite {X : Prop} {P E : State → Prop} {Q : α → State → Prop} {c : Prop} [Decidable c] {m n : Engine α}
    (hm : c → Ends X P m Q E) (hn : ¬c → Ends X P n Q E) : Ends X P (if c then m else n) Q E := by
  split
  · exact hm ‹_›
  · exact hn ‹_›

/-- What a command answers, from how its operation ends. -/
theorem finish_next {m : Engine Unit} {P E : State → Prop} {Q : Unit → State → Prop} {s t : State} (h : Ends True P m Q E) (hs : P s)
    (ht : finish m s = .next t) : Q () t ∨ E t := by
  have := h s hs
  revert this ht
  unfold finish
  rcases m s with ⟨_, u⟩ | ⟨e, u⟩
  · rintro ⟨rfl⟩ h; exact .inl h
  · cases e with
    | failed => rintro ⟨rfl⟩ h; exact .inr h
    | fault f => intro h; cases h
    | refused r => intro h; cases h

/-- An operation that never faults or refuses from `P` answers a next state. -/
theorem finish_runs {m : Engine Unit} {P E : State → Prop} {s : State} (h : Keeps False P E m) (hs : P s) :
    ∃ t, finish m s = .next t := by
  have := h s hs
  revert this
  unfold finish
  rcases m s with ⟨_, u⟩ | ⟨e, u⟩
  · intro _; exact ⟨u, rfl⟩
  · cases e with
    | failed => intro _; exact ⟨u, rfl⟩
    | fault f => intro h; exact h.elim
    | refused r => intro h; exact h.elim

/-! ## The exchange and the policy of R147 to R149 -/

theorem keeps_xfer {X : Prop} {P E : State → Prop} {rq : Request} (hc : rq.isDpWriteC = false ∨ X)
    (hd : ∀ s, P s → s.link.lastDir = .target → X) (he : ∀ s, P s → s.link.lastDir ≠ .target → P (exchange rq s)) :
    Keeps X P E (xfer rq) := by
  refine Ends.bind (keeps_refuseUnless (by simpa using hc)) fun _ => ?_
  intro s hs
  by_cases h : s.link.lastDir = .target
  · rw [bind_of_error (checkDir_fault h)]; exact hd s hs h
  · rw [bind_of_ok (checkDir_ok h)]; exact he s hs h

/-- What a property must allow so that the policy of R148 keeps it, when the transactions are among `Q`. -/
structure AccessStable (X : Prop) (Q : Request → Prop) (P E : State → Prop) : Prop where
  exchange : ∀ rq, Q rq → Keeps X P E (xfer rq)
  recoverReads : Q (Request.readDp dpCtrlStat)
  recoverWrites : Q (Request.writeDp dpAbort abortClear)
  waitCount : ∀ s n, n ≤ s.cfg.waitRetryMax → P s → P { s with dp := { s.dp with waitCount := n } }
  retried : ∀ s b, P s → P (setFaultRetried b s)
  inspected : ∀ s v, P s → P { s with sess := { s.sess with lastCtrlStat := some v } }
  sticky : ∀ s, P s → P { s with sess := { s.sess with stickyCleared := true } }
  result : ∀ s v ok, P s → P { s with res := { s.res with value := v, ok := ok } }
  failed : ∀ s c a, P s → E (failEntry c a s)

/-- What an exchange never changes. -/
theorem exchange_frame (rq : Request) (s : State) :
    (exchange rq s).cfg = s.cfg ∧ (exchange rq s).op = s.op ∧ (exchange rq s).sess = s.sess ∧ (exchange rq s).load = s.load ∧
      (exchange rq s).seq = s.seq ∧ (exchange rq s).busy = s.busy ∧ (exchange rq s).inbox = s.inbox ∧
      (exchange rq s).res.bits = s.res.bits ∧ (exchange rq s).dp.waitCount = s.dp.waitCount ∧
      (exchange rq s).dp.faultRetried = s.dp.faultRetried ∧ (exchange rq s).dp.pollCount = s.dp.pollCount := by
  obtain ⟨_, d, p, inp, n, h⟩ | ⟨_, inp, n, h⟩ | ⟨ack, inp, n, _, _, h⟩ := exchange_cases rq s <;>
    rw [h] <;> exact ⟨rfl, rfl, rfl, rfl, rfl, rfl, rfl, rfl, rfl, rfl, rfl⟩

theorem exchange_lastDir (rq : Request) (s : State) : (exchange rq s).link.lastDir ≠ .target := by
  obtain ⟨_, d, p, inp, n, h⟩ | ⟨_, inp, n, h⟩ | ⟨ack, inp, n, _, _, h⟩ := exchange_cases rq s <;> rw [h] <;>
    simp only [readDone, writeDone, failDone, idledLink] <;> split <;> simp [releasedLink, drivingLink]

section Access
variable {X : Prop} {Q : Request → Prop} {P E : State → Prop}

theorem keeps_attempts (h : AccessStable X Q P E) {rq : Request} (hq : Q rq) (n : Nat) :
    Ends X (fun s => P s ∧ s.dp.waitCount + n ≤ s.cfg.waitRetryMax) (attempts rq n) (fun _ => P) E := by
  induction n with
  | zero => exact (h.exchange rq hq).weaken (fun _ hs => hs.1) (fun _ _ hs => hs) (fun _ hs => hs)
  | succ n ih =>
    have hx : Ends X (fun s => P s ∧ s.dp.waitCount + (n + 1) ≤ s.cfg.waitRetryMax) (xfer rq)
        (fun _ s => P s ∧ s.dp.waitCount + (n + 1) ≤ s.cfg.waitRetryMax) E := by
      intro s hs
      have := h.exchange rq hq s hs.1
      cases hr : xfer rq s with
      | ok a t =>
        rw [hr] at this
        refine ⟨this, ?_⟩
        unfold xfer at hr
        by_cases hc : rq.isDpWriteC <;> simp [hc, bind_of_error] at hr
        · rw [bind_of_error (refuse_run _ s)] at hr; cases hr
        · by_cases hd : s.link.lastDir = .target
          · rw [bind_of_error (checkDir_fault hd)] at hr; cases hr
          · rw [bind_of_ok (checkDir_ok hd)] at hr
            cases hr
            have e := exchange_frame rq s
            rw [e.1, e.2.2.2.2.2.2.2.2.1]
            exact hs.2
      | error e t =>
        rw [hr] at this
        cases e <;> exact this
    refine hx.bind fun _ => ?_
    intro s hs
    rw [get_bind]
    by_cases hw : s.dp.outcome = .wait
    · rw [if_pos hw, modify_bind]
      refine ih _ ⟨h.waitCount s _ (by omega) hs.1, ?_⟩
      show s.dp.waitCount + 1 + n ≤ s.cfg.waitRetryMax
      omega
    · rw [if_neg hw]
      exact hs.1

theorem keeps_series (h : AccessStable X Q P E) {rq : Request} (hq : Q rq) : Keeps X P E (series rq) := by
  intro s hs
  rw [series, modify_bind, get_bind]
  exact keeps_attempts h hq _ _ ⟨h.waitCount s 0 (Nat.zero_le _) hs, Nat.le_of_eq (Nat.zero_add _)⟩

theorem keeps_recoveryStep (h : AccessStable X Q P E) {rq : Request} (hq : Q rq) : Keeps X P E (recoveryStep rq) := by
  refine (keeps_series h hq).bind fun _ => keeps_getBind fun s => ?_
  split
  · exact keeps_pure ()
  · exact keeps_raiseFail fun s hs => h.failed s _ _ hs
  all_goals exact keeps_raiseFail fun s hs => h.failed s _ _ hs

theorem keeps_recover (h : AccessStable X Q P E) : Keeps X P E recover := by
  refine (keeps_recoveryStep h h.recoverReads).bind fun _ => Ends.bind (keeps_modify fun s hs => h.inspected s _ hs) fun _ => ?_
  exact (keeps_recoveryStep h h.recoverWrites).bind fun _ => keeps_modify fun s hs => h.sticky s hs

theorem keeps_transact (h : AccessStable X Q P E) {rq : Request} (hq : Q rq) : Keeps X P E (transact rq) := by
  refine Ends.bind (keeps_modify fun s hs => h.retried s false hs) fun _ => (keeps_series h hq).bind fun _ => keeps_getBind fun s => ?_
  have again : Keeps X P E (do
      recover
      modify (setFaultRetried true)
      series rq
      match (← get).dp.outcome with
      | .ok => pure ()
      | .wait => raiseFail .waitExhausted none
      | .fault | .proterr => raiseFail .faultRepeated none) := by
    refine (keeps_recover h).bind fun _ => Ends.bind (keeps_modify fun s hs => h.retried s true hs) fun _ =>
      (keeps_series h hq).bind fun _ => keeps_getBind fun s => ?_
    split
    · exact keeps_pure ()
    · exact keeps_raiseFail fun s hs => h.failed s _ _ hs
    all_goals exact keeps_raiseFail fun s hs => h.failed s _ _ hs
  split
  · exact keeps_pure ()
  · exact keeps_raiseFail fun s hs => h.failed s _ _ hs
  all_goals exact again

end Access

end Sys2Proof.Machine
end

