-- ==== Sys2Proof/Laws/Keeps.lean ====
section
/-! SUPPORT. Carrying a property through the register commands, the word helpers, the sequences and the passes: one
closure lemma per shared operation, over what the property must allow (the `…Stable` structures). -/

namespace Sys2Proof.Machine

variable {X : Prop} {Q : Request → Prop} {P E : State → Prop}

/-! ## Register commands (R150 to R155) -/

/-- With the bank check of R150. -/
structure ApStable (X : Prop) (Q : Request → Prop) (P E : State → Prop) : Prop extends AccessStable X Q P E where
  bankCheck : ∀ addr, Keeps X P E (bankCheck addr)

theorem keeps_bankCheck (h : AccessStable X Q P E) (hq : ∀ v, Q (Request.writeDp dpSelect v))
    (hb : ∀ s v, P s → P (cacheSelect v s)) (addr : BitVec 8) : Keeps X P E (bankCheck addr) := by
  refine keeps_getBind fun s => keeps_ite (fun _ => ?_) fun _ => keeps_pure _
  exact (keeps_transact h (hq _)).bind fun _ => keeps_modify fun t ht => hb t _ ht

theorem keeps_setOk (h : ∀ s v ok, P s → P { s with res := { s.res with value := v, ok := ok } }) (b : Bool) :
    Keeps X P E (modify (setOk b)) := keeps_modify fun s hs => h s s.res.value b hs

theorem keeps_resultFromRdata (h : ∀ s v ok, P s → P { s with res := { s.res with value := v, ok := ok } }) :
    Keeps X P E (modify resultFromRdata) := keeps_modify fun s hs => h s s.dp.rdata s.res.ok hs

theorem keeps_rdDp (h : AccessStable X Q P E) {addr : BitVec 8} (ha : dpReadAddrOk addr = true ∨ X)
    (hq : Q (Request.readDp (regOffset addr))) : Keeps X P E (rdDp addr) :=
  (keeps_refuseUnless ha).bind fun _ => (keeps_transact h hq).bind fun _ =>
    (keeps_resultFromRdata h.result).bind fun _ => keeps_setOk h.result true

theorem keeps_wrDp (h : AccessStable X Q P E) {addr : BitVec 8} {v : Word} (ha : dpWriteAddrOk addr = true ∨ X)
    (hq : Q (Request.writeDp (regOffset addr) v)) (hb : ∀ s, P s → P (afterWrDp addr v s)) : Keeps X P E (wrDp addr v) :=
  (keeps_refuseUnless ha).bind fun _ => (keeps_transact h hq).bind fun _ =>
    (keeps_modify hb).bind fun _ => keeps_setOk h.result true

theorem keeps_rdAp (h : ApStable X Q P E) {addr : BitVec 8} (ha : apAddrOk addr = true ∨ X)
    (hq : Q (Request.readAp (regOffset addr))) (hr : Q (Request.readDp dpRdbuff)) : Keeps X P E (rdAp addr) :=
  (keeps_refuseUnless ha).bind fun _ => (h.bankCheck addr).bind fun _ =>
    (keeps_transact h.toAccessStable hq).bind fun _ => (keeps_transact h.toAccessStable hr).bind fun _ =>
      (keeps_resultFromRdata h.result).bind fun _ => keeps_setOk h.result true

theorem keeps_wrAp (h : ApStable X Q P E) {addr : BitVec 8} {v : Word} (ha : apAddrOk addr = true ∨ X)
    (hq : Q (Request.writeAp (regOffset addr) v)) : Keeps X P E (wrAp addr v) :=
  (keeps_refuseUnless ha).bind fun _ => (h.bankCheck addr).bind fun _ =>
    (keeps_transact h.toAccessStable hq).bind fun _ => keeps_setOk h.result true

/-! ## Word helpers and polls (R156 to R159) -/

theorem keeps_ensureCsw (hw : ∀ v, Keeps X P E (wrAp apCsw v))
    (hc : ∀ s, P s → P { s with sess := { s.sess with cswConfigured := true } }) : Keeps X P E ensureCsw :=
  keeps_getBind fun _ => keeps_ite (fun _ => (hw _).bind fun _ => keeps_modify hc) fun _ => keeps_pure _

theorem keeps_memWr32 {a : Addr32} {v : Word} (ha : memAddrOk a = true ∨ X) (hc : Keeps X P E ensureCsw)
    (ht : Keeps X P E (wrAp apTar a)) (hd : Keeps X P E (wrAp apDrw v)) (hf : ∀ s, P s → P (forgetTar s)) :
    Keeps X P E (memWr32 a v) :=
  (keeps_refuseUnless ha).bind fun _ => hc.bind fun _ => ht.bind fun _ => hd.bind fun _ => keeps_modify hf

theorem keeps_memRd32 {a : Addr32} (ha : memAddrOk a = true ∨ X) (hc : Keeps X P E ensureCsw)
    (ht : Keeps X P E (wrAp apTar a)) (hd : Keeps X P E (rdAp apDrw))
    (hr : ∀ s v ok, P s → P { s with res := { s.res with value := v, ok := ok } }) (hf : ∀ s, P s → P (forgetTar s)) :
    Keeps X P E (memRd32 a) :=
  (keeps_refuseUnless ha).bind fun _ => hc.bind fun _ => ht.bind fun _ => hd.bind fun _ =>
    (keeps_resultFromRdata hr).bind fun _ => keeps_modify hf

theorem keeps_pollReads {readOp : Engine Unit} (hr : Keeps X P E readOp)
    (hp : ∀ s n, P s → P { s with dp := { s.dp with pollCount := n } }) (mask : Word) (n : Nat) :
    ∀ v, Keeps X P E (pollReads readOp mask n v) := by
  induction n with
  | zero => exact fun v => keeps_pure _
  | succ n ih =>
    exact fun v => hr.bind fun _ => keeps_getBind fun s => (keeps_modify fun t ht => hp t _ ht).bind fun _ =>
      keeps_ite (fun _ => keeps_pure _) fun _ => ih _

theorem keeps_poll {readOp : Engine Unit} (hr : Keeps X P E readOp)
    (hp : ∀ s n, P s → P { s with dp := { s.dp with pollCount := n } }) (mask : Word) (bound : Nat) :
    Keeps X P E (poll readOp mask bound) :=
  (keeps_modify fun s hs => hp s 0 hs).bind fun _ => keeps_pollReads hr hp mask bound 0

/-! ## The Connection Sequencer (R161 to R167) -/

structure ConnectStable (X : Prop) (P E : State → Prop) : Prop where
  linkWrite : ∀ s bits, P s → bits = s.cfg.activationBits ∨ s.cfg.multidropActivation = some bits →
    Keeps X P E (linkWrite bits)
  lineReset : Keeps X P E linkLinereset
  readId : Keeps X P E (rdDp 0x0)
  readCtrlStat : ∀ s, P s → Keeps X P E (poll (rdDp 0x4) powerUpAcks s.cfg.powerUpPollMax)
  writeAbort : Keeps X P E (wrDp 0x0 abortClear)
  writeCtrlStat : Keeps X P E (wrDp 0x4 powerUpRequest)
  enter : ∀ s c p, P s → P (enterStep c p s)
  ready : ∀ s, P s → P { s with sess := { s.sess with conn := .ready } }
  inspected : ∀ s v, P s → P { s with sess := { s.sess with lastCtrlStat := some v } }
  result : ∀ s v ok, P s → P { s with res := { s.res with value := v, ok := ok } }
  failed : ∀ s c a, P s → E (failEntry c a s)

theorem keeps_sendActivation (h : ConnectStable X P E) : Keeps X P E sendActivation := by
  refine keeps_getBindOf fun s hs => (h.linkWrite s _ hs (.inl rfl)).bind fun _ => ?_
  have last : Keeps X P E (if s.cfg.resetAfterActivation = true then linkLinereset else pure ()) :=
    keeps_ite (fun _ => h.lineReset) fun _ => keeps_pure _
  cases hm : s.cfg.multidropActivation with
  | none => exact last
  | some m => exact (h.linkWrite s m hs (.inr hm)).bind fun _ => last

theorem keeps_idCheck (h : ConnectStable X P E) : Keeps X P E idCheck :=
  h.readId.bind fun _ => keeps_getBind fun _ =>
    keeps_ite (fun _ => keeps_raiseFail fun s hs => h.failed s _ _ hs) fun _ => keeps_pure _

theorem keeps_powerUp (h : ConnectStable X P E) : Keeps X P E powerUp :=
  h.writeAbort.bind fun _ => h.writeCtrlStat.bind fun _ => keeps_getBindOf fun s hs => (h.readCtrlStat s hs).bind fun _ =>
    (keeps_modify fun s hs => h.inspected s _ hs).bind fun _ =>
      keeps_ite (fun _ => keeps_raiseFail fun s hs => h.failed s _ _ hs) fun _ => keeps_pure _

/-- `P0` is what holds before the fresh session. -/
theorem ends_connect {P0 : State → Prop} (h : ConnectStable X P E) (hf : ∀ s, P0 s → P (freshSession s)) :
    Ends X P0 connect (fun _ => P) E :=
  (ends_modify hf).bind fun _ => (keeps_modify fun s hs => h.enter s _ _ hs).bind fun _ => h.lineReset.bind fun _ =>
    (keeps_modify fun s hs => h.enter s _ _ hs).bind fun _ => (keeps_sendActivation h).bind fun _ =>
      (keeps_modify fun s hs => h.enter s _ _ hs).bind fun _ => (keeps_idCheck h).bind fun _ =>
        (keeps_modify fun s hs => h.enter s _ _ hs).bind fun _ => (keeps_powerUp h).bind fun _ =>
          (keeps_modify h.ready).bind fun _ => keeps_setOk h.result true

/-! ## Target Control (R168 to R170) -/

/-- The core debug registers. -/
def isDebugAddr (a : Addr32) : Prop := a = dhcsrAddr ∨ a = dcrsrAddr ∨ a = dcrdrAddr

structure ControlStable (X : Prop) (P E : State → Prop) : Prop where
  memWrite : ∀ a v, isDebugAddr a → Keeps X P E (memWr32 a v)
  pollHalt : ∀ s, P s → Keeps X P E (poll (memRd32 dhcsrAddr) sHalt s.cfg.haltPollMax)
  pollReady : ∀ s, P s → Keeps X P E (poll (memRd32 dhcsrAddr) sRegRdy s.cfg.regRdyPollMax)
  phase : ∀ s p, P s → P (setPhase p s)
  halted : ∀ s b, P s → P (setHalted b s)
  result : ∀ s v ok, P s → P { s with res := { s.res with value := v, ok := ok } }
  failed : ∀ s c a, P s → E (failEntry c a s)

theorem keeps_halt (h : ControlStable X P E) : Keeps X P E halt :=
  (keeps_modify fun s hs => h.phase s _ hs).bind fun _ => (h.memWrite _ _ (.inl rfl)).bind fun _ =>
    keeps_getBindOf fun s hs => (h.pollHalt s hs).bind fun r =>
      have rest : Keeps X P E (do modify (setHalted true); modify (setOk true)) :=
        (keeps_modify fun s hs => h.halted s _ hs).bind fun _ => keeps_setOk h.result true
      keeps_ite (fun _ => Ends.bind (keeps_raiseFail fun s hs => h.failed s _ _ hs) fun (_ : PUnit) => rest) fun _ => rest

theorem keeps_awaitRegRdy (h : ControlStable X P E) : Keeps X P E awaitRegRdy :=
  keeps_getBindOf fun s hs => (h.pollReady s hs).bind fun _ =>
    keeps_ite (fun _ => keeps_raiseFail fun s hs => h.failed s _ _ hs) fun _ => keeps_pure _

theorem keeps_setReg (h : ControlStable X P E) (r : BitVec 5) (v : Word) : Keeps X P E (setReg r v) := by
  refine (keeps_modify fun s hs => h.phase s _ hs).bind fun _ => keeps_getBind fun s => ?_
  cases s.cfg.setRegOrder with
  | selectThenData =>
    exact (h.memWrite _ _ (.inr (.inl rfl))).bind fun _ => (keeps_awaitRegRdy h).bind fun _ =>
      (h.memWrite _ _ (.inr (.inr rfl))).bind fun _ => keeps_setOk h.result true
  | dataThenSelect =>
    exact (h.memWrite _ _ (.inr (.inr rfl))).bind fun _ => (h.memWrite _ _ (.inr (.inl rfl))).bind fun _ =>
      (keeps_awaitRegRdy h).bind fun _ => keeps_setOk h.result true

theorem keeps_resume (h : ControlStable X P E) : Keeps X P E resume :=
  (keeps_modify fun s hs => h.phase s _ hs).bind fun _ => (h.memWrite _ _ (.inl rfl)).bind fun _ =>
    (keeps_modify fun s hs => h.halted s _ hs).bind fun _ => keeps_setOk h.result true

/-! ## The passes and the load operation (R174 to R177) -/

/-- What a property must allow so that a pass keeps it. -/
structure PassStable (op : PassOp) (X : Prop) (P E : State → Prop) : Prop where
  ensureCsw : Keeps X P E ensureCsw
  word : ∀ j a w, Keeps X P E (passWord op j a w)
  start : ∀ s, P s → P (startPass s)
  section_ : ∀ s k, P s → P { s with seq := { s.seq with sectionIndex := k } }
  phase : ∀ s p, P s → P (setPhase p s)
  result : ∀ s v ok, P s → P { s with res := { s.res with value := v, ok := ok } }

theorem keeps_passWord {op : PassOp} {j : Nat} {a : Addr32} {w : Word} (hs : ∀ s, P s → P { s with seq := { s.seq with wordIndex := j } })
    (ht : Keeps X P E (wrAp apTar a)) (hb : ∀ s, P s → P (startBurst s)) (hw : op = .write → Keeps X P E (wrAp apDrw w))
    (hr : Keeps X P E (rdAp apDrw)) (hf : ∀ s c a, P s → E (failEntry c a s)) (ha : ∀ s, P s → P (advanceBurst a s)) :
    Keeps X P E (passWord op j a w) := by
  have last : Keeps X P E (modify (advanceBurst a)) := keeps_modify ha
  have check : Keeps X P E (do
      match op with
      | .write => wrAp apDrw w
      | .verify =>
        rdAp apDrw
        if (← get).res.value ≠ w then raiseFail .verifyMismatch (some a)
      modify (advanceBurst a)) := by
    cases op with
    | write => exact (hw rfl).bind fun _ => last
    | verify =>
      exact hr.bind fun _ => keeps_getBind fun _ =>
        keeps_ite (fun _ => Ends.bind (keeps_raiseFail fun s hs => hf s _ _ hs) fun (_ : PUnit) => last) fun _ => last
  exact (keeps_modify hs).bind fun _ => keeps_getBind fun _ =>
    keeps_ite (fun _ => ht.bind fun _ => (keeps_modify hb).bind fun _ => check) fun _ => check

theorem keeps_passWords {op : PassOp} (h : PassStable op X P E) (base : Addr32) (ws : List Word) :
    ∀ j, Keeps X P E (passWords op base j ws) := by
  induction ws with
  | nil => exact fun _ => keeps_pure _
  | cons w ws ih => exact fun j => (h.word j _ w).bind fun _ => ih (j + 1)

theorem keeps_passSections {op : PassOp} (h : PassStable op X P E) (secs : List Section) :
    ∀ k, Keeps X P E (passSections op k secs) := by
  induction secs with
  | nil => exact fun _ => keeps_pure _
  | cons sec rest ih =>
    exact fun k => (keeps_modify fun s hs => h.section_ s k hs).bind fun _ =>
      (keeps_passWords h sec.addr (sectionWords sec) 0).bind fun _ => ih (k + 1)

theorem keeps_pass {op : PassOp} (h : PassStable op X P E) (p : LoadPlan) : Keeps X P E (pass op p) :=
  h.ensureCsw.bind fun _ => (keeps_modify h.start).bind fun _ => keeps_passSections h _ 0

theorem keeps_writeBlocks (h : PassStable .write X P E) (p : LoadPlan) : Keeps X P E (writeBlocks p) :=
  (keeps_modify fun s hs => h.phase s _ hs).bind fun _ => (keeps_pass h p).bind fun _ => keeps_setOk h.result true

theorem keeps_verifyBlocks (h : PassStable .verify X P E) (p : LoadPlan) : Keeps X P E (verifyBlocks p) :=
  (keeps_modify fun s hs => h.phase s _ hs).bind fun _ => (keeps_pass h p).bind fun _ => keeps_setOk h.result true

/-- `P0` is what holds once the load operation has begun, before its fresh session; `R` is what holds at its end. -/
theorem ends_runLoad {P00 P0 : State → Prop} {R : Unit → State → Prop} (hc : ConnectStable X P E) (ht : ControlStable X P E)
    (hw : PassStable .write X P E) (hv : PassStable .verify X P E) (hb : ∀ s, P00 s → P0 (beginLoad s)) (hf : ∀ s, P0 s → P (freshSession s))
    (hl : ∀ s l, P s → P (setLoad l s)) (he : ∀ s, P s → R () (setOk true (endLoad s))) (p : LoadPlan) :
    Ends X P00 (runLoad p) R E := by
  have last : Ends X P (do
      modify (setLoad .loaded)
      setReg 13 p.sp
      setReg 15 p.entry
      resume
      modify endLoad
      modify (setOk true)) R E :=
    (keeps_modify fun s hs => hl s _ hs).bind fun _ => (keeps_setReg ht _ _).bind fun _ => (keeps_setReg ht _ _).bind fun _ =>
      (keeps_resume ht).bind fun _ => Ends.bind (ends_modify (Q := fun _ t => ∃ s, P s ∧ t = endLoad s) fun s hs => ⟨s, hs, rfl⟩)
        fun _ => ends_modify fun t ⟨s, hs, h⟩ => h ▸ he s hs
  exact (ends_modify hb).bind fun _ => (ends_connect hc hf).bind fun _ => (keeps_modify fun s hs => hl s _ hs).bind fun _ =>
    (keeps_halt ht).bind fun _ => (keeps_modify fun s hs => hl s _ hs).bind fun _ => (keeps_writeBlocks hw p).bind fun _ =>
      Ends.bind keeps_get fun s => ends_ite (fun _ => (keeps_verifyBlocks hv p).bind fun _ => last) fun _ => last

end Sys2Proof.Machine
end

