-- ==== Sys2Proof/Laws/Exec.lean ====
section
/-! SUPPORT. Every instruction as one operation, and properties that hold whatever the instruction: those that depend on
nothing but the exchange, the link cycles and the coarse parts of the state (`EngineStable`). -/

namespace Sys2Proof.Machine

/-- The operation an instruction runs. -/
def Instr.operation (s : State) : Instr → Engine Unit
  | .dpw0Abort => xfer (Request.writeDp 0 s.op.value)
  | .dpw4Ctrlstat => xfer (Request.writeDp 1 s.op.value)
  | .dpw8Select => xfer (Request.writeDp 2 s.op.value)
  | .dpwcReserved => xfer (Request.writeDp 3 s.op.value)
  | .dpr0Idcode => xfer (Request.readDp 0)
  | .dpr4Ctrlstat => xfer (Request.readDp 1)
  | .dpr8Resend => xfer (Request.readDp 2)
  | .dprcRdbuff => xfer (Request.readDp 3)
  | .apw0Csw => xfer (Request.writeAp 0 s.op.value)
  | .apw4Tar => xfer (Request.writeAp 1 s.op.value)
  | .apw8Reserved => xfer (Request.writeAp 2 s.op.value)
  | .apwcDrw => xfer (Request.writeAp 3 s.op.value)
  | .apr0Csw => xfer (Request.readAp 0)
  | .apr4Tar => xfer (Request.readAp 1)
  | .apr8Reserved => xfer (Request.readAp 2)
  | .aprcDrw => xfer (Request.readAp 3)
  | .linkClock => modify linkClock
  | .linkWrite => linkWrite s.op.bits
  | .linkRead => linkRead s.op.count
  | .linkTrn => linkTrn
  | .linkLinereset => linkLinereset
  | .xfer => xfer { apndp := s.op.apndp, rnw := s.op.rnw, a := regOffset s.op.addr, data := s.op.value }
  | .rdDp => rdDp s.op.addr
  | .wrDp => wrDp s.op.addr s.op.value
  | .rdAp => rdAp s.op.addr
  | .wrAp => wrAp s.op.addr s.op.value
  | .memWr32 => memWr32 s.op.value s.op.value2
  | .memRd32 => memRd32 s.op.value
  | .connect => connect
  | .halt => halt
  | .setReg => setReg s.op.regId s.op.value
  | .resume => resume
  | .load => loadPlan s.op.plan
  | .writeBlocks => do admittedPlan s.op.plan; writeBlocks s.op.plan
  | .verifyBlocks => do admittedPlan s.op.plan; verifyBlocks s.op.plan

theorem exec_eq_finish (i : Instr) (s : State) : exec i s = finish (Instr.operation s i) s := by
  cases i <;> rfl

/-- The bits that the layered commands drive outside an exchange: the activation bits, the multidrop code or a line reset
(R96, R97). -/
def LayeredBits (cfg : Config) (bits : List Bool) : Prop :=
  bits = cfg.activationBits ∨ cfg.multidropActivation = some bits ∨
    bits = List.replicate cfg.lineResetHigh true ++ List.replicate cfg.lineResetIdle false

/-- A property of the coarse parts of the state. `X` says whether a fault or a refusal is allowed. -/
structure CommandStable (X : Prop) (P E : State → Prop) : Prop where
  exchange : ∀ rq s, rq.isDpWriteC = false → s.link.lastDir ≠ .target → P s → P (exchange rq s)
  drive : ∀ bits s, (∃ u, P u ∧ LayeredBits u.cfg bits) → s.link.lastDir ≠ .target → P s → P (driveBits bits s)
  hazard : ∀ s, P s → s.link.lastDir = .target → X
  counters : ∀ s w f p, P s → P { s with dp := { s.dp with waitCount := w, faultRetried := f, pollCount := p } }
  results : ∀ s v ok, P s → P { s with res := { s.res with value := v, ok := ok } }
  session : ∀ s x, x.failInfo = s.sess.failInfo → P s → P { s with sess := x }
  position : ∀ s q, P s → P { s with seq := q }
  failed : ∀ s c a, P s → E (failEntry c a s)

/-- One that a fresh session keeps, too (R161). -/
structure EngineStable (X : Prop) (P E : State → Prop) : Prop extends CommandStable X P E where
  fresh : ∀ s, P s → P (freshSession s)

variable {X : Prop} {P E : State → Prop}

theorem CommandStable.access (h : CommandStable X P E) : AccessStable X (fun rq => rq.isDpWriteC = false) P E where
  exchange := fun rq hq => keeps_xfer (.inl hq) h.hazard fun s hs hd => h.exchange rq s hq hd hs
  recoverReads := rfl
  recoverWrites := rfl
  waitCount := fun s n _ hs => h.counters s n s.dp.faultRetried s.dp.pollCount hs
  retried := fun s b hs => h.counters s s.dp.waitCount b s.dp.pollCount hs
  inspected := fun s v hs => h.session s _ rfl hs
  sticky := fun s hs => h.session s _ rfl hs
  result := h.results
  failed := h.failed

theorem writeDp_dpSelect_ok (v : Word) : (Request.writeDp dpSelect v).isDpWriteC = false := rfl
theorem readDp_ok (a : BitVec 2) : (Request.readDp a).isDpWriteC = false := by simp [Request.isDpWriteC, Request.readDp]
theorem readAp_ok (a : BitVec 2) : (Request.readAp a).isDpWriteC = false := by simp [Request.isDpWriteC, Request.readAp]
theorem writeAp_ok (a : BitVec 2) (v : Word) : (Request.writeAp a v).isDpWriteC = false := by
  simp [Request.isDpWriteC, Request.writeAp]

theorem dpWriteAddrOk_cases {addr : BitVec 8} (h : dpWriteAddrOk addr = true) : addr = 0x0 ∨ addr = 0x4 ∨ addr = 0x8 := by
  simpa [dpWriteAddrOk, or_assoc] using h

theorem writeDp_addr_ok {addr : BitVec 8} (h : dpWriteAddrOk addr = true) (v : Word) :
    (Request.writeDp (regOffset addr) v).isDpWriteC = false := by
  obtain rfl | rfl | rfl := dpWriteAddrOk_cases h <;> rfl

theorem CommandStable.ap (h : CommandStable X P E) : ApStable X (fun rq => rq.isDpWriteC = false) P E :=
  { h.access with bankCheck := keeps_bankCheck h.access writeDp_dpSelect_ok fun s _ hs => h.session s _ rfl hs }

theorem CommandStable.rdDp (h : CommandStable X P E) (addr : BitVec 8) (ha : dpReadAddrOk addr = true ∨ X) : Keeps X P E (rdDp addr) :=
  keeps_rdDp h.access ha (readDp_ok _)

theorem CommandStable.afterWrDp (h : CommandStable X P E) (addr : BitVec 8) (v : Word) (s : State) (hs : P s) :
    P (afterWrDp addr v s) := by
  unfold Machine.afterWrDp
  split
  · exact h.session s _ rfl hs
  · split
    · exact h.session s _ rfl hs
    · exact hs

theorem CommandStable.wrDp (h : CommandStable X P E) (addr : BitVec 8) (v : Word) (ha : dpWriteAddrOk addr = true ∨ X) :
    Keeps X P E (wrDp addr v) := by
  by_cases hg : dpWriteAddrOk addr = true
  · exact keeps_wrDp h.access ha (writeDp_addr_ok hg v) (h.afterWrDp addr v)
  · intro s hs
    have : refuseUnless (dpWriteAddrOk addr) .badDPAddr s = .error (.refused .badDPAddr) s := by simp [hg]
    unfold Machine.wrDp
    rw [bind_of_error this]
    exact ha.resolve_left hg

theorem CommandStable.rdAp (h : CommandStable X P E) (addr : BitVec 8) (ha : apAddrOk addr = true ∨ X) : Keeps X P E (rdAp addr) :=
  keeps_rdAp h.ap ha (readAp_ok _) (readDp_ok _)

theorem CommandStable.wrAp (h : CommandStable X P E) (addr : BitVec 8) (v : Word) (ha : apAddrOk addr = true ∨ X) :
    Keeps X P E (wrAp addr v) :=
  keeps_wrAp h.ap ha (writeAp_ok _ v)

theorem CommandStable.csw (h : CommandStable X P E) : Keeps X P E ensureCsw :=
  keeps_ensureCsw (fun v => h.wrAp apCsw v (.inl rfl)) fun s hs => h.session s _ rfl hs

theorem CommandStable.memWr32 (h : CommandStable X P E) (a : Addr32) (v : Word) (ha : memAddrOk a = true ∨ X) :
    Keeps X P E (memWr32 a v) :=
  keeps_memWr32 ha h.csw (h.wrAp apTar a (.inl rfl)) (h.wrAp apDrw v (.inl rfl)) fun s hs => h.session s _ rfl hs

theorem CommandStable.memRd32 (h : CommandStable X P E) (a : Addr32) (ha : memAddrOk a = true ∨ X) : Keeps X P E (memRd32 a) :=
  keeps_memRd32 ha h.csw (h.wrAp apTar a (.inl rfl)) (h.rdAp apDrw (.inl rfl)) h.results fun s hs => h.session s _ rfl hs

theorem CommandStable.polled (h : CommandStable X P E) (s : State) (n : Nat) (hs : P s) :
    P { s with dp := { s.dp with pollCount := n } } :=
  h.counters s s.dp.waitCount s.dp.faultRetried n hs

theorem CommandStable.linkWrite (h : CommandStable X P E) {bits : List Bool} (hb : ∃ u, P u ∧ LayeredBits u.cfg bits) :
    Keeps X P E (linkWrite bits) := by
  intro s hs
  unfold Machine.linkWrite
  by_cases hd : s.link.lastDir = .target
  · rw [bind_of_error (checkDir_fault hd)]; exact h.hazard s hs hd
  · rw [bind_of_ok (checkDir_ok hd)]; exact h.drive bits s hb hd hs

theorem CommandStable.linkLinereset (h : CommandStable X P E) : Keeps X P E linkLinereset := by
  intro s hs
  unfold Machine.linkLinereset
  by_cases hd : s.link.lastDir = .target
  · rw [bind_of_error (checkDir_fault hd)]; exact h.hazard s hs hd
  · rw [bind_of_ok (checkDir_ok hd)]; exact h.drive _ s ⟨s, hs, .inr (.inr rfl)⟩ hd hs

theorem CommandStable.connect (h : CommandStable X P E) : ConnectStable X P E where
  linkWrite := fun s bits hs hb => h.linkWrite ⟨s, hs, hb.imp_right .inl⟩
  lineReset := h.linkLinereset
  readId := h.rdDp 0x0 (.inl rfl)
  readCtrlStat := fun _ _ => keeps_poll (h.rdDp 0x4 (.inl rfl)) h.polled _ _
  writeAbort := h.wrDp 0x0 _ (.inl rfl)
  writeCtrlStat := h.wrDp 0x4 _ (.inl rfl)
  enter := fun s c p hs => h.position _ _ (h.session s _ rfl hs)
  ready := fun s hs => h.session s _ rfl hs
  inspected := fun s _ hs => h.session s _ rfl hs
  result := h.results
  failed := h.failed

theorem memAddrOk_debug {a : Addr32} (h : isDebugAddr a) : memAddrOk a = true := by
  obtain rfl | rfl | rfl := h <;> rfl

theorem CommandStable.control (h : CommandStable X P E) : ControlStable X P E where
  memWrite := fun a v ha => h.memWr32 a v (.inl (memAddrOk_debug ha))
  pollHalt := fun _ _ => keeps_poll (h.memRd32 dhcsrAddr (.inl rfl)) h.polled _ _
  pollReady := fun _ _ => keeps_poll (h.memRd32 dhcsrAddr (.inl rfl)) h.polled _ _
  phase := fun s _ hs => h.position s _ hs
  halted := fun s _ hs => h.session s _ rfl hs
  result := h.results
  failed := h.failed

theorem CommandStable.passes (h : CommandStable X P E) (op : PassOp) : PassStable op X P E where
  ensureCsw := h.csw
  word := fun _ a w => keeps_passWord (fun s hs => h.position s _ hs) (h.wrAp apTar a (.inl rfl))
    (fun s hs => h.session s _ rfl hs) (fun _ => h.wrAp apDrw w (.inl rfl)) (h.rdAp apDrw (.inl rfl)) h.failed
    fun s hs => h.session s _ rfl hs
  start := fun s hs => h.session s _ rfl hs
  section_ := fun s _ hs => h.position s _ hs
  phase := fun s _ hs => h.position s _ hs
  result := h.results

/-- What the load operation writes besides (R177). -/
structure LoadStable (P : State → Prop) : Prop where
  begin : ∀ s, P s → P (beginLoad s)
  moves : ∀ s l, P s → P (setLoad l s)
  ends : ∀ s, P s → P (endLoad s)

theorem EngineStable.runLoad (h : EngineStable X P E) (hb : LoadStable P) (p : LoadPlan) : Keeps X P E (runLoad p) :=
  ends_runLoad h.connect h.control (h.passes .write) (h.passes .verify) hb.begin h.fresh hb.moves
    (fun s hs => h.results _ _ true (hb.ends s hs)) p

/-- What the raw link commands must allow besides (R117, R119, R120). -/
structure LinkStable (P : State → Prop) : Prop where
  clock : ∀ s, P s → P (linkClock s)
  sample : ∀ n s, s.link.lastDir ≠ .host → P s → P (linkSample n s)
  turnaround : ∀ s, P s → P (turnaround s)
  drive : ∀ bits s, s.link.lastDir ≠ .target → P s → P (driveBits bits s)

theorem keeps_linkWrite (h : LinkStable P) (bits : List Bool) : Keeps True P E (linkWrite bits) := by
  intro s hs
  unfold linkWrite
  by_cases hd : s.link.lastDir = .target
  · rw [bind_of_error (checkDir_fault hd)]; exact trivial
  · rw [bind_of_ok (checkDir_ok hd)]; exact h.drive bits s hd hs

theorem keeps_linkRead (h : LinkStable P) (n : Nat) : Keeps True P E (linkRead n) := by
  intro s hs
  unfold linkRead
  by_cases hd : s.link.lastDir = .host
  · rw [bind_of_error (checkDir_fault hd)]; exact trivial
  · rw [bind_of_ok (checkDir_ok hd)]; exact h.sample n s hd hs

theorem keeps_loadPlan (h : EngineStable True P E) (hb : LoadStable P) (p : LoadPlan) : Keeps True P E (loadPlan p) :=
  keeps_getBind fun _ => (keeps_refuseUnless (.inr trivial)).bind fun _ => (keeps_refuseUnless (.inr trivial)).bind fun _ =>
    h.runLoad hb p

theorem keeps_admittedPlan (p : LoadPlan) : Keeps True P E (admittedPlan p) :=
  keeps_getBind fun _ => keeps_refuseUnless (.inr trivial)

theorem xfer_keeps (h : CommandStable True P E) (rq : Request) : Keeps True P E (xfer rq) := by
  by_cases hc : rq.isDpWriteC = true
  · intro s hs
    unfold xfer
    rw [bind_of_error (s := s) (t := s) (e := .refused .dpWrite0xC) (by simp [hc])]
    exact trivial
  · exact h.access.exchange rq (by simpa using hc)

/-- An instruction other than `LOAD` and `CONNECT` keeps a property of the coarse parts. -/
theorem command_keeps (h : CommandStable True P E) (s : State) (i : Instr)
    (hl : i ∈ [Instr.linkClock, .linkWrite, .linkRead, .linkTrn] → LinkStable P) (hi : i ≠ .load) (hc : i ≠ .connect) :
    Keeps True P E (Instr.operation s i) := by
  cases i
  case linkClock => exact keeps_modify (hl (by decide)).clock
  case linkWrite => exact keeps_linkWrite (hl (by decide)) _
  case linkRead => exact keeps_linkRead (hl (by decide)) _
  case linkTrn => exact keeps_modify (hl (by decide)).turnaround
  case linkLinereset => exact h.linkLinereset
  case rdDp => exact h.rdDp _ (.inr trivial)
  case wrDp => exact h.wrDp _ _ (.inr trivial)
  case rdAp => exact h.rdAp _ (.inr trivial)
  case wrAp => exact h.wrAp _ _ (.inr trivial)
  case memWr32 => exact h.memWr32 _ _ (.inr trivial)
  case memRd32 => exact h.memRd32 _ (.inr trivial)
  case connect => exact absurd rfl hc
  case halt => exact keeps_halt h.control
  case setReg => exact keeps_setReg h.control _ _
  case resume => exact keeps_resume h.control
  case load => exact absurd rfl hi
  case writeBlocks => exact (keeps_admittedPlan _).bind fun _ => keeps_writeBlocks (h.passes _) _
  case verifyBlocks => exact (keeps_admittedPlan _).bind fun _ => keeps_verifyBlocks (h.passes _) _
  all_goals exact xfer_keeps h _

/-- An instruction other than `LOAD` keeps a property that a fresh session keeps, too. -/
theorem operation_keeps (h : EngineStable True P E) (s : State) (i : Instr)
    (hl : i ∈ [Instr.linkClock, .linkWrite, .linkRead, .linkTrn] → LinkStable P) (hi : i ≠ .load) :
    Keeps True P E (Instr.operation s i) := by
  by_cases hc : i = .connect
  · subst hc; exact ends_connect h.connect h.fresh
  · exact command_keeps h.toCommandStable s i hl hi hc

theorem exec_keeps_direct (h : EngineStable True P E) (hl : LinkStable P) {i : Instr} {s t : State} (hi : i ≠ .load)
    (hs : P s) (he : exec i s = .next t) : P t ∨ E t :=
  finish_next (operation_keeps h s i (fun _ => hl) hi) hs (by rwa [← exec_eq_finish])

theorem exec_keeps (h : EngineStable True P P) (hl : LinkStable P) (hb : LoadStable P) {i : Instr} {s t : State}
    (hs : P s) (he : exec i s = .next t) : P t := by
  by_cases hi : i = .load
  · subst hi
    exact (finish_next (keeps_loadPlan h hb s.op.plan) hs he).elim id id
  · exact (exec_keeps_direct h hl hi hs he).elim id id

/-- What one step does when something is issued (R188). -/
theorem step_cases {s t : State} (h : step s = .next t) :
    t = s ∨ ∃ c rest i, s.inbox = c :: rest ∧ paramsValid s.cfg = true ∧ decodeByte c.word = .ok i ∧
      exec i (acceptIssue c rest s) = .next t := by
  unfold step nextCommand at h
  cases hi : s.inbox with
  | nil => rw [hi] at h; cases h; exact .inl rfl
  | cons c rest =>
    rw [hi] at h
    by_cases hp : paramsValid s.cfg = true
    · simp only [hp, if_true] at h
      cases hd : decodeByte c.word with
      | ok i => rw [hd] at h; exact .inr ⟨c, rest, i, rfl, hp, hd, h⟩
      | error e => rw [hd] at h; cases h
    · simp [hp] at h

end Sys2Proof.Machine
end

