-- ==== Sys2Proof/Laws/Memory.lean ====
section
/-! SUPPORT. Target memory: a write leaves every other byte alone, a read after a write gives the value written, and
every write keeps the canonical form. -/

namespace Sys2Proof.Machine

/-- A byte write leaves every other address alone. -/
theorem readByte_writeByte_ne (m : List Host.Cell) (a b : Nat) (v : Byte) (h : b ≠ a) :
    readByte (writeByte m a v) b = readByte m b := by
  induction m with
  | nil => by_cases hv : v = memDefault <;> simp [writeByte, readByte, hv, h]
  | cons c rest ih =>
    obtain ⟨k, w⟩ := c
    unfold writeByte
    split_ifs with h1 h2 h3 h4
    · rfl
    · simp [readByte, h]
    · subst h3; simp [readByte, h]
    · subst h3; simp [readByte, h]
    · simp [readByte, ih]

theorem readByte_below (lo : Nat) (m : List Host.Cell) (hm : cellsFrom lo m = true) (a : Nat) (h : a < lo) :
    readByte m a = memDefault := by
  induction m generalizing lo with
  | nil => rfl
  | cons c rest ih =>
    obtain ⟨k, w⟩ := c
    simp only [cellsFrom, Bool.and_eq_true, decide_eq_true_eq] at hm
    obtain ⟨⟨⟨h1, _⟩, _⟩, h4⟩ := hm
    simp only [readByte]
    rw [if_neg (by omega)]
    exact ih (k + 1) h4 (by omega)

/-- In a canonical memory a byte write is read back. -/
theorem readByte_writeByte_self (lo : Nat) (m : List Host.Cell) (hm : cellsFrom lo m = true) (a : Nat) (v : Byte) :
    readByte (writeByte m a v) a = v := by
  induction m generalizing lo with
  | nil => by_cases hv : v = memDefault <;> simp [writeByte, readByte, hv]
  | cons c rest ih =>
    obtain ⟨k, w⟩ := c
    simp only [cellsFrom, Bool.and_eq_true, decide_eq_true_eq] at hm
    obtain ⟨⟨⟨_, _⟩, _⟩, h4⟩ := hm
    unfold writeByte
    split_ifs with h1 h2 h3 h5
    · simp only [readByte]
      rw [if_neg (by omega), readByte_below (k + 1) rest h4 a (by omega), h2]
    · simp [readByte]
    · rw [readByte_below (k + 1) rest h4 a (by omega), h5]
    · simp [readByte]
    · simp only [readByte]
      rw [if_neg h3, ih (k + 1) h4]

theorem cellsFrom_mono (lo lo' : Nat) (m : List Host.Cell) (h : cellsFrom lo m = true) (hl : lo' ≤ lo) :
    cellsFrom lo' m = true := by
  cases m with
  | nil => rfl
  | cons c rest =>
    obtain ⟨k, w⟩ := c
    simp only [cellsFrom, Bool.and_eq_true, decide_eq_true_eq] at h ⊢
    exact ⟨⟨⟨by omega, h.1.1.2⟩, h.1.2⟩, h.2⟩

theorem cellsFrom_writeByte (lo : Nat) (m : List Host.Cell) (h : cellsFrom lo m = true) (a : Nat) (v : Byte)
    (hlo : lo ≤ a) (ha : a < 4294967296) : cellsFrom lo (writeByte m a v) = true := by
  induction m generalizing lo with
  | nil => by_cases hv : v = memDefault <;> simp [writeByte, cellsFrom, hv, hlo, ha]
  | cons c rest ih =>
    obtain ⟨k, w⟩ := c
    have hc := h
    simp only [cellsFrom, Bool.and_eq_true, decide_eq_true_eq] at h
    obtain ⟨⟨⟨h1, h2⟩, h3⟩, h4⟩ := h
    unfold writeByte
    split_ifs with g1 g2 g3 g4
    · exact hc
    · simp only [cellsFrom, Bool.and_eq_true, decide_eq_true_eq]
      exact ⟨⟨⟨hlo, ha⟩, g2⟩, ⟨⟨⟨by omega, h2⟩, h3⟩, h4⟩⟩
    · exact cellsFrom_mono _ _ _ h4 (by omega)
    · simp only [cellsFrom, Bool.and_eq_true, decide_eq_true_eq]
      refine ⟨⟨⟨hlo, ha⟩, g4⟩, ?_⟩
      rw [g3]
      exact h4
    · simp only [cellsFrom, Bool.and_eq_true, decide_eq_true_eq]
      exact ⟨⟨⟨h1, h2⟩, h3⟩, ih (k + 1) h4 (by omega)⟩

theorem byteAddr_lt (a : Addr32) (k : Nat) : byteAddr a k < 4294967296 := (a + BitVec.ofNat 32 k).isLt

/-- A byte write keeps the canonical form. -/
theorem wf_writeByte (m : List Host.Cell) (h : Memory.wf m = true) (a : Nat) (v : Byte) (ha : a < 4294967296) :
    Memory.wf (writeByte m a v) = true :=
  cellsFrom_writeByte 0 m h a v (Nat.zero_le a) ha

/-- A word write keeps the canonical form. -/
theorem wf_writeWord (m : List Host.Cell) (h : Memory.wf m = true) (a : Addr32) (v : Word) :
    Memory.wf (writeWord m a v) = true := by
  unfold writeWord
  exact wf_writeByte _ (wf_writeByte _ (wf_writeByte _ (wf_writeByte _ h _ _ (byteAddr_lt a 0)) _ _ (byteAddr_lt a 1))
    _ _ (byteAddr_lt a 2)) _ _ (byteAddr_lt a 3)

/-- A word write leaves every byte outside its four addresses alone. -/
theorem readByte_writeWord_ne (m : List Host.Cell) (a : Addr32) (v : Word) (b : Nat) (h : ∀ k < 4, b ≠ byteAddr a k) :
    readByte (writeWord m a v) b = readByte m b := by
  unfold writeWord
  simp only []
  rw [readByte_writeByte_ne _ _ _ _ (h 3 (by omega)), readByte_writeByte_ne _ _ _ _ (h 2 (by omega)),
    readByte_writeByte_ne _ _ _ _ (h 1 (by omega)), readByte_writeByte_ne _ _ _ _ (h 0 (by omega))]

theorem byteAddr_injective (a : Addr32) (j k : Nat) (hj : j < 4) (hk : k < 4) (h : byteAddr a j = byteAddr a k) : j = k := by
  simp only [byteAddr, BitVec.toNat_add, BitVec.toNat_ofNat] at h
  have := a.isLt
  omega

/-- In a canonical memory the four bytes of a word write are read back (R71). -/
theorem readByte_writeWord_self (m : List Host.Cell) (hm : Memory.wf m = true) (a : Addr32) (v : Word) (k : Nat) (hk : k < 4) :
    readByte (writeWord m a v) (byteAddr a k) = byteOfWord v k := by
  have ne : ∀ j l, j < 4 → l < 4 → j ≠ l → byteAddr a j ≠ byteAddr a l :=
    fun j l hj hl hjl h => hjl (byteAddr_injective a j l hj hl h)
  have w0 := wf_writeByte m hm (byteAddr a 0) (byteOfWord v 0) (byteAddr_lt a 0)
  have w1 := wf_writeByte _ w0 (byteAddr a 1) (byteOfWord v 1) (byteAddr_lt a 1)
  have w2 := wf_writeByte _ w1 (byteAddr a 2) (byteOfWord v 2) (byteAddr_lt a 2)
  unfold writeWord
  simp only []
  match k, hk with
  | 3, _ => exact readByte_writeByte_self 0 _ w2 _ _
  | 2, _ =>
    rw [readByte_writeByte_ne _ _ _ _ (ne 2 3 (by omega) (by omega) (by omega))]
    exact readByte_writeByte_self 0 _ w1 _ _
  | 1, _ =>
    rw [readByte_writeByte_ne _ _ _ _ (ne 1 3 (by omega) (by omega) (by omega)),
      readByte_writeByte_ne _ _ _ _ (ne 1 2 (by omega) (by omega) (by omega))]
    exact readByte_writeByte_self 0 _ w0 _ _
  | 0, _ =>
    rw [readByte_writeByte_ne _ _ _ _ (ne 0 3 (by omega) (by omega) (by omega)),
      readByte_writeByte_ne _ _ _ _ (ne 0 2 (by omega) (by omega) (by omega)),
      readByte_writeByte_ne _ _ _ _ (ne 0 1 (by omega) (by omega) (by omega))]
    exact readByte_writeByte_self 0 _ hm _ _

end Sys2Proof.Machine
end

