-- ==== Sys2Proof/Laws/Invariants.lean ====
section
/-! SUPPORT. Properties every instruction keeps: the turnaround rule, the shape of the target, the parameters, and that
no command faults or refuses when its operands are in range and the link is not target-driven. -/

namespace Sys2Proof.Machine

/-! ## Turnarounds (R201) -/

theorem wellTurned_z (l r : List Cycle) : wellTurned (l ++ .z :: r) = (wellTurned l && wellTurned (.z :: r)) := by
  induction l with
  | nil => simp [wellTurned]
  | cons a l ih =>
    cases l with
    | nil => simp [wellTurned, Cycle.dir]
    | cons b l =>
      simp only [List.cons_append, wellTurned] at ih ⊢
      rw [ih]
      simp [Bool.and_assoc]

theorem wellTurned_z_cons (r : List Cycle) : wellTurned (.z :: r) = wellTurned r := by
  cases r <;> simp [wellTurned, Cycle.dir]

theorem wellTurned_host (l : List Cycle) (bits : List Bool) (hl : wellTurned l = true) (h : ∀ c, l.getLast? = some c → c.dir ≠ .target) :
    wellTurned (l ++ bits.map .h) = true := by
  induction l with
  | nil =>
    induction bits with
    | nil => rfl
    | cons b bs ih => cases bs <;> simp_all [wellTurned, Cycle.dir]
  | cons a l ih =>
    cases l with
    | nil =>
      have ha : a.dir ≠ .target := h a (by simp)
      have := ih rfl (by simp)
      cases bits with
      | nil => rfl
      | cons b bs =>
        simp only [List.nil_append, List.map_cons] at this
        simp only [List.cons_append, List.nil_append, List.map_cons, wellTurned, this]
        cases a <;> simp_all [Cycle.dir]
    | cons b l =>
      simp only [wellTurned, Bool.and_eq_true] at hl
      have := ih hl.2 (fun c hc => h c (by simpa using hc))
      simp only [List.cons_append] at this ⊢
      simp only [wellTurned, this, Bool.and_true, Bool.and_eq_true]
      exact hl.1

theorem wellTurned_target (l : List Cycle) (bits : List Bool) (hl : wellTurned l = true) (h : ∀ c, l.getLast? = some c → c.dir ≠ .host) :
    wellTurned (l ++ bits.map .t) = true := by
  induction l with
  | nil =>
    induction bits with
    | nil => rfl
    | cons b bs ih => cases bs <;> simp_all [wellTurned, Cycle.dir]
  | cons a l ih =>
    cases l with
    | nil =>
      have ha : a.dir ≠ .host := h a (by simp)
      have := ih rfl (by simp)
      cases bits with
      | nil => rfl
      | cons b bs =>
        simp only [List.nil_append, List.map_cons] at this
        simp only [List.cons_append, List.nil_append, List.map_cons, wellTurned, this]
        cases a <;> simp_all [Cycle.dir]
    | cons b l =>
      simp only [wellTurned, Bool.and_eq_true] at hl
      have := ih hl.2 (fun c hc => h c (by simpa using hc))
      simp only [List.cons_append] at this ⊢
      simp only [wellTurned, this, Bool.and_true, Bool.and_eq_true]
      exact hl.1

theorem last_host (l : List Cycle) (bits : List Bool) (c : Cycle) (h : (l ++ bits.map Cycle.h).getLast? = some c) (hb : bits ≠ []) :
    c.dir = .host := by
  rw [List.getLast?_append_of_ne_nil _ (by simpa using hb), List.getLast?_map] at h
  cases hx : bits.getLast? with
  | none => rw [hx] at h; cases h
  | some b => rw [hx] at h; cases h; rfl

theorem last_target (l : List Cycle) (bits : List Bool) (c : Cycle) (h : (l ++ bits.map Cycle.t).getLast? = some c) (hb : bits ≠ []) :
    c.dir = .target := by
  rw [List.getLast?_append_of_ne_nil _ (by simpa using hb), List.getLast?_map] at h
  cases hx : bits.getLast? with
  | none => rw [hx] at h; cases h
  | some b => rw [hx] at h; cases h; rfl

/-- Host-driven cycles keep the link safe. -/
theorem linkSafe_drive (bits : List Bool) (s : State) (hd : s.link.lastDir ≠ .target) (h : LinkSafe s) : LinkSafe (driveBits bits s) := by
  rw [driveBits_eq]
  cases bits with
  | nil => simpa using h
  | cons b bs =>
    refine ⟨rfl, by simp [drivenLink], fun c hc => last_host s.trace (b :: bs) c hc (by simp), ?_⟩
    exact wellTurned_host s.trace (b :: bs) h.turned fun c hc => by rw [h.lastDriver c hc]; exact hd

theorem linkSafe_z (s : State) (h : LinkSafe s) : LinkSafe (cycleZ s) := by
  refine ⟨rfl, by simp [cycleZ], fun c hc => ?_, ?_⟩
  · have : (s.trace ++ [Cycle.z]).getLast? = some c := hc
    rw [List.getLast?_append_of_ne_nil _ (by simp)] at this
    cases this; rfl
  · show wellTurned (s.trace ++ [.z]) = true
    rw [wellTurned_z, h.turned]
    rfl

theorem linkSafe_sample (n : Nat) (s : State) (hd : s.link.lastDir ≠ .host) (h : LinkSafe s) : LinkSafe (sampleBits n s).2 := by
  obtain ⟨h1, h2⟩ := sampleBits_spec n s
  rw [h2]
  by_cases hn : n = 0
  · subst hn
    simpa [sampleBits, sampledLink] using ⟨h.clkRests, h.drives, h.lastDriver, h.turned⟩
  · have hb : (sampleBits n s).1 ≠ [] := by
      intro hx; rw [hx] at h1; exact hn h1.symm
    refine ⟨by simp [sampledLink, hn], by simp [sampledLink, hn], fun c hc => ?_, ?_⟩
    · rw [last_target s.trace _ c hc hb]; simp [sampledLink, hn]
    · exact wellTurned_target s.trace _ h.turned fun c hc => by rw [h.lastDriver c hc]; exact hd

theorem linkSafe_of {s t : State} (h : LinkSafe s) (hl : t.link = s.link) (ht : t.trace = s.trace) : LinkSafe t :=
  ⟨by rw [hl]; exact h.clkRests, by rw [hl]; exact h.drives, by rw [hl, ht]; exact h.lastDriver, by rw [ht]; exact h.turned⟩

@[simp] theorem cycle_dir_h (b : Bool) : (Cycle.h b).dir = .host := rfl
@[simp] theorem cycle_dir_t (b : Bool) : (Cycle.t b).dir = .target := rfl
@[simp] theorem cycle_dir_z : Cycle.z.dir = .released := rfl

theorem idleRun_eq (cfg : Config) (n : Nat) : idleRun cfg n = (List.replicate n cfg.idleLevel).map .h := by
  simp [idleRun]

/-- A frame that ends in a turnaround and idle cycles. -/
theorem linkSafe_released (cfg : Config) (n : Nat) (w : List Cycle) (t : State) (hw : wellTurned w = true)
    (hl : t.link = idledLink cfg n releasedLink) (ht : t.trace = w ++ .z :: idleRun cfg n) : LinkSafe t := by
  rw [idleRun_eq] at ht
  have hz : wellTurned (.z :: (List.replicate n cfg.idleLevel).map .h) = true := by
    rw [wellTurned_z_cons]
    exact wellTurned_host [] _ rfl (by simp)
  refine ⟨?_, ?_, fun c hc => ?_, by rw [ht, wellTurned_z, hw, hz]; rfl⟩
  · rw [hl]; unfold idledLink; split <;> rfl
  · rw [hl]; unfold idledLink; split <;> simp [releasedLink, drivingLink]
  · rw [ht] at hc
    cases n with
    | zero =>
      simp only [List.replicate_zero, List.map_nil, List.getLast?_append_of_ne_nil _ (List.cons_ne_nil _ _)] at hc
      cases hc
      rw [hl]; rfl
    | succ n =>
      rw [List.append_cons] at hc
      rw [last_host _ _ c hc (by simp), hl]
      rfl

/-- A frame that ends in host-driven cycles. -/
theorem linkSafe_driven (cfg : Config) (n : Nat) (b : Bool) (w : List Cycle) (bits : List Bool) (t : State) (hw : wellTurned w = true)
    (hl : t.link = idledLink cfg n (drivingLink b)) (ht : t.trace = w ++ .z :: (bits ++ [b] ++ List.replicate n cfg.idleLevel).map .h) :
    LinkSafe t := by
  have hz : wellTurned (.z :: (bits ++ [b] ++ List.replicate n cfg.idleLevel).map .h) = true := by
    rw [wellTurned_z_cons]
    exact wellTurned_host [] _ rfl (by simp)
  refine ⟨?_, ?_, fun c hc => ?_, by rw [ht, wellTurned_z, hw, hz]; rfl⟩
  · rw [hl]; unfold idledLink; split <;> rfl
  · rw [hl]; unfold idledLink; split <;> simp [drivingLink]
  · rw [ht, List.append_cons] at hc
    rw [last_host _ _ c hc (by simp), hl]
    unfold idledLink; split <;> rfl

theorem linkSafe_exchange (rq : Request) (s : State) (hd : s.link.lastDir ≠ .target) (h : LinkSafe s) : LinkSafe (exchange rq s) := by
  have hreq : wellTurned (s.trace ++ hostCycles (bitsLSB (requestByte rq.apndp rq.rnw rq.a))) = true :=
    wellTurned_host _ _ h.turned fun c hc => by rw [h.lastDriver c hc]; exact hd
  have htgt : ∀ bits, wellTurned (.z :: targetCycles bits) = true := fun bits => by
    rw [wellTurned_z_cons]; exact wellTurned_target [] bits rfl (by simp)
  have hup : ∀ bits, wellTurned (s.trace ++ hostCycles (bitsLSB (requestByte rq.apndp rq.rnw rq.a)) ++ .z :: targetCycles bits) = true :=
    fun bits => by rw [wellTurned_z, hreq, htgt]; rfl
  obtain ⟨_, d, p, inp, n, e⟩ | ⟨_, inp, n, e⟩ | ⟨ack, inp, n, _, _, e⟩ := exchange_cases rq s <;> rw [e]
  · refine linkSafe_released s.cfg s.cfg.idleCycles _ _ (hup (okAck ++ (bitsLSB d ++ [p]))) rfl ?_
    simp [readDone, readFrame, requestCycles, targetCycles]
  · refine linkSafe_driven s.cfg s.cfg.idleAfterWrite (parity32 rq.data) _ (bitsLSB rq.data) _ (hup okAck) rfl ?_
    simp [writeDone, writeFrame, requestCycles, targetCycles, hostCycles, idleRun]
  · refine linkSafe_released s.cfg s.cfg.idleCycles _ _ (hup ack) rfl ?_
    simp [failDone, failFrame, requestCycles, targetCycles]

theorem linkSafe_stable : EngineStable True LinkSafe LinkSafe where
  exchange := fun rq s _ hd h => linkSafe_exchange rq s hd h
  drive := fun bits s _ hd h => linkSafe_drive bits s hd h
  hazard := fun _ _ _ => trivial
  counters := fun _ _ _ _ h => linkSafe_of h rfl rfl
  results := fun _ _ _ h => linkSafe_of h rfl rfl
  session := fun _ _ _ h => linkSafe_of h rfl rfl
  fresh := fun _ h => linkSafe_of h rfl rfl
  position := fun _ _ h => linkSafe_of h rfl rfl
  failed := fun _ _ _ h => linkSafe_of h rfl rfl

theorem linkSafe_links : LinkStable LinkSafe where
  clock := by
    intro s h
    unfold linkClock
    split
    · rename_i ho
      have hd : s.link.lastDir ≠ .target := by rw [h.drives.1 ho]; decide
      have := linkSafe_drive [s.link.dout] s hd h
      exact this
    · exact linkSafe_z s h
  sample := fun n s hd h => linkSafe_of (linkSafe_sample n s hd h) rfl rfl
  drive := linkSafe_drive
  turnaround := fun s h => linkSafe_z s h

theorem linkSafe_load : LoadStable LinkSafe where
  begin := fun _ h => ⟨h.clkRests, h.drives, (by intro c hc; cases hc), rfl⟩
  moves := fun _ _ h => linkSafe_of h rfl rfl
  ends := fun _ h => linkSafe_of h rfl rfl

theorem linkSafe_exec {i : Instr} {s t : State} (h : LinkSafe s) (he : exec i s = .next t) : LinkSafe t :=
  exec_keeps linkSafe_stable linkSafe_links linkSafe_load h he

/-! ## The target (R50, R62, R68) -/

theorem targetSafe_of {t t' : Target} {P : Target → Prop} (h : P t) (e : t' = t) : P t' := e ▸ h

/-- A property of the target's IDCODE, memory and core registers alone. -/
structure TargetShape (t : Target) : Prop where
  rao : t.idcode.getLsbD 0 = true
  memory : Memory.wf t.mem = true
  registers : t.coreRegs.length = 32

theorem shape_of {t u : Target} (h : TargetShape t) (hi : u.idcode = t.idcode) (hm : u.mem = t.mem)
    (hr : u.coreRegs = t.coreRegs) : TargetShape u :=
  ⟨by rw [hi]; exact h.rao, by rw [hm]; exact h.memory, by rw [hr]; exact h.registers⟩

theorem shape_advanceTar (cfg : Config) (t : Target) (h : TargetShape t) : TargetShape (advanceTar cfg t) := by
  unfold advanceTar
  split
  · exact h
  · split
    · exact shape_of h rfl rfl rfl
    · exact shape_of h rfl rfl rfl

theorem shape_writeDcrsr (v : Word) (t : Target) (h : TargetShape t) : TargetShape (writeDcrsr v t) := by
  unfold writeDcrsr
  simp only
  split
  · split
    · exact ⟨h.rao, h.memory, by simp only [List.length_set]; exact h.registers⟩
    · exact shape_of h rfl rfl rfl
  · exact shape_of h rfl rfl rfl

theorem shape_storeTarget (a : Addr32) (v : Word) (t : Target) (h : TargetShape t) : TargetShape (storeTarget a v t) := by
  unfold storeTarget
  split
  · exact shape_of h (by simp) (by simp) (by simp)
  · split
    · exact shape_of (shape_writeDcrsr v t h) (by simp) (by simp) (by simp)
    · split
      · exact shape_of h rfl rfl rfl
      · exact ⟨h.rao, wf_writeWord _ h.memory a v, h.registers⟩

theorem shape_writeDrw (cfg : Config) (v : Word) (t : Target) (h : TargetShape t) : TargetShape (writeDrw cfg v t) := by
  unfold writeDrw
  split
  · exact shape_advanceTar cfg _ (shape_storeTarget _ v t h)
  · exact shape_advanceTar cfg _ (shape_storeTarget _ _ _ (shape_of h rfl rfl rfl))

theorem shape_targetWrite (cfg : Config) (apndp : Bool) (a : BitVec 2) (v : Word) (t : Target) (h : TargetShape t) :
    TargetShape (targetWrite cfg apndp a v t) := by
  unfold targetWrite
  split
  · split
    · split
      · exact shape_of h rfl rfl rfl
      · split
        · exact shape_of h rfl rfl rfl
        · split
          · exact shape_writeDrw cfg v t h
          · exact h
    · exact h
  · split
    · exact shape_of h rfl rfl rfl
    · split
      · unfold writeCtrlStat
        split
        · exact shape_of h rfl rfl rfl
        · exact h
      · split
        · exact shape_of h rfl rfl rfl
        · exact h

theorem shape_targetRead (cfg : Config) (apndp : Bool) (a : BitVec 2) (d : Option Word) (t : Target) (h : TargetShape t) :
    TargetShape (targetRead cfg apndp a d t) := by
  unfold targetRead
  split
  · unfold targetReadAp
    split
    · exact shape_advanceTar cfg _ (shape_of h rfl rfl rfl)
    · exact shape_of h rfl rfl rfl
  · split
    · unfold targetReadDp
      split
      · exact ⟨by simp, h.memory, h.registers⟩
      · split
        · split
          · exact shape_of h rfl rfl rfl
          · exact h
        · split
          · exact shape_of h (by simp) (by simp) (by simp)
          · exact h
    · exact h

theorem shape_exchange (rq : Request) (s : State) (h : TargetShape s.target) : TargetShape (exchange rq s).target := by
  obtain ⟨_, d, p, inp, n, e⟩ | ⟨_, inp, n, e⟩ | ⟨ack, inp, n, _, _, e⟩ := exchange_cases rq s <;> rw [e]
  · exact shape_targetRead _ _ _ _ _ h
  · exact shape_targetWrite _ _ _ _ _ h
  · show TargetShape (if _ then targetFault s.target else s.target)
    split
    · exact shape_of h rfl rfl rfl
    · exact h

theorem shape_iff (s : State) : TargetSafe s ↔ TargetShape s.target :=
  ⟨fun h => ⟨h.rao, h.memory, h.registers⟩, fun h => ⟨h.rao, h.memory, h.registers⟩⟩

theorem targetShape_stable : EngineStable True (fun s => TargetShape s.target) (fun s => TargetShape s.target) where
  exchange := fun rq s _ _ h => shape_exchange rq s h
  drive := fun bits s _ _ h => by rw [driveBits_target]; exact h
  hazard := fun _ _ _ => trivial
  counters := fun _ _ _ _ h => h
  results := fun _ _ _ h => h
  session := fun _ _ _ h => h
  fresh := fun _ h => h
  position := fun _ _ h => h
  failed := fun _ _ _ h => h

theorem linkClock_frame (s : State) : linkClock s = { s with link := (linkClock s).link, trace := (linkClock s).trace } := by
  unfold linkClock
  split <;> rfl

theorem linkSample_frame (n : Nat) (s : State) : linkSample n s = { s with
    link := (linkSample n s).link, trace := (linkSample n s).trace
    res := { s.res with value := (linkSample n s).res.value, bits := (linkSample n s).res.bits }
    targetIn := (linkSample n s).targetIn, draws := (linkSample n s).draws } := by
  have h := (sampleBits_spec n s).2
  unfold linkSample
  simp only
  rw [h]

/-- A property that reads no part of the state that the raw link commands write. -/
theorem links_of {P : State → Prop}
    (h : ∀ (s : State) l tr (res : Results) inp n, P s → P { s with
      link := l, trace := tr, res := { s.res with value := res.value, bits := res.bits }, targetIn := inp, draws := n }) :
    LinkStable P where
  clock := fun s hs => by rw [linkClock_frame]; exact h s _ _ s.res s.targetIn s.draws hs
  sample := fun n s _ hs => by
    rw [linkSample_frame]; exact h s _ _ (linkSample n s).res _ _ hs
  turnaround := fun s hs => h s _ _ s.res s.targetIn s.draws hs
  drive := fun bits s _ hs => by rw [driveBits_eq]; exact h s _ _ s.res s.targetIn s.draws hs

theorem targetShape_exec {i : Instr} {s t : State} (h : TargetShape s.target) (he : exec i s = .next t) : TargetShape t.target :=
  exec_keeps targetShape_stable (links_of fun _ _ _ _ _ _ h => h) ⟨fun _ h => h, fun _ _ h => h, fun _ h => h⟩ h he

/-! ## Parameters and operands (R11, R25, R34) -/

theorem exec_cfg_op {i : Instr} {s t : State} (he : exec i s = .next t) : t.cfg = s.cfg ∧ t.op = s.op ∧ t.inbox = s.inbox := by
  have stable : EngineStable True (fun t => t.cfg = s.cfg ∧ t.op = s.op ∧ t.inbox = s.inbox)
      (fun t => t.cfg = s.cfg ∧ t.op = s.op ∧ t.inbox = s.inbox) := by
    refine ⟨⟨?_, ?_, ?_, ?_, ?_, ?_, ?_, ?_⟩, ?_⟩
    · intro rq u _ _ h
      have f := exchange_frame rq u
      exact ⟨f.1.trans h.1, f.2.1.trans h.2.1, f.2.2.2.2.2.2.1.trans h.2.2⟩
    · intro bits u _ _ h
      rw [driveBits_eq]; exact h
    all_goals intros; trivial
  exact exec_keeps stable (links_of fun _ _ _ _ _ _ h => h) ⟨fun _ h => h, fun _ _ h => h, fun _ h => h⟩ ⟨rfl, rfl, rfl⟩ he

/-! ## No command stops by itself (R182) -/

theorem turned_stable : EngineStable False (fun s => s.link.lastDir ≠ .target) (fun _ => True) where
  exchange := fun rq s _ _ _ => exchange_lastDir rq s
  drive := fun bits s _ hd _ => by rw [driveBits_link]; exact drivenLink_not_target _ _ hd
  hazard := fun _ h hd => h hd
  counters := fun _ _ _ _ h => h
  results := fun _ _ _ h => h
  session := fun _ _ _ h => h
  fresh := fun _ h => h
  position := fun _ _ h => h
  failed := fun _ _ _ _ => trivial

theorem keeps_loadPlan_runs (p : LoadPlan) (s : State) (hd : s.link.lastDir ≠ .target) (hb : s.busy = false)
    (ha : planAdmitted s.cfg p = true) : ∃ t, finish (loadPlan p) s = .next t := by
  have e : finish (loadPlan p) s = finish (runLoad p) s := by
    unfold finish loadPlan
    rw [get_bind, bind_of_ok (t := s) (a := ()) (by rw [hb]; rfl), bind_of_ok (t := s) (a := ()) (by rw [ha]; rfl)]
  obtain ⟨t, ht⟩ := finish_runs (turned_stable.runLoad ⟨fun _ h => h, fun _ _ h => h, fun _ h => h⟩ p) hd
  exact ⟨t, e.trans ht⟩

theorem keeps_pass_runs (m : Engine Unit) (hm : Keeps False (fun s => s.link.lastDir ≠ .target) (fun _ => True) m) (p : LoadPlan) (s : State)
    (hd : s.link.lastDir ≠ .target) (ha : planAdmitted s.cfg p = true) : ∃ t, finish (do admittedPlan p; m) s = .next t := by
  have e : finish (do admittedPlan p; m) s = finish m s := by
    unfold finish admittedPlan
    have : (do refuseUnless (planAdmitted (← get).cfg p) .badPlan : Engine Unit) s = .ok () s := by
      rw [get_bind, ha]; rfl
    rw [bind_of_ok this]
  obtain ⟨t, ht⟩ := finish_runs hm hd
  exact ⟨t, e.trans ht⟩

end Sys2Proof.Machine
end

