-- ==== Sys2Proof/Laws/Complete.lean ====
section
/-! SUPPORT. What the register commands and word helpers do when the target answers every exchange OK at once: the
accesses they make, in order, and the session they leave. -/

namespace Sys2Proof.Machine

variable {α β : Type}

/-! ## Scripts -/

@[simp] theorem answerBits_nil : answerBits [] = [] := rfl
@[simp] theorem answerBits_append (as bs : List Access) : answerBits (as ++ bs) = answerBits as ++ answerBits bs :=
  List.flatMap_append
@[simp] theorem answerBits_cons (a : Access) (as : List Access) : answerBits (a :: as) = a.bits ++ answerBits as :=
  List.flatMap_cons
@[simp] theorem wireCycles_nil (cfg : Config) : wireCycles cfg [] = [] := rfl
@[simp] theorem wireCycles_append (cfg : Config) (as bs : List Access) :
    wireCycles cfg (as ++ bs) = wireCycles cfg as ++ wireCycles cfg bs := List.flatMap_append
@[simp] theorem wireCycles_cons (cfg : Config) (a : Access) (as : List Access) :
    wireCycles cfg (a :: as) = a.cycles cfg ++ wireCycles cfg as := List.flatMap_cons
@[simp] theorem targetAfter_nil (cfg : Config) (t : Target) : targetAfter cfg [] t = t := rfl
@[simp] theorem targetAfter_append (cfg : Config) (as bs : List Access) (t : Target) :
    targetAfter cfg (as ++ bs) t = targetAfter cfg bs (targetAfter cfg as t) := List.foldl_append
@[simp] theorem targetAfter_cons (cfg : Config) (a : Access) (as : List Access) (t : Target) :
    targetAfter cfg (a :: as) t = targetAfter cfg as (a.onTarget cfg t) := rfl

theorem Ran.trans {w1 w2 : List Cycle} {g1 g2 : Target} {r1 r2 : List Bool} {s t u : State} (h1 : Ran w1 g1 r1 s t)
    (h2 : Ran w2 g2 r2 t u) : Ran (w1 ++ w2) g2 r2 s u where
  cfg := h2.cfg.trans h1.cfg
  op := h2.op.trans h1.op
  inbox := h2.inbox.trans h1.inbox
  bits := h2.bits.trans h1.bits
  trace := by rw [h2.trace, h1.trace, List.append_assoc]
  target := h2.target
  answers := h2.answers
  draws := h2.draws.trans h1.draws
  turned := h2.turned

/-- `s` to `t` is the accesses `as`, each answered OK, and nothing of the load state or the step in progress. -/
structure Did (as : List Access) (rest : List Bool) (s t : State) : Prop
    extends Ran (wireCycles s.cfg as) (targetAfter s.cfg as s.target) rest s t where
  load : t.load = s.load
  busy : t.busy = s.busy
  phase : t.seq.phase = s.seq.phase

theorem Did.refl {s : State} (h : s.link.lastDir ≠ .target) : Did [] s.targetIn s s where
  cfg := rfl
  op := rfl
  inbox := rfl
  bits := rfl
  trace := by simp
  target := rfl
  answers := rfl
  draws := rfl
  turned := h
  load := rfl
  busy := rfl
  phase := rfl

theorem Did.trans {as bs : List Access} {r1 r2 : List Bool} {s t u : State} (h1 : Did as r1 s t) (h2 : Did bs r2 t u) :
    Did (as ++ bs) r2 s u := by
  have h := h1.toRan.trans h2.toRan
  rw [h1.cfg, h1.target, ← wireCycles_append, ← targetAfter_append] at h
  exact { h with
    load := h2.load.trans h1.load
    busy := h2.busy.trans h1.busy
    phase := h2.phase.trans h1.phase }

/-- With the answers of `as` next, `m` runs to its end by the accesses `as`, with the result and state `post`. -/
def Does (m : Engine α) (as : List Access) (s : State) (post : α → State → Prop) : Prop :=
  ∀ rest, s.link.lastDir ≠ .target → s.targetIn = answerBits as ++ rest →
    ∃ a t, m s = .ok a t ∧ Did as rest s t ∧ post a t

theorem Does.bind {m : Engine α} {f : α → Engine β} {as bs : List Access} {s : State} {Q : α → State → Prop}
    {R : β → State → Prop} (hm : Does m as s Q) (hf : ∀ a t rest, Did as rest s t → Q a t → Does (f a) bs t R) :
    Does (m >>= f) (as ++ bs) s R := by
  intro rest hd h
  obtain ⟨a, t, e, d, q⟩ := hm (answerBits bs ++ rest) hd (by rw [h, answerBits_append, List.append_assoc])
  obtain ⟨b, u, e2, d2, r⟩ := hf a t _ d q rest d.turned d.answers
  exact ⟨b, u, by rw [bind_of_ok e]; exact e2, d.trans d2, r⟩

theorem does_pure {a : α} {s : State} {Q : α → State → Prop} (h : Q a s) : Does (pure a : Engine α) [] s Q := by
  intro rest hd hr
  simp only [answerBits_nil, List.nil_append] at hr
  subst hr
  exact ⟨a, s, rfl, Did.refl hd, h⟩

theorem Does.followed {m : Engine α} {f : α → Engine β} {as : List Access} {s : State} {Q : α → State → Prop}
    {R : β → State → Prop} (hm : Does m as s Q) (hf : ∀ a t rest, Did as rest s t → Q a t → Does (f a) [] t R) :
    Does (m >>= f) as s R := by
  have := hm.bind hf
  rwa [List.append_nil] at this

/-- A write of the session or the results moves nothing of `Did`. -/
theorem does_modify {f : State → State} {s : State} {Q : Unit → State → Prop} (hf : Did [] s.targetIn s s → Did [] s.targetIn s (f s))
    (h : Q () (f s)) : Does (modify f : Engine Unit) [] s Q := by
  intro rest hd hr
  simp only [answerBits_nil, List.nil_append] at hr
  subst hr
  exact ⟨(), f s, rfl, hf (Did.refl hd), h⟩

theorem does_getBind {f : State → Engine β} {as : List Access} {s : State} {R : β → State → Prop} (h : Does (f s) as s R) :
    Does (get >>= f) as s R := h

theorem Does.weaken {m : Engine α} {as : List Access} {s : State} {Q Q' : α → State → Prop} (h : Does m as s Q)
    (hq : ∀ a t, Q a t → Q' a t) : Does m as s Q' := by
  intro rest hd hr
  obtain ⟨a, t, e, d, q⟩ := h rest hd hr
  exact ⟨a, t, e, d, hq a t q⟩

/-- What holds after `m` whatever the target answers holds after this run of it. -/
theorem Does.ends {X : Prop} {P E : State → Prop} {R : α → State → Prop} {m : Engine α} {as : List Access} {s : State}
    {Q : α → State → Prop} (h : Does m as s Q) (k : Ends X P m R E) (hs : P s) : Does m as s fun a t => Q a t ∧ R a t := by
  intro rest hd hr
  obtain ⟨a, t, e, d, q⟩ := h rest hd hr
  have := k s hs
  rw [e] at this
  exact ⟨a, t, e, d, q, this⟩

/-- As `Does`, for an operation that begins by entering step `p`. -/
def DoesIn (p : Phase) (m : Engine α) (as : List Access) (s : State) (post : α → State → Prop) : Prop :=
  ∀ rest, s.link.lastDir ≠ .target → s.targetIn = answerBits as ++ rest →
    ∃ a t, m s = .ok a t ∧ Did as rest (setPhase p s) t ∧ post a t

theorem Does.entering {p : Phase} {k : Unit → Engine α} {as : List Access} {s : State} {post : α → State → Prop}
    (h : Does (k ()) as (setPhase p s) post) : DoesIn p ((modify (setPhase p) : Engine Unit) >>= k) as s post := h

/-- With the answers of `as` next, `m` makes the accesses `as` and then raises a failure. -/
def Fails (m : Engine α) (as : List Access) (s : State) (post : State → Prop) : Prop :=
  ∀ rest, s.link.lastDir ≠ .target → s.targetIn = answerBits as ++ rest →
    ∃ t, m s = .error .failed t ∧ Ran (wireCycles s.cfg as) (targetAfter s.cfg as s.target) rest s t ∧ post t

theorem Fails.weaken {m : Engine α} {as : List Access} {s : State} {post post' : State → Prop} (h : Fails m as s post)
    (hp : ∀ t, post t → post' t) : Fails m as s post' := by
  intro rest hd hr
  obtain ⟨t, e, d, p⟩ := h rest hd hr
  exact ⟨t, e, d, hp t p⟩

theorem Fails.ends {X : Prop} {P E : State → Prop} {R : α → State → Prop} {m : Engine α} {as : List Access} {s : State}
    {post : State → Prop} (h : Fails m as s post) (k : Ends X P m R E) (hs : P s) : Fails m as s fun t => post t ∧ E t := by
  intro rest hd hr
  obtain ⟨t, e, d, q⟩ := h rest hd hr
  have := k s hs
  rw [e] at this
  exact ⟨t, e, d, q, this⟩

theorem Fails.stop {m : Engine α} {f : α → Engine β} {as : List Access} {s : State} {post : State → Prop} (h : Fails m as s post) :
    Fails (m >>= f) as s post := by
  intro rest hd hr
  obtain ⟨t, e, d, p⟩ := h rest hd hr
  exact ⟨t, bind_of_error e, d, p⟩

theorem Does.fails {m : Engine α} {f : α → Engine β} {as bs : List Access} {s : State} {Q : α → State → Prop}
    {post : State → Prop} (hm : Does m as s Q) (hf : ∀ a t rest, Did as rest s t → Q a t → Fails (f a) bs t post) :
    Fails (m >>= f) (as ++ bs) s post := by
  intro rest hd h
  obtain ⟨a, t, e, d, q⟩ := hm (answerBits bs ++ rest) hd (by rw [h, answerBits_append, List.append_assoc])
  obtain ⟨u, e2, d2, r⟩ := hf a t _ d q rest d.turned d.answers
  refine ⟨u, by rw [bind_of_ok e]; exact e2, ?_, r⟩
  have h := d.toRan.trans d2
  rwa [d.cfg, d.target, ← wireCycles_append, ← targetAfter_append] at h

theorem Does.failing {m : Engine α} {f : α → Engine β} {as : List Access} {s : State} {Q : α → State → Prop}
    {post : State → Prop} (hm : Does m as s Q) (hf : ∀ a t rest, Did as rest s t → Q a t → Fails (f a) [] t post) :
    Fails (m >>= f) as s post := by
  have := hm.fails hf
  rwa [List.append_nil] at this

theorem fails_raise {c : FailCause} {a : Option Addr32} {s : State} {post : State → Prop} (h : post (failEntry c a s)) :
    Fails (raiseFail c a : Engine α) [] s post := by
  intro rest hd hr
  simp only [answerBits_nil, List.nil_append] at hr
  subst hr
  exact ⟨_, rfl, { (Did.refl hd).toRan with }, h⟩

theorem fails_modifyBind {f : State → State} {k : Unit → Engine β} {as : List Access} {s : State} {post : State → Prop}
    (hf : Did [] s.targetIn s s → Did [] s.targetIn s (f s)) (h : Fails (k ()) as (f s) post) :
    Fails ((modify f : Engine Unit) >>= k) as s post :=
  (does_modify (Q := fun _ t => t = f s) hf rfl).fails (as := []) fun _ _ _ _ ht => by subst ht; exact h

theorem fails_getBind {f : State → Engine β} {as : List Access} {s : State} {post : State → Prop} (h : Fails (f s) as s post) :
    Fails (get >>= f) as s post := h

/-! ## The policy of R148, answered OK at once -/

/-- What an exchange, or a series of them, leaves besides its accesses: the answer `a` came last, after `n` re-issues. -/
structure Exchanged (a : Access) (n : Nat) (s t : State) : Prop where
  sess : t.sess = s.sess
  outcome : t.dp.outcome = a.outcome
  waitCount : t.dp.waitCount = n
  retried : t.dp.faultRetried = s.dp.faultRetried
  rdata : a.ack = okAck → a.rq.rnw = true → t.dp.rdata = a.answer

/-- An exchange with its answer. -/
theorem xfer_access (a : Access) (hc : a.rq.isDpWriteC = false) (hl : a.ack.length = 3) (s : State) :
    Does (xfer a.rq) [a] s fun _ t => Exchanged a s.dp.waitCount s t := by
  intro rest hd h
  have he : xfer a.rq s = .ok () (exchange a.rq s) := by
    unfold xfer
    rw [hc]
    simp only [Bool.not_false, refuseUnless_true]
    rw [bind_of_ok (pure_run () s), bind_of_ok (checkDir_ok hd), modify_run]
  have hx := exchange_access a s rest hl (by simpa using h)
  have hf := exchange_frame a.rq s
  have ht := exchange_lastDir a.rq s
  have hfl := classify_eq_fault a.ack hl
  refine ⟨(), _, he, ?_, hf.2.2.1, ?_, hf.2.2.2.2.2.2.2.2.1, hf.2.2.2.2.2.2.2.2.2.1, ?_⟩
  · refine { cfg := hf.1, op := hf.2.1, inbox := hf.2.2.2.2.2.2.1, bits := hf.2.2.2.2.2.2.2.1, trace := ?_, target := ?_,
             answers := ?_, draws := ?_, turned := ht, load := hf.2.2.2.1, busy := hf.2.2.2.2.2.1,
             phase := congrArg _ hf.2.2.2.2.1 } <;> rw [hx] <;> unfold Access.done <;>
      by_cases hk : a.ack = okAck <;> cases hr : a.rq.rnw <;>
      simp [readDone, writeDone, failDone, Access.cycles, Access.onTarget, hr, hk, hfl]
  · rw [hx]; unfold Access.done Access.outcome
    by_cases hk : a.ack = okAck <;> cases hr : a.rq.rnw <;> simp [readDone, writeDone, failDone, readOutcome, hk]
  · intro hk hr; rw [hx]; simp [Access.done, hk, hr, readDone]

/-- An access answered OK in full: its outcome is OK (R127, R126). -/
structure Access.Good (a : Access) : Prop where
  emitted : a.rq.isDpWriteC = false
  ok : a.ack = okAck
  outcome : a.outcome = .ok

theorem good_read (a : BitVec 2) (d : Word) : (Access.read (Request.readDp a) d).Good :=
  ⟨by simp [Access.read, Request.isDpWriteC, Request.readDp], rfl, by simp [Access.outcome, Access.read, Request.readDp, readOutcome]⟩

theorem good_readAp (a : BitVec 2) (d : Word) : (Access.read (Request.readAp a) d).Good :=
  ⟨by simp [Access.read, Request.isDpWriteC, Request.readAp], rfl, by simp [Access.outcome, Access.read, Request.readAp, readOutcome]⟩

theorem good_writeAp (a : BitVec 2) (v : Word) : (Access.write (Request.writeAp a v)).Good :=
  ⟨by simp [Access.write, Request.isDpWriteC, Request.writeAp], rfl, by simp [Access.outcome, Access.write, Request.writeAp]⟩

theorem good_writeDp (a : BitVec 2) (v : Word) (h : a ≠ 3) : (Access.write (Request.writeDp a v)).Good :=
  ⟨by simpa [Access.write, Request.isDpWriteC, Request.writeDp] using h, rfl, by simp [Access.outcome, Access.write, Request.writeDp]⟩

theorem does_modifyBind {f : State → State} {k : Unit → Engine β} {as : List Access} {s : State} {R : β → State → Prop}
    (hf : Did [] s.targetIn s s → Did [] s.targetIn s (f s)) (h : Does (k ()) as (f s) R) :
    Does ((modify f : Engine Unit) >>= k) as s R := by
  have h0 := does_modify (Q := fun _ t => t = f s) hf rfl
  refine h0.bind (as := []) fun _ t _ _ ht => ?_
  subst ht
  exact h

theorem waiting_outcome (rq : Request) : (Access.waiting rq).outcome = .wait :=
  (if_neg (show ¬waitAck = okAck by decide)).trans (show classify (valLSB 3 waitAck) = .wait by decide)

/-- `k` WAIT answers, then one that is not WAIT: the series ends with it (R147). -/
theorem attempts_waits (a : Access) (hc : a.rq.isDpWriteC = false) (hl : a.ack.length = 3) (hw : a.outcome ≠ .wait) (k : Nat) :
    ∀ n s, k ≤ n → Does (attempts a.rq n) (List.replicate k (Access.waiting a.rq) ++ [a]) s fun _ t =>
      Exchanged a (s.dp.waitCount + k) s t := by
  induction k with
  | zero =>
    intro n s _
    cases n with
    | zero => exact xfer_access a hc hl s
    | succ n =>
      refine (xfer_access a hc hl s).followed fun _ t _ _ ht => does_getBind ?_
      rw [if_neg (by rw [ht.outcome]; exact hw)]
      exact does_pure ht
  | succ k ih =>
    intro n s hn
    obtain ⟨m, rfl⟩ : ∃ m, n = m + 1 := ⟨n - 1, by omega⟩
    refine (xfer_access (Access.waiting a.rq) hc rfl s).bind fun _ t _ d ht => does_getBind ?_
    rw [if_pos (by rw [ht.outcome, waiting_outcome])]
    refine does_modifyBind (fun d => { d with }) ((ih m _ (by omega)).weaken fun _ u hu => ?_)
    refine ⟨hu.sess.trans ht.sess, hu.outcome, ?_, hu.retried.trans ht.retried, hu.rdata⟩
    rw [hu.waitCount]
    show t.dp.waitCount + 1 + k = _
    rw [ht.waitCount]
    omega

/-- WAIT to every exchange: the series stops after its bound, with the outcome WAIT (R147). -/
theorem attempts_exhausted (rq : Request) (hc : rq.isDpWriteC = false) (n : Nat) : ∀ s,
    Does (attempts rq n) (List.replicate (n + 1) (Access.waiting rq)) s fun _ t =>
      Exchanged (Access.waiting rq) (s.dp.waitCount + n) s t := by
  induction n with
  | zero => exact fun s => xfer_access (Access.waiting rq) hc rfl s
  | succ n ih =>
    intro s
    refine (xfer_access (Access.waiting rq) hc rfl s).bind fun _ t _ d ht => does_getBind ?_
    rw [if_pos (by rw [ht.outcome, waiting_outcome])]
    refine does_modifyBind (fun d => { d with }) ((ih _).weaken fun _ u hu => ?_)
    refine ⟨hu.sess.trans ht.sess, hu.outcome, ?_, hu.retried.trans ht.retried, hu.rdata⟩
    rw [hu.waitCount]
    show t.dp.waitCount + 1 + n = _
    rw [ht.waitCount]
    omega

theorem series_waits (a : Access) (hc : a.rq.isDpWriteC = false) (hl : a.ack.length = 3) (hw : a.outcome ≠ .wait) (k : Nat)
    (s : State) (hk : k ≤ s.cfg.waitRetryMax) :
    Does (series a.rq) (List.replicate k (Access.waiting a.rq) ++ [a]) s fun _ t => Exchanged a k s t :=
  does_modifyBind (fun d => { d with }) (does_getBind ((attempts_waits a hc hl hw k _ _ hk).weaken fun _ _ ht =>
    ⟨ht.sess, ht.outcome, ht.waitCount.trans (Nat.zero_add k), ht.retried, ht.rdata⟩))

theorem series_exhausted (rq : Request) (hc : rq.isDpWriteC = false) (s : State) :
    Does (series rq) (List.replicate (s.cfg.waitRetryMax + 1) (Access.waiting rq)) s fun _ t =>
      Exchanged (Access.waiting rq) s.cfg.waitRetryMax s t :=
  does_modifyBind (fun d => { d with }) (does_getBind ((attempts_exhausted rq hc s.cfg.waitRetryMax _).weaken fun _ _ ht =>
    ⟨ht.sess, ht.outcome, ht.waitCount.trans (Nat.zero_add _), ht.retried, ht.rdata⟩))

/-- What a transaction that succeeded leaves besides its accesses; `n` is the re-issues of its last series (R31, R148). -/
structure AccessDone (a : Access) (n : Nat) (s t : State) : Prop where
  sess : t.sess = s.sess
  outcome : t.dp.outcome = .ok
  waitCount : t.dp.waitCount = n
  retried : t.dp.faultRetried = false
  rdata : a.rq.rnw = true → t.dp.rdata = a.answer

/-- WAIT at most `waitRetryMax` times, then OK (R147, R148). -/
theorem transact_waits (a : Access) (hg : a.Good) (k : Nat) (s : State) (hk : k ≤ s.cfg.waitRetryMax) :
    Does (transact a.rq) (List.replicate k (Access.waiting a.rq) ++ [a]) s fun _ t => AccessDone a k s t := by
  refine does_modifyBind (fun d => { d with }) ?_
  refine (series_waits a hg.emitted (by rw [hg.ok]; rfl) (by rw [hg.outcome]; decide) k (setFaultRetried false s) hk).followed
    fun _ t _ _ ht => does_getBind ?_
  rw [ht.outcome, hg.outcome]
  exact does_pure ⟨ht.sess, ht.outcome.trans hg.outcome, ht.waitCount, ht.retried, ht.rdata hg.ok⟩

theorem transact_does (a : Access) (hg : a.Good) (s : State) :
    Does (transact a.rq) [a] s fun _ t => AccessDone a 0 s t :=
  transact_waits a hg 0 s (Nat.zero_le _)

/-! ## Register commands -/

theorem bankCheck_does (addr : BitVec 8) (s : State) :
    Does (bankCheck addr) (bankAccesses s.cfg s.sess addr) s fun _ t => t.sess = withBank s.cfg s.sess addr := by
  refine does_getBind ?_
  unfold bankAccesses
  by_cases h : s.sess.selValid = true ∧ s.sess.selCache = selectValue s.cfg (apBank addr)
  · rw [if_pos h, if_neg (by simp [h])]
    refine does_pure ?_
    unfold withBank
    rw [← h.1, ← h.2]
  · rw [if_neg h, if_pos (by rw [not_and_or] at h; simpa using h)]
    refine (transact_does (Access.write _) (good_writeDp _ _ (by decide)) s).followed fun _ t _ d ht =>
      does_modify (fun d => { d with }) ?_
    simp only [cacheSelect, withBank, ht.sess]

theorem rdDp_does (addr : BitVec 8) (ha : dpReadAddrOk addr = true) (v : Word) (s : State) :
    Does (rdDp addr) [Access.read (Request.readDp (regOffset addr)) v] s fun _ t =>
      t.sess = s.sess ∧ t.res.value = v ∧ t.res.ok = true ∧ t.dp.rdata = v ∧ t.dp.waitCount = 0 := by
  unfold rdDp
  rw [ha, refuseUnless_true, pure_bind]
  have h := transact_does (Access.read (Request.readDp (regOffset addr)) v) (good_read _ _) s
  refine h.followed fun _ t _ _ ht => ?_
  refine does_modifyBind (fun d => { d with }) (does_modify (fun d => { d with }) ?_)
  exact ⟨ht.sess, ht.rdata rfl, rfl, ht.rdata rfl, ht.waitCount⟩

theorem wrDp_does (addr : BitVec 8) (ha : dpWriteAddrOk addr = true) (v : Word) (s : State) :
    Does (wrDp addr v) [Access.write (Request.writeDp (regOffset addr) v)] s fun _ t =>
      t.sess = (afterWrDp addr v s).sess ∧ t.res.ok = true ∧ t.dp.waitCount = 0 := by
  unfold wrDp
  rw [ha, refuseUnless_true, pure_bind]
  have hc : (Access.write (Request.writeDp (regOffset addr) v)).Good := by
    refine good_writeDp _ _ ?_
    have : addr = 0x0 ∨ addr = 0x4 ∨ addr = 0x8 := by simpa [dpWriteAddrOk, or_assoc] using ha
    obtain rfl | rfl | rfl := this <;> decide
  refine (transact_does (Access.write (Request.writeDp (regOffset addr) v)) hc s).followed fun _ t _ _ ht => ?_
  refine does_modifyBind (fun d => ?_) (does_modify (fun d => { d with }) ?_)
  · unfold afterWrDp
    split
    · exact { d with }
    · split
      · exact { d with }
      · exact d
  · refine ⟨?_, rfl, ?_⟩
    · show (afterWrDp addr v t).sess = (afterWrDp addr v s).sess
      unfold afterWrDp
      split
      · simp [cacheSelect, ht.sess]
      · split <;> simp [ht.sess]
    · show (afterWrDp addr v t).dp.waitCount = 0
      unfold afterWrDp
      split
      · exact ht.waitCount
      · split <;> exact ht.waitCount

/-- The accesses of `RD_AP` (R153): the posted read is answered `posted`, RDBUFF `v`. -/
theorem rdAp_does (addr : BitVec 8) (ha : apAddrOk addr = true) (posted v : Word) (s : State) :
    Does (rdAp addr) (bankAccesses s.cfg s.sess addr ++
        [Access.read (Request.readAp (regOffset addr)) posted, Access.read (Request.readDp dpRdbuff) v]) s fun _ t =>
      t.sess = withBank s.cfg s.sess addr ∧ t.res.value = v ∧ t.res.ok = true ∧ t.dp.rdata = v ∧ t.dp.waitCount = 0 := by
  unfold rdAp
  rw [ha, refuseUnless_true, pure_bind]
  refine (bankCheck_does addr s).bind fun _ t _ _ ht => ?_
  have h1 := transact_does (Access.read (Request.readAp (regOffset addr)) posted) (good_readAp _ _) t
  refine h1.bind (bs := [Access.read (Request.readDp dpRdbuff) v]) fun _ u _ _ hu => ?_
  have h2 := transact_does (Access.read (Request.readDp dpRdbuff) v) (good_read _ _) u
  refine h2.followed fun _ w _ _ hw => ?_
  refine does_modifyBind (fun d => { d with }) (does_modify (fun d => { d with }) ?_)
  exact ⟨hw.sess.trans (hu.sess.trans ht), hw.rdata rfl, rfl, hw.rdata rfl, hw.waitCount⟩

theorem wrAp_does (addr : BitVec 8) (ha : apAddrOk addr = true) (v : Word) (s : State) :
    Does (wrAp addr v) (bankAccesses s.cfg s.sess addr ++ [Access.write (Request.writeAp (regOffset addr) v)]) s fun _ t =>
      t.sess = withBank s.cfg s.sess addr ∧ t.res.ok = true ∧ t.dp.waitCount = 0 := by
  unfold wrAp
  rw [ha, refuseUnless_true, pure_bind]
  refine (bankCheck_does addr s).bind fun _ t _ _ ht => ?_
  have h1 := transact_does (Access.write (Request.writeAp (regOffset addr) v)) (good_writeAp _ _) t
  refine h1.followed fun _ u _ _ hu => does_modify (fun d => { d with }) ?_
  exact ⟨hu.sess.trans ht, rfl, hu.waitCount⟩

/-! ## Word helpers -/

theorem withBank_tar (cfg : Config) (ss : Session) : withBank cfg (withBank cfg ss apTar) apDrw = withBank cfg ss apTar := rfl

theorem bankAccesses_tar (cfg : Config) (ss : Session) : bankAccesses cfg (withBank cfg ss apTar) apDrw = [] :=
  if_pos ⟨rfl, rfl⟩

theorem ensureCsw_does (s : State) :
    Does ensureCsw (cswAccesses s.cfg s.sess) s fun _ t => t.sess = withCsw s.cfg s.sess := by
  refine does_getBind ?_
  unfold cswAccesses withCsw
  by_cases h : s.sess.cswConfigured = true
  · simp only [h, Bool.not_true, Bool.false_eq_true, if_false, if_true]
    exact does_pure rfl
  · simp only [h, Bool.not_false, if_true, Bool.false_eq_true, if_false]
    refine (wrAp_does apCsw rfl s.cfg.cswValue s).followed fun _ t _ _ ht =>
      does_modify (f := fun s => { s with sess := { s.sess with cswConfigured := true } }) (fun d => { d with }) ?_
    simp only [ht.1]

theorem memWr32_does (a : Addr32) (ha : memAddrOk a = true) (v : Word) (s : State) :
    Does (memWr32 a v) (memWriteAccesses s.cfg s.sess a v) s fun _ t =>
      t.sess = afterMem s.cfg s.sess ∧ t.res.ok = true ∧ t.dp.waitCount = 0 := by
  unfold memWr32 memWriteAccesses
  rw [ha, refuseUnless_true, pure_bind, List.append_assoc]
  refine (ensureCsw_does s).bind fun _ t _ dt ht => ?_
  have h1 := wrAp_does apTar rfl a t
  rw [dt.cfg, ht] at h1
  rw [List.append_cons]
  refine h1.bind fun _ u _ du hu => ?_
  have h2 := wrAp_does apDrw rfl v u
  rw [du.cfg, dt.cfg, hu.1, bankAccesses_tar] at h2
  refine h2.followed fun _ w _ _ hw => does_modify (fun d => { d with }) ?_
  refine ⟨?_, hw.2.1, hw.2.2⟩
  show { w.sess with tarValid := false } = _
  rw [hw.1, withBank_tar]
  rfl

theorem memRd32_does (a : Addr32) (ha : memAddrOk a = true) (posted v : Word) (s : State) :
    Does (memRd32 a) (memReadAccesses s.cfg s.sess a posted v) s fun _ t =>
      t.sess = afterMem s.cfg s.sess ∧ t.res.value = v ∧ t.res.ok = true ∧ t.dp.waitCount = 0 := by
  unfold memRd32 memReadAccesses
  rw [ha, refuseUnless_true, pure_bind, List.append_assoc]
  refine (ensureCsw_does s).bind fun _ t _ dt ht => ?_
  have h1 := wrAp_does apTar rfl a t
  rw [dt.cfg, ht] at h1
  rw [List.append_cons]
  refine h1.bind fun _ u _ du hu => ?_
  have h2 := rdAp_does apDrw rfl posted v u
  rw [du.cfg, dt.cfg, hu.1, bankAccesses_tar] at h2
  refine h2.followed fun _ w _ _ hw =>
    does_modifyBind (fun d => { d with }) (does_modify (fun d => { d with }) ?_)
  refine ⟨?_, hw.2.2.2.1, hw.2.2.1, hw.2.2.2.2⟩
  show { w.sess with tarValid := false } = _
  rw [hw.1, withBank_tar]
  rfl

end Sys2Proof.Machine
end

