-- ==== Sys2Proof/Laws/Policy.lean ====
section
/-! SUPPORT. The policy of R147 to R149 under answers that are not OK at once: WAIT, FAULT, protocol errors. -/

namespace Sys2Proof.Machine

/-- What a failure leaves besides the accesses before it (R186): the record if none was held, `RES_OK` false, and inside
a load operation `load` at Failed. -/
structure Failed (c : FailCause) (a : Option Addr32) (ss : Session) (s t : State) : Prop where
  sess : t.sess = { ss with failInfo := some (ss.failInfo.getD { step := s.seq.phase, cause := c, addr := a }) }
  ok : t.res.ok = false
  load : t.load = if s.busy then .failed else s.load
  busy : t.busy = false
  phase : t.seq.phase = s.seq.phase

theorem failed_of_did {as : List Access} {rest : List Bool} {c : FailCause} {a : Option Addr32} {ss : Session} {s t : State}
    (d : Did as rest s t) (hs : t.sess = ss) : Failed c a ss s (failEntry c a t) where
  sess := by simp only [failEntry, hs, d.phase]
  ok := rfl
  load := by simp only [failEntry, d.busy, d.load]
  busy := rfl
  phase := d.phase

/-- A failure after further accesses. -/
theorem Failed.after {as : List Access} {rest : List Bool} {c : FailCause} {a : Option Addr32} {ss : Session} {s t u : State}
    (d : Did as rest s t) (f : Failed c a ss t u) : Failed c a ss s u where
  sess := by rw [f.sess, d.phase]
  ok := f.ok
  load := by rw [f.load, d.busy, d.load]
  busy := f.busy
  phase := f.phase.trans d.phase

/-! ## A series (R147) -/

theorem good_series (a : Access) (hg : a.Good) (k : Nat) (s : State) (hk : k ≤ s.cfg.waitRetryMax) :
    Does (series a.rq) (a.waited k) s fun _ t => Exchanged a k s t :=
  series_waits a hg.emitted (by rw [hg.ok]; rfl) (by rw [hg.outcome]; decide) k s hk

theorem broken_series (bad : Access) (hb : bad.broken) (hc : bad.rq.isDpWriteC = false) (k : Nat) (s : State)
    (hk : k ≤ s.cfg.waitRetryMax) : Does (series bad.rq) (bad.waited k) s fun _ t => Exchanged bad k s t :=
  series_waits bad hc hb.1 (by rcases hb.2 with h | h <;> rw [h] <;> decide) k s hk

theorem series_waitedOut (rq : Request) (hc : rq.isDpWriteC = false) (s : State) :
    Does (series rq) (waitedOut s.cfg rq) s fun _ t => Exchanged (Access.waiting rq) s.cfg.waitRetryMax s t := by
  unfold waitedOut
  rw [Nat.add_comm]
  exact series_exhausted rq hc s

/-! ## The recovery (R149) -/

theorem recoveryStep_does (a : Access) (hg : a.Good) (k : Nat) (s : State) (hk : k ≤ s.cfg.waitRetryMax) :
    Does (recoveryStep a.rq) (a.waited k) s fun _ t => Exchanged a k s t := by
  refine (good_series a hg k s hk).followed fun _ t _ _ ht => does_getBind ?_
  rw [ht.outcome, hg.outcome]
  exact does_pure ht

/-- A FAULT or a protocol error in a recovery is fatal. -/
theorem recoveryStep_fails (bad : Access) (hb : bad.broken) (hc : bad.rq.isDpWriteC = false) (k : Nat) (s : State)
    (hk : k ≤ s.cfg.waitRetryMax) : Fails (recoveryStep bad.rq) (bad.waited k) s (Failed .recoveryFailed none s.sess s) := by
  refine (broken_series bad hb hc k s hk).failing fun _ t _ d ht => fails_getBind ?_
  have f := failed_of_did (c := .recoveryFailed) (a := none) d ht.sess
  rcases hb.2 with h | h <;> rw [ht.outcome, h] <;> exact fails_raise f

/-- WAIT beyond the bound in a recovery is fatal. -/
theorem recoveryStep_exhausted (rq : Request) (hc : rq.isDpWriteC = false) (s : State) :
    Fails (recoveryStep rq) (waitedOut s.cfg rq) s (Failed .waitExhausted none s.sess s) := by
  refine (series_waitedOut rq hc s).failing fun _ t _ d ht => fails_getBind ?_
  rw [ht.outcome, waiting_outcome]
  exact fails_raise (failed_of_did d ht.sess)

/-- The first half of a recovery: CTRL/STAT is read. -/
theorem recover_read (v : Word) (j : Nat) (s : State) (hj : j ≤ s.cfg.waitRetryMax) :
    Does (do
      recoveryStep (Request.readDp dpCtrlStat)
      modify fun s => { s with sess := { s.sess with lastCtrlStat := some s.dp.rdata } })
      ((Access.read (Request.readDp dpCtrlStat) v).waited j) s fun _ t =>
      t.sess = { s.sess with lastCtrlStat := some v } ∧ t.dp.faultRetried = s.dp.faultRetried := by
  refine (recoveryStep_does (Access.read (Request.readDp dpCtrlStat) v) (good_read _ _) j s hj).followed fun _ t _ _ ht =>
    does_modify (f := fun s => { s with sess := { s.sess with lastCtrlStat := some s.dp.rdata } }) (fun d => { d with }) ?_
  have hr : t.dp.rdata = v := ht.rdata rfl rfl
  exact ⟨by simp only [ht.sess, hr], ht.retried⟩

/-- `recover` in its two halves. -/
theorem recover_eq : recover = (do
    (do
      recoveryStep (Request.readDp dpCtrlStat)
      modify fun s => { s with sess := { s.sess with lastCtrlStat := some s.dp.rdata } })
    recoveryStep (Request.writeDp dpAbort abortClear)
    modify fun s => { s with sess := { s.sess with stickyCleared := true } }) := by
  simp only [recover, bind_assoc]

theorem recover_does (v : Word) (j k : Nat) (s : State) (hj : j ≤ s.cfg.waitRetryMax) (hk : k ≤ s.cfg.waitRetryMax) :
    Does recover (recovery v j k) s fun _ t => t.sess = recovered v s.sess ∧ t.dp.faultRetried = s.dp.faultRetried := by
  rw [recover_eq]
  refine (recover_read v j s hj).bind fun _ t _ d ht => ?_
  refine (recoveryStep_does (Access.write (Request.writeDp dpAbort abortClear)) (good_writeDp _ _ (by decide)) k t
    (by rw [d.cfg]; exact hk)).followed fun _ u _ _ hu =>
      does_modify (f := fun s => { s with sess := { s.sess with stickyCleared := true } }) (fun d => { d with }) ?_
  exact ⟨by simp only [hu.sess, ht.1, recovered], hu.retried.trans ht.2⟩

/-- The recovery fails in its CTRL/STAT read. -/
theorem recover_readFails {as : List Access} {s : State} {post : State → Prop}
    (h : Fails (recoveryStep (Request.readDp dpCtrlStat)) as s post) : Fails recover as s post := Fails.stop h

/-- The recovery fails in its ABORT write. -/
theorem recover_writeFails (v : Word) (j : Nat) (s : State) (hj : j ≤ s.cfg.waitRetryMax) {as : List Access} {c : FailCause}
    (h : ∀ t, t.cfg = s.cfg → Fails (recoveryStep (Request.writeDp dpAbort abortClear)) as t (Failed c none t.sess t)) :
    Fails recover ((Access.read (Request.readDp dpCtrlStat) v).waited j ++ as) s
      (Failed c none { s.sess with lastCtrlStat := some v } s) := by
  rw [recover_eq]
  refine (recover_read v j s hj).fails fun _ t _ d ht => Fails.stop ?_
  refine (h t d.cfg).weaken fun u f => ?_
  rw [ht.1] at f
  exact f.after d

/-! ## A transaction (R148) -/

/-- WAIT beyond the bound: the failure is WaitExhausted. -/
theorem transact_exhausted (rq : Request) (hc : rq.isDpWriteC = false) (s : State) :
    Fails (transact rq) (waitedOut s.cfg rq) s fun t =>
      Failed .waitExhausted none s.sess s t ∧ t.dp.waitCount = s.cfg.waitRetryMax := by
  refine fails_modifyBind (fun d => { d with }) ?_
  refine (series_waitedOut rq hc (setFaultRetried false s)).failing fun _ t _ d ht => fails_getBind ?_
  rw [ht.outcome, waiting_outcome]
  have f := failed_of_did (c := .waitExhausted) (a := none) d ht.sess
  exact fails_raise ⟨{ f with }, ht.waitCount⟩

/-- The rest of a transaction after the recovery. -/
def retryOnce (rq : Request) : Engine Unit := do
  modify (setFaultRetried true)
  series rq
  match (← get).dp.outcome with
  | .ok => pure ()
  | .wait => raiseFail .waitExhausted none
  | .fault | .proterr => raiseFail .faultRepeated none

/-- A transaction up to its first FAULT or protocol error. -/
theorem transact_broken (bad : Access) (hb : bad.broken) (hc : bad.rq.isDpWriteC = false) (k : Nat) (s : State)
    (hk : k ≤ s.cfg.waitRetryMax) {as : List Access} {post : Unit → State → Prop}
    (h : ∀ t rest, Did (bad.waited k) rest s t → t.sess = s.sess → Does (recover >>= fun _ => retryOnce bad.rq) as t post) :
    Does (transact bad.rq) (bad.waited k ++ as) s post := by
  refine does_modifyBind (fun d => { d with }) ?_
  refine (broken_series bad hb hc k (setFaultRetried false s) hk).bind fun _ t rest d ht => does_getBind ?_
  have hr := h t rest { d with } ht.sess
  rcases hb.2 with ho | ho <;> rw [ht.outcome, ho] <;> exact hr

theorem transact_broken_fails (bad : Access) (hb : bad.broken) (hc : bad.rq.isDpWriteC = false) (k : Nat) (s : State)
    (hk : k ≤ s.cfg.waitRetryMax) {as : List Access} {c : FailCause} {f : Session → Session}
    (h : ∀ t, t.cfg = s.cfg → Fails (recover >>= fun _ => retryOnce bad.rq) as t (Failed c none (f t.sess) t)) :
    Fails (transact bad.rq) (bad.waited k ++ as) s (Failed c none (f s.sess) s) := by
  refine fails_modifyBind (fun d => { d with }) ?_
  refine (broken_series bad hb hc k (setFaultRetried false s) hk).fails fun _ t rest d ht => fails_getBind ?_
  have e : t.sess = s.sess := ht.sess
  have d' : Did (bad.waited k) rest s t := { d with }
  have hr := (h t d.cfg).weaken fun u g => Failed.after d' g
  rw [e] at hr
  rcases hb.2 with ho | ho <;> rw [ht.outcome, ho] <;> exact hr

/-- One FAULT or protocol error, a recovery answered OK, then the transaction answered OK. -/
theorem transact_recovers (bad a : Access) (hb : bad.broken) (hr : bad.rq = a.rq) (hg : a.Good) (v : Word) (k0 k1 k2 k3 : Nat)
    (s : State) (hk : ∀ k ∈ [k0, k1, k2, k3], k ≤ s.cfg.waitRetryMax) :
    Does (transact a.rq) (bad.waited k0 ++ (recovery v k1 k2 ++ a.waited k3)) s fun _ t =>
      t.sess = recovered v s.sess ∧ t.dp.faultRetried = true ∧ t.dp.waitCount = k3 ∧ (a.rq.rnw = true → t.dp.rdata = a.answer) := by
  rw [← hr]
  refine transact_broken bad hb (by rw [hr]; exact hg.emitted) k0 s (hk k0 (by simp)) fun t _ d hs => ?_
  rw [hr]
  refine (recover_does v k1 k2 t (by rw [d.cfg]; exact hk k1 (by simp)) (by rw [d.cfg]; exact hk k2 (by simp))).bind
    fun _ u _ d2 hu => does_modifyBind (fun d => { d with }) ?_
  refine (good_series a hg k3 (setFaultRetried true u) (by
    show _ ≤ u.cfg.waitRetryMax; rw [d2.cfg, d.cfg]; exact hk k3 (by simp))).followed fun _ w _ _ hw => does_getBind ?_
  rw [hw.outcome, hg.outcome]
  refine does_pure ⟨?_, hw.retried, hw.waitCount, hw.rdata hg.ok⟩
  rw [hw.sess]
  show u.sess = _
  rw [hu.1, hs]

/-- The first FAULT or protocol error, then a recovery that fails. -/
theorem transact_recoveryFails (bad : Access) (hb : bad.broken) (hc : bad.rq.isDpWriteC = false) (k : Nat) (s : State)
    (hk : k ≤ s.cfg.waitRetryMax) {as : List Access} {c : FailCause} {f : Session → Session}
    (h : ∀ t, t.cfg = s.cfg → Fails recover as t (Failed c none (f t.sess) t)) :
    Fails (transact bad.rq) (bad.waited k ++ as) s (Failed c none (f s.sess) s) :=
  transact_broken_fails bad hb hc k s hk fun t ht => (h t ht).stop

/-- The first FAULT or protocol error, a recovery answered OK, then a series that does not end in OK. -/
theorem transact_retryFails (bad last : Access) (hb : bad.broken) (hc : bad.rq.isDpWriteC = false) (v : Word) (k0 k1 k2 n : Nat)
    (s : State) (hk : ∀ k ∈ [k0, k1, k2], k ≤ s.cfg.waitRetryMax) {as : List Access} {c : FailCause}
    (hl : last.outcome = .wait ∧ c = .waitExhausted ∨ (last.outcome = .fault ∨ last.outcome = .proterr) ∧ c = .faultRepeated)
    (h : ∀ t, t.cfg = s.cfg → Does (series bad.rq) as t fun _ u => Exchanged last n t u) :
    Fails (transact bad.rq) (bad.waited k0 ++ (recovery v k1 k2 ++ as)) s (Failed c none (recovered v s.sess) s) := by
  refine transact_broken_fails (f := recovered v) bad hb hc k0 s (hk k0 (by simp)) fun t ht => ?_
  refine (recover_does v k1 k2 t (by rw [ht]; exact hk k1 (by simp)) (by rw [ht]; exact hk k2 (by simp))).fails
    fun _ u _ d hu => fails_modifyBind (fun d => { d with }) ?_
  refine (h (setFaultRetried true u) (by show u.cfg = _; rw [d.cfg, ht])).failing fun _ w _ d3 hw => fails_getBind ?_
  have d4 : Did as _ u w := { d3 with }
  have hss : w.sess = recovered v t.sess := by
    rw [hw.sess]
    show u.sess = _
    exact hu.1
  have f : ∀ c, Failed c none (recovered v t.sess) t (failEntry c none w) := fun c => failed_of_did (d.trans d4) hss
  rw [hw.outcome]
  rcases hl with ⟨h, rfl⟩ | ⟨h | h, rfl⟩ <;> rw [h] <;> exact fails_raise (f _)

end Sys2Proof.Machine
end

