-- ==== Sys2Proof/Laws/Position.lean ====
section
/-! SUPPORT. The sequencer position (R44): the register commands leave it alone, whatever the target answers, and where
a pass leaves it (R174). -/

namespace Sys2Proof.Machine

/-! ## The register commands do not change the position (R44) -/

theorem seqStable (q : Sequencer) :
    AccessStable True (fun rq => rq.isDpWriteC = false) (fun s => s.seq = q) (fun s => s.seq = q) where
  exchange := fun rq hq => keeps_xfer (.inl hq) (fun _ _ _ => trivial) fun s hs _ => (exchange_frame rq s).2.2.2.2.1.trans hs
  recoverReads := rfl
  recoverWrites := rfl
  waitCount := fun _ _ _ h => h
  retried := fun _ _ h => h
  inspected := fun _ _ h => h
  sticky := fun _ h => h
  result := fun _ _ _ h => h
  failed := fun _ _ _ h => h

theorem seqStable_ap (q : Sequencer) :
    ApStable True (fun rq => rq.isDpWriteC = false) (fun s => s.seq = q) (fun s => s.seq = q) :=
  { seqStable q with bankCheck := keeps_bankCheck (seqStable q) writeDp_dpSelect_ok fun _ _ h => h }

theorem keeps_ensureCsw_seq (q : Sequencer) : Keeps True (fun s => s.seq = q) (fun s => s.seq = q) ensureCsw :=
  keeps_ensureCsw (fun v => keeps_wrAp (seqStable_ap q) (.inr trivial) (writeAp_ok _ v)) fun _ h => h

/-! ## Where a pass leaves it (R174) -/

/-- One word of a pass: its index, also when it fails. -/
theorem ends_passWord_seq (op : PassOp) (j : Nat) (a : Addr32) (w : Word) (q : Sequencer) :
    Ends True (fun s => s.seq = q) (passWord op j a w) (fun _ s => s.seq = { q with wordIndex := j })
      (fun s => s.seq = { q with wordIndex := j }) := by
  have k : Keeps True (fun s => s.seq = { q with wordIndex := j }) (fun s => s.seq = { q with wordIndex := j }) (passWord op j a w) :=
    keeps_passWord (fun s h => by rw [h]) (keeps_wrAp (seqStable_ap _) (.inr trivial) (writeAp_ok _ _)) (fun _ h => h)
      (fun _ => keeps_wrAp (seqStable_ap _) (.inr trivial) (writeAp_ok _ _))
      (keeps_rdAp (seqStable_ap _) (.inr trivial) (readAp_ok _) (readDp_ok _)) (fun _ _ _ h => h) fun _ h => h
  intro s hs
  exact k { s with seq := { s.seq with wordIndex := j } } (by rw [hs])

/-- The position after the words of a section, from word `j` on. -/
def wordsPosition : Nat → List Word → Sequencer → Sequencer
  | _, [], q => q
  | j, _ :: ws, q => wordsPosition (j + 1) ws { q with wordIndex := j }

/-- The position after the sections of a plan, from section `k` on. -/
def sectionsPosition : Nat → List Section → Sequencer → Sequencer
  | _, [], q => q
  | k, sec :: rest, q => sectionsPosition (k + 1) rest (wordsPosition 0 (sectionWords sec) { q with sectionIndex := k })

theorem wordsPosition_eq (ws : List Word) : ∀ j q,
    wordsPosition j ws q = { q with wordIndex := if ws = [] then q.wordIndex else j + ws.length - 1 } := by
  induction ws with
  | nil => exact fun j q => by simp [wordsPosition]
  | cons w ws ih =>
    intro j q
    rw [wordsPosition, ih]
    cases ws with
    | nil => simp
    | cons v vs => simp; omega

theorem sectionsPosition_eq (secs : List Section) : ∀ k q, sectionsPosition k secs q =
    { q with
      sectionIndex := if secs = [] then q.sectionIndex else k + secs.length - 1
      wordIndex := ((secs.filter fun sec => sectionWords sec ≠ []).getLast?.map
        fun sec => (sectionWords sec).length - 1).getD q.wordIndex } := by
  induction secs with
  | nil => exact fun k q => by simp [sectionsPosition]
  | cons sec rest ih =>
    intro k q
    rw [sectionsPosition, ih, wordsPosition_eq]
    have hs : (if rest = [] then k else k + 1 + rest.length - 1) = k + (sec :: rest).length - 1 := by
      cases rest with
      | nil => simp
      | cons x xs => simp; omega
    by_cases hw : sectionWords sec = []
    · simpa [hw] using hs
    · simp only [hw, if_false, Nat.zero_add, List.cons_ne_nil, ne_eq, not_false_eq_true, decide_true, List.filter_cons_of_pos,
        List.getLast?_cons, hs]
      cases h : (List.filter (fun sec => decide (¬sectionWords sec = [])) rest).getLast? <;> simp

theorem sectionsPosition_plan (p : LoadPlan) (q : Sequencer) : sectionsPosition 0 (planSections p) q = passPosition p q := by
  rw [sectionsPosition_eq]
  simp [passPosition]

end Sys2Proof.Machine
end

