-- ==== Sys2Proof/Laws/CompleteLoad.lean ====
section
/-! SUPPORT. What the polls, the target control commands and the passes do when the target answers every exchange OK at
once. -/

namespace Sys2Proof.Machine

/-! ## Polls (R159) -/

/-- The accesses of reads that a poll makes one after another, from session `ss`, where one read is the accesses
`acc ss` of its answer and leaves the session `post ss`. -/
def readsFrom (acc : Session → Word × Word → List Access) (post : Session → Session) : Session → List (Word × Word) → List Access
  | _, [] => []
  | ss, r :: rest => acc ss r ++ readsFrom acc post (post ss) rest

/-- The session after the reads of a poll. -/
def sessionAfter (post : Session → Session) : Session → List (Word × Word) → Session
  | ss, [] => ss
  | ss, _ :: rest => sessionAfter post (post ss) rest

/-- One read operation of a poll. -/
structure PollRead (readOp : Engine Unit) (cfg : Config) (acc : Session → Word × Word → List Access) (post : Session → Session) : Prop where
  does : ∀ r s, s.cfg = cfg → Does readOp (acc s.sess r) s fun _ t => t.sess = post s.sess ∧ t.res.value = r.2 ∧ t.res.ok = true

/-- Reads that do not satisfy the mask, then one that does: the poll answers with it. -/
theorem pollReads_found {readOp : Engine Unit} {cfg : Config} {acc : Session → Word × Word → List Access} {post : Session → Session}
    (h : PollRead readOp cfg acc post) (mask : Word) (last : Word × Word) (hl : last.2 &&& mask = mask)
    (early : List (Word × Word)) (he : ∀ r ∈ early, r.2 &&& mask ≠ mask) :
    ∀ n v s ss, early.length < n → s.cfg = cfg → s.sess = ss →
      Does (pollReads readOp mask n v) (readsFrom acc post ss (early ++ [last])) s fun a t =>
        a = (true, last.2) ∧ t.sess = sessionAfter post ss (early ++ [last]) ∧ t.res.value = last.2 ∧ t.res.ok = true := by
  induction early with
  | nil =>
    rintro n v s _ hn hc rfl
    obtain ⟨m, rfl⟩ : ∃ m, n = m + 1 := ⟨n - 1, by simp only [List.length_nil] at hn; omega⟩
    refine (h.does last s hc).bind fun _ t _ d ht => does_getBind (does_modifyBind (fun d => { d with }) ?_)
    rw [ht.2.1, if_pos hl]
    exact does_pure ⟨rfl, ht.1, ht.2.1, ht.2.2⟩
  | cons r early ih =>
    rintro n v s _ hn hc rfl
    obtain ⟨m, rfl⟩ : ∃ m, n = m + 1 := ⟨n - 1, by simp only [List.length_cons] at hn; omega⟩
    refine (h.does r s hc).bind fun _ t _ d ht => does_getBind (does_modifyBind (fun d => { d with }) ?_)
    rw [ht.2.1, if_neg (he r (by simp))]
    exact ih (fun r' hr' => he r' (by simp [hr'])) m r.2 _ (post s.sess) (by simp only [List.length_cons] at hn; omega)
      (d.cfg.trans hc) ht.1

/-- No read satisfies the mask within the bound: the poll answers no. -/
theorem pollReads_timeout {readOp : Engine Unit} {cfg : Config} {acc : Session → Word × Word → List Access} {post : Session → Session}
    (h : PollRead readOp cfg acc post) (mask : Word) (reads : List (Word × Word)) (he : ∀ r ∈ reads, r.2 &&& mask ≠ mask) :
    ∀ v s ss, s.cfg = cfg → s.sess = ss → Does (pollReads readOp mask reads.length v) (readsFrom acc post ss reads) s fun a t =>
      a = (false, (reads.getLast?.map Prod.snd).getD v) ∧ t.sess = sessionAfter post ss reads := by
  induction reads with
  | nil => exact fun v s ss _ hs => does_pure ⟨rfl, hs⟩
  | cons r reads ih =>
    rintro v s _ hc rfl
    refine (h.does r s hc).bind fun _ t _ d ht => does_getBind (does_modifyBind (fun d => { d with }) ?_)
    rw [ht.2.1, if_neg (he r (by simp))]
    refine (ih (fun r' hr' => he r' (by simp [hr'])) r.2 { t with dp := { t.dp with pollCount := t.dp.pollCount + 1 } }
      (post s.sess) (d.cfg.trans hc) ht.1).weaken fun a u hu => ⟨?_, hu.2⟩
    rw [hu.1]
    cases reads with
    | nil => rfl
    | cons r2 rest =>
      obtain ⟨x, hx⟩ : ∃ x, (r2 :: rest).getLast? = some x := ⟨_, List.getLast?_eq_some_getLast (by simp)⟩
      simp [hx]

theorem pollRead_ctrlStat (cfg : Config) :
    PollRead (rdDp 0x4) cfg (fun _ r => [Access.read (Request.readDp dpCtrlStat) r.2]) id where
  does := fun r s _ => (rdDp_does 0x4 rfl r.2 s).weaken fun _ _ h => ⟨h.1, h.2.1, h.2.2.1⟩

theorem pollRead_dhcsr (cfg : Config) :
    PollRead (memRd32 dhcsrAddr) cfg (fun ss r => memReadAccesses cfg ss dhcsrAddr r.1 r.2) (afterMem cfg) where
  does := by
    rintro r s rfl
    exact (memRd32_does dhcsrAddr rfl r.1 r.2 s).weaken fun _ _ h => ⟨h.1, h.2.1, h.2.2.1⟩

theorem readsFrom_dhcsr (cfg : Config) (rs : List (Word × Word)) : ∀ ss,
    readsFrom (fun ss r => memReadAccesses cfg ss dhcsrAddr r.1 r.2) (afterMem cfg) ss rs = pollAccesses cfg ss rs := by
  induction rs with
  | nil => exact fun _ => rfl
  | cons r rs ih => exact fun ss => by simp only [readsFrom, pollAccesses, ih]

theorem afterMem_idem (cfg : Config) (ss : Session) : afterMem cfg (afterMem cfg ss) = afterMem cfg ss := by
  unfold afterMem withCsw
  by_cases h : ss.cswConfigured = true
  · simp [h, withBank]
  · simp [h, withBank]

theorem sessionAfter_mem (cfg : Config) (ss : Session) (rs : List (Word × Word)) :
    sessionAfter (afterMem cfg) (afterMem cfg ss) rs = afterMem cfg ss := by
  induction rs with
  | nil => rfl
  | cons r rs ih => simp only [sessionAfter, afterMem_idem, ih]

/-! ## Target Control (R168 to R170) -/

/-- A poll of DHCSR that sees its bit. -/
theorem pollDhcsr_found (mask : Word) (bound : Nat) (early : List (Word × Word)) (last : Word × Word)
    (he : ∀ r ∈ early, r.2 &&& mask ≠ mask) (hl : last.2 &&& mask = mask) (hb : early.length < bound) (ss : Session) (s : State)
    (hs : s.sess = afterMem s.cfg ss) :
    Does (poll (memRd32 dhcsrAddr) mask bound) (pollAccesses s.cfg (afterMem s.cfg ss) (early ++ [last])) s fun a t =>
      a = (true, last.2) ∧ t.sess = afterMem s.cfg ss ∧ t.res.value = last.2 ∧ t.res.ok = true := by
  refine does_modifyBind (fun d => { d with }) ?_
  have := pollReads_found (pollRead_dhcsr s.cfg) mask last hl early he bound 0 { s with dp := { s.dp with pollCount := 0 } }
    (afterMem s.cfg ss) hb rfl hs
  rwa [readsFrom_dhcsr, sessionAfter_mem] at this

/-- No read of DHCSR within the bound shows the bit. -/
theorem pollDhcsr_timeout (mask : Word) (reads : List (Word × Word)) (he : ∀ r ∈ reads, r.2 &&& mask ≠ mask) (ss : Session)
    (s : State) (hs : s.sess = afterMem s.cfg ss) :
    Does (poll (memRd32 dhcsrAddr) mask reads.length) (pollAccesses s.cfg (afterMem s.cfg ss) reads) s fun a t =>
      a.1 = false ∧ t.sess = afterMem s.cfg ss := by
  refine does_modifyBind (fun d => { d with }) ?_
  have := pollReads_timeout (pollRead_dhcsr s.cfg) mask reads he 0 { s with dp := { s.dp with pollCount := 0 } }
    (afterMem s.cfg ss) rfl hs
  rw [readsFrom_dhcsr, sessionAfter_mem] at this
  exact this.weaken fun a u hu => ⟨by rw [hu.1], hu.2⟩

theorem halt_does (early : List (Word × Word)) (last : Word × Word) (s : State) (he : ∀ r ∈ early, r.2 &&& sHalt ≠ sHalt)
    (hl : last.2 &&& sHalt = sHalt) (hb : early.length < s.cfg.haltPollMax) :
    DoesIn .halt halt (memWriteAccesses s.cfg s.sess dhcsrAddr dhcsrHalt ++
        pollAccesses s.cfg (afterMem s.cfg s.sess) (early ++ [last])) s fun _ t =>
      t.sess = { afterMem s.cfg s.sess with halted := true } ∧ t.res.value = last.2 ∧ t.res.ok = true := by
  refine Does.entering ?_
  refine (memWr32_does dhcsrAddr rfl dhcsrHalt (setPhase .halt s)).bind fun _ t _ d ht => does_getBind ?_
  have hc : t.cfg = s.cfg := d.cfg
  have hp := pollDhcsr_found sHalt t.cfg.haltPollMax early last he hl (by rw [hc]; exact hb) s.sess t (by rw [hc]; exact ht.1)
  rw [hc] at hp
  refine (by rw [hc]; exact hp : Does _ _ _ _).followed fun a u _ d2 hu => ?_
  obtain ⟨rfl, hs, hv, _⟩ := hu
  simp only [Bool.not_true, Bool.false_eq_true, if_false]
  refine does_modifyBind (fun d => { d with }) (does_modify (fun d => { d with }) ⟨?_, hv, rfl⟩)
  show { u.sess with halted := true } = _
  rw [hs]

theorem resume_does (s : State) :
    DoesIn .resume resume (memWriteAccesses s.cfg s.sess dhcsrAddr dhcsrResume) s fun _ t =>
      t.sess = { afterMem s.cfg s.sess with halted := false } ∧ t.res.ok = true := by
  refine Does.entering ?_
  refine (memWr32_does dhcsrAddr rfl dhcsrResume (setPhase .resume s)).followed fun _ t _ d ht => ?_
  refine does_modifyBind (fun d => { d with }) (does_modify (fun d => { d with }) ⟨?_, rfl⟩)
  show { t.sess with halted := false } = _
  rw [ht.1]
  rfl

theorem awaitRegRdy_does (early : List (Word × Word)) (last : Word × Word) (s : State) (ss : Session)
    (hs : s.sess = afterMem s.cfg ss) (he : ∀ r ∈ early, r.2 &&& sRegRdy ≠ sRegRdy)
    (hl : last.2 &&& sRegRdy = sRegRdy) (hb : early.length < s.cfg.regRdyPollMax) :
    Does awaitRegRdy (pollAccesses s.cfg (afterMem s.cfg ss) (early ++ [last])) s fun _ t =>
      t.sess = afterMem s.cfg ss ∧ t.res.ok = true := by
  refine does_getBind ?_
  refine (pollDhcsr_found sRegRdy s.cfg.regRdyPollMax early last he hl hb ss s hs).followed fun a u _ d2 hu => ?_
  obtain ⟨rfl, hs, hv, ho⟩ := hu
  simp only [Bool.not_true, Bool.false_eq_true, if_false]
  exact does_pure ⟨hs, ho⟩

theorem memWr32_again (a : Addr32) (ha : memAddrOk a = true) (v : Word) (s : State) (ss : Session)
    (hs : s.sess = afterMem s.cfg ss) :
    Does (memWr32 a v) (memWriteAccesses s.cfg (afterMem s.cfg ss) a v) s fun _ t =>
      t.sess = afterMem s.cfg ss ∧ t.res.ok = true := by
  have := memWr32_does a ha v s
  rw [hs] at this
  exact this.weaken fun _ t h => ⟨h.1.trans (afterMem_idem _ _), h.2.1⟩

theorem setReg_does (r : BitVec 5) (v : Word) (early : List (Word × Word)) (last : Word × Word) (s : State)
    (he : ∀ r ∈ early, r.2 &&& sRegRdy ≠ sRegRdy) (hl : last.2 &&& sRegRdy = sRegRdy) (hb : early.length < s.cfg.regRdyPollMax) :
    DoesIn (setRegPhase r) (setReg r v) (setRegAccesses s.cfg s.sess r v (early ++ [last])) s fun _ t =>
      t.sess = afterMem s.cfg s.sess ∧ t.res.ok = true := by
  refine Does.entering (does_getBind ?_)
  have cfg_eq : (setPhase (setRegPhase r) s).cfg = s.cfg := rfl
  unfold setRegAccesses
  rw [cfg_eq]
  cases s.cfg.setRegOrder with
  | selectThenData =>
    refine (memWr32_does dcrsrAddr rfl (dcrsrValue r) (setPhase (setRegPhase r) s)).bind fun _ t _ d ht => ?_
    have hc : t.cfg = s.cfg := d.cfg
    have h1 : t.sess = afterMem t.cfg s.sess := by rw [hc]; exact ht.1
    have hp := awaitRegRdy_does early last t s.sess h1 he hl (by rw [hc]; exact hb)
    rw [hc] at hp
    refine hp.bind fun _ u _ d2 hu => ?_
    have hc2 : u.cfg = s.cfg := d2.cfg.trans hc
    have hw := memWr32_again dcrdrAddr rfl v u s.sess (by rw [hc2]; exact hu.1)
    rw [hc2] at hw
    exact hw.followed fun _ w _ _ h => does_modify (fun d => { d with }) ⟨h.1, rfl⟩
  | dataThenSelect =>
    refine (memWr32_does dcrdrAddr rfl v (setPhase (setRegPhase r) s)).bind fun _ t _ d ht => ?_
    have hc : t.cfg = s.cfg := d.cfg
    have hw := memWr32_again dcrsrAddr rfl (dcrsrValue r) t s.sess (by rw [hc]; exact ht.1)
    rw [hc] at hw
    refine hw.bind fun _ u _ d2 hu => ?_
    have hc2 : u.cfg = s.cfg := d2.cfg.trans hc
    have hp := awaitRegRdy_does early last u s.sess (by rw [hc2]; exact hu.1) he hl (by rw [hc2]; exact hb)
    rw [hc2] at hp
    exact hp.followed fun _ w _ _ h => does_modify (fun d => { d with }) ⟨h.1, rfl⟩

/-! ## The passes (R174 to R176) -/

theorem needsTar_eq (a : Addr32) (s : State) : needsTar a s = true ↔ ¬tarKnown s.cfg s.sess a := by
  unfold needsTar tarKnown
  by_cases h1 : s.sess.tarValid <;> by_cases h2 : s.sess.nextAddr = a <;> by_cases h3 : s.sess.burstCount = s.cfg.maxBurstWords <;>
    simp [h1, h2, h3, eq_comm (a := a)]

/-- The answers to the access of one word of a pass: the DRW write, or the read of the word and of RDBUFF. -/
def wordAccesses (op : PassOp) (posted w : Word) : List Access :=
  match op with
  | .write => [Access.write (Request.writeAp 3 w)]
  | .verify => [Access.read (Request.readAp 3) posted, Access.read (Request.readDp dpRdbuff) w]

/-- The DRW access of a word, in a session where the bank is checked first. -/
theorem drw_does (op : PassOp) (posted : Word) (a : Addr32) (w : Word) (s : State) :
    Does (do
        match op with
        | .write => wrAp apDrw w
        | .verify =>
          rdAp apDrw
          if (← get).res.value ≠ w then raiseFail .verifyMismatch (some a)
        modify (advanceBurst a))
      (bankAccesses s.cfg s.sess apDrw ++ wordAccesses op posted w) s fun _ t =>
        t.sess = { withBank s.cfg s.sess apDrw with nextAddr := a + 4, burstCount := s.sess.burstCount + 1 } := by
  cases op with
  | write =>
    refine (wrAp_does apDrw rfl w s).followed fun _ t _ _ ht => does_modify (fun d => { d with }) ?_
    simp only [advanceBurst, ht.1]
    rfl
  | verify =>
    refine (rdAp_does apDrw rfl posted w s).followed fun _ t _ _ ht => does_getBind ?_
    rw [if_neg (by simp [ht.2.1])]
    refine does_modify (fun d => { d with }) ?_
    simp only [advanceBurst, ht.1]
    rfl

theorem passWord_does (op : PassOp) (posted : Word) (j : Nat) (a : Addr32) (w : Word) (s : State) :
    Does (passWord op j a w) (tarAccesses s.cfg s.sess a ++ wordAccesses op posted w) s fun _ t =>
      t.sess = wordSession s.cfg s.sess a ∧ t.seq = { s.seq with wordIndex := j } := by
  refine Does.ends ?_ (ends_passWord_seq op j a w s.seq) rfl
  unfold passWord tarAccesses wordSession tarSession
  refine does_modifyBind (fun d => { d with }) (does_getBind ?_)
  by_cases h : tarKnown s.cfg s.sess a
  · rw [if_pos h, if_pos h, if_neg (by rw [needsTar_eq]; exact not_not_intro h)]
    exact drw_does op posted a w { s with seq := { s.seq with wordIndex := j } }
  · rw [if_neg h, if_neg h, if_pos (by rw [needsTar_eq]; exact h), List.append_assoc, ← List.append_assoc]
    refine (wrAp_does apTar rfl a { s with seq := { s.seq with wordIndex := j } }).bind fun _ t _ d ht =>
      does_modifyBind (fun d => { d with }) ?_
    have hc : t.cfg = s.cfg := d.cfg
    have hd := drw_does op posted a w (startBurst t)
    have hs : (startBurst t).sess = { withBank s.cfg s.sess apTar with tarValid := true, burstCount := 0 } := by
      simp only [startBurst, ht.1]
    have hcs : (startBurst t).cfg = s.cfg := hc
    rw [hs, hcs] at hd
    rw [show bankAccesses s.cfg { withBank s.cfg s.sess apTar with tarValid := true, burstCount := 0 } apDrw = [] from
      if_pos ⟨rfl, rfl⟩] at hd
    exact hd.weaken fun _ u hu => hu

/-- The accesses of the words of a pass. -/
def passAccesses (op : PassOp) (posted : Nat → Word) (cfg : Config) : Nat → Session → List (Addr32 × Word) → List Access
  | _, _, [] => []
  | k, ss, (a, w) :: rest =>
    tarAccesses cfg ss a ++ wordAccesses op (posted k) w ++ passAccesses op posted cfg (k + 1) (wordSession cfg ss a) rest

theorem passAccesses_write (posted : Nat → Word) (cfg : Config) (ws : List (Addr32 × Word)) : ∀ k ss,
    passAccesses .write posted cfg k ss ws = writeWordAccesses cfg ss ws := by
  induction ws with
  | nil => exact fun _ _ => rfl
  | cons w ws ih => exact fun k ss => by simp [passAccesses, writeWordAccesses, wordAccesses, ih]

theorem passAccesses_verify (posted : Nat → Word) (cfg : Config) (ws : List (Addr32 × Word)) : ∀ k ss,
    passAccesses .verify posted cfg k ss ws = verifyWordAccesses posted cfg k ss ws := by
  induction ws with
  | nil => exact fun _ _ => rfl
  | cons w ws ih => exact fun k ss => by simp [passAccesses, verifyWordAccesses, wordAccesses, ih]

theorem passAccesses_append (op : PassOp) (posted : Nat → Word) (cfg : Config) (ws us : List (Addr32 × Word)) : ∀ k ss,
    passAccesses op posted cfg k ss (ws ++ us) =
      passAccesses op posted cfg k ss ws ++ passAccesses op posted cfg (k + ws.length) (wordsSession cfg ss ws) us := by
  induction ws with
  | nil => exact fun _ _ => rfl
  | cons w ws ih => exact fun k ss => by simp [passAccesses, wordsSession, ih, Nat.add_assoc, Nat.add_comm 1]

theorem wordsSession_append (cfg : Config) (ss : Session) (ws us : List (Addr32 × Word)) :
    wordsSession cfg ss (ws ++ us) = wordsSession cfg (wordsSession cfg ss ws) us := List.foldl_append

theorem passWords_does (op : PassOp) (posted : Nat → Word) (base : Addr32) (ws : List Word) : ∀ k j s,
    Does (passWords op base j ws) (passAccesses op posted s.cfg k s.sess (wordsAt base j ws)) s fun _ t =>
      t.sess = wordsSession s.cfg s.sess (wordsAt base j ws) ∧ t.seq = wordsPosition j ws s.seq := by
  induction ws with
  | nil => exact fun k j s => does_pure ⟨rfl, rfl⟩
  | cons w ws ih =>
    intro k j s
    refine (passWord_does op (posted k) j _ w s).bind fun _ t _ d ht => ?_
    have := ih (k + 1) (j + 1) t
    rw [d.cfg, ht.1, ht.2] at this
    exact this

theorem passSections_does (op : PassOp) (posted : Nat → Word) (secs : List Section) : ∀ n k s,
    Does (passSections op k secs)
      (passAccesses op posted s.cfg n s.sess (secs.flatMap fun sec => wordsAt sec.addr 0 (sectionWords sec))) s fun _ t =>
      t.sess = wordsSession s.cfg s.sess (secs.flatMap fun sec => wordsAt sec.addr 0 (sectionWords sec)) ∧
        t.seq = sectionsPosition k secs s.seq := by
  induction secs with
  | nil => exact fun n k s => does_pure ⟨rfl, rfl⟩
  | cons sec rest ih =>
    intro n k s
    rw [List.flatMap_cons, passAccesses_append, wordsSession_append]
    refine does_modifyBind (fun d => { d with }) ?_
    refine (passWords_does op posted sec.addr (sectionWords sec) n 0 { s with seq := { s.seq with sectionIndex := k } }).bind
      fun _ t _ d ht => ?_
    have := ih (n + (wordsAt sec.addr 0 (sectionWords sec)).length) (k + 1) t
    rw [d.cfg, ht.1, ht.2] at this
    exact this

theorem pass_does (op : PassOp) (posted : Nat → Word) (p : LoadPlan) (s : State) :
    Does (pass op p) (cswAccesses s.cfg s.sess ++ passAccesses op posted s.cfg 0 (passSession s.cfg s.sess) (planWords p)) s
      fun _ t => t.sess = wordsSession s.cfg (passSession s.cfg s.sess) (planWords p) ∧ t.seq = passPosition p s.seq := by
  refine ((ensureCsw_does s).ends (keeps_ensureCsw_seq s.seq) rfl).bind fun _ t _ d ht => does_modifyBind (fun d => { d with }) ?_
  have := passSections_does op posted (planSections p) 0 0 (startPass t)
  have hs : (startPass t).sess = passSession s.cfg s.sess := by simp only [startPass, passSession, ht.1]
  have hc : (startPass t).cfg = s.cfg := d.cfg
  have hq : (startPass t).seq = s.seq := ht.2
  rw [hs, hc, hq, sectionsPosition_plan] at this
  exact this

theorem writeBlocks_does (p : LoadPlan) (s : State) :
    DoesIn .write (writeBlocks p) (cswAccesses s.cfg s.sess ++ writeWordAccesses s.cfg (passSession s.cfg s.sess) (planWords p)) s
      fun _ t => t.sess = wordsSession s.cfg (passSession s.cfg s.sess) (planWords p) ∧ t.res.ok = true ∧
        t.seq = passPosition p { s.seq with phase := .write } := by
  refine Does.entering ?_
  have h := pass_does .write (fun _ => 0) p (setPhase .write s)
  rw [passAccesses_write] at h
  exact h.followed fun _ t _ _ ht => does_modify (fun d => { d with }) ⟨ht.1, rfl, ht.2⟩

theorem verifyBlocks_does (posted : Nat → Word) (p : LoadPlan) (s : State) :
    DoesIn .verify (verifyBlocks p) (cswAccesses s.cfg s.sess ++ verifyWordAccesses posted s.cfg 0 (passSession s.cfg s.sess) (planWords p)) s
      fun _ t => t.sess = wordsSession s.cfg (passSession s.cfg s.sess) (planWords p) ∧ t.res.ok = true ∧
        t.seq = passPosition p { s.seq with phase := .verify } := by
  refine Does.entering ?_
  have h := pass_does .verify posted p (setPhase .verify s)
  rw [passAccesses_verify] at h
  exact h.followed fun _ t _ _ ht => does_modify (fun d => { d with }) ⟨ht.1, rfl, ht.2⟩

end Sys2Proof.Machine
end

