-- ==== Sys2Proof/Laws/Connect.lean ====
section
/-! SUPPORT. The connection sequence, the timeouts and mismatches, and the load operation, for scripted answers. -/

namespace Sys2Proof.Machine

/-! ## Host-driven parts (R163 to R165) -/

theorem drivenLink_turned (bits : List Bool) {l : Link} (h : l.lastDir ≠ .target) : (drivenLink bits l).lastDir ≠ .target :=
  drivenLink_not_target bits l h

theorem linkWrite_ok (bits : List Bool) (s : State) (h : s.link.lastDir ≠ .target) : linkWrite bits s = .ok () (driveBits bits s) := by
  unfold linkWrite
  rw [bind_of_ok (checkDir_ok h), modify_run]

theorem linkLinereset_ok (s : State) (h : s.link.lastDir ≠ .target) : linkLinereset s = .ok () (lineReset s) := by
  unfold linkLinereset
  rw [bind_of_ok (checkDir_ok h), modify_run]

/-- `t` is `s` after the host-driven cycles `wire`. -/
structure Drove (wire : List Cycle) (s t : State) : Prop where
  eq : t = { s with link := t.link, trace := s.trace ++ wire }
  turned : t.link.lastDir ≠ .target

theorem drove_driveBits (bits : List Bool) (s : State) (h : s.link.lastDir ≠ .target) : Drove (hostCycles bits) s (driveBits bits s) := by
  rw [driveBits_eq]
  exact ⟨rfl, drivenLink_not_target _ _ h⟩

theorem drove_lineReset (s : State) (h : s.link.lastDir ≠ .target) : Drove (lineResetCycles s.cfg) s (lineReset s) := by
  rw [lineReset_eq]
  exact ⟨rfl, drivenLink_not_target _ _ h⟩

theorem Drove.trans {w1 w2 : List Cycle} {s t u : State} (h1 : Drove w1 s t) (h2 : Drove w2 t u) : Drove (w1 ++ w2) s u := by
  refine ⟨?_, h2.turned⟩
  rw [h2.eq, h1.eq]
  simp

theorem Drove.cfg {w : List Cycle} {s t : State} (h : Drove w s t) : t.cfg = s.cfg := by rw [h.eq]

theorem sendActivation_ok (s : State) (h : s.link.lastDir ≠ .target) :
    ∃ t, sendActivation s = .ok () t ∧ Drove (activationCycles s.cfg) s t := by
  unfold sendActivation
  simp only [get_bind]
  have d1 := drove_driveBits s.cfg.activationBits s h
  rw [bind_of_ok (linkWrite_ok s.cfg.activationBits s h)]
  have last : ∀ t w, Drove w s t → ∃ u, (if s.cfg.resetAfterActivation = true then linkLinereset else pure ()) t = .ok () u ∧
      Drove (w ++ if s.cfg.resetAfterActivation then lineResetCycles s.cfg else []) s u := by
    intro t w d
    by_cases hr : s.cfg.resetAfterActivation = true
    · rw [if_pos hr, if_pos hr]
      refine ⟨_, linkLinereset_ok t d.turned, ?_⟩
      have := drove_lineReset t d.turned
      rw [d.cfg] at this
      exact d.trans this
    · rw [if_neg hr, if_neg hr, List.append_nil]
      exact ⟨t, rfl, d⟩
  unfold activationCycles
  cases hm : s.cfg.multidropActivation with
  | none =>
    obtain ⟨u, e, d⟩ := last _ _ d1
    exact ⟨u, e, by simpa [hostCycles] using d⟩
  | some m =>
    simp only
    have d2 := drove_driveBits m _ d1.turned
    rw [bind_of_ok (linkWrite_ok m _ d1.turned)]
    obtain ⟨u, e, d⟩ := last _ _ (d1.trans d2)
    exact ⟨u, e, by simpa using d⟩

/-- The steps of `CONNECT` from IdCheck on (R162). -/
def afterActivation : Engine Unit := do
  idCheck
  modify (enterStep .powerUp .powerUp)
  powerUp
  modify fun s => { s with sess := { s.sess with conn := .ready } }
  modify (setOk true)

/-- `CONNECT` up to its IdCheck step: the state in which the IDCODE is read. -/
theorem connect_start (s : State) (h : s.link.lastDir ≠ .target) :
    ∃ t, connect s = afterActivation t ∧ t = { freshSession s with
      sess := { (freshSession s).sess with conn := .idCheck }
      seq := { s.seq with phase := .idCheck }
      link := t.link
      trace := s.trace ++ (lineResetCycles s.cfg ++ activationCycles s.cfg) } ∧ t.link.lastDir ≠ .target := by
  unfold connect
  rw [modify_bind, modify_bind]
  have h1 : (enterStep .lineReset .lineReset (freshSession s)).link.lastDir ≠ .target := h
  rw [bind_of_ok (linkLinereset_ok _ h1), modify_bind]
  have d1 := drove_lineReset _ h1
  generalize lineReset (enterStep .lineReset .lineReset (freshSession s)) = s1 at *
  have h2 : (enterStep .activationSent .activationSent s1).link.lastDir ≠ .target := d1.turned
  obtain ⟨s2, e2, d2⟩ := sendActivation_ok _ h2
  rw [bind_of_ok e2, modify_bind]
  refine ⟨_, rfl, ?_, d2.turned⟩
  rw [d2.eq, d1.eq]
  simp [enterStep, setPhase, freshSession]

/-! ## IdCheck and PowerUp (R166, R167) -/

theorem idCheck_does (id : Word) (s : State) (h : id.extractLsb' 0 4 = s.cfg.idLowNibble) :
    Does idCheck [Access.read (Request.readDp 0) id] s fun _ t => t.sess = s.sess := by
  refine (rdDp_does 0x0 rfl id s).followed fun _ t _ d ht => does_getBind ?_
  rw [if_neg (by rw [ht.2.1, d.cfg]; exact not_not_intro h)]
  exact does_pure ht.1

theorem idCheck_mismatch (id : Word) (s : State) (h : id.extractLsb' 0 4 ≠ s.cfg.idLowNibble) :
    Fails idCheck [Access.read (Request.readDp 0) id] s fun t => Failed .idMismatch none s.sess s t := by
  refine (rdDp_does 0x0 rfl id s).failing fun _ t _ d ht => fails_getBind ?_
  rw [if_pos (by rw [ht.2.1, d.cfg]; exact h)]
  exact fails_raise (failed_of_did d ht.1)

theorem readsFrom_ctrlStat (rs : List (Word × Word)) (ss : Session) :
    readsFrom (fun _ r => [Access.read (Request.readDp dpCtrlStat) r.2]) id ss rs =
      (rs.map Prod.snd).map (Access.read (Request.readDp dpCtrlStat)) := by
  induction rs with
  | nil => rfl
  | cons r rs ih => exact congrArg _ ih

theorem sessionAfter_id (ss : Session) (rs : List (Word × Word)) : sessionAfter id ss rs = ss := by
  induction rs with
  | nil => rfl
  | cons r rs ih => exact ih

theorem pollCtrlStat_found (early : List Word) (last : Word) (he : ∀ r ∈ early, r &&& powerUpAcks ≠ powerUpAcks)
    (hl : last &&& powerUpAcks = powerUpAcks) (bound : Nat) (hb : early.length < bound) (s : State) :
    Does (poll (rdDp 0x4) powerUpAcks bound) ((early ++ [last]).map (Access.read (Request.readDp dpCtrlStat))) s fun a t =>
      a = (true, last) ∧ t.sess = s.sess := by
  refine does_modifyBind (fun d => { d with }) ?_
  have h := pollReads_found (pollRead_ctrlStat s.cfg) powerUpAcks (0, last) hl (early.map (Prod.mk 0))
    (by simpa using he) bound 0 { s with dp := { s.dp with pollCount := 0 } } s.sess (by simpa using hb) rfl rfl
  rw [readsFrom_ctrlStat, sessionAfter_id] at h
  simp only [List.map_append, List.map_map, List.map_cons, List.map_nil] at h ⊢
  exact h.weaken fun _ _ hu => ⟨hu.1, hu.2.1⟩

theorem pollCtrlStat_timeout (reads : List Word) (he : ∀ r ∈ reads, r &&& powerUpAcks ≠ powerUpAcks) (s : State) :
    Does (poll (rdDp 0x4) powerUpAcks reads.length) (reads.map (Access.read (Request.readDp dpCtrlStat))) s fun a t =>
      a = (false, reads.getLast?.getD 0) ∧ t.sess = s.sess := by
  refine does_modifyBind (fun d => { d with }) ?_
  have h := pollReads_timeout (pollRead_ctrlStat s.cfg) powerUpAcks (reads.map (Prod.mk 0))
    (by simpa using he) 0 { s with dp := { s.dp with pollCount := 0 } } s.sess rfl rfl
  rw [readsFrom_ctrlStat, sessionAfter_id] at h
  simp only [List.length_map, List.map_map, List.getLast?_map, Option.map_map] at h
  refine (by simpa [Function.comp_def] using h : Does _ _ _ _)

theorem powerUp_does (early : List Word) (last : Word) (he : ∀ r ∈ early, r &&& powerUpAcks ≠ powerUpAcks)
    (hl : last &&& powerUpAcks = powerUpAcks) (s : State) (hb : early.length < s.cfg.powerUpPollMax) :
    Does powerUp (Access.write (Request.writeDp dpAbort abortClear) :: Access.write (Request.writeDp dpCtrlStat powerUpRequest)
        :: (early ++ [last]).map (Access.read (Request.readDp dpCtrlStat))) s fun _ t =>
      t.sess = { s.sess with stickyCleared := true, lastCtrlStat := some last } := by
  refine (wrDp_does 0x0 rfl abortClear s).bind (bs := Access.write (Request.writeDp dpCtrlStat powerUpRequest) :: _)
    fun _ t0 _ d1 h1 => (wrDp_does 0x4 rfl powerUpRequest t0).bind fun _ t _ d2 h2 => does_getBind ?_
  have hc : t.cfg = s.cfg := d2.cfg.trans d1.cfg
  have hs : t.sess = { s.sess with stickyCleared := true } := h2.1.trans h1.1
  refine (pollCtrlStat_found early last he hl _ (by rw [hc]; exact hb) t).followed fun a u _ _ hu => ?_
  obtain ⟨rfl, hu⟩ := hu
  refine does_modifyBind (f := fun s => { s with sess := { s.sess with lastCtrlStat := some last } }) (fun d => { d with })
    (does_pure ?_)
  simp only [hu, hs]

theorem powerUp_timeout (reads : List Word) (he : ∀ r ∈ reads, r &&& powerUpAcks ≠ powerUpAcks) (s : State)
    (hb : reads.length = s.cfg.powerUpPollMax) :
    Fails powerUp (Access.write (Request.writeDp dpAbort abortClear) :: Access.write (Request.writeDp dpCtrlStat powerUpRequest)
        :: reads.map (Access.read (Request.readDp dpCtrlStat))) s fun t =>
      Failed .pollTimeout none { s.sess with stickyCleared := true, lastCtrlStat := some (reads.getLast?.getD 0) } s t := by
  refine (wrDp_does 0x0 rfl abortClear s).fails (bs := Access.write (Request.writeDp dpCtrlStat powerUpRequest) :: _)
    fun _ t0 _ d1 h1 => (wrDp_does 0x4 rfl powerUpRequest t0).fails fun _ t _ d2 h2 => fails_getBind ?_
  have hc : t.cfg = s.cfg := d2.cfg.trans d1.cfg
  have hs : t.sess = { s.sess with stickyCleared := true } := h2.1.trans h1.1
  have h := pollCtrlStat_timeout reads he t
  rw [hb, ← hc] at h
  refine h.failing fun a u _ d hu => ?_
  obtain ⟨rfl, hu⟩ := hu
  refine fails_modifyBind (f := fun s => { s with sess := { s.sess with lastCtrlStat := some (reads.getLast?.getD 0) } })
    (fun d => { d with }) ?_
  refine fails_raise ?_
  constructor
  · simp only [failEntry, hu, hs, d.phase, d2.phase, d1.phase]
  · rfl
  · simp only [failEntry, d.busy, d.load, d2.busy, d2.load, d1.busy, d1.load]
  · rfl
  · exact d.phase.trans (d2.phase.trans d1.phase)

/-! ## CONNECT (R162) -/

theorem connect_does (id : Word) (early : List Word) (last : Word) (s : State) (rest : List Bool)
    (hd : s.link.lastDir ≠ .target) (hin : s.targetIn = answerBits (connectAccesses id (early ++ [last])) ++ rest)
    (hid : id.extractLsb' 0 4 = s.cfg.idLowNibble) (he : ∀ r ∈ early, r &&& powerUpAcks ≠ powerUpAcks)
    (hl : last &&& powerUpAcks = powerUpAcks) (hb : early.length < s.cfg.powerUpPollMax) :
    ∃ t, connect s = .ok () t ∧
      Ran (lineResetCycles s.cfg ++ activationCycles s.cfg ++ wireCycles s.cfg (connectAccesses id (early ++ [last])))
        (targetAfter s.cfg (connectAccesses id (early ++ [last])) s.target) rest s t ∧
      t.sess = connectedSession s.sess last ∧ t.res.ok = true ∧ t.load = s.load ∧ t.busy = s.busy ∧
      t.seq.phase = .powerUp := by
  obtain ⟨s1, e1, q1, t1⟩ := connect_start s hd
  have r1 : Ran (lineResetCycles s.cfg ++ activationCycles s.cfg) s.target s.targetIn s s1 := by
    constructor <;> first | exact t1 | (rw [q1] <;> rfl)
  have c1 : s1.cfg = s.cfg := r1.cfg
  have b1 : s1.sess = { (freshSession s).sess with conn := .idCheck } ∧ s1.load = s.load ∧ s1.busy = s.busy := by
    rw [q1]; exact ⟨rfl, rfl, rfl⟩
  obtain ⟨_, s2, e2, d2, h2⟩ := idCheck_does id s1 (by rw [c1]; exact hid)
    (answerBits (Access.write (Request.writeDp dpAbort abortClear) :: Access.write (Request.writeDp dpCtrlStat powerUpRequest)
        :: (early ++ [last]).map (Access.read (Request.readDp dpCtrlStat))) ++ rest) t1 (by
      simp [r1.answers, hin, connectAccesses])
  obtain ⟨_, s3, e3, d3, h3⟩ := powerUp_does early last he hl (enterStep .powerUp .powerUp s2)
    (by show _ < s2.cfg.powerUpPollMax; rw [d2.cfg, c1]; exact hb) rest d2.turned d2.answers
  have d3' : Ran (wireCycles s2.cfg _) (targetAfter s2.cfg _ s2.target) rest s2 s3 := { d3.toRan with }
  have hr := (r1.trans d2.toRan).trans d3'
  have c2 : s2.cfg = s.cfg := d2.cfg.trans c1
  refine ⟨setOk true { s3 with sess := { s3.sess with conn := .ready } }, ?_, ?_, ?_, rfl, ?_, ?_, ?_⟩
  · rw [e1]
    unfold afterActivation
    rw [bind_of_ok e2, modify_bind, bind_of_ok e3]
    rfl
  · rw [d2.target, r1.target, c1, c2, ← targetAfter_append, List.append_assoc, ← wireCycles_append] at hr
    exact { hr with }
  · show { s3.sess with conn := .ready } = _
    rw [h3]
    simp only [enterStep, setPhase, h2, b1.1]
    rfl
  · exact d3.load.trans (d2.load.trans b1.2.1)
  · exact d3.busy.trans (d2.busy.trans b1.2.2)
  · exact d3.phase

/-- The session of a `CONNECT` in its step `c` (R161, R162). -/
theorem connect_idMismatch (id : Word) (s : State) (rest : List Bool)
    (hd : s.link.lastDir ≠ .target) (hin : s.targetIn = (Access.read (Request.readDp 0) id).bits ++ rest)
    (hid : id.extractLsb' 0 4 ≠ s.cfg.idLowNibble) :
    ∃ t, connect s = .error .failed t ∧
      Ran (lineResetCycles s.cfg ++ activationCycles s.cfg ++ (Access.read (Request.readDp 0) id).cycles s.cfg)
        ((Access.read (Request.readDp 0) id).onTarget s.cfg s.target) rest s t ∧
      t.sess = { (freshSession s).sess with
        conn := .idCheck, failInfo := some { step := .idCheck, cause := .idMismatch, addr := none } } ∧
      t.res.ok = false ∧ t.load = (if s.busy then .failed else s.load) ∧ t.busy = false := by
  obtain ⟨s1, e1, q1, t1⟩ := connect_start s hd
  have r1 : Ran (lineResetCycles s.cfg ++ activationCycles s.cfg) s.target s.targetIn s s1 := by
    constructor <;> first | exact t1 | (rw [q1] <;> rfl)
  have b1 : s1.sess = { (freshSession s).sess with conn := .idCheck } ∧ s1.load = s.load ∧ s1.busy = s.busy ∧
      s1.seq.phase = .idCheck := by
    rw [q1]; exact ⟨rfl, rfl, rfl, rfl⟩
  obtain ⟨t, e2, d2, f⟩ := idCheck_mismatch id s1 (by rw [r1.cfg]; exact hid) rest t1 (by rw [r1.answers, hin]; simp)
  refine ⟨t, ?_, ?_, ?_, f.ok, ?_, f.busy⟩
  · rw [e1]
    unfold afterActivation
    rw [bind_of_error e2]
  · have hr := r1.trans d2
    rw [r1.cfg, r1.target] at hr
    simpa using hr
  · rw [f.sess, b1.1, b1.2.2.2]
    rfl
  · rw [f.load, b1.2.1, b1.2.2.1]

theorem connect_powerTimeout (id : Word) (reads : List Word) (s : State) (rest : List Bool)
    (hd : s.link.lastDir ≠ .target) (hin : s.targetIn = answerBits (connectAccesses id reads) ++ rest)
    (hid : id.extractLsb' 0 4 = s.cfg.idLowNibble) (he : ∀ r ∈ reads, r &&& powerUpAcks ≠ powerUpAcks)
    (hb : reads.length = s.cfg.powerUpPollMax) :
    ∃ t, connect s = .error .failed t ∧
      Ran (lineResetCycles s.cfg ++ activationCycles s.cfg ++ wireCycles s.cfg (connectAccesses id reads))
        (targetAfter s.cfg (connectAccesses id reads) s.target) rest s t ∧
      t.sess = { connectedSession s.sess (reads.getLast?.getD 0) with
        conn := .powerUp, failInfo := some { step := .powerUp, cause := .pollTimeout, addr := none } } ∧
      t.res.ok = false ∧ t.load = (if s.busy then .failed else s.load) ∧ t.busy = false := by
  obtain ⟨s1, e1, q1, t1⟩ := connect_start s hd
  have r1 : Ran (lineResetCycles s.cfg ++ activationCycles s.cfg) s.target s.targetIn s s1 := by
    constructor <;> first | exact t1 | (rw [q1] <;> rfl)
  have c1 : s1.cfg = s.cfg := r1.cfg
  have b1 : s1.sess = { (freshSession s).sess with conn := .idCheck } ∧ s1.load = s.load ∧ s1.busy = s.busy := by
    rw [q1]; exact ⟨rfl, rfl, rfl⟩
  obtain ⟨_, s2, e2, d2, h2⟩ := idCheck_does id s1 (by rw [c1]; exact hid)
    (answerBits (Access.write (Request.writeDp dpAbort abortClear) :: Access.write (Request.writeDp dpCtrlStat powerUpRequest)
        :: reads.map (Access.read (Request.readDp dpCtrlStat))) ++ rest) t1 (by
      simp [r1.answers, hin, connectAccesses])
  have c2 : s2.cfg = s.cfg := d2.cfg.trans c1
  obtain ⟨t, e3, d3, f⟩ := powerUp_timeout reads he (enterStep .powerUp .powerUp s2)
    (by show _ = s2.cfg.powerUpPollMax; rw [c2]; exact hb) rest d2.turned d2.answers
  have d3' : Ran (wireCycles s2.cfg _) (targetAfter s2.cfg _ s2.target) rest s2 t := { d3 with }
  have hr := (r1.trans d2.toRan).trans d3'
  refine ⟨t, ?_, ?_, ?_, f.ok, ?_, f.busy⟩
  · rw [e1]
    unfold afterActivation
    rw [bind_of_ok e2, modify_bind, bind_of_error e3]
  · rw [d2.target, r1.target, c1, c2, ← targetAfter_append, List.append_assoc, ← wireCycles_append] at hr
    exact hr
  · rw [f.sess]
    simp only [enterStep, setPhase, h2, b1.1]
    rfl
  · rw [f.load]
    show (if s2.busy then _ else s2.load) = _
    rw [d2.load, d2.busy, b1.2.1, b1.2.2]

end Sys2Proof.Machine
end

