-- ==== Sys2Proof/Laws/Load.lean ====
section
/-! SUPPORT. The failures of target control and verification, and the load operation (R168, R169, R176, R177), for scripted
answers. -/

namespace Sys2Proof.Machine

/-! ## Polls that time out -/

theorem failed_weaken {c : FailCause} {a : Option Addr32} {ss : Session} {p : Phase} {s t : State}
    (h : Failed c a ss (setPhase p s) t) : t.sess = { ss with failInfo := some (ss.failInfo.getD { step := p, cause := c, addr := a }) } ∧
      t.res.ok = false ∧ t.load = (if s.busy then .failed else s.load) ∧ t.busy = false := ⟨h.sess, h.ok, h.load, h.busy⟩

/-- `FailsIn p`: as `Fails`, for an operation that begins by entering step `p`. -/
theorem fails_entering {α : Type} {p : Phase} {k : Unit → Engine α} {as : List Access} {s : State} {post : State → Prop}
    (h : Fails (k ()) as (setPhase p s) post) : Fails ((modify (setPhase p) : Engine Unit) >>= k) as s post := by
  intro rest hd hr
  obtain ⟨t, e, r, q⟩ := h rest hd hr
  exact ⟨t, e, { r with }, q⟩

theorem halt_timeout (reads : List (Word × Word)) (s : State) (he : ∀ r ∈ reads, r.2 &&& sHalt ≠ sHalt)
    (hb : reads.length = s.cfg.haltPollMax) :
    Fails halt (memWriteAccesses s.cfg s.sess dhcsrAddr dhcsrHalt ++ pollAccesses s.cfg (afterMem s.cfg s.sess) reads) s fun t =>
      Failed .pollTimeout none (afterMem s.cfg s.sess) (setPhase .halt s) t := by
  refine fails_entering ?_
  refine (memWr32_does dhcsrAddr rfl dhcsrHalt (setPhase .halt s)).fails fun _ t _ d ht => fails_getBind ?_
  have hc : t.cfg = s.cfg := d.cfg
  have hp := pollDhcsr_timeout sHalt reads he s.sess t (by rw [hc]; exact ht.1)
  rw [hb, ← hc] at hp
  refine (by rw [hc] at hp ⊢; exact hp : Does _ _ _ _).failing fun a u _ d2 hu => ?_
  obtain ⟨ok, v⟩ := a
  obtain ⟨rfl, hs⟩ := hu
  simp only [Bool.not_false, if_true]
  have f := failed_of_did (c := .pollTimeout) (a := none) (d.trans d2) hs
  exact Fails.stop (fails_raise f)

/-- A register-ready poll that times out ends `SET_REG`; under the source's order DCRDR is not written (R169). -/
theorem awaitRegRdy_timeout (reads : List (Word × Word)) (s : State) (ss : Session) (hs : s.sess = afterMem s.cfg ss)
    (he : ∀ r ∈ reads, r.2 &&& sRegRdy ≠ sRegRdy) (hb : reads.length = s.cfg.regRdyPollMax) :
    Fails awaitRegRdy (pollAccesses s.cfg (afterMem s.cfg ss) reads) s fun t =>
      Failed .pollTimeout none (afterMem s.cfg ss) s t := by
  refine fails_getBind ?_
  have hp := pollDhcsr_timeout sRegRdy reads he ss s hs
  rw [hb] at hp
  refine hp.failing fun a u _ d2 hu => ?_
  obtain ⟨ok, v⟩ := a
  obtain ⟨rfl, hs⟩ := hu
  simp only [Bool.not_false, if_true]
  exact fails_raise (failed_of_did d2 hs)

/-- The accesses of a `SET_REG` whose poll times out (R169). -/
theorem setReg_timeout (r : BitVec 5) (v : Word) (reads : List (Word × Word)) (s : State)
    (he : ∀ r ∈ reads, r.2 &&& sRegRdy ≠ sRegRdy) (hb : reads.length = s.cfg.regRdyPollMax) :
    Fails (setReg r v) (setRegTimeoutAccesses s.cfg s.sess r v reads) s fun t =>
      Failed .pollTimeout none (afterMem s.cfg s.sess) (setPhase (setRegPhase r) s) t := by
  refine fails_entering (fails_getBind ?_)
  have cfg_eq : (setPhase (setRegPhase r) s).cfg = s.cfg := rfl
  unfold setRegTimeoutAccesses
  rw [cfg_eq]
  cases s.cfg.setRegOrder with
  | selectThenData =>
    refine (memWr32_does dcrsrAddr rfl (dcrsrValue r) (setPhase (setRegPhase r) s)).fails fun _ t _ d ht => Fails.stop ?_
    have hc : t.cfg = s.cfg := d.cfg
    have hp := awaitRegRdy_timeout reads t s.sess (by rw [hc]; exact ht.1) he (by rw [hc]; exact hb)
    intro rest hd hr
    obtain ⟨u, e, q, f⟩ := hp rest hd (by rw [hc]; exact hr)
    rw [hc] at f
    rw [show pollAccesses t.cfg (afterMem t.cfg s.sess) reads = pollAccesses s.cfg (afterMem s.cfg s.sess) reads by rw [hc]] at q
    exact ⟨u, e, q, { f with load := by rw [f.load, d.busy, d.load], sess := by rw [f.sess, d.phase], phase := f.phase.trans d.phase }⟩
  | dataThenSelect =>
    refine (memWr32_does dcrdrAddr rfl v (setPhase (setRegPhase r) s)).fails fun _ t _ d ht => ?_
    have hc : t.cfg = s.cfg := d.cfg
    have hw := memWr32_again dcrsrAddr rfl (dcrsrValue r) t s.sess (by rw [hc]; exact ht.1)
    rw [hc] at hw
    refine hw.fails fun _ u _ d2 hu => Fails.stop ?_
    have hc2 : u.cfg = s.cfg := d2.cfg.trans hc
    have hp := awaitRegRdy_timeout reads u s.sess (by rw [hc2]; exact hu.1) he (by rw [hc2]; exact hb)
    intro rest hd hr
    obtain ⟨w, e, q, f⟩ := hp rest hd (by rw [hc2]; exact hr)
    rw [hc2] at f
    rw [show pollAccesses u.cfg (afterMem u.cfg s.sess) reads = pollAccesses s.cfg (afterMem s.cfg s.sess) reads by rw [hc2]] at q
    refine ⟨w, e, q, { f with load := ?_, sess := ?_, phase := f.phase.trans (d2.phase.trans d.phase) }⟩
    · rw [f.sess, d2.phase, d.phase]
    · rw [f.load, d2.busy, d2.load, d.busy, d.load]

/-! ## A verification that fails (R176) -/

theorem drw_mismatch (posted got : Word) (a : Addr32) (w : Word) (hne : got ≠ w) (u : State) :
    Fails (do
      rdAp apDrw
      if (← get).res.value ≠ w then raiseFail .verifyMismatch (some a)
      modify (advanceBurst a))
      (bankAccesses u.cfg u.sess apDrw ++ [Access.read (Request.readAp 3) posted, Access.read (Request.readDp dpRdbuff) got]) u
      fun t => Failed .verifyMismatch (some a) (withBank u.cfg u.sess apDrw) u t := by
  refine (rdAp_does apDrw rfl posted got u).failing fun _ t _ d ht => fails_getBind ?_
  rw [if_pos (by rw [ht.2.1]; exact hne)]
  exact Fails.stop (fails_raise (failed_of_did d ht.1))

theorem passWord_mismatch (posted got : Word) (j : Nat) (a : Addr32) (w : Word) (hne : got ≠ w) (s : State) :
    Fails (passWord .verify j a w)
      (tarAccesses s.cfg s.sess a ++ [Access.read (Request.readAp 3) posted, Access.read (Request.readDp dpRdbuff) got]) s fun t =>
      Failed .verifyMismatch (some a) (tarSession s.cfg s.sess a) s t ∧ t.seq = { s.seq with wordIndex := j } := by
  refine Fails.ends ?_ (ends_passWord_seq .verify j a w s.seq) rfl
  unfold passWord tarAccesses tarSession
  refine fails_modifyBind (fun d => { d with }) (fails_getBind ?_)
  by_cases h : tarKnown s.cfg s.sess a
  · rw [if_pos h, if_pos h, if_neg (by rw [needsTar_eq]; exact not_not_intro h)]
    intro rest hd hr
    obtain ⟨t, e, q, f⟩ := drw_mismatch posted got a w hne { s with seq := { s.seq with wordIndex := j } } rest hd hr
    exact ⟨t, e, { q with }, { f with }⟩
  · rw [if_neg h, if_neg h, if_pos (by rw [needsTar_eq]; exact h)]
    refine (wrAp_does apTar rfl a { s with seq := { s.seq with wordIndex := j } }).fails fun _ t _ d ht =>
      fails_modifyBind (fun d => { d with }) ?_
    have hd := drw_mismatch posted got a w hne (startBurst t)
    have hs : (startBurst t).sess = { withBank s.cfg s.sess apTar with tarValid := true, burstCount := 0 } := by
      simp only [startBurst, ht.1]
    have hc : (startBurst t).cfg = s.cfg := d.cfg
    rw [hs, show bankAccesses (startBurst t).cfg { withBank s.cfg s.sess apTar with tarValid := true, burstCount := 0 } apDrw = []
      from if_pos ⟨rfl, by rw [hc]; rfl⟩] at hd
    intro rest hd' hr
    obtain ⟨u, e, q, f⟩ := hd rest hd' hr
    refine ⟨u, e, q, ?_, f.ok, ?_, f.busy, f.phase.trans d.phase⟩
    · rw [f.sess, hc, show (startBurst t).seq.phase = s.seq.phase from d.phase]
      rfl
    · rw [f.load, show (startBurst t).busy = s.busy from d.busy, show (startBurst t).load = s.load from d.load]

/-- Every word before a mismatch is read back equal: the pass stops at the mismatch, in section `base` (R176). `n` words
of the pass stand before these. -/
theorem passWords_mismatch (posted : Nat → Word) (got : Word) (base : Addr32) (w : Word) (hne : got ≠ w) (after : List Word)
    (before : List Word) : ∀ n j s, Fails (passWords .verify base j (before ++ w :: after))
      (passAccesses .verify posted s.cfg n s.sess (wordsAt base j before) ++
        (tarAccesses s.cfg (wordsSession s.cfg s.sess (wordsAt base j before)) (base + BitVec.ofNat 32 (4 * (j + before.length))) ++
        [Access.read (Request.readAp 3) (posted (n + before.length)), Access.read (Request.readDp dpRdbuff) got])) s fun t =>
      Failed .verifyMismatch (some (base + BitVec.ofNat 32 (4 * (j + before.length))))
        (tarSession s.cfg (wordsSession s.cfg s.sess (wordsAt base j before)) (base + BitVec.ofNat 32 (4 * (j + before.length)))) s t ∧
      t.seq = { s.seq with wordIndex := j + before.length } := by
  induction before with
  | nil =>
    intro n j s
    exact Fails.stop (passWord_mismatch (posted n) got j _ w hne s)
  | cons b before ih =>
    intro n j s
    have e : j + (b :: before).length = j + 1 + before.length := by simp only [List.length_cons]; omega
    have e2 : n + (b :: before).length = n + 1 + before.length := by simp only [List.length_cons]; omega
    rw [e, e2]
    simp only [wordsAt, passAccesses, List.append_assoc]
    rw [← List.append_assoc]
    refine (passWord_does .verify (posted n) j _ b s).fails fun _ t _ d ht => ?_
    have h := ih (n + 1) (j + 1) t
    rw [d.cfg, ht.1, ht.2] at h
    intro rest hd hr
    obtain ⟨u, e, q, f, g⟩ := h rest hd hr
    rw [d.cfg] at q
    refine ⟨u, e, by rw [d.cfg]; exact q, ⟨?_, f.ok, ?_, f.busy, f.phase.trans d.phase⟩, g⟩
    · rw [f.sess, d.phase]; rfl
    · rw [f.load, d.busy, d.load]

/-- The words of the sections of a pass that come before a word. -/
theorem wordsAt_length (base : Addr32) (ws : List Word) : ∀ j, (wordsAt base j ws).length = ws.length := by
  induction ws with
  | nil => exact fun _ => rfl
  | cons w ws ih => exact fun j => by simp [wordsAt, ih]

theorem passSections_mismatch (posted : Nat → Word) (got : Word) (sec : Section) (before after : List Word) (w : Word)
    (hw : sectionWords sec = before ++ w :: after) (hne : got ≠ w) (later : List Section) (earlier : List Section) :
    ∀ n k s, Fails (passSections .verify k (earlier ++ sec :: later))
      (passAccesses .verify posted s.cfg n s.sess
          (earlier.flatMap (fun sec => wordsAt sec.addr 0 (sectionWords sec)) ++ wordsAt sec.addr 0 before) ++
        (tarAccesses s.cfg (wordsSession s.cfg s.sess
            (earlier.flatMap (fun sec => wordsAt sec.addr 0 (sectionWords sec)) ++ wordsAt sec.addr 0 before))
            (sec.addr + BitVec.ofNat 32 (4 * before.length)) ++
          [Access.read (Request.readAp 3) (posted (n +
            (earlier.flatMap (fun sec => wordsAt sec.addr 0 (sectionWords sec)) ++ wordsAt sec.addr 0 before).length)),
            Access.read (Request.readDp dpRdbuff) got])) s fun t =>
      Failed .verifyMismatch (some (sec.addr + BitVec.ofNat 32 (4 * before.length)))
        (tarSession s.cfg (wordsSession s.cfg s.sess
          (earlier.flatMap (fun sec => wordsAt sec.addr 0 (sectionWords sec)) ++ wordsAt sec.addr 0 before))
          (sec.addr + BitVec.ofNat 32 (4 * before.length))) s t ∧
      t.seq = { s.seq with sectionIndex := k + earlier.length, wordIndex := before.length } := by
  induction earlier with
  | nil =>
    intro n k s
    refine fails_modifyBind (fun d => { d with }) (Fails.stop ?_)
    have h := passWords_mismatch posted got sec.addr w hne after before n 0 { s with seq := { s.seq with sectionIndex := k } }
    rw [Nat.zero_add, ← hw] at h
    have e0 : n + before.length = n + (List.flatMap (fun sec : Section => wordsAt sec.addr 0 (sectionWords sec)) [] ++
        wordsAt sec.addr 0 before).length := by rw [List.flatMap_nil, List.nil_append, wordsAt_length]
    rw [e0] at h
    intro rest hd hr
    obtain ⟨t, e, q, f, g⟩ := h rest hd hr
    exact ⟨t, e, { q with }, { f with }, g⟩
  | cons e earlier ih =>
    intro n k s
    simp only [List.flatMap_cons, List.append_assoc, passAccesses_append .verify posted s.cfg (wordsAt e.addr 0 (sectionWords e)),
      wordsSession_append s.cfg s.sess (wordsAt e.addr 0 (sectionWords e))]
    refine fails_modifyBind (fun d => { d with }) ?_
    refine (passWords_does .verify posted e.addr (sectionWords e) n 0 { s with seq := { s.seq with sectionIndex := k } }).fails
      fun _ t _ d ht => ?_
    have h := ih (n + (wordsAt e.addr 0 (sectionWords e)).length) (k + 1) t
    rw [d.cfg, ht.1, ht.2, wordsPosition_eq, Nat.add_assoc n, ← List.length_append] at h
    intro rest hd hr
    obtain ⟨u, e, q, f, g⟩ := h rest hd hr
    refine ⟨u, e, by rw [d.cfg] at q ⊢; exact q, ⟨?_, f.ok, ?_, f.busy, f.phase.trans d.phase⟩, ?_⟩
    · rw [f.sess, d.phase]
    · rw [f.load, d.busy, d.load]
    · rw [g]; simp only [List.length_cons, Nat.add_assoc, Nat.add_comm 1]

/-- A verification pass that reads the words of the earlier sections and of `before` back equal, and then `got` for `w`. -/
theorem verifyBlocks_mismatch (posted : Nat → Word) (got : Word) (sec : Section) (before after : List Word) (w : Word)
    (hw : sectionWords sec = before ++ w :: after) (hne : got ≠ w) (earlier later : List Section) (p : LoadPlan)
    (hp : planSections p = earlier ++ sec :: later) (s : State) :
    Fails (verifyBlocks p) (cswAccesses s.cfg s.sess ++
      (verifyWordAccesses posted s.cfg 0 (passSession s.cfg s.sess)
          (earlier.flatMap (fun sec => wordsAt sec.addr 0 (sectionWords sec)) ++ wordsAt sec.addr 0 before) ++
        (tarAccesses s.cfg (wordsSession s.cfg (passSession s.cfg s.sess)
            (earlier.flatMap (fun sec => wordsAt sec.addr 0 (sectionWords sec)) ++ wordsAt sec.addr 0 before))
            (sec.addr + BitVec.ofNat 32 (4 * before.length)) ++
          [Access.read (Request.readAp 3) (posted
            (earlier.flatMap (fun sec => wordsAt sec.addr 0 (sectionWords sec)) ++ wordsAt sec.addr 0 before).length),
            Access.read (Request.readDp dpRdbuff) got]))) s fun t =>
      Failed .verifyMismatch (some (sec.addr + BitVec.ofNat 32 (4 * before.length)))
        (tarSession s.cfg (wordsSession s.cfg (passSession s.cfg s.sess)
          (earlier.flatMap (fun sec => wordsAt sec.addr 0 (sectionWords sec)) ++ wordsAt sec.addr 0 before))
          (sec.addr + BitVec.ofNat 32 (4 * before.length))) (setPhase .verify s) t ∧
      t.seq = { phase := .verify, sectionIndex := earlier.length, wordIndex := before.length } := by
  refine fails_entering (Fails.stop ?_)
  refine ((ensureCsw_does (setPhase .verify s)).ends (keeps_ensureCsw_seq (setPhase .verify s).seq) rfl).fails
    fun _ t _ d ht => fails_modifyBind (fun d => { d with }) ?_
  have h := passSections_mismatch posted got sec before after w hw hne later earlier 0 0 (startPass t)
  have hs : (startPass t).sess = passSession s.cfg s.sess := by simp only [startPass, passSession, ht.1]; rfl
  have hc : (startPass t).cfg = s.cfg := d.cfg
  have hq : (startPass t).seq = (setPhase .verify s).seq := ht.2
  rw [hs, hc, passAccesses_verify, ← hp, Nat.zero_add, Nat.zero_add, hq] at h
  intro rest hd hr
  obtain ⟨u, e, q, f, g⟩ := h rest hd hr
  refine ⟨u, e, { q with }, ⟨?_, f.ok, ?_, f.busy, f.phase.trans d.phase⟩, g⟩
  · rw [f.sess, show (startPass t).seq.phase = (setPhase .verify s).seq.phase from d.phase]
  · rw [f.load, show (startPass t).busy = s.busy from d.busy, show (startPass t).load = s.load from d.load]
    rfl

/-! ## The load operation (R177) -/

/-- A step of the load operation: it ran from `s` to `t` by `wire`, and left `busy` alone. -/
structure Stage (wire : List Cycle) (as : List Access) (rest : List Bool) (s t : State) : Prop where
  ran : Ran wire (targetAfter s.cfg as s.target) rest s t
  busy : t.busy = s.busy

theorem DoesIn.stage {α : Type} {p : Phase} {m : Engine α} {as : List Access} {s : State} {post : α → State → Prop} (h : DoesIn p m as s post)
    {rest : List Bool} (hd : s.link.lastDir ≠ .target) (hr : s.targetIn = answerBits as ++ rest) :
    ∃ a t, m s = .ok a t ∧ Stage (wireCycles s.cfg as) as rest s t ∧ post a t := by
  obtain ⟨a, t, e, d, q⟩ := h rest hd hr
  exact ⟨a, t, e, ⟨{ d.toRan with }, d.busy⟩, q⟩

/-- A step leaves `seq.phase` at its own value. -/
theorem DoesIn.withPhase {α : Type} {p : Phase} {m : Engine α} {as : List Access} {s : State} {post : α → State → Prop}
    (h : DoesIn p m as s post) : DoesIn p m as s fun a t => t.seq.phase = p ∧ post a t := by
  intro rest hd hr
  obtain ⟨a, t, e, d, q⟩ := h rest hd hr
  exact ⟨a, t, e, d, d.phase, q⟩

theorem Stage.trans {w1 w2 : List Cycle} {as bs : List Access} {r1 r2 : List Bool} {s t u : State} (h1 : Stage w1 as r1 s t)
    (h2 : Stage w2 bs r2 t u) : Stage (w1 ++ w2) (as ++ bs) r2 s u := by
  have h := h1.ran.trans h2.ran
  rw [h1.ran.cfg, h1.ran.target, ← targetAfter_append] at h
  exact ⟨h, h2.busy.trans h1.busy⟩

/-- Writing `load` keeps a stage. -/
theorem Stage.setLoad {w : List Cycle} {as : List Access} {r : List Bool} {s t : State} (l : Load) (h : Stage w as r s t) :
    Stage w as r s (setLoad l t) := ⟨{ h.ran with }, h.busy⟩

/-- The verification pass of a load operation, when enabled. -/
theorem verify_stage (p : LoadPlan) (posted : Nat → Word) (s : State) (ss : Session) (hs : s.sess = ss) (rest : List Bool)
    (hd : s.link.lastDir ≠ .target)
    (hin : s.targetIn = answerBits (if s.cfg.verify then cswAccesses s.cfg ss
      ++ verifyWordAccesses posted s.cfg 0 (passSession s.cfg ss) (planWords p) else []) ++ rest) :
    ∃ t, (if s.cfg.verify = true then verifyBlocks p else pure ()) s = .ok () t ∧
      Stage (wireCycles s.cfg (if s.cfg.verify then cswAccesses s.cfg ss
        ++ verifyWordAccesses posted s.cfg 0 (passSession s.cfg ss) (planWords p) else []))
        (if s.cfg.verify then cswAccesses s.cfg ss
        ++ verifyWordAccesses posted s.cfg 0 (passSession s.cfg ss) (planWords p) else []) rest s t ∧
      t.sess = if s.cfg.verify then wordsSession s.cfg (passSession s.cfg ss) (planWords p) else ss := by
  subst hs
  by_cases hv : s.cfg.verify = true
  · simp only [hv, if_true] at hin ⊢
    obtain ⟨_, t, e, st, q⟩ := (verifyBlocks_does posted p s).stage hd hin
    exact ⟨t, e, st, q.1⟩
  · simp only [hv, Bool.false_eq_true, if_false, answerBits_nil, List.nil_append, wireCycles_nil] at hin ⊢
    subst hin
    exact ⟨s, rfl, ⟨(Did.refl hd).toRan, rfl⟩, rfl⟩

theorem runLoad_does (p : LoadPlan) (r : LoadAnswers) (s : State) (rest : List Bool) (hd : s.link.lastDir ≠ .target)
    (hg : r.Good s.cfg) (hin : s.targetIn = answerBits (loadAccesses s.cfg p r s.sess) ++ rest) :
    ∃ t, runLoad p s = .ok () t ∧
      Ran (lineResetCycles s.cfg ++ activationCycles s.cfg ++ wireCycles s.cfg (loadAccesses s.cfg p r s.sess))
        (targetAfter s.cfg (loadAccesses s.cfg p r s.sess) s.target) rest { s with trace := [] } t ∧
      t.sess = { r.ready s.cfg p s.sess with halted := false } ∧ t.res.ok = true ∧ t.load = .running ∧ t.busy = false ∧
      t.seq.phase = .resume := by
  simp only [loadAccesses, answerBits_append, List.append_assoc] at hin
  unfold runLoad
  rw [modify_bind]
  obtain ⟨s1, e1, r1, q1, -, -, b1, -⟩ := connect_does r.idcode r.powerUp r.powerUpLast (beginLoad s) _ hd hin hg.id
    hg.powerUpEarly hg.powerUpSeen hg.powerUpBound
  rw [bind_of_ok e1, modify_bind]
  have S1 : Stage _ _ _ (beginLoad s) (setLoad .connected s1) := (Stage.mk r1 b1).setLoad _
  have c1 : (setLoad .connected s1).cfg = s.cfg := S1.ran.cfg
  have q1' : (setLoad .connected s1).sess = r.connected s.sess := q1
  generalize setLoad .connected s1 = t1 at *
  have h2 := halt_does r.halt r.haltLast t1 hg.haltEarly hg.haltSeen (by rw [c1]; exact hg.haltBound)
  rw [c1, q1'] at h2
  obtain ⟨_, s2, e2, st2, q2⟩ := h2.stage S1.ran.turned (by rw [S1.ran.answers, answerBits_append, List.append_assoc])
  rw [bind_of_ok e2, modify_bind]
  have S2 := S1.trans (st2.setLoad .halted)
  have c2 : (setLoad .halted s2).cfg = s.cfg := S2.ran.cfg
  have q2' : (setLoad .halted s2).sess = r.afterHalt s.cfg s.sess := q2.1
  generalize setLoad .halted s2 = t2 at *
  have h3 := writeBlocks_does p t2
  rw [c2, q2'] at h3
  obtain ⟨_, s3, e3, st3, q3⟩ := h3.stage S2.ran.turned (by rw [S2.ran.answers, answerBits_append, List.append_assoc])
  rw [bind_of_ok e3, get_bind]
  have S3 := S2.trans st3
  have c3 : s3.cfg = s.cfg := S3.ran.cfg
  have q3' : s3.sess = r.written s.cfg p s.sess := q3.1
  obtain ⟨s4, e4, st4, q4⟩ := verify_stage p r.posted s3 _ q3' _ S3.ran.turned (by rw [S3.ran.answers, c3])
  rw [c3] at q4
  have S4 := S3.trans st4
  have c4 : s4.cfg = s.cfg := S4.ran.cfg
  have q4' : s4.sess = r.loaded s.cfg p s.sess := q4
  have jp : ∀ k : Unit → Engine Unit, (if s3.cfg.verify = true then (do let __r ← verifyBlocks p; k __r) else k ()) s3 = k () s4 := by
    intro k
    by_cases hv : s3.cfg.verify = true
    · rw [if_pos hv] at e4 ⊢
      rw [bind_of_ok e4]
    · rw [if_neg hv] at e4 ⊢
      cases e4
      rfl
  have last : ∃ t, (do
      modify (setLoad .loaded)
      setReg 13 p.sp
      setReg 15 p.entry
      resume
      modify endLoad
      modify (setOk true)) s4 = .ok () t ∧ Ran (wireCycles s.cfg (setRegAccesses s.cfg (r.loaded s.cfg p s.sess) 13 p.sp (r.sp ++ [r.spLast])
          ++ (setRegAccesses s.cfg (r.ready s.cfg p s.sess) 15 p.entry (r.pc ++ [r.pcLast])
            ++ memWriteAccesses s.cfg (r.ready s.cfg p s.sess) dhcsrAddr dhcsrResume)))
        (targetAfter s.cfg (setRegAccesses s.cfg (r.loaded s.cfg p s.sess) 13 p.sp (r.sp ++ [r.spLast])
          ++ (setRegAccesses s.cfg (r.ready s.cfg p s.sess) 15 p.entry (r.pc ++ [r.pcLast])
            ++ memWriteAccesses s.cfg (r.ready s.cfg p s.sess) dhcsrAddr dhcsrResume)) s4.target) rest s4 t ∧
        t.sess = { r.ready s.cfg p s.sess with halted := false } ∧ t.res.ok = true ∧ t.load = .running ∧ t.busy = false ∧
      t.seq.phase = .resume := by
    have hin4 : s4.targetIn = _ := S4.ran.answers
    rw [modify_bind]
    have h5 := setReg_does 13 p.sp r.sp r.spLast (setLoad .loaded s4) hg.spEarly hg.spSeen (by
      show _ < s4.cfg.regRdyPollMax; rw [c4]; exact hg.spBound)
    rw [show (setLoad .loaded s4).cfg = s.cfg from c4, show (setLoad .loaded s4).sess = _ from q4'] at h5
    obtain ⟨_, s5, e5, st5, q5⟩ := h5.stage S4.ran.turned hin4
    rw [bind_of_ok e5]
    have c5 : s5.cfg = s.cfg := st5.ran.cfg.trans c4
    have q5' : s5.sess = r.ready s.cfg p s.sess := q5.1
    have h6 := setReg_does 15 p.entry r.pc r.pcLast s5 hg.pcEarly hg.pcSeen (by rw [c5]; exact hg.pcBound)
    rw [c5, q5'] at h6
    obtain ⟨_, s6, e6, st6, q6⟩ := h6.stage st5.ran.turned st5.ran.answers
    rw [bind_of_ok e6]
    have c6 : s6.cfg = s.cfg := st6.ran.cfg.trans c5
    have q6' : s6.sess = r.ready s.cfg p s.sess := by rw [q6.1]; exact afterMem_idem _ _
    have h7 := (resume_does s6).withPhase
    rw [c6, q6'] at h7
    obtain ⟨_, s7, e7, st7, q7⟩ := h7.stage st6.ran.turned st6.ran.answers
    rw [bind_of_ok e7]
    have st := st5.trans (st6.trans st7)
    rw [c5, c6, show (setLoad .loaded s4).cfg = s.cfg from c4, ← wireCycles_append, ← wireCycles_append] at st
    have hq : afterMem s.cfg (r.ready s.cfg p s.sess) = r.ready s.cfg p s.sess := afterMem_idem _ _
    refine ⟨setOk true (endLoad s7), rfl, ?_, ?_, rfl, rfl, rfl, q7.1⟩
    · have := st.ran
      rw [show (setLoad .loaded s4).cfg = s.cfg from c4] at this
      exact { this with }
    · show s7.sess = _
      rw [q7.2.1, hq]
  obtain ⟨t, et, rt, qt⟩ := last
  refine ⟨t, (jp _).trans et, ?_, qt⟩
  have R := S4.ran.trans rt
  rw [S4.ran.target, c3, c2, c1, show (beginLoad s).cfg = s.cfg from rfl, ← targetAfter_append] at R
  simp only [loadAccesses, wireCycles_append, targetAfter_append, List.append_assoc] at R ⊢
  exact { R with }

theorem load_does (p : LoadPlan) (r : LoadAnswers) (s : State) (rest : List Bool) (hb : s.busy = false)
    (ha : planAdmitted s.cfg p = true) (hd : s.link.lastDir ≠ .target)
    (hg : r.Good s.cfg) (hin : s.targetIn = answerBits (loadAccesses s.cfg p r s.sess) ++ rest) :
    ∃ t, loadPlan p s = .ok () t ∧
      Ran (lineResetCycles s.cfg ++ activationCycles s.cfg ++ wireCycles s.cfg (loadAccesses s.cfg p r s.sess))
        (targetAfter s.cfg (loadAccesses s.cfg p r s.sess) s.target) rest { s with trace := [] } t ∧
      t.sess = { r.ready s.cfg p s.sess with halted := false } ∧ t.res.ok = true ∧ t.load = .running ∧ t.busy = false ∧
      t.seq.phase = .resume := by
  have e : loadPlan p s = runLoad p s := by
    unfold loadPlan
    rw [get_bind, bind_of_ok (t := s) (a := ()) (by rw [hb]; rfl), bind_of_ok (t := s) (a := ()) (by rw [ha]; rfl)]
  rw [e]
  exact runLoad_does p r s rest hd hg hin

end Sys2Proof.Machine
end

