-- ==== Sys2Proof/Laws/Target.lean ====
section
/-! SUPPORT. What the accesses of the word helpers and passes do to the target when every exchange is answered OK: the
words reach the addresses the engine names (R57, R175, R205, R206). -/

namespace Sys2Proof.Machine

/-- The bank and the transfer mode are what the session says, when it says so (R36, R37). -/
structure Agrees (ss : Session) (t : Target) : Prop where
  bank : ss.selValid = true → t.select = ss.selCache
  csw : ss.cswConfigured = true → csw32 t.csw = true ∧ cswInc t.csw = 0b01

/-- The target with bank 0 of the MEM-AP selected and CSW configured. -/
structure Prepared (cfg : Config) (t : Target) : Prop where
  select : t.select = selectValue cfg 0
  csw : csw32 t.csw = true ∧ cswInc t.csw = 0b01

theorem memApSelected_select (cfg : Config) (t : Target) (h : t.select = selectValue cfg 0) : memApSelected cfg t = true := by
  unfold memApSelected selectValue at *
  rw [h]
  have e1 : (cfg.apsel ++ (0 : BitVec 16) ++ (0 : BitVec 4) ++ (0 : BitVec 4)).extractLsb' 24 8 = cfg.apsel := by
    apply BitVec.eq_of_getLsbD_eq
    intro i hi
    simp only [BitVec.getLsbD_extractLsb', BitVec.getLsbD_append]
    interval_cases i <;> simp
  have e2 : (cfg.apsel ++ (0 : BitVec 16) ++ (0 : BitVec 4) ++ (0 : BitVec 4)).extractLsb' 4 4 = 0 := by
    apply BitVec.eq_of_getLsbD_eq
    intro i hi
    simp only [BitVec.getLsbD_extractLsb', BitVec.getLsbD_append]
    interval_cases i <;> simp
  simp only [Bool.and_eq_true, beq_iff_eq]
  exact ⟨e1, e2⟩

/-! ## One access -/

theorem onTarget_write (cfg : Config) (rq : Request) (t : Target) (h : rq.rnw = false) :
    (Access.write rq).onTarget cfg t = targetWrite cfg rq.apndp rq.a rq.data t := by
  simp [Access.onTarget, Access.write, h]

theorem onTarget_read (cfg : Config) (rq : Request) (d : Word) (t : Target) (h : rq.rnw = true) :
    (Access.read rq d).onTarget cfg t = targetRead cfg rq.apndp rq.a (some d) t := by
  simp [Access.onTarget, Access.read, h]

theorem onTarget_tar (cfg : Config) (a : Addr32) (t : Target) (h : t.select = selectValue cfg 0) :
    (Access.write (Request.writeAp 1 a)).onTarget cfg t = { t with tar := a } := by
  rw [onTarget_write _ _ _ rfl]
  simp [targetWrite, Request.writeAp, memApSelected_select cfg t h]

theorem onTarget_drw (cfg : Config) (w : Word) (t : Target) (h : Prepared cfg t) :
    (Access.write (Request.writeAp 3 w)).onTarget cfg t = advanceTar cfg (storeTarget t.tar w t) := by
  rw [onTarget_write _ _ _ rfl]
  simp [targetWrite, Request.writeAp, memApSelected_select cfg t h.select, writeDrw, h.csw.1]

theorem bank_accesses (cfg : Config) (ss : Session) (addr : BitVec 8) (t : Target) (h : Agrees ss t) :
    targetAfter cfg (bankAccesses cfg ss addr) t = { t with select := selectValue cfg (apBank addr) } := by
  unfold bankAccesses
  split
  · rename_i hb
    have := h.bank hb.1
    rw [hb.2] at this
    simp [← this]
  · rw [targetAfter_cons, targetAfter_nil, onTarget_write _ _ _ rfl]
    simp [targetWrite, Request.writeDp, dpSelect, dpAbort, dpCtrlStat]

/-- CSW takes a value with 32-bit size and single increment (R55, R156). -/
theorem csw_written (v old : Word) (h1 : v.extractLsb' 0 3 = 0b010) (h2 : v.extractLsb' 4 2 = 0b01) :
    csw32 (merge cswRO old v) = true ∧ cswInc (merge cswRO old v) = 0b01 := by
  have e1 : (merge cswRO old v).extractLsb' 0 3 = v.extractLsb' 0 3 := by
    apply BitVec.eq_of_getLsbD_eq
    intro i hi
    simp only [merge, cswRO, BitVec.getLsbD_extractLsb', BitVec.getLsbD_or, BitVec.getLsbD_and, BitVec.getLsbD_not]
    interval_cases i <;> simp
  have e2 : (merge cswRO old v).extractLsb' 4 2 = v.extractLsb' 4 2 := by
    apply BitVec.eq_of_getLsbD_eq
    intro i hi
    simp only [merge, cswRO, BitVec.getLsbD_extractLsb', BitVec.getLsbD_or, BitVec.getLsbD_and, BitVec.getLsbD_not]
    interval_cases i <;> simp
  exact ⟨by simp [csw32, e1, h1], by simp [cswInc, e2, h2]⟩

theorem params_csw {cfg : Config} (h : paramsValid cfg = true) :
    cfg.cswValue.extractLsb' 0 3 = 0b010 ∧ cfg.cswValue.extractLsb' 4 2 = 0b01 := by
  simp only [paramsValid, Bool.and_eq_true, beq_iff_eq] at h
  exact ⟨h.1.2, h.2⟩

/-- `t'` differs from `t` at most in SELECT, CSW and TAR. -/
def SameButMemAp (t t' : Target) : Prop := t' = { t with select := t'.select, csw := t'.csw, tar := t'.tar }

theorem csw_accesses (cfg : Config) (hp : paramsValid cfg = true) (ss : Session) (t : Target) (h : Agrees ss t) :
    SameButMemAp t (targetAfter cfg (cswAccesses cfg ss) t) ∧ Agrees (withCsw cfg ss) (targetAfter cfg (cswAccesses cfg ss) t) ∧
      (withCsw cfg ss).cswConfigured = true := by
  unfold cswAccesses withCsw
  by_cases hc : ss.cswConfigured = true
  · simp only [hc, if_true, targetAfter_nil]
    exact ⟨rfl, h, trivial⟩
  · rw [if_neg hc, if_neg hc, targetAfter_append, bank_accesses _ _ _ _ h, targetAfter_cons, targetAfter_nil, onTarget_write _ _ _ rfl]
    have hm : memApSelected cfg { t with select := selectValue cfg (apBank apCsw) } = true := memApSelected_select _ _ rfl
    simp only [targetWrite, Request.writeAp, hm, if_true]
    exact ⟨rfl, ⟨fun _ => rfl, fun _ => csw_written _ _ (params_csw hp).1 (params_csw hp).2⟩, trivial⟩

theorem selectValue_apBank_tar (cfg : Config) : selectValue cfg (apBank apTar) = selectValue cfg 0 := rfl
theorem selectValue_apBank_drw (cfg : Config) : selectValue cfg (apBank apDrw) = selectValue cfg 0 := rfl

/-- The accesses of `MEM_WR32 a, v` store `v` at `a` (R157). -/
theorem memWrite_accesses (cfg : Config) (hp : paramsValid cfg = true) (ss : Session) (a : Addr32) (v : Word) (t : Target)
    (h : Agrees ss t) : ∃ t0, SameButMemAp t t0 ∧ Prepared cfg t0 ∧ t0.tar = a ∧
      targetAfter cfg (memWriteAccesses cfg ss a v) t = advanceTar cfg (storeTarget a v t0) := by
  obtain ⟨h1, h2, h3⟩ := csw_accesses cfg hp ss t h
  unfold memWriteAccesses
  rw [targetAfter_append, targetAfter_append]
  generalize targetAfter cfg (cswAccesses cfg ss) t = t1 at *
  rw [bank_accesses _ _ _ _ h2, selectValue_apBank_tar, targetAfter_cons, onTarget_tar _ _ _ rfl, targetAfter_cons, targetAfter_nil]
  have hpr : Prepared cfg { t1 with select := selectValue cfg 0, tar := a } := ⟨rfl, h2.csw h3⟩
  refine ⟨{ t1 with select := selectValue cfg 0, tar := a }, ?_, hpr, rfl, onTarget_drw cfg v _ hpr⟩
  unfold SameButMemAp at *
  rw [h1]

theorem agrees_afterMem (cfg : Config) (ss : Session) (t : Target) (h : Prepared cfg t) : Agrees (afterMem cfg ss) t :=
  ⟨fun _ => h.select, fun _ => h.csw⟩

theorem prepared_of {cfg : Config} {t u : Target} (h : Prepared cfg t) (hs : u.select = t.select) (hc : u.csw = t.csw) : Prepared cfg u :=
  ⟨hs.trans h.select, by rw [hc]; exact h.csw⟩

theorem advanceTar_frame (cfg : Config) (t : Target) :
    advanceTar cfg t = { t with tar := (advanceTar cfg t).tar, draws := (advanceTar cfg t).draws } := by
  unfold advanceTar
  split
  · rfl
  · split <;> rfl

theorem storeTarget_frame (a : Addr32) (v : Word) (t : Target) :
    (storeTarget a v t).select = t.select ∧ (storeTarget a v t).csw = t.csw ∧ (storeTarget a v t).tar = t.tar := by
  unfold storeTarget
  split
  · simp
  · split
    · unfold writeDcrsr
      simp only [freeDhcsrStatus_select, freeDhcsrStatus_csw, freeDhcsrStatus_tar]
      split
      · split <;> exact ⟨rfl, rfl, rfl⟩
      · exact ⟨rfl, rfl, rfl⟩
    · split <;> exact ⟨rfl, rfl, rfl⟩

theorem prepared_drw (cfg : Config) (w : Word) (t : Target) (h : Prepared cfg t) (a : Addr32) :
    Prepared cfg (advanceTar cfg (storeTarget a w t)) := by
  have f := storeTarget_frame a w t
  rw [advanceTar_frame]
  exact prepared_of h f.1 f.2.1

/-! ## Reads of DHCSR (R59; log 27) -/

/-- From `t` to `u` the engine has read DHCSR as `v`: the status bits are those of `v`, and the core is as before. -/
structure SeesDhcsr (v : Word) (t u : Target) : Prop where
  status : u.dhcsrStatus = v &&& dhcsrStatusBits
  dhcsr : u.dhcsr = t.dhcsr
  regs : u.coreRegs = t.coreRegs

theorem SeesDhcsr.halted {v : Word} {t u : Target} (h : SeesDhcsr v t u) : coreHalted u = v.getLsbD 17 := by
  unfold coreHalted
  rw [h.status]
  simp [dhcsrStatusBits]

/-- The accesses of `MEM_RD32` at DHCSR show its status bits. -/
theorem readDhcsr_accesses (cfg : Config) (hp : paramsValid cfg = true) (ss : Session) (posted v : Word) (t : Target) (h : Agrees ss t) :
    SeesDhcsr v t (targetAfter cfg (memReadAccesses cfg ss dhcsrAddr posted v) t) ∧
      Prepared cfg (targetAfter cfg (memReadAccesses cfg ss dhcsrAddr posted v) t) := by
  obtain ⟨h1, h2, h3⟩ := csw_accesses cfg hp ss t h
  unfold memReadAccesses
  rw [targetAfter_append, targetAfter_append]
  have hd : (targetAfter cfg (cswAccesses cfg ss) t).dhcsr = t.dhcsr ∧ (targetAfter cfg (cswAccesses cfg ss) t).coreRegs = t.coreRegs := by
    rw [SameButMemAp] at h1; rw [h1]; exact ⟨rfl, rfl⟩
  generalize targetAfter cfg (cswAccesses cfg ss) t = t1 at *
  rw [bank_accesses _ _ _ _ h2, selectValue_apBank_tar, targetAfter_cons, onTarget_tar _ _ _ rfl]
  generalize he : ({ t1 with select := selectValue cfg 0, tar := dhcsrAddr } : Target) = t2
  have hpr : Prepared cfg t2 := by rw [← he]; exact ⟨rfl, h2.csw h3⟩
  have htar : t2.tar = dhcsrAddr := by rw [← he]
  have hd2 : t2.dhcsr = t.dhcsr ∧ t2.coreRegs = t.coreRegs := by rw [← he]; exact hd
  have hr : reachesDrw cfg 3 t2 = true := by simp [reachesDrw, memApSelected_select cfg t2 hpr.select]
  have e : targetAfter cfg [Access.read (Request.readAp 3) posted, Access.read (Request.readDp dpRdbuff) v] t2 =
      showRdbuff v (advanceTar cfg (postRead cfg 3 t2)) := by
    rw [targetAfter_cons, targetAfter_cons, targetAfter_nil, onTarget_read _ _ _ _ rfl, onTarget_read _ _ _ _ rfl]
    show targetReadDp dpRdbuff v (targetReadAp cfg 3 t2) = _
    unfold targetReadAp
    rw [if_pos hr]
    rfl
  have hposted : (postRead cfg 3 t2).dhcsrPosted = true := by
    show (reachesDrw cfg 3 t2 && csw32 t2.csw && t2.tar == dhcsrAddr) = true
    rw [hr, hpr.csw.1, htar]
    decide
  rw [e, advanceTar_frame]
  refine ⟨⟨?_, hd2.1, hd2.2⟩, hpr.select, hpr.csw⟩
  rw [showRdbuff_dhcsrStatus]
  exact if_pos hposted

/-- A poll of DHCSR shows the status bits of its last read. -/
theorem pollDhcsr_accesses (cfg : Config) (hp : paramsValid cfg = true) (last : Word × Word) (early : List (Word × Word)) :
    ∀ ss t, Agrees ss t →
    SeesDhcsr last.2 t (targetAfter cfg (pollAccesses cfg ss (early ++ [last])) t) ∧
      Prepared cfg (targetAfter cfg (pollAccesses cfg ss (early ++ [last])) t) := by
  induction early with
  | nil =>
    intro ss t h
    have k := readDhcsr_accesses cfg hp ss last.1 last.2 t h
    simpa [pollAccesses] using k
  | cons r early ih =>
    intro ss t h
    obtain ⟨k, kp⟩ := readDhcsr_accesses cfg hp ss r.1 r.2 t h
    obtain ⟨g, gp⟩ := ih _ _ (agrees_afterMem cfg ss _ kp)
    rw [List.cons_append, pollAccesses, targetAfter_append]
    exact ⟨⟨g.status, g.dhcsr.trans k.dhcsr, g.regs.trans k.regs⟩, gp⟩

/-- The accesses of a `HALT` whose poll ends with `last` (R168). -/
theorem halt_accesses (cfg : Config) (hp : paramsValid cfg = true) (ss : Session) (early : List (Word × Word)) (last : Word × Word)
    (t : Target) (h : Agrees ss t) :
    let u := targetAfter cfg (memWriteAccesses cfg ss dhcsrAddr dhcsrHalt ++ pollAccesses cfg (afterMem cfg ss) (early ++ [last])) t
    u.dhcsrStatus = last.2 &&& dhcsrStatusBits ∧ u.dhcsr = 0x00000003 ∧ u.coreRegs = t.coreRegs ∧ Prepared cfg u := by
  obtain ⟨t0, h1, h2, _, h4⟩ := memWrite_accesses cfg hp ss dhcsrAddr dhcsrHalt t h
  simp only []
  rw [targetAfter_append, h4]
  obtain ⟨k, kp⟩ := pollDhcsr_accesses cfg hp last early (afterMem cfg ss) _
    (agrees_afterMem cfg ss _ (prepared_drw cfg dhcsrHalt t0 h2 dhcsrAddr))
  refine ⟨k.status, k.dhcsr.trans ?_, k.regs.trans ?_, kp⟩
  · rw [advanceTar_frame]
    show (storeTarget dhcsrAddr dhcsrHalt t0).dhcsr = _
    unfold storeTarget
    rw [if_pos rfl, writeDhcsr_dhcsr, if_pos (by decide)]
    decide
  · rw [advanceTar_frame]
    show (storeTarget dhcsrAddr dhcsrHalt t0).coreRegs = _
    unfold storeTarget
    rw [if_pos rfl, writeDhcsr_coreRegs, h1]

/-! ## The words of a write pass (R174, R175, R210) -/

/-- What a word access leaves alone: the core's debug registers and registers. -/
structure SameCore (t u : Target) : Prop where
  dhcsr : u.dhcsr = t.dhcsr
  dcrdr : u.dcrdr = t.dcrdr
  regs : u.coreRegs = t.coreRegs
  status : u.dhcsrStatus = t.dhcsrStatus

theorem SameCore.trans {t u v : Target} (h : SameCore t u) (k : SameCore u v) : SameCore t v :=
  ⟨k.dhcsr.trans h.dhcsr, k.dcrdr.trans h.dcrdr, k.regs.trans h.regs, k.status.trans h.status⟩

theorem SameButMemAp.core {t u : Target} (h : SameButMemAp t u) : SameCore t u ∧ u.mem = t.mem := by
  unfold SameButMemAp at h
  rw [h]
  exact ⟨⟨rfl, rfl, rfl, rfl⟩, rfl⟩

theorem storeTarget_mem (a : Addr32) (v : Word) (t : Target) (h : a ≠ dhcsrAddr ∧ a ≠ dcrsrAddr ∧ a ≠ dcrdrAddr) :
    storeTarget a v t = { t with mem := writeWord t.mem a v } := by
  unfold storeTarget
  rw [if_neg h.1, if_neg h.2.1, if_neg h.2.2]

/-- TAR holds the next address unless the last access crossed a block. -/
def TarTrue (cfg : Config) (ss : Session) (t : Target) : Prop :=
  ss.tarValid = true → (ss.nextAddr - 4).toNat / cfg.tarWrapBytes = ((ss.nextAddr - 4).toNat + 4) / cfg.tarWrapBytes →
    t.tar = ss.nextAddr

/-- In the middle of a pass. -/
structure InPass (cfg : Config) (ss : Session) (t : Target) : Prop where
  agrees : Agrees ss t
  configured : ss.cswConfigured = true
  tar : TarTrue cfg ss t

/-- The accesses before the DRW access of a word put TAR at its address. -/
theorem tar_accesses (cfg : Config) (ss : Session) (a : Addr32) (t : Target) (h : InPass cfg ss t)
    (hb : tarKnown cfg ss a → (a - 4).toNat / cfg.tarWrapBytes = ((a - 4).toNat + 4) / cfg.tarWrapBytes) :
    ∃ t0, SameButMemAp t t0 ∧ Prepared cfg t0 ∧ t0.tar = a ∧ targetAfter cfg (tarAccesses cfg ss a) t = t0 := by
  have hcsw := h.agrees.csw h.configured
  unfold tarAccesses
  split
  · rename_i hk
    rw [bank_accesses _ _ _ _ h.agrees, selectValue_apBank_drw]
    refine ⟨{ t with select := selectValue cfg 0 }, rfl, ⟨rfl, hcsw⟩, ?_, rfl⟩
    have := h.tar hk.1 (by rw [hk.2.1]; exact hb hk)
    rw [hk.2.1] at this
    exact this
  · rw [targetAfter_append, bank_accesses _ _ _ _ h.agrees, selectValue_apBank_tar, targetAfter_cons, onTarget_tar _ _ _ rfl, targetAfter_nil]
    exact ⟨{ t with select := selectValue cfg 0, tar := a }, rfl, ⟨rfl, hcsw⟩, rfl, rfl⟩

theorem wordSession_fields (cfg : Config) (ss : Session) (a : Addr32) :
    (wordSession cfg ss a).selCache = selectValue cfg 0 ∧ (wordSession cfg ss a).nextAddr = a + 4 ∧
      (wordSession cfg ss a).cswConfigured = ss.cswConfigured := by
  unfold wordSession tarSession
  split <;> exact ⟨rfl, rfl, rfl⟩

/-- One word of a write pass. -/
theorem word_accesses (cfg : Config) (ss : Session) (a : Addr32) (w : Word) (t : Target) (h : InPass cfg ss t)
    (hb : tarKnown cfg ss a → (a - 4).toNat / cfg.tarWrapBytes = ((a - 4).toNat + 4) / cfg.tarWrapBytes)
    (ha : a ≠ dhcsrAddr ∧ a ≠ dcrsrAddr ∧ a ≠ dcrdrAddr) :
    InPass cfg (wordSession cfg ss a) (targetAfter cfg (tarAccesses cfg ss a ++ [Access.write (Request.writeAp 3 w)]) t) ∧
      (targetAfter cfg (tarAccesses cfg ss a ++ [Access.write (Request.writeAp 3 w)]) t).mem = writeWord t.mem a w ∧
      SameCore t (targetAfter cfg (tarAccesses cfg ss a ++ [Access.write (Request.writeAp 3 w)]) t) := by
  obtain ⟨t0, h1, h2, h3, h4⟩ := tar_accesses cfg ss a t h hb
  obtain ⟨c1, m1⟩ := h1.core
  obtain ⟨f1, f2, f3⟩ := wordSession_fields cfg ss a
  rw [targetAfter_append, h4, targetAfter_cons, targetAfter_nil, onTarget_drw cfg w t0 h2, h3, storeTarget_mem a w t0 ha, m1]
  refine ⟨⟨⟨fun _ => ?_, fun _ => ?_⟩, f3.trans h.configured, fun _ hblock => ?_⟩, ?_, ?_⟩
  · rw [advanceTar_frame, f1]; exact h2.select
  · rw [advanceTar_frame]; exact h2.csw
  · rw [f2] at hblock ⊢
    have e : a + 4 - 4 = a := by simp
    rw [e] at hblock
    unfold advanceTar
    have hcw := h2.csw
    simp only [hcw.1, hcw.2, h3]
    rw [if_neg (by decide), if_pos ⟨trivial, trivial, hblock⟩]
  · rw [advanceTar_frame]
  · rw [advanceTar_frame]
    exact c1.trans ⟨rfl, rfl, rfl, rfl⟩

theorem words_accesses (cfg : Config) (ws : List (Addr32 × Word)) : ∀ ss t, InPass cfg ss t → burstsStay cfg ss ws →
    (∀ w ∈ ws, w.1 ≠ dhcsrAddr ∧ w.1 ≠ dcrsrAddr ∧ w.1 ≠ dcrdrAddr) →
    InPass cfg (wordsSession cfg ss ws) (targetAfter cfg (writeWordAccesses cfg ss ws) t) ∧
      (targetAfter cfg (writeWordAccesses cfg ss ws) t).mem = storeWords t.mem ws ∧
      SameCore t (targetAfter cfg (writeWordAccesses cfg ss ws) t) := by
  induction ws with
  | nil => exact fun ss t h _ _ => ⟨h, rfl, ⟨rfl, rfl, rfl, rfl⟩⟩
  | cons x ws ih =>
    obtain ⟨a, w⟩ := x
    intro ss t h hb hm
    obtain ⟨h1, h2, h3⟩ := word_accesses cfg ss a w t h hb.1 (hm (a, w) (by simp))
    have e : targetAfter cfg (writeWordAccesses cfg ss ((a, w) :: ws)) t =
        targetAfter cfg (writeWordAccesses cfg (wordSession cfg ss a) ws)
          (targetAfter cfg (tarAccesses cfg ss a ++ [Access.write (Request.writeAp 3 w)]) t) := by
      rw [writeWordAccesses, List.append_cons, targetAfter_append]
    obtain ⟨k1, k2, k3⟩ := ih _ _ h1 hb.2 fun v hv => hm v (by simp [hv])
    rw [e]
    exact ⟨k1, by rw [k2, h2]; rfl, h3.trans k3⟩

/-- Whether bursts stay in their blocks does not depend on the session a pass begins in. -/
theorem burstsStay_congr (cfg : Config) (ws : List (Addr32 × Word)) : ∀ s1 s2 : Session, s1.tarValid = s2.tarValid →
    (s1.tarValid = true → s1.nextAddr = s2.nextAddr) → s1.burstCount = s2.burstCount →
    burstsStay cfg s1 ws → burstsStay cfg s2 ws := by
  induction ws with
  | nil => exact fun _ _ _ _ _ _ => trivial
  | cons x ws ih =>
    obtain ⟨a, w⟩ := x
    intro s1 s2 h1 h2 h3 hb
    have hk : tarKnown cfg s1 a ↔ tarKnown cfg s2 a := by
      constructor
      · rintro ⟨k1, k2, k3⟩; exact ⟨h1 ▸ k1, (h2 k1) ▸ k2, h3 ▸ k3⟩
      · rintro ⟨k1, k2, k3⟩
        have k1' : s1.tarValid = true := h1.trans k1
        exact ⟨k1', (h2 k1').trans k2, by rw [h3]; exact k3⟩
    refine ⟨fun k => hb.1 (hk.2 k), ih (wordSession cfg s1 a) (wordSession cfg s2 a) ?_ ?_ ?_ hb.2⟩
    · unfold wordSession tarSession
      by_cases k : tarKnown cfg s1 a
      · rw [if_pos k, if_pos (hk.1 k)]; exact h1
      · rw [if_neg k, if_neg (fun x => k (hk.2 x))]
    · intro _
      unfold wordSession tarSession
      rfl
    · unfold wordSession tarSession
      by_cases k : tarKnown cfg s1 a
      · rw [if_pos k, if_pos (hk.1 k)]; exact congrArg (· + 1) h3
      · rw [if_neg k, if_neg (fun x => k (hk.2 x))]

theorem planStays_from (cfg : Config) (p : LoadPlan) (ss : Session) (h : planStays cfg p) :
    burstsStay cfg (passSession cfg ss) (planWords p) :=
  burstsStay_congr cfg _ (passSession cfg Session.reset) (passSession cfg ss) rfl (fun h => by cases h) rfl h

/-- The accesses of a write pass store the plan's words (R175). -/
theorem writePass_accesses (cfg : Config) (hp : paramsValid cfg = true) (ss : Session) (p : LoadPlan) (t : Target) (h : Agrees ss t)
    (hs : planStays cfg p) (hm : planInMemory p) :
    (targetAfter cfg (cswAccesses cfg ss ++ writeWordAccesses cfg (passSession cfg ss) (planWords p)) t).mem =
        storeWords t.mem (planWords p) ∧
      SameCore t (targetAfter cfg (cswAccesses cfg ss ++ writeWordAccesses cfg (passSession cfg ss) (planWords p)) t) ∧
      Agrees (wordsSession cfg (passSession cfg ss) (planWords p))
        (targetAfter cfg (cswAccesses cfg ss ++ writeWordAccesses cfg (passSession cfg ss) (planWords p)) t) := by
  obtain ⟨h1, h2, h3⟩ := csw_accesses cfg hp ss t h
  obtain ⟨c1, m1⟩ := h1.core
  rw [targetAfter_append]
  obtain ⟨k1, k2, k3⟩ := words_accesses cfg (planWords p) (passSession cfg ss) (targetAfter cfg (cswAccesses cfg ss) t)
    ⟨⟨h2.bank, h2.csw⟩, h3, fun h => by cases h⟩ (planStays_from cfg p ss hs) hm
  exact ⟨by rw [k2, m1], c1.trans k3, k1.agrees⟩

end Sys2Proof.Machine
end

