-- ==== Sys2Proof/Laws/Outcome.lean ====
section
/-! SUPPORT. What holds after a register access whatever the target answers on the way: `P` until the transaction is acknowledged
OK, `R` from then on (42_register_access.md R147 to R150). -/

namespace Sys2Proof.Machine

/-- One exchange of `rq` from `P`: acknowledged OK it gives `R`, otherwise `P` again. -/
structure Achieves (X : Prop) (P R : State → Prop) (rq : Request) : Prop where
  emitted : rq.isDpWriteC = false
  turned : ∀ s, P s → s.link.lastDir = .target → X
  done : ∀ s, P s → s.link.lastDir ≠ .target → (exchange rq s).dp.outcome = .ok → R (exchange rq s)
  undone : ∀ s, P s → s.link.lastDir ≠ .target → (exchange rq s).dp.outcome ≠ .ok → P (exchange rq s)

/-- After a series: `R` when its outcome is OK, else `P`. -/
def Tried (P R : State → Prop) (s : State) : Prop :=
  (s.dp.outcome = .ok → R s) ∧ (s.dp.outcome ≠ .ok → P s)

section
variable {X : Prop} {Q : Request → Prop} {P R E : State → Prop} {rq : Request}

theorem ends_attempts (h : AccessStable X Q P E) (ha : Achieves X P R rq) (n : Nat) :
    Ends X (fun s => P s ∧ s.dp.waitCount + n ≤ s.cfg.waitRetryMax) (attempts rq n) (fun _ => Tried P R) E := by
  have hx : ∀ m, Ends X (fun s => P s ∧ s.dp.waitCount + m ≤ s.cfg.waitRetryMax) (xfer rq)
      (fun _ s => Tried P R s ∧ s.dp.waitCount + m ≤ s.cfg.waitRetryMax) E := by
    intro m s hs
    by_cases hd : s.link.lastDir = .target
    · simp only [xfer, ha.emitted, Bool.not_false, refuseUnless_true, pure_bind, bind_of_error (checkDir_fault hd)]
      exact ha.turned s hs.1 hd
    · simp only [xfer, ha.emitted, Bool.not_false, refuseUnless_true, pure_bind, bind_of_ok (checkDir_ok hd), modify_run]
      have e := exchange_frame rq s
      rw [e.1, e.2.2.2.2.2.2.2.2.1]
      exact ⟨⟨ha.done s hs.1 hd, ha.undone s hs.1 hd⟩, hs.2⟩
  induction n with
  | zero => exact (hx 0).weaken (fun _ hs => hs) (fun _ _ hs => hs.1) (fun _ hs => hs)
  | succ n ih =>
    refine (hx (n + 1)).bind fun _ => ?_
    intro s hs
    rw [get_bind]
    by_cases hw : s.dp.outcome = .wait
    · rw [if_pos hw, modify_bind]
      refine ih _ ⟨h.waitCount s _ (by omega) (hs.1.2 (by rw [hw]; decide)), ?_⟩
      show s.dp.waitCount + 1 + n ≤ s.cfg.waitRetryMax
      omega
    · rw [if_neg hw]
      exact hs.1

theorem ends_series (h : AccessStable X Q P E) (ha : Achieves X P R rq) : Ends X P (series rq) (fun _ => Tried P R) E := by
  intro s hs
  rw [series, modify_bind, get_bind]
  exact ends_attempts h ha _ _ ⟨h.waitCount s 0 (Nat.zero_le _) hs, Nat.le_of_eq (Nat.zero_add _)⟩

theorem ends_transact (h : AccessStable X Q P E) (ha : Achieves X P R rq) : Ends X P (transact rq) (fun _ => R) E := by
  refine Ends.bind (Q := fun _ => P) (fun s hs => h.retried s false hs) fun _ => (ends_series h ha).bind fun _ => ?_
  intro s hs
  rw [get_bind]
  have stop : ∀ c a, s.dp.outcome ≠ .ok → E (failEntry c a s) := fun c a ho => h.failed s c a (hs.2 ho)
  have again : Ends X P (recover >>= fun _ => retryOnce rq) (fun _ => R) E := by
    refine (keeps_recover h).bind fun _ => Ends.bind (keeps_modify fun s hs => h.retried s true hs) fun _ =>
      (ends_series h ha).bind fun _ => ?_
    intro s hs
    rw [get_bind]
    cases ho : s.dp.outcome with
    | ok => exact hs.1 ho
    | wait => exact h.failed s _ _ (hs.2 (by rw [ho]; decide))
    | fault => exact h.failed s _ _ (hs.2 (by rw [ho]; decide))
    | proterr => exact h.failed s _ _ (hs.2 (by rw [ho]; decide))
  cases ho : s.dp.outcome with
  | ok => exact hs.1 ho
  | wait => exact stop _ _ (by rw [ho]; decide)
  | fault => exact again s (hs.2 (by rw [ho]; decide))
  | proterr => exact again s (hs.2 (by rw [ho]; decide))

end

end Sys2Proof.Machine
end

