-- ==== Sys2Proof/Laws/Reach.lean ====
section
/-! SUPPORT. What the commands over the MEM-AP do to the target, whatever it answers on the way: which stores reach it, and at
which address (42_register_access.md R150 to R158, 44_memory_loader.md R174 and R175; log 7). -/

namespace Sys2Proof.Machine

/-- A property of the parameters, the session and the target. -/
abbrev View := Config → Session → Target → Prop

def Holds (G : View) (s : State) : Prop := G s.cfg s.sess s.target

/-- `G` survives a recovery (R149), and a failure turns it into `F`. -/
structure Robust (G F : View) : Prop where
  target : ∀ c ss t x d, G c ss t → G c ss { t with ctrlStat := x, draws := d }
  session : ∀ c ss t a b, G c ss t → G c { ss with lastCtrlStat := a, stickyCleared := b } t
  failed : ∀ c ss t f, G c ss t → F c { ss with failInfo := f } t

/-- The two transactions of a recovery. -/
def OfRecovery (rq : Request) : Prop :=
  rq = Request.readDp dpCtrlStat ∨ rq = Request.writeDp dpAbort abortClear

theorem targetFault_eq (t : Target) : ∃ x d, targetFault t = { t with ctrlStat := x, draws := d } := ⟨_, _, rfl⟩

theorem targetRead_ctrlStat (c : Config) (d : Option Word) (t : Target) :
    ∃ x, targetRead c false dpCtrlStat d t = { t with ctrlStat := x } := by
  cases d with
  | none => exact ⟨t.ctrlStat, rfl⟩
  | some d =>
    simp only [targetRead, targetReadDp, dpCtrlStat]
    by_cases h : dpBankZero t = true
    · exact ⟨d, by simp [h]⟩
    · exact ⟨t.ctrlStat, by simp [h]⟩

section
variable {G F R : View}

theorem Robust.ctrlStat (h : Robust G F) {c : Config} {ss : Session} {t : Target} (x : Word) (hg : G c ss t) :
    G c ss { t with ctrlStat := x } := h.target c ss t x t.draws hg

theorem Robust.faulted (h : Robust G F) {c : Config} {ss : Session} {t : Target} (hg : G c ss t) : G c ss (targetFault t) := by
  obtain ⟨x, d, e⟩ := targetFault_eq t
  rw [e]
  exact h.target c ss t x d hg

/-- An exchange that is not acknowledged OK does not disturb a robust property. -/
theorem Robust.failDone (h : Robust G F) {s : State} (rq : Request) (ack inp : List Bool) (n : Nat) (hs : Holds G s) :
    Holds G (failDone rq ack inp n s) := by
  show G s.cfg s.sess (if _ then _ else _)
  split
  · exact h.faulted hs
  · exact hs

theorem Robust.access (h : Robust G F) : AccessStable True OfRecovery (Holds G) (Holds F) where
  exchange := by
    intro rq hq
    refine keeps_xfer (.inr trivial) (fun _ _ _ => trivial) fun s hs _ => ?_
    rcases hq with rfl | rfl
    · obtain ⟨_, d, p, inp, n, e⟩ | ⟨hr, _⟩ | ⟨ack, inp, n, _, _, e⟩ := exchange_cases (Request.readDp dpCtrlStat) s
      · rw [e]
        show G s.cfg s.sess (targetRead s.cfg false dpCtrlStat _ s.target)
        obtain ⟨x, hx⟩ := targetRead_ctrlStat s.cfg (if p = parity32 d then some d else none) s.target
        rw [hx]
        exact h.ctrlStat x hs
      · cases hr
      · rw [e]; exact h.failDone _ _ _ _ hs
    · obtain ⟨hr, _⟩ | ⟨_, inp, n, e⟩ | ⟨ack, inp, n, _, _, e⟩ := exchange_cases (Request.writeDp dpAbort abortClear) s
      · cases hr
      · rw [e]; exact h.ctrlStat _ hs
      · rw [e]; exact h.failDone _ _ _ _ hs
  recoverReads := .inl rfl
  recoverWrites := .inr rfl
  waitCount := fun _ _ _ hs => hs
  retried := fun _ _ hs => hs
  inspected := fun s v hs => h.session _ _ _ (some v) s.sess.stickyCleared hs
  sticky := fun s hs => h.session _ _ _ s.sess.lastCtrlStat true hs
  result := fun _ _ _ hs => hs
  failed := fun _ _ _ hs => h.failed _ _ _ _ hs

/-- A write: once acknowledged OK it has its effect, before that none. -/
theorem ends_write (h : Robust G F) (rq : Request) (hw : rq.rnw = false) (hc : rq.isDpWriteC = false)
    (hR : ∀ c ss t, G c ss t → R c ss (targetWrite c rq.apndp rq.a rq.data t)) :
    Ends True (Holds G) (transact rq) (fun _ => Holds R) (Holds F) := by
  refine ends_transact h.access ⟨hc, fun _ _ _ => trivial, fun s hs _ ho => ?_, fun s hs _ ho => ?_⟩
  · obtain ⟨hr, _⟩ | ⟨_, inp, n, e⟩ | ⟨ack, inp, n, _, hne, e⟩ := exchange_cases rq s
    · rw [hw] at hr; cases hr
    · rw [e]; exact hR _ _ _ hs
    · rw [e] at ho; exact absurd ho hne
  · obtain ⟨hr, _⟩ | ⟨_, inp, n, e⟩ | ⟨ack, inp, n, _, hne, e⟩ := exchange_cases rq s
    · rw [hw] at hr; cases hr
    · rw [e] at ho; exact absurd rfl ho
    · rw [e]; exact h.failDone _ _ _ _ hs

/-- A read keeps what its effect on the target keeps. -/
theorem ends_read (h : Robust G F) (rq : Request) (hw : rq.rnw = true)
    (hR : ∀ c ss t d, G c ss t → G c ss (targetRead c rq.apndp rq.a d t)) : Keeps True (Holds G) (Holds F) (transact rq) := by
  have key : ∀ s, Holds G s → Holds G (exchange rq s) := by
    intro s hs
    obtain ⟨_, d, p, inp, n, e⟩ | ⟨hr, _⟩ | ⟨ack, inp, n, _, hne, e⟩ := exchange_cases rq s
    · rw [e]; exact hR _ _ _ _ hs
    · rw [hw] at hr; cases hr
    · rw [e]; exact h.failDone _ _ _ _ hs
  exact ends_transact h.access ⟨by simp [Request.isDpWriteC, hw], fun _ _ _ => trivial, fun s hs _ _ => key s hs, fun s hs _ _ => key s hs⟩

/-- The bank check (R150): SELECT is left alone when the cache holds the value, and written otherwise. -/
theorem ends_bankCheck (h : Robust G F) (addr : BitVec 8)
    (hcached : ∀ c ss t, G c ss t → ss.selValid = true → ss.selCache = selectValue c (apBank addr) → R c ss t)
    (hwritten : ∀ c ss t, G c ss t → ¬(ss.selValid = true ∧ ss.selCache = selectValue c (apBank addr)) →
      R c { ss with selCache := selectValue c (apBank addr), selValid := true } { t with select := selectValue c (apBank addr) }) :
    Ends True (Holds G) (bankCheck addr) (fun _ => Holds R) (Holds F) := by
  intro s hs
  unfold bankCheck
  rw [get_bind]
  by_cases hb : (!s.sess.selValid || s.sess.selCache != selectValue s.cfg (apBank addr)) = true
  · rw [if_pos hb]
    let want := selectValue s.cfg (apBank addr)
    have hw : Robust (fun c ss t => c = s.cfg ∧ G c ss t ∧ ¬(ss.selValid = true ∧ ss.selCache = selectValue c (apBank addr))) F :=
      ⟨fun c ss t x d g => ⟨g.1, h.target c ss t x d g.2.1, g.2.2⟩, fun c ss t a b g => ⟨g.1, h.session c ss t a b g.2.1, g.2.2⟩,
        fun c ss t f g => h.failed c ss t f g.2.1⟩
    have step1 := ends_write (R := fun c ss t => R c { ss with selCache := want, selValid := true } t) hw
      (Request.writeDp dpSelect want) rfl rfl (by
        rintro c ss t ⟨rfl, g, hn⟩
        exact hwritten _ ss t g hn)
    refine (step1.bind (R := fun _ => Holds R) fun _ => ends_modify (f := cacheSelect want) (fun u hu => hu)) s ⟨rfl, hs, ?_⟩
    rintro ⟨h1, h2⟩
    simp [h1, h2] at hb
  · rw [if_neg hb]
    simp only [Bool.or_eq_true, Bool.not_eq_true', bne_iff_ne, not_or, Bool.not_eq_false, not_not] at hb
    exact hcached _ _ _ hs hb.1 hb.2

theorem ends_wrAp {B : View} (h : Robust G F) (hb : Robust B F) (addr : BitVec 8) (v : Word)
    (hcached : ∀ c ss t, G c ss t → ss.selValid = true → ss.selCache = selectValue c (apBank addr) → B c ss t)
    (hwritten : ∀ c ss t, G c ss t → ¬(ss.selValid = true ∧ ss.selCache = selectValue c (apBank addr)) →
      B c { ss with selCache := selectValue c (apBank addr), selValid := true } { t with select := selectValue c (apBank addr) })
    (hR : ∀ c ss t, B c ss t → R c ss (targetWrite c true (regOffset addr) v t)) :
    Ends True (Holds G) (wrAp addr v) (fun _ => Holds R) (Holds F) := by
  unfold wrAp
  refine Ends.bind (Q := fun _ => Holds G) (keeps_refuseUnless (.inr trivial)) fun _ => ?_
  refine (ends_bankCheck h addr hcached hwritten).bind fun _ => ?_
  refine (ends_write hb (Request.writeAp (regOffset addr) v) rfl rfl hR).bind fun _ => ?_
  exact ends_modify fun _ hs => hs

theorem ends_rdAp {B : View} (h : Robust G F) (hb : Robust B F) (addr : BitVec 8)
    (hcached : ∀ c ss t, G c ss t → ss.selValid = true → ss.selCache = selectValue c (apBank addr) → B c ss t)
    (hwritten : ∀ c ss t, G c ss t → ¬(ss.selValid = true ∧ ss.selCache = selectValue c (apBank addr)) →
      B c { ss with selCache := selectValue c (apBank addr), selValid := true } { t with select := selectValue c (apBank addr) })
    (hR : ∀ c ss t, B c ss t → B c ss (targetReadAp c (regOffset addr) t))
    (hD : ∀ c ss t d, B c ss t → B c ss (showRdbuff d t)) :
    Ends True (Holds G) (rdAp addr) (fun _ => Holds B) (Holds F) := by
  unfold rdAp
  refine Ends.bind (Q := fun _ => Holds G) (keeps_refuseUnless (.inr trivial)) fun _ => ?_
  refine (ends_bankCheck h addr hcached hwritten).bind fun _ => ?_
  refine Ends.bind (Q := fun _ => Holds B) (ends_read hb (Request.readAp (regOffset addr)) rfl fun c ss t d => hR c ss t) fun _ => ?_
  refine Ends.bind (Q := fun _ => Holds B) (ends_read hb (Request.readDp dpRdbuff) rfl ?_) fun _ => ?_
  · intro c ss t d g
    cases d with
    | none => exact g
    | some d => exact hD c ss t d g
  · exact Ends.bind (Q := fun _ => Holds B) (ends_modify fun _ hs => hs) fun _ => ends_modify fun _ hs => hs

end

/-! ## The target but for the registers of the debug port and the MEM-AP -/

/-- The target's identification, debug registers, core registers and memory. -/
structure Core (t u : Target) : Prop where
  idcode : u.idcode = t.idcode
  dhcsr : u.dhcsr = t.dhcsr
  dcrsr : u.dcrsr = t.dcrsr
  dcrdr : u.dcrdr = t.dcrdr
  regs : u.coreRegs = t.coreRegs
  mem : u.mem = t.mem

theorem Core.refl (t : Target) : Core t t := ⟨rfl, rfl, rfl, rfl, rfl, rfl⟩
theorem Core.trans {t u v : Target} (h : Core t u) (k : Core u v) : Core t v :=
  ⟨k.idcode.trans h.idcode, k.dhcsr.trans h.dhcsr, k.dcrsr.trans h.dcrsr, k.dcrdr.trans h.dcrdr, k.regs.trans h.regs, k.mem.trans h.mem⟩

theorem core_advanceTar (cfg : Config) (t : Target) : Core t (advanceTar cfg t) := by
  rw [advanceTar_frame]
  exact ⟨rfl, rfl, rfl, rfl, rfl, rfl⟩

theorem coreHalted_advanceTar (cfg : Config) (t : Target) : coreHalted (advanceTar cfg t) = coreHalted t := by
  rw [advanceTar_frame]
  rfl

theorem core_readAp (cfg : Config) (a : BitVec 2) (t : Target) : Core t (targetReadAp cfg a t) := by
  have h : Core t (postRead cfg a t) := ⟨rfl, rfl, rfl, rfl, rfl, rfl⟩
  unfold targetReadAp
  split
  · exact h.trans (core_advanceTar cfg _)
  · exact h

theorem core_freeDhcsrStatus (m : Word) (t : Target) : Core t (freeDhcsrStatus m t) := ⟨rfl, rfl, rfl, rfl, rfl, rfl⟩

/-- Every write to the MEM-AP but one of DRW leaves the core alone. -/
theorem core_writeAp (cfg : Config) (a : BitVec 2) (v : Word) (t : Target) (h : a ≠ 3) : Core t (targetWrite cfg true a v t) := by
  unfold targetWrite
  simp only [if_true]
  split
  · split
    · exact ⟨rfl, rfl, rfl, rfl, rfl, rfl⟩
    · split
      · exact ⟨rfl, rfl, rfl, rfl, rfl, rfl⟩
      · exact Core.refl t
  · exact Core.refl t

/-- A DRW write stores at TAR when the MEM-AP is selected. -/
theorem core_writeDrw (cfg : Config) (v : Word) (t : Target) :
    (memApSelected cfg t = false ∧ targetWrite cfg true 3 v t = t) ∨
    (memApSelected cfg t = true ∧ csw32 t.csw = true ∧ targetWrite cfg true 3 v t = advanceTar cfg (storeTarget t.tar v t)) ∨
    (memApSelected cfg t = true ∧ csw32 t.csw = false ∧ ∃ w d, targetWrite cfg true 3 v t =
      advanceTar cfg (storeTarget t.tar w { t with draws := d })) := by
  unfold targetWrite
  simp only [if_true]
  by_cases hm : memApSelected cfg t = true
  · by_cases hc : csw32 t.csw = true
    · exact .inr (.inl ⟨hm, hc, by simp [hm, writeDrw, hc]⟩)
    · exact .inr (.inr ⟨hm, by simpa using hc, Config.targetWord t.draws, t.draws + 1, by simp [hm, writeDrw, hc, drawWord]⟩)
  · exact .inl ⟨by simpa using hm, by simp [hm]⟩

/-! ## A word access -/

/-- The parameters are `c0`, the core is as in `u`, in the case `K` the session's caches are true, and in the case `H` the core
is in Debug state as in `u`. -/
structure At (K H : Prop) (c0 : Config) (u : Target) (c : Config) (ss : Session) (t : Target) : Prop where
  cfg : c = c0
  core : Core u t
  agrees : K → Agrees ss t
  halt : H → coreHalted t = coreHalted u

/-- `t` is `u` with its core and Debug state. -/
def SameDebug (u t : Target) : Prop := Core u t ∧ coreHalted t = coreHalted u

theorem debug_advanceTar (cfg : Config) (t : Target) : SameDebug t (advanceTar cfg t) :=
  ⟨core_advanceTar cfg t, coreHalted_advanceTar cfg t⟩

/-- One store at `a` has reached the target, of `v` in the case `K`; outside that case perhaps none. -/
def Stored (K : Prop) (a : Addr32) (v : Word) (u t : Target) : Prop :=
  ∃ t1, SameDebug u t1 ∧ ((∃ w, (K → w = v) ∧ SameDebug (storeTarget a w t1) t) ∨ (¬K ∧ SameDebug t1 t))

structure AtStored (K : Prop) (c0 : Config) (u : Target) (a : Addr32) (v : Word) (c : Config) (ss : Session) (t : Target) : Prop where
  cfg : c = c0
  stored : Stored K a v u t
  agrees : K → Agrees ss t

theorem Agrees.ctrl {ss : Session} {t : Target} (h : Agrees ss t) (x : Word) (d : Nat) : Agrees ss { t with ctrlStat := x, draws := d } :=
  ⟨h.bank, h.csw⟩

section
variable {K H : Prop} {c0 : Config} {u : Target} {a : Addr32} {v : Word}

theorem robust_at : Robust (At K H c0 u) (At K H c0 u) where
  target := fun _ _ _ x d h => ⟨h.cfg, h.core.trans ⟨rfl, rfl, rfl, rfl, rfl, rfl⟩, fun k => (h.agrees k).ctrl x d, h.halt⟩
  session := fun _ _ _ _ _ h => ⟨h.cfg, h.core, fun k => ⟨(h.agrees k).bank, (h.agrees k).csw⟩, h.halt⟩
  failed := fun _ _ _ _ h => ⟨h.cfg, h.core, fun k => ⟨(h.agrees k).bank, (h.agrees k).csw⟩, h.halt⟩

/-- `At` with the bank check of a MEM-AP register of bank 0 done. -/
structure AtBank (K H : Prop) (c0 : Config) (u : Target) (P : Session → Prop) (c : Config) (ss : Session) (t : Target) : Prop
    extends At K H c0 u c ss t where
  valid : ss.selValid = true
  cache : ss.selCache = selectValue c 0
  extra : P ss

theorem robust_atBank {P : Session → Prop} (hs : ∀ ss x b, P ss → P { ss with lastCtrlStat := x, stickyCleared := b }) :
    Robust (AtBank K H c0 u P) (At K H c0 u) where
  target := fun _ _ _ x d h => ⟨robust_at.target _ _ _ x d h.toAt, h.valid, h.cache, h.extra⟩
  session := fun _ _ _ x b h => ⟨robust_at.session _ _ _ x b h.toAt, h.valid, h.cache, hs _ _ _ h.extra⟩
  failed := fun _ _ _ f h => robust_at.failed _ _ _ f h.toAt

/-- The same with TAR written: whenever the MEM-AP is selected, TAR holds `a`. -/
structure AtTar (K H : Prop) (c0 : Config) (u : Target) (P : Session → Prop) (a : Addr32) (c : Config) (ss : Session) (t : Target) : Prop
    extends AtBank K H c0 u P c ss t where
  tar : memApSelected c t = true → t.tar = a

theorem robust_atTar {P : Session → Prop} (hs : ∀ ss x b, P ss → P { ss with lastCtrlStat := x, stickyCleared := b }) :
    Robust (AtTar K H c0 u P a) (At K H c0 u) where
  target := fun _ _ _ x d h => ⟨(robust_atBank hs).target _ _ _ x d h.toAtBank, h.tar⟩
  session := fun _ _ _ x b h => ⟨(robust_atBank hs).session _ _ _ x b h.toAtBank, h.tar⟩
  failed := fun _ _ _ f h => robust_at.failed _ _ _ f h.toAt

/-- `At` with a property of the session that the bank check and a recovery leave alone. -/
structure AtWith (K H : Prop) (c0 : Config) (u : Target) (P : Session → Prop) (c : Config) (ss : Session) (t : Target) : Prop
    extends At K H c0 u c ss t where
  extra : P ss

theorem robust_atWith {P : Session → Prop} (hs : ∀ ss x b, P ss → P { ss with lastCtrlStat := x, stickyCleared := b }) :
    Robust (AtWith K H c0 u P) (At K H c0 u) where
  target := fun _ _ _ x d h => ⟨robust_at.target _ _ _ x d h.toAt, h.extra⟩
  session := fun _ _ _ x b h => ⟨robust_at.session _ _ _ x b h.toAt, hs _ _ _ h.extra⟩
  failed := fun _ _ _ f h => robust_at.failed _ _ _ f h.toAt

/-- `P` does not read what the bank check and a recovery write. -/
structure Apart (P : Session → Prop) : Prop where
  recovery : ∀ ss x b, P ss → P { ss with lastCtrlStat := x, stickyCleared := b }
  bank : ∀ ss x, P ss → P { ss with selCache := x, selValid := true }

theorem at_written {c : Config} {ss : Session} {t : Target} (h : At K H c0 u c ss t) (x : Word) :
    At K H c0 u c { ss with selCache := x, selValid := true } { t with select := x } :=
  ⟨h.cfg, h.core.trans ⟨rfl, rfl, rfl, rfl, rfl, rfl⟩, fun k => ⟨fun _ => rfl, fun hc => (h.agrees k).csw hc⟩, h.halt⟩

/-- The bank check before an access to bank 0. -/
theorem atBank_cached {P : Session → Prop} {addr : BitVec 8} (ha : apBank addr = 0) (c : Config) (ss : Session) (t : Target)
    (h : AtWith K H c0 u P c ss t) (h1 : ss.selValid = true) (h2 : ss.selCache = selectValue c (apBank addr)) : AtBank K H c0 u P c ss t :=
  ⟨h.toAt, h1, by rw [h2, ha], h.extra⟩

theorem atBank_written {P : Session → Prop} (hp : Apart P) {addr : BitVec 8} (ha : apBank addr = 0) (c : Config) (ss : Session) (t : Target)
    (h : AtWith K H c0 u P c ss t) (_ : ¬(ss.selValid = true ∧ ss.selCache = selectValue c (apBank addr))) :
    AtBank K H c0 u P c { ss with selCache := selectValue c (apBank addr), selValid := true }
      { t with select := selectValue c (apBank addr) } :=
  ⟨at_written h.toAt _, rfl, by show selectValue c (apBank addr) = selectValue c 0; rw [ha], hp.bank _ _ h.extra⟩

/-- A CSW write with 32-bit size and single increment keeps the session's word about CSW true. -/
theorem at_csw (hp : K → paramsValid c0 = true) {P : Session → Prop} {c : Config} {ss : Session} {t : Target} (h : AtBank K H c0 u P c ss t) :
    AtBank K H c0 u P c ss (targetWrite c true (regOffset apCsw) c0.cswValue t) ∧
      (K → csw32 (targetWrite c true (regOffset apCsw) c0.cswValue t).csw = true ∧
        cswInc (targetWrite c true (regOffset apCsw) c0.cswValue t).csw = 0b01) := by
  have hoff : regOffset apCsw = 0 := by decide
  have hw : targetWrite c true (regOffset apCsw) c0.cswValue t =
      if memApSelected c t = true then { t with csw := merge cswRO t.csw c0.cswValue } else t := by
    rw [hoff]; simp [targetWrite]
  have hgood : ∀ k : K, csw32 (merge cswRO t.csw c0.cswValue) = true ∧ cswInc (merge cswRO t.csw c0.cswValue) = 0b01 :=
    fun k => csw_written _ _ (params_csw (hp k)).1 (params_csw (hp k)).2
  have hsel : K → memApSelected c t = true := fun k => by
    apply memApSelected_select
    rw [(h.agrees k).bank h.valid, h.cache]
  rw [hw]
  by_cases hm : memApSelected c t = true
  · rw [if_pos hm]
    exact ⟨⟨⟨h.cfg, h.core.trans ⟨rfl, rfl, rfl, rfl, rfl, rfl⟩, fun k => ⟨(h.agrees k).bank, fun _ => hgood k⟩, h.halt⟩, h.valid, h.cache, h.extra⟩, hgood⟩
  · rw [if_neg hm]
    exact ⟨h, fun k => absurd (hsel k) hm⟩

/-- `ENSURE_CSW` (R156). -/
theorem ends_ensureCsw (hp : K → paramsValid c0 = true) {P P' : Session → Prop} (hP : Apart P)
    (hconf : ∀ ss, P ss → P' { ss with cswConfigured := true }) (hsame : ∀ ss, P ss → ss.cswConfigured = true → P' ss) :
    Ends True (Holds (AtWith K H c0 u P)) ensureCsw (fun _ => Holds (AtWith K H c0 u P')) (Holds (At K H c0 u)) := by
  intro s hs
  unfold ensureCsw
  rw [get_bind]
  by_cases hc : s.sess.cswConfigured = true
  · simp only [hc, Bool.not_true, Bool.false_eq_true, if_false]
    exact ⟨hs.toAt, hsame _ hs.extra hc⟩
  · have hc' : s.sess.cswConfigured = false := by simpa using hc
    simp only [hc', Bool.not_false, if_true]
    have hcfg : s.cfg = c0 := hs.cfg
    rw [hcfg]
    refine (ends_wrAp (B := AtBank K H c0 u P) (R := fun c ss t => AtBank K H c0 u P c ss t ∧ (K → csw32 t.csw = true ∧ cswInc t.csw = 0b01))
      (robust_atWith hP.recovery) (robust_atBank hP.recovery) apCsw c0.cswValue (fun c ss t => atBank_cached rfl c ss t)
      (fun c ss t => atBank_written hP rfl c ss t) (fun c ss t g => at_csw hp g)).bind (fun _ => ?_) s hs
    exact ends_modify fun u hu => ⟨⟨hu.1.cfg, hu.1.core, fun k => ⟨(hu.1.agrees k).bank, fun _ => hu.2 k⟩, hu.1.halt⟩, hconf _ hu.1.extra⟩

/-- The TAR write of a word access. -/
theorem ends_wrTar {P : Session → Prop} (hP : Apart P) :
    Ends True (Holds (AtWith K H c0 u P)) (wrAp apTar a) (fun _ => Holds (AtTar K H c0 u P a)) (Holds (At K H c0 u)) := by
  refine ends_wrAp (B := AtBank K H c0 u P) (robust_atWith hP.recovery) (robust_atBank hP.recovery) apTar a
    (fun c ss t => atBank_cached rfl c ss t) (fun c ss t => atBank_written hP rfl c ss t) fun c ss t g => ?_
  have hw : targetWrite c true (regOffset apTar) a t = if memApSelected c t = true then { t with tar := a } else t := by
    rw [show regOffset apTar = 1 from by decide]; simp [targetWrite]
  rw [hw]
  by_cases hm : memApSelected c t = true
  · rw [if_pos hm]
    exact ⟨⟨⟨g.cfg, g.core.trans ⟨rfl, rfl, rfl, rfl, rfl, rfl⟩, fun k => ⟨(g.agrees k).bank, (g.agrees k).csw⟩, g.halt⟩, g.valid, g.cache, g.extra⟩, fun _ => rfl⟩
  · rw [if_neg hm]
    exact ⟨g, fun h => absurd h hm⟩

/-- After the DRW write of a word access. -/
structure AtStored' (K : Prop) (c0 : Config) (u : Target) (P : Session → Prop) (a : Addr32) (v : Word) (c : Config) (ss : Session) (t : Target) : Prop
    extends AtStored K c0 u a v c ss t where
  valid : ss.selValid = true
  cache : ss.selCache = selectValue c 0
  extra : P ss
  tar : K → a.toNat / c.tarWrapBytes = (a.toNat + 4) / c.tarWrapBytes → t.tar = a + 4

theorem at_drw {P : Session → Prop} (hconf : ∀ ss, P ss → ss.cswConfigured = true) {c : Config} {ss : Session} {t : Target}
    (g : AtTar K True c0 u P a c ss t) : AtStored' K c0 u P a v c ss (targetWrite c true (regOffset apDrw) v t) := by
  rw [show regOffset apDrw = 3 from by decide]
  have hc := fun k => (g.agrees k).csw (hconf _ g.extra)
  have hsel : K → memApSelected c t = true := fun k => by
    apply memApSelected_select
    rw [(g.agrees k).bank g.valid, g.cache]
  have keep : ∀ t1, t1.select = t.select → t1.csw = t.csw → K → Agrees ss t1 := fun t1 h1 h2 k =>
    ⟨fun hv => h1.trans ((g.agrees k).bank hv), fun hv => by rw [h2]; exact (g.agrees k).csw hv⟩
  rcases core_writeDrw c v t with ⟨h1, h2⟩ | ⟨h1, h2, h3⟩ | ⟨h1, h2, w, d, h3⟩
  · have hk : ¬K := fun k => by rw [hsel k] at h1; cases h1
    rw [h2]
    exact ⟨⟨g.cfg, ⟨t, ⟨g.core, g.halt trivial⟩, .inr ⟨hk, Core.refl t, rfl⟩⟩, fun k => absurd k hk⟩, g.valid, g.cache, g.extra, fun k => absurd k hk⟩
  · rw [h3, g.tar h1]
    have f := storeTarget_frame a v t
    have fa := advanceTar_frame c (storeTarget a v t)
    refine ⟨⟨g.cfg, ⟨t, ⟨g.core, g.halt trivial⟩, .inl ⟨v, fun _ => rfl, debug_advanceTar c _⟩⟩, ?_⟩, g.valid, g.cache, g.extra, fun k hb => ?_⟩
    · exact keep _ (by rw [fa]; exact f.1) (by rw [fa]; exact f.2.1)
    · unfold advanceTar
      rw [f.2.1, f.2.2, (hc k).1, (hc k).2, g.tar h1]
      rw [if_neg (by decide), if_pos ⟨rfl, rfl, hb⟩]
  · have hk : ¬K := fun k => by rw [(hc k).1] at h2; cases h2
    rw [h3, g.tar h1]
    exact ⟨⟨g.cfg, ⟨{ t with tar := a, draws := d }, ⟨g.core.trans ⟨rfl, rfl, rfl, rfl, rfl, rfl⟩, g.halt trivial⟩,
      .inl ⟨w, fun k => absurd k hk, debug_advanceTar c _⟩⟩,
      fun k => absurd k hk⟩, g.valid, g.cache, g.extra, fun k => absurd k hk⟩

/-- The DRW write of a word access. -/
theorem ends_wrDrw {P : Session → Prop} (hP : Apart P) (hconf : ∀ ss, P ss → ss.cswConfigured = true) :
    Ends True (Holds (AtTar K True c0 u P a)) (wrAp apDrw v) (fun _ => Holds (AtStored' K c0 u P a v)) (Holds (At K True c0 u)) :=
  ends_wrAp (B := AtTar K True c0 u P a) (robust_atTar hP.recovery) (robust_atTar hP.recovery) apDrw v (fun _ _ _ g _ _ => g)
    (fun _ _ _ g hn => absurd ⟨g.valid, g.cache⟩ hn) fun _ _ _ g => at_drw hconf g

theorem apart_configured {P : Session → Prop} (hP : Apart P) : Apart fun ss => P ss ∧ ss.cswConfigured = true :=
  ⟨fun ss x b h => ⟨hP.recovery ss x b h.1, h.2⟩, fun ss x h => ⟨hP.bank ss x h.1, h.2⟩⟩

/-- `MEM_WR32 a, v` (R157): one store at `a`. -/
theorem ends_memWr32 (hp : K → paramsValid c0 = true) :
    Ends True (Holds (At K True c0 u)) (memWr32 a v) (fun _ => Holds (AtStored K c0 u a v)) (Holds (At K True c0 u)) := by
  unfold memWr32
  have hT : Apart fun _ => True := ⟨fun _ _ _ h => h, fun _ _ h => h⟩
  have hP : Apart fun ss : Session => True ∧ ss.cswConfigured = true := apart_configured hT
  refine Ends.bind (Q := fun _ => Holds (AtWith K True c0 u fun _ => True))
    (Ends.weaken (keeps_refuseUnless (P := Holds (At K True c0 u)) (.inr trivial)) (fun _ h => h) (fun _ _ h => ⟨h, trivial⟩) (fun _ h => h)) fun _ => ?_
  refine (ends_ensureCsw (P' := fun ss => True ∧ ss.cswConfigured = true) hp hT (fun _ h => ⟨h, rfl⟩) (fun _ h hc => ⟨h, hc⟩)).bind fun _ => ?_
  refine (ends_wrTar hP).bind fun _ => (ends_wrDrw hP fun _ h => h.2).bind fun _ => ?_
  exact ends_modify fun s h => ⟨h.cfg, h.stored, fun k => ⟨(h.agrees k).bank, (h.agrees k).csw⟩⟩

/-- The DRW read of a word access stores nothing. -/
theorem at_readAp {P : Session → Prop} (c : Config) (ss : Session) (t : Target) (b : BitVec 2) (g : AtBank K False c0 u P c ss t) :
    AtBank K False c0 u P c ss (targetReadAp c b t) := by
  refine ⟨⟨g.cfg, g.core.trans (core_readAp c _ t), fun k => ?_, False.elim⟩, g.valid, g.cache, g.extra⟩
  have e : (targetReadAp c b t).select = t.select ∧ (targetReadAp c b t).csw = t.csw := by
    unfold targetReadAp
    split
    · rw [advanceTar_frame]; exact ⟨rfl, rfl⟩
    · exact ⟨rfl, rfl⟩
  exact ⟨fun hv => e.1.trans ((g.agrees k).bank hv), fun hv => by rw [e.2]; exact (g.agrees k).csw hv⟩

theorem ends_rdDrw {P : Session → Prop} (hP : Apart P) :
    Ends True (Holds (AtWith K False c0 u P)) (rdAp apDrw) (fun _ => Holds (AtBank K False c0 u P)) (Holds (At K False c0 u)) :=
  ends_rdAp (robust_atWith hP.recovery) (robust_atBank hP.recovery) apDrw (fun c ss t => atBank_cached rfl c ss t)
    (fun c ss t => atBank_written hP rfl c ss t) (fun c ss t g => at_readAp c ss t _ g) fun _ _ _ _ g =>
    ⟨⟨g.cfg, g.core.trans ⟨rfl, rfl, rfl, rfl, rfl, rfl⟩, fun k => ⟨(g.agrees k).bank, (g.agrees k).csw⟩, False.elim⟩,
      g.valid, g.cache, g.extra⟩

theorem apart_true : Apart fun _ => True := ⟨fun _ _ _ h => h, fun _ _ h => h⟩

theorem AtBank.with {P : Session → Prop} {c : Config} {ss : Session} {t : Target} (h : AtBank K H c0 u P c ss t) : AtWith K H c0 u P c ss t :=
  ⟨h.toAt, h.extra⟩

/-- `MEM_RD32 a` (R158) stores nothing. -/
theorem keeps_memRd32_at (hp : K → paramsValid c0 = true) : Keeps True (Holds (At K False c0 u)) (Holds (At K False c0 u)) (memRd32 a) := by
  unfold memRd32
  refine Ends.bind (Q := fun _ => Holds (AtWith K False c0 u fun _ => True))
    (Ends.weaken (keeps_refuseUnless (P := Holds (At K False c0 u)) (.inr trivial)) (fun _ h => h) (fun _ _ h => ⟨h, trivial⟩) (fun _ h => h)) fun _ => ?_
  refine (ends_ensureCsw (P' := fun _ => True) hp apart_true (fun _ h => h) (fun _ h _ => h)).bind fun _ => ?_
  refine ((ends_wrTar apart_true).weaken (fun _ h => h) (fun _ _ h => h.toAtBank.with) (fun _ h => h)).bind fun _ => ?_
  refine (ends_rdDrw apart_true).bind fun _ => ?_
  refine Ends.bind (Q := fun _ => Holds (AtBank K False c0 u fun _ => True)) (ends_modify fun _ h => h) fun _ => ?_
  exact ends_modify fun s h => ⟨h.cfg, h.core, fun k => ⟨(h.agrees k).bank, (h.agrees k).csw⟩, False.elim⟩

end

/-! ## Sequences of memory accesses -/

/-- The parameters are `c0`, the session's caches are true in the case `K`, and the target is as `W` says. -/
structure Exactly (K : Prop) (c0 : Config) (W : Target → Prop) (c : Config) (ss : Session) (t : Target) : Prop where
  cfg : c = c0
  agrees : K → Agrees ss t
  target : W t

/-- `W` reads only the core. -/
def CoreOnly (W : Target → Prop) : Prop := ∀ u t, W u → Core u t → W t

section
variable {K H : Prop} {c0 : Config} {a : Addr32} {v : Word} {W W' F : Target → Prop}

theorem pointwise {α : Type} {m : Engine α} {Q : α → State → Prop} {E : State → Prop}
    (h : ∀ u, W u → Ends True (Holds (At K H c0 u)) m Q E) : Ends True (Holds (Exactly K c0 W)) m Q E :=
  fun s hs => h s.target hs.target s ⟨hs.cfg, Core.refl _, hs.agrees, fun _ => rfl⟩

theorem ends_memWr32_of (hp : K → paramsValid c0 = true) (hW : ∀ u t, W u → Stored K a v u t → W' t)
    (hF : ∀ u t, W u → Core u t → F t) :
    Ends True (Holds (Exactly K c0 W)) (memWr32 a v) (fun _ => Holds (Exactly K c0 W')) (Holds (Exactly K c0 F)) :=
  pointwise (H := True) fun u hu => (ends_memWr32 hp).weaken (fun _ h => h) (fun _ _ h => ⟨h.cfg, h.agrees, hW u _ hu h.stored⟩)
    (fun _ h => ⟨h.cfg, h.agrees, hF u _ hu h.core⟩)

theorem keeps_memRd32_of (hp : K → paramsValid c0 = true) (hW : CoreOnly W) :
    Keeps True (Holds (Exactly K c0 W)) (Holds (Exactly K c0 W)) (memRd32 a) :=
  pointwise (H := False) fun u hu => (keeps_memRd32_at hp).weaken (fun _ h => h) (fun _ _ h => ⟨h.cfg, h.agrees, hW u _ hu h.core⟩)
    (fun _ h => ⟨h.cfg, h.agrees, hW u _ hu h.core⟩)

theorem keeps_pollDhcsr_of (hp : K → paramsValid c0 = true) (hW : CoreOnly W) (mask : Word) (n : Nat) :
    Keeps True (Holds (Exactly K c0 W)) (Holds (Exactly K c0 W)) (poll (memRd32 dhcsrAddr) mask n) :=
  keeps_poll (keeps_memRd32_of hp hW) (fun _ _ h => h) mask n

theorem Exactly.fail {c : Config} {ss : Session} {t : Target} (h : Exactly K c0 W c ss t) (f : Option FailRecord) :
    Exactly K c0 W c { ss with failInfo := f } t := ⟨h.cfg, fun k => ⟨(h.agrees k).bank, (h.agrees k).csw⟩, h.target⟩

theorem Exactly.halted {c : Config} {ss : Session} {t : Target} (h : Exactly K c0 W c ss t) (b : Bool) :
    Exactly K c0 W c { ss with halted := b } t := ⟨h.cfg, fun k => ⟨(h.agrees k).bank, (h.agrees k).csw⟩, h.target⟩

/-- `HALT` (R168): one store at DHCSR. -/
theorem ends_halt_of (hp : K → paramsValid c0 = true) (hc : CoreOnly W')
    (hW : ∀ u t, W u → Stored K dhcsrAddr dhcsrHalt u t → W' t) (hF : ∀ t, W t ∨ W' t → F t) (hcW : CoreOnly W) :
    Ends True (Holds (Exactly K c0 W)) halt (fun _ => Holds (Exactly K c0 W')) (Holds (Exactly K c0 F)) := by
  have up : ∀ s, Holds (Exactly K c0 W') s → Holds (Exactly K c0 F) s := fun s h => ⟨h.cfg, h.agrees, hF _ (.inr h.target)⟩
  unfold halt
  refine Ends.bind (Q := fun _ => Holds (Exactly K c0 W)) (ends_modify fun _ h => h) fun _ => ?_
  refine (ends_memWr32_of (F := F) hp hW fun u t hu k => hF _ (.inl (hcW u t hu k))).bind fun _ => ?_
  intro s hs
  rw [get_bind]
  refine (((keeps_pollDhcsr_of hp hc sHalt s.cfg.haltPollMax).weaken (fun _ h => h) (fun _ _ h => h) up).bind fun r => ?_) s hs
  have last : Ends True (Holds (Exactly K c0 W')) (do modify (setHalted true); modify (setOk true))
      (fun _ => Holds (Exactly K c0 W')) (Holds (Exactly K c0 F)) :=
    Ends.bind (Q := fun _ => Holds (Exactly K c0 W')) (ends_modify fun _ h => h.halted true) fun _ => ends_modify fun _ h => h
  rcases r with ⟨ok, v⟩
  cases ok
  · intro s hs
    exact (up s hs).fail _
  · exact last

/-- `RESUME` (R170): one store at DHCSR. -/
theorem ends_resume_of (hp : K → paramsValid c0 = true) (hW : ∀ u t, W u → Stored K dhcsrAddr dhcsrResume u t → W' t)
    (hF : ∀ t, W t → F t) (hcW : CoreOnly W) :
    Ends True (Holds (Exactly K c0 W)) resume (fun _ => Holds (Exactly K c0 W')) (Holds (Exactly K c0 F)) := by
  unfold resume
  refine Ends.bind (Q := fun _ => Holds (Exactly K c0 W)) (ends_modify fun _ h => h) fun _ => ?_
  refine (ends_memWr32_of (F := F) hp hW fun u t hu k => hF _ (hcW u t hu k)).bind fun _ => ?_
  exact Ends.bind (Q := fun _ => Holds (Exactly K c0 W')) (ends_modify fun _ h => h.halted false) fun _ => ends_modify fun _ h => h

theorem keeps_awaitRegRdy_of (hp : K → paramsValid c0 = true) (hc : CoreOnly W) :
    Keeps True (Holds (Exactly K c0 W)) (Holds (Exactly K c0 W)) awaitRegRdy := by
  unfold awaitRegRdy
  intro s hs
  rw [get_bind]
  refine ((keeps_pollDhcsr_of hp hc sRegRdy s.cfg.regRdyPollMax).bind fun r => ?_) s hs
  rcases r with ⟨ok, v⟩
  cases ok
  · intro s hs
    exact hs.fail _
  · exact keeps_pure ()

/-- `SET_REG r, v` (R169): a store at DCRSR and a store at DCRDR, in the order of the parameter. -/
theorem ends_setReg_of (hp : K → paramsValid c0 = true) (r : BitVec 5) {W1 : Target → Prop}
    (hc1 : c0.setRegOrder = .selectThenData → CoreOnly W1) (hc' : CoreOnly W')
    (h1 : c0.setRegOrder = .selectThenData → (∀ u t, W u → Stored K dcrsrAddr (dcrsrValue r) u t → W1 t) ∧
      ∀ u t, W1 u → Stored K dcrdrAddr v u t → W' t)
    (h2 : c0.setRegOrder = .dataThenSelect → (∀ u t, W u → Stored K dcrdrAddr v u t → W1 t) ∧
      ∀ u t, W1 u → Stored K dcrsrAddr (dcrsrValue r) u t → W' t)
    (hF : ∀ u t, W u ∨ W1 u ∨ W' u → Core u t → F t) :
    Ends True (Holds (Exactly K c0 W)) (setReg r v) (fun _ => Holds (Exactly K c0 W')) (Holds (Exactly K c0 F)) := by
  unfold setReg
  refine Ends.bind (Q := fun _ => Holds (Exactly K c0 W)) (ends_modify fun _ h => h) fun _ => ?_
  intro s hs
  rw [get_bind]
  have up1 : ∀ s, Holds (Exactly K c0 W1) s → Holds (Exactly K c0 F) s := fun s h => ⟨h.cfg, h.agrees, hF _ _ (.inr (.inl h.target)) (Core.refl _)⟩
  have up2 : ∀ s, Holds (Exactly K c0 W') s → Holds (Exactly K c0 F) s := fun s h => ⟨h.cfg, h.agrees, hF _ _ (.inr (.inr h.target)) (Core.refl _)⟩
  have hcfg : s.cfg = c0 := hs.cfg
  rw [hcfg]
  cases ho : c0.setRegOrder with
  | selectThenData =>
    obtain ⟨k1, k2⟩ := h1 ho
    refine ((ends_memWr32_of (F := F) hp k1 fun u t hu k => hF _ _ (.inl hu) k).bind fun _ => ?_) s hs
    refine ((keeps_awaitRegRdy_of hp (hc1 ho)).weaken (fun _ h => h) (fun _ _ h => h) up1).bind fun _ => ?_
    refine (ends_memWr32_of (F := F) hp k2 fun u t hu k => hF _ _ (.inr (.inl hu)) k).bind fun _ => ?_
    exact ends_modify fun _ h => h
  | dataThenSelect =>
    obtain ⟨k1, k2⟩ := h2 ho
    refine ((ends_memWr32_of (F := F) hp k1 fun u t hu k => hF _ _ (.inl hu) k).bind fun _ => ?_) s hs
    refine (ends_memWr32_of (F := F) hp k2 fun u t hu k => hF _ _ (.inr (.inl hu)) k).bind fun _ => ?_
    refine ((keeps_awaitRegRdy_of hp hc').weaken (fun _ h => h) (fun _ _ h => h) up2).bind fun _ => ?_
    exact ends_modify fun _ h => h

end

/-! ## What one store does -/

/-- Freeing other status bits than S_HALT leaves Debug state alone. -/
theorem coreHalted_freeRegRdy (t : Target) : coreHalted (freeDhcsrStatus sRegRdy t) = coreHalted t := by
  show (merge sRegRdy (Config.targetWord t.draws) t.dhcsrStatus).getLsbD 17 = t.dhcsrStatus.getLsbD 17
  simp [merge, sRegRdy]

/-- A DCRSR write with REGWnR = 1 (R208): in Debug state the register selected takes DCRDR, otherwise no register changes. -/
theorem writeDcrsr_write (v : Word) (t : Target) (h : v.getLsbD 16 = true) : writeDcrsr v t =
    { t with
      dcrsr := v
      coreRegs := if coreHalted t then t.coreRegs.set (v.extractLsb' 0 5).toNat t.dcrdr else t.coreRegs } := by
  show (if coreHalted t = true then _ else _) = _
  by_cases hh : coreHalted t = true
  · simp only [hh, if_true, h]
  · rw [if_neg hh, if_neg hh]

/-- A store away from DHCSR, and at DCRSR one that writes a register, leaves Debug state alone (R59). -/
theorem coreHalted_storeTarget {a : Addr32} {v : Word} (ha : a ≠ dhcsrAddr) (h : a = dcrsrAddr → v.getLsbD 16 = true) (t : Target) :
    coreHalted (storeTarget a v t) = coreHalted t := by
  unfold storeTarget
  rw [if_neg ha]
  split
  · rename_i hd
    rw [coreHalted_freeRegRdy, writeDcrsr_write v t (h hd)]
    rfl
  · split <;> rfl

theorem storeTarget_core {a : Addr32} {v : Word} (h : a = dcrsrAddr → v.getLsbD 16 = true) {u t : Target} (k : SameDebug u t) :
    Core (storeTarget a v u) (storeTarget a v t) := by
  obtain ⟨k, hk⟩ := k
  unfold storeTarget
  split
  · refine ⟨?_, ?_, ?_, ?_, ?_, ?_⟩ <;> simp [k.idcode, k.dhcsr, k.dcrsr, k.dcrdr, k.regs, k.mem]
  · split
    · rename_i _ ha
      rw [writeDcrsr_write v u (h ha), writeDcrsr_write v t (h ha)]
      exact ⟨k.idcode, k.dhcsr, rfl, k.dcrdr, by simp only [freeDhcsrStatus_coreRegs, hk, k.regs, k.dcrdr], k.mem⟩
    · split
      · exact ⟨k.idcode, k.dhcsr, k.dcrsr, rfl, k.regs, k.mem⟩
      · exact ⟨k.idcode, k.dhcsr, k.dcrsr, k.dcrdr, k.regs, by simp only [k.mem]⟩

/-- With the caches true, the store is the one asked for. -/
theorem Stored.exact {K : Prop} {a : Addr32} {v : Word} {u t : Target} (h : Stored K a v u t) (hk : K)
    (hv : a = dcrsrAddr → v.getLsbD 16 = true) : Core (storeTarget a v u) t := by
  obtain ⟨t1, h1, ⟨w, hw, h2, _⟩ | ⟨hn, _⟩⟩ := h
  · rw [hw hk] at h2
    exact (storeTarget_core hv h1).trans h2
  · exact absurd hk hn

/-- With the caches true, the store is the one asked for, and one away from DHCSR leaves Debug state alone. -/
theorem Stored.halted {K : Prop} {a : Addr32} {v : Word} {u t : Target} (h : Stored K a v u t) (hk : K) (ha : a ≠ dhcsrAddr)
    (hv : a = dcrsrAddr → v.getLsbD 16 = true) : coreHalted t = coreHalted u := by
  obtain ⟨t1, h1, ⟨w, hw, _, h2⟩ | ⟨hn, _⟩⟩ := h
  · rw [h2, hw hk, coreHalted_storeTarget ha hv, h1.2]
  · exact absurd hk hn

/-! ## Passes -/

/-- In the middle of a write pass with true caches: `done` is stored, `todo` is left (R174, R175, R210). -/
structure InWrite (c0 : Config) (t0 : Target) (done todo : List (Addr32 × Word)) (c : Config) (ss : Session) (t : Target) : Prop where
  cfg : c = c0
  core : Core { t0 with mem := storeWords t0.mem done } t
  halt : coreHalted t = coreHalted t0
  agrees : Agrees ss t
  configured : ss.cswConfigured = true
  tar : TarTrue c ss t
  banked : ss.tarValid = true → ss.selValid = true ∧ ss.selCache = selectValue c 0
  stays : burstsStay c ss todo

/-- A write pass that ended early: some of its words are stored. -/
structure WroteSome (c0 : Config) (t0 : Target) (all : List (Addr32 × Word)) (c : Config) (ss : Session) (t : Target) : Prop where
  cfg : c = c0
  agrees : Agrees ss t
  some_ : ∃ done todo, all = done ++ todo ∧ Core { t0 with mem := storeWords t0.mem done } t

/-- The session fields of TAR tracking, with CSW configured. -/
def Tracks (tv : Bool) (na : Addr32) (bc : Nat) (ss : Session) : Prop :=
  ss.cswConfigured = true ∧ ss.tarValid = tv ∧ ss.nextAddr = na ∧ ss.burstCount = bc

theorem apart_tracks (tv : Bool) (na : Addr32) (bc : Nat) : Apart (Tracks tv na bc) := ⟨fun _ _ _ h => h, fun _ _ h => h⟩

theorem storeWords_append (m : List Host.Cell) (ws : List (Addr32 × Word)) (a : Addr32) (w : Word) :
    storeWords m (ws ++ [(a, w)]) = writeWord (storeWords m ws) a w := by
  simp [storeWords, List.foldl_append]

theorem ends_passWord_write (c0 : Config) (t0 : Target) (done todo : List (Addr32 × Word)) (j : Nat) (a : Addr32) (w : Word)
    (ha : a ≠ dhcsrAddr ∧ a ≠ dcrsrAddr ∧ a ≠ dcrdrAddr) :
    Ends True (Holds (InWrite c0 t0 done ((a, w) :: todo))) (passWord .write j a w)
      (fun _ => Holds (InWrite c0 t0 (done ++ [(a, w)]) todo)) (Holds (WroteSome c0 t0 (done ++ (a, w) :: todo))) := by
  intro s hs
  unfold passWord
  rw [modify_bind, get_bind]
  generalize e0 : ({ s with seq := { s.seq with wordIndex := j } } : State) = s0
  have hs : Holds (InWrite c0 t0 done ((a, w) :: todo)) s0 := by rw [← e0]; exact hs
  clear e0
  let mid : Target := { t0 with mem := storeWords t0.mem done }
  have hm : Core mid s0.target := hs.core
  have up : ∀ u, Holds (At True True c0 mid) u → Holds (WroteSome c0 t0 (done ++ (a, w) :: todo)) u :=
    fun u h => ⟨h.cfg, h.agrees trivial, done, _, rfl, h.core⟩
  -- the DRW write and the bookkeeping, from TAR at `a`
  have fin : ∀ tv bc na, tv = (wordSession s0.cfg s0.sess a).tarValid → bc + 1 = (wordSession s0.cfg s0.sess a).burstCount →
      Ends True (Holds (AtTar True True c0 mid (Tracks tv na bc) a)) (do wrAp apDrw w; modify (advanceBurst a))
        (fun _ => Holds (InWrite c0 t0 (done ++ [(a, w)]) todo)) (Holds (WroteSome c0 t0 (done ++ (a, w) :: todo))) := by
    intro tv bc na htv hbc
    refine ((ends_wrDrw (apart_tracks tv na bc) fun _ h => h.1).weaken (fun _ h => h) (fun _ _ h => h) up).bind fun _ => ?_
    refine ends_modify fun u h => ?_
    have hst : Core (storeTarget a w mid) u.target := h.stored.exact trivial fun hx => absurd hx ha.2.1
    rw [storeTarget_mem a w mid ha] at hst
    have hh := h.stored.halted trivial ha.1 fun hx => absurd hx ha.2.1
    refine ⟨h.cfg, ?_, hh, ⟨(h.agrees trivial).bank, (h.agrees trivial).csw⟩, h.extra.1, ?_, fun _ => ⟨h.valid, h.cache⟩, ?_⟩
    · rw [storeWords_append]; exact hst
    · intro _ hb
      have e : a + 4 - 4 = a := by simp
      show u.target.tar = a + 4
      refine h.tar trivial ?_
      have hb' : (a + 4 - 4).toNat / u.cfg.tarWrapBytes = ((a + 4 - 4).toNat + 4) / u.cfg.tarWrapBytes := hb
      rw [e] at hb'
      exact hb'
    · have hb := hs.stays.2
      have hc : u.cfg = s0.cfg := h.cfg.trans hs.cfg.symm
      show burstsStay u.cfg _ todo
      rw [hc]
      refine burstsStay_congr s0.cfg todo (wordSession s0.cfg s0.sess a) _ ?_ ?_ ?_ hb
      · exact (htv.symm).trans h.extra.2.1.symm
      · intro _; unfold wordSession tarSession; rfl
      · show _ = u.sess.burstCount + 1
        rw [h.extra.2.2.2, hbc]
  by_cases hn : needsTar a s0 = true
  · rw [if_pos hn]
    have hk : ¬tarKnown s0.cfg s0.sess a := (needsTar_eq a s0).1 hn
    have e1 : (wordSession s0.cfg s0.sess a).tarValid = true ∧ (wordSession s0.cfg s0.sess a).burstCount = 1 := by
      unfold wordSession tarSession; rw [if_neg hk]; exact ⟨rfl, rfl⟩
    have first : Ends True (Holds (AtWith True True c0 mid (Tracks s0.sess.tarValid s0.sess.nextAddr s0.sess.burstCount)))
        (do wrAp apTar a; modify startBurst)
        (fun _ => Holds (AtTar True True c0 mid (Tracks true s0.sess.nextAddr 0) a)) (Holds (WroteSome c0 t0 (done ++ (a, w) :: todo))) := by
      refine ((ends_wrTar (apart_tracks _ _ _)).weaken (fun _ h => h) (fun _ _ h => h) up).bind fun _ => ?_
      exact ends_modify fun u h => ⟨⟨⟨h.cfg, h.core, fun k => ⟨(h.agrees k).bank, (h.agrees k).csw⟩, h.halt⟩, h.valid, h.cache,
        ⟨h.extra.1, rfl, h.extra.2.2.1, rfl⟩⟩, h.tar⟩
    have both := first.bind fun _ => fin true 0 s0.sess.nextAddr e1.1.symm e1.2.symm
    have := both s0 ⟨⟨hs.cfg, hm, fun _ => hs.agrees, fun _ => hs.halt⟩, hs.configured, rfl, rfl, rfl⟩
    simp only [bind_assoc] at this ⊢
    exact this
  · rw [if_neg hn]
    have hk : tarKnown s0.cfg s0.sess a := by
      by_contra hk
      exact hn ((needsTar_eq a s0).2 hk)
    have e1 : (wordSession s0.cfg s0.sess a).tarValid = true ∧ (wordSession s0.cfg s0.sess a).burstCount = s0.sess.burstCount + 1 := by
      unfold wordSession tarSession; rw [if_pos hk]; exact ⟨hk.1, rfl⟩
    have hb := hs.banked hk.1
    refine fin true s0.sess.burstCount s0.sess.nextAddr e1.1.symm e1.2.symm s0 ⟨⟨⟨hs.cfg, hm, fun _ => hs.agrees, fun _ => hs.halt⟩, hb.1, hb.2,
      ⟨hs.configured, hk.1, rfl, rfl⟩⟩, fun _ => ?_⟩
    have := hs.tar hk.1 (by rw [hk.2.1]; exact hs.stays.1 hk)
    rw [hk.2.1] at this
    exact this

theorem ends_passWords_write (c0 : Config) (t0 : Target) (base : Addr32) (later : List (Addr32 × Word)) (ws : List Word) :
    ∀ j done, (∀ w ∈ wordsAt base j ws, w.1 ≠ dhcsrAddr ∧ w.1 ≠ dcrsrAddr ∧ w.1 ≠ dcrdrAddr) →
    Ends True (Holds (InWrite c0 t0 done (wordsAt base j ws ++ later))) (passWords .write base j ws)
      (fun _ => Holds (InWrite c0 t0 (done ++ wordsAt base j ws) later))
      (Holds (WroteSome c0 t0 (done ++ (wordsAt base j ws ++ later)))) := by
  induction ws with
  | nil =>
    intro j done _
    simp only [wordsAt, List.nil_append, List.append_nil, passWords]
    exact fun s hs => hs
  | cons w ws ih =>
    intro j done hd
    simp only [wordsAt, List.cons_append, passWords]
    refine (ends_passWord_write c0 t0 done _ j _ w (hd (_, w) (by simp [wordsAt]))).bind fun _ => ?_
    have := ih (j + 1) (done ++ [(base + BitVec.ofNat 32 (4 * j), w)]) fun x hx => hd x (by simp [wordsAt, hx])
    simp only [List.append_assoc, List.singleton_append] at this
    exact this

theorem ends_passSections_write (c0 : Config) (t0 : Target) (secs : List Section) :
    ∀ k done, (∀ w ∈ secs.flatMap (fun sec => wordsAt sec.addr 0 (sectionWords sec)), w.1 ≠ dhcsrAddr ∧ w.1 ≠ dcrsrAddr ∧ w.1 ≠ dcrdrAddr) →
    Ends True (Holds (InWrite c0 t0 done (secs.flatMap fun sec => wordsAt sec.addr 0 (sectionWords sec)))) (passSections .write k secs)
      (fun _ => Holds (InWrite c0 t0 (done ++ secs.flatMap fun sec => wordsAt sec.addr 0 (sectionWords sec)) []))
      (Holds (WroteSome c0 t0 (done ++ secs.flatMap fun sec => wordsAt sec.addr 0 (sectionWords sec)))) := by
  induction secs with
  | nil =>
    intro k done _
    simp only [List.flatMap_nil, List.append_nil, passSections]
    exact fun s hs => hs
  | cons sec secs ih =>
    intro k done hd
    simp only [List.flatMap_cons, passSections] at hd ⊢
    refine Ends.bind (Q := fun _ => Holds (InWrite c0 t0 done (wordsAt sec.addr 0 (sectionWords sec) ++
      secs.flatMap fun sec => wordsAt sec.addr 0 (sectionWords sec)))) (ends_modify fun _ h => h) fun _ => ?_
    refine (ends_passWords_write c0 t0 sec.addr _ (sectionWords sec) 0 done fun w hw => hd w (by simp [hw])).bind fun _ => ?_
    have := ih (k + 1) (done ++ wordsAt sec.addr 0 (sectionWords sec)) fun w hw => hd w (by
      simp only [List.mem_append]; exact .inr hw)
    simp only [List.append_assoc] at this
    exact this

/-- `WRITE_BLOCKS` (R175) over an admitted plan, with true caches: all of the plan's words are stored, or, when it fails, the
first of them. -/
theorem ends_writeBlocks (c0 : Config) (hp : paramsValid c0 = true) (p : LoadPlan) (hs : planStays c0 p) (hm : planInMemory p) (t0 : Target) :
    Ends True (Holds (At True True c0 t0)) (writeBlocks p)
      (fun _ => Holds (Exactly True c0 (SameDebug { t0 with mem := storeWords t0.mem (planWords p) })))
      (Holds (WroteSome c0 t0 (planWords p))) := by
  have up : ∀ u, Holds (At True True c0 t0) u → Holds (WroteSome c0 t0 (planWords p)) u :=
    fun u h => ⟨h.cfg, h.agrees trivial, [], _, rfl, h.core⟩
  unfold writeBlocks pass
  refine Ends.bind (Q := fun _ => Holds (AtWith True True c0 t0 fun _ => True)) (ends_modify fun _ h => ⟨h, trivial⟩) fun _ => ?_
  refine Ends.bind (Q := fun _ => Holds (Exactly True c0 (SameDebug { t0 with mem := storeWords t0.mem (planWords p) }))) ?_
    fun _ => ends_modify fun _ h => h
  refine ((ends_ensureCsw (P' := fun ss => ss.cswConfigured = true) (fun _ => hp) apart_true (fun _ _ => rfl) (fun _ _ h => h)).weaken
    (fun _ h => h) (fun _ _ h => h) up).bind fun _ => ?_
  refine Ends.bind (Q := fun _ => Holds (InWrite c0 t0 [] (planWords p))) (ends_modify fun u h => ?_) fun _ => ?_
  · refine ⟨h.cfg, h.core, h.halt trivial, ⟨(h.agrees trivial).bank, (h.agrees trivial).csw⟩, h.extra, (fun hx => by cases hx), (fun hx => by cases hx), ?_⟩
    show burstsStay u.cfg _ _
    rw [h.cfg]
    exact burstsStay_congr c0 _ (passSession c0 Session.reset) _ rfl (fun h => by cases h) rfl hs
  · exact (ends_passSections_write c0 t0 (planSections p) 0 [] hm).weaken (fun _ h => h)
      (fun _ _ h => ⟨h.cfg, fun _ => h.agrees, by simpa [planWords] using h.core, h.halt⟩) (fun _ h => by simpa [planWords] using h)

/-- A verification pass (R176) stores nothing. -/
theorem keeps_passWord_verify {K : Prop} {c0 : Config} {u : Target} (j : Nat) (a : Addr32) (w : Word) :
    Keeps True (Holds (At K False c0 u)) (Holds (At K False c0 u)) (passWord .verify j a w) := by
  have wr : Keeps True (Holds (At K False c0 u)) (Holds (At K False c0 u)) (wrAp apTar a) :=
    (ends_wrTar (H := False) apart_true).weaken (fun _ h => ⟨h, trivial⟩) (fun _ _ h => h.toAt) (fun _ h => h)
  have rd : Keeps True (Holds (At K False c0 u)) (Holds (At K False c0 u)) (rdAp apDrw) :=
    (ends_rdDrw apart_true).weaken (fun _ h => ⟨h, trivial⟩) (fun _ _ h => h.toAt) (fun _ h => h)
  have same : ∀ s : State, Holds (At K False c0 u) s → ∀ x y z, Holds (At K False c0 u) { s with sess := { s.sess with tarValid := x, nextAddr := y, burstCount := z } } :=
    fun s h _ _ _ => ⟨h.cfg, h.core, fun k => ⟨(h.agrees k).bank, (h.agrees k).csw⟩, False.elim⟩
  exact keeps_passWord (op := .verify) (fun s h => h) wr (fun s h => same s h _ s.sess.nextAddr _) (fun h => by cases h) rd
    (fun s c b h => ⟨h.cfg, h.core, fun k => ⟨(h.agrees k).bank, (h.agrees k).csw⟩, False.elim⟩) fun s h => same s h s.sess.tarValid _ _

theorem keeps_ensureCsw_at {K : Prop} {c0 : Config} {u : Target} (hp : K → paramsValid c0 = true) :
    Keeps True (Holds (At K False c0 u)) (Holds (At K False c0 u)) ensureCsw :=
  (ends_ensureCsw (P := fun _ => True) (P' := fun _ => True) hp apart_true (fun _ h => h) (fun _ h _ => h)).weaken (fun _ h => ⟨h, trivial⟩)
    (fun _ _ h => h.toAt) (fun _ h => h)

theorem passStable_verify {K : Prop} {c0 : Config} {u : Target} (hp : K → paramsValid c0 = true) :
    PassStable .verify True (Holds (At K False c0 u)) (Holds (At K False c0 u)) where
  ensureCsw := keeps_ensureCsw_at hp
  word := keeps_passWord_verify
  start := fun _ h => ⟨h.cfg, h.core, fun k => ⟨(h.agrees k).bank, (h.agrees k).csw⟩, False.elim⟩
  section_ := fun _ _ h => h
  phase := fun _ _ h => h
  result := fun _ _ _ h => h

/-- `VERIFY_BLOCKS` (R176) stores nothing. -/
theorem keeps_verifyBlocks_at {K : Prop} {c0 : Config} {u : Target} (hp : K → paramsValid c0 = true) (p : LoadPlan) :
    Keeps True (Holds (At K False c0 u)) (Holds (At K False c0 u)) (verifyBlocks p) :=
  keeps_verifyBlocks (passStable_verify hp) p

end Sys2Proof.Machine
end

