-- ==== Sys2Proof/Laws/Caches.lean ====
section
/-! SUPPORT. The session's caches against the target, and each target register against the transactions that do not write
it (42_register_access.md R150 to R156; log 7): closure lemmas over what a property reads. -/

namespace Sys2Proof.Machine

/-- An address that is none of the core debug registers. -/
theorem notin {a : Addr32} (h : a ∉ [dhcsrAddr, dcrsrAddr, dcrdrAddr]) : a ≠ dhcsrAddr ∧ a ≠ dcrsrAddr ∧ a ≠ dcrdrAddr := by
  simpa [not_or] using h

/-- A DP read leaves the core's registers and memory alone. -/
theorem core_readDp (c : Config) (a : BitVec 2) (d : Option Word) (t : Target) :
    (targetRead c false a d t).dhcsr = t.dhcsr ∧ (targetRead c false a d t).dcrsr = t.dcrsr ∧
        (targetRead c false a d t).dcrdr = t.dcrdr ∧ (targetRead c false a d t).coreRegs = t.coreRegs ∧
        (targetRead c false a d t).mem = t.mem := by
  unfold targetRead
  simp only [Bool.false_eq_true, if_false]
  split
  · unfold targetReadDp
    split
    · exact ⟨rfl, rfl, rfl, rfl, rfl⟩
    · split
      · split <;> exact ⟨rfl, rfl, rfl, rfl, rfl⟩
      · split <;> exact ⟨rfl, rfl, rfl, rfl, rfl⟩
  · exact ⟨rfl, rfl, rfl, rfl, rfl⟩

/-- A DP write leaves the core alone. -/
theorem core_writeDp (c : Config) (a : BitVec 2) (v : Word) (t : Target) : Core t (targetWrite c false a v t) := by
  unfold targetWrite
  simp only [Bool.false_eq_true, if_false]
  split
  · exact ⟨rfl, rfl, rfl, rfl, rfl, rfl⟩
  · split
    · unfold writeCtrlStat; split <;> exact ⟨rfl, rfl, rfl, rfl, rfl, rfl⟩
    · split <;> exact ⟨rfl, rfl, rfl, rfl, rfl, rfl⟩

/-- A store changes at most its word's bytes of memory. -/
theorem mem_storeTarget (a : Addr32) (v : Word) (t : Target) : SameBytesBut a t.mem (storeTarget a v t).mem := by
  intro b hb
  unfold storeTarget
  split
  · simp
  · split
    · unfold writeDcrsr
      simp only [freeDhcsrStatus_mem]
      split
      · split <;> rfl
      · rfl
    · split
      · rfl
      · exact readByte_writeWord_ne _ _ _ _ hb

/-! ## SELECT and CSW change by their own writes alone -/

theorem sel_advance (c : Config) (t : Target) : (advanceTar c t).select = t.select ∧
    (advanceTar c t).csw = t.csw := by rw [advanceTar_frame]; exact ⟨rfl, rfl⟩
theorem sel_drw (c : Config) (v : Word) (t : Target) : (targetWrite c true 3 v t).select = t.select ∧
    (targetWrite c true 3 v t).csw = t.csw := by
  rcases core_writeDrw c v t with ⟨_, h⟩ | ⟨_, _, h⟩ | ⟨_, _, w, d, h⟩ <;> rw [h]
  · exact ⟨rfl, rfl⟩
  · have f := storeTarget_frame t.tar v t
    exact ⟨(sel_advance _ _).1.trans f.1, (sel_advance _ _).2.trans f.2.1⟩
  · have f := storeTarget_frame t.tar w { t with draws := d }
    exact ⟨(sel_advance _ _).1.trans f.1, (sel_advance _ _).2.trans f.2.1⟩

theorem sel_apWrite (c : Config) (a : BitVec 2) (v : Word) (t : Target) :
    (targetWrite c true a v t).select = t.select ∧ (a ≠ 0 → (targetWrite c true a v t).csw = t.csw) := by
  by_cases h3 : a = 3
  · subst h3; exact ⟨(sel_drw c v t).1, fun _ => (sel_drw c v t).2⟩
  · unfold targetWrite
    simp only [if_true]
    split
    · split
      · exact ⟨rfl, fun h => absurd ‹a = 0› h⟩
      · split
        · exact ⟨rfl, fun _ => rfl⟩
        · exact ⟨rfl, fun _ => rfl⟩
    · exact ⟨rfl, fun _ => rfl⟩

theorem sel_dpWrite (c : Config) (a : BitVec 2) (v : Word) (t : Target) (h : a ≠ 2) :
    (targetWrite c false a v t).select = t.select ∧ (targetWrite c false a v t).csw = t.csw := by
  unfold targetWrite
  simp only [Bool.false_eq_true, if_false]
  split
  · exact ⟨rfl, rfl⟩
  · split
    · unfold writeCtrlStat; split <;> exact ⟨rfl, rfl⟩
    · split
      · exact absurd ‹a = dpSelect› h
      · exact ⟨rfl, rfl⟩

theorem sel_read (c : Config) (ap : Bool) (a : BitVec 2) (d : Option Word) (t : Target) :
    (targetRead c ap a d t).select = t.select ∧ (targetRead c ap a d t).csw = t.csw := by
  cases ap with
  | true =>
    show (targetReadAp c a t).select = _ ∧ (targetReadAp c a t).csw = _
    unfold targetReadAp
    split
    · exact sel_advance _ _
    · exact ⟨rfl, rfl⟩
  | false =>
    unfold targetRead
    simp only [Bool.false_eq_true, if_false]
    split
    · unfold targetReadDp
      split
      · exact ⟨rfl, rfl⟩
      · split
        · split <;> exact ⟨rfl, rfl⟩
        · split <;> exact ⟨rfl, rfl⟩
    · exact ⟨rfl, rfl⟩

/-- A property that reads only the bank cache, `cswConfigured`, SELECT and CSW; `S` says that any CSW value suits it. -/
structure CacheView (S : Prop) (G : View) : Prop where
  same : ∀ c ss ss' t t', ss'.selValid = ss.selValid → ss'.selCache = ss.selCache → ss'.cswConfigured = ss.cswConfigured →
      t'.select = t.select →
    t'.csw = t.csw → G c ss t → G c ss' t'
  cache : ∀ c ss t x, G c ss t → G c { ss with selCache := x, selValid := true } { t with select := x }
  csw : S → ∀ c ss t x, G c ss t → G c ss { t with csw := x }
  ensure : Keeps True (Holds G) (Holds G) ensureCsw
  fresh : ∀ s, (Holds G) s → Holds G (freshSession s)

section
variable {S : Prop} {G : View} (h : CacheView S G)
include h

theorem CacheView.robust : Robust G G where
  target := fun c ss t _ _ => h.same c ss ss t _ rfl rfl rfl rfl rfl
  session := fun c ss t _ _ => h.same c ss _ t t rfl rfl rfl rfl rfl
  failed := fun c ss t _ => h.same c ss _ t t rfl rfl rfl rfl rfl

theorem CacheView.fail (s : State) (c : FailCause) (a : Option Addr32) (hs : Holds G s) : Holds G
    (failEntry c a s) := h.robust.failed _ _ _ _ hs

theorem CacheView.read (rq : Request) (hr : rq.rnw = true) : Keeps True (Holds G) (Holds G) (transact rq) :=
  ends_read h.robust rq hr fun c ss t d g => h.same c ss ss t _ rfl rfl rfl (sel_read _ _ _ _ _).1 (sel_read _ _ _ _ _).2 g

theorem CacheView.bank (a) : Keeps True (Holds G) (Holds G) (bankCheck a) :=
  ends_bankCheck h.robust a (fun _ _ _ g _ _ => g) fun c ss t g _ => h.cache c ss t _ g

theorem CacheView.wrAp (a v) (ha : regOffset a ≠ 0 ∨ S) : Keeps True (Holds G) (Holds G) (wrAp a v) :=
  ends_wrAp (B := G) h.robust h.robust a v (fun _ _ _ g _ _ => g) (fun c ss t g _ => h.cache c ss t _ g) fun c ss t g => by
    have k := sel_apWrite c (regOffset a) v t
    rcases ha with ha | ha
    · exact h.same c ss ss t _ rfl rfl rfl k.1 (k.2 ha) g
    · exact h.same c ss ss { t with csw := (targetWrite c true (regOffset a) v t).csw } _ rfl rfl rfl k.1 rfl (h.csw ha c ss t _ g)

theorem CacheView.rdAp (a) : Keeps True (Holds G) (Holds G) (rdAp a) :=
  ends_rdAp (B := G) h.robust h.robust a (fun _ _ _ g _ _ => g) (fun c ss t g _ => h.cache c ss t _ g)
    (fun c ss t g => h.same c ss ss t _ rfl rfl rfl (sel_read c true _ none _).1 (sel_read c true _ none _).2 g)
    fun c ss t d g => h.same c ss ss t _ rfl rfl rfl rfl rfl g

theorem CacheView.rdDp (a) : Keeps True (Holds G) (Holds G) (rdDp a) := by
  unfold Machine.rdDp
  exact (keeps_refuseUnless (.inr trivial)).bind fun _ => (h.read _ rfl).bind fun _ =>
    Ends.bind (Q := fun _ => Holds G) (fun _ g => g) fun _ => fun _ g => g

theorem CacheView.wrDp (a v) : Keeps True (Holds G) (Holds G) (wrDp a v) := by
  by_cases ha : dpWriteAddrOk a = true
  swap
  · intro s _
    unfold Machine.wrDp
    rw [bind_of_error (e := .refused .badDPAddr) (t := s) (by simp only [Bool.not_eq_true] at ha; rw [ha]; rfl)]
    trivial
  unfold Machine.wrDp
  refine (keeps_refuseUnless (.inr trivial)).bind fun _ => ?_
  obtain rfl | rfl | rfl := dpWriteAddrOk_cases ha
  · refine Ends.bind (Q := fun _ => Holds G) (ends_write (R := G) h.robust _ rfl rfl fun c ss t g => ?_) fun _ => Ends.bind
      (Q := fun _ => Holds G) (fun s g => ?_) fun _ => fun _ g => g
    · exact h.same c ss ss t _ rfl rfl rfl (sel_dpWrite c 0 v t (by decide)).1 (sel_dpWrite c 0 v t (by decide)).2 g
    · exact h.same _ s.sess _ s.target _ rfl rfl rfl rfl rfl g
  · refine Ends.bind (Q := fun _ => Holds G) (ends_write (R := G) h.robust _ rfl rfl fun c ss t g => ?_) fun _ => Ends.bind
      (Q := fun _ => Holds G) (fun s g => ?_) fun _ => fun _ g => g
    · exact h.same c ss ss t _ rfl rfl rfl (sel_dpWrite c 1 v t (by decide)).1 (sel_dpWrite c 1 v t (by decide)).2 g
    · exact g
  · refine Ends.bind (Q := fun _ => Holds (fun c ss t => G c { ss with selCache := v, selValid := true } t)) (ends_write
      (R := fun c ss t => G c { ss with selCache := v, selValid := true } t) h.robust _ rfl rfl fun c ss t g => ?_)
      fun _ => Ends.bind (Q := fun _ => Holds G) (fun s g => ?_) fun _ => fun _ g => g
    · exact h.cache c ss t v g
    · exact g

theorem CacheView.memWr (a v) : Keeps True (Holds G) (Holds G) (memWr32 a v) :=
  keeps_memWr32 (.inr trivial) h.ensure (h.wrAp _ _ (.inl (by decide))) (h.wrAp _ _ (.inl (by decide)))
      fun s g => h.same _ s.sess _ s.target _ rfl rfl rfl rfl rfl g
theorem CacheView.memRd (a) : Keeps True (Holds G) (Holds G) (memRd32 a) :=
  keeps_memRd32 (.inr trivial) h.ensure (h.wrAp _ _ (.inl (by decide))) (h.rdAp _) (fun _ _ _ g => g)
      fun s g => h.same _ s.sess _ s.target _ rfl rfl rfl rfl rfl g

theorem CacheView.drive (bits : List Bool) (s : State) (g : Holds G s) : Holds G (driveBits bits s) := by rw [driveBits_eq]; exact g

theorem CacheView.connect : ConnectStable True (Holds G) (Holds G) where
  linkWrite := fun _ b _ _ => (keeps_checkDir (fun _ _ _ => trivial)).bind fun _ => keeps_modify fun s g => h.drive _ s g
  lineReset := (keeps_checkDir (fun _ _ _ => trivial)).bind fun _ => keeps_modify fun s g => h.drive _ s g
  readId := h.rdDp _
  readCtrlStat := fun _ _ => keeps_poll (h.rdDp _) (fun _ _ g => g) _ _
  writeAbort := h.wrDp _ _
  writeCtrlStat := h.wrDp _ _
  enter := fun s _ _ g => h.same _ s.sess _ s.target _ rfl rfl rfl rfl rfl g
  ready := fun s g => h.same _ s.sess _ s.target _ rfl rfl rfl rfl rfl g
  inspected := fun s _ g => h.same _ s.sess _ s.target _ rfl rfl rfl rfl rfl g
  result := fun _ _ _ g => g
  failed := fun s c a g => h.fail s c a g

theorem CacheView.control : ControlStable True (Holds G) (Holds G) where
  memWrite := fun a v _ => h.memWr a v
  pollHalt := fun _ _ => keeps_poll (h.memRd _) (fun _ _ g => g) _ _
  pollReady := fun _ _ => keeps_poll (h.memRd _) (fun _ _ g => g) _ _
  phase := fun _ _ g => g
  halted := fun s _ g => h.same _ s.sess _ s.target _ rfl rfl rfl rfl rfl g
  result := fun _ _ _ g => g
  failed := fun s c a g => h.fail s c a g

theorem CacheView.passes (op : PassOp) : PassStable op True (Holds G) (Holds G) where
  ensureCsw := h.ensure
  word := fun j a w => keeps_passWord (fun _ g => g) (h.wrAp _ _ (.inl (by decide)))
      (fun s g => h.same _ s.sess _ s.target _ rfl rfl rfl rfl rfl g)
    (fun _ => h.wrAp _ _ (.inl (by decide))) (h.rdAp _) (fun s c a g => h.fail s c a g)
        fun s g => h.same _ s.sess _ s.target _ rfl rfl rfl rfl rfl g
  start := fun s g => h.same _ s.sess _ s.target _ rfl rfl rfl rfl rfl g
  section_ := fun _ _ g => g
  phase := fun _ _ g => g
  result := fun _ _ _ g => g

/-- One exchange that writes neither SELECT nor, unless `S`, CSW. -/
theorem CacheView.xfer (rq : Request) (hw : rq.rnw = true ∨ (rq.apndp = false ∧ rq.a ≠ 2) ∨ (rq.apndp = true ∧ (rq.a ≠ 0 ∨ S))) :
    Keeps True (Holds G) (Holds G) (xfer rq) := by
  refine keeps_xfer (.inr trivial) (fun _ _ _ => trivial) fun s g _ => ?_
  obtain ⟨hr, d, p, inp, n, e⟩ | ⟨hr, inp, n, e⟩ | ⟨ack, inp, n, _, _, e⟩ := exchange_cases rq s <;> rw [e]
  · exact h.same _ s.sess _ s.target _ rfl rfl rfl (sel_read _ _ _ _ _).1 (sel_read _ _ _ _ _).2 g
  · rcases hw with hw | ⟨h1, h2⟩ | ⟨h1, h2⟩
    · rw [hw] at hr; cases hr
    · show G s.cfg s.sess (targetWrite s.cfg rq.apndp rq.a rq.data s.target)
      rw [h1]
      exact h.same _ s.sess _ s.target _ rfl rfl rfl (sel_dpWrite _ _ _ _ h2).1 (sel_dpWrite _ _ _ _ h2).2 g
    · show G s.cfg s.sess (targetWrite s.cfg rq.apndp rq.a rq.data s.target)
      rw [h1]
      have k := sel_apWrite s.cfg rq.a rq.data s.target
      rcases h2 with h2 | h2
      · exact h.same _ s.sess _ s.target _ rfl rfl rfl k.1 (k.2 h2) g
      · exact h.same _ s.sess s.sess { s.target with csw :=
          (targetWrite s.cfg true rq.a rq.data s.target).csw } _ rfl rfl rfl k.1 rfl (h.csw h2 _ _ _ _ g)
  · exact h.robust.failDone rq ack inp n g

/-- Every instruction that writes neither SELECT nor CSW behind the session's back. -/
theorem CacheView.all (i : Instr) (s : State) (hi : i ∉ [Instr.xfer, .dpw8Select]) (hS : i ∉ [Instr.apw0Csw,
    .wrAp] ∨ S) : Keeps True (Holds G) (Holds G) (Instr.operation s i) := by
  cases i
  case linkClock => exact keeps_modify fun s g => by rw [linkClock_frame]; exact g
  case linkWrite => exact (keeps_checkDir (fun _ _ _ => trivial)).bind fun _ => keeps_modify fun s g => h.drive _ s g
  case linkRead => exact keeps_linkRead (links_of fun _ _ _ _ _ _ g => g) _
  case linkTrn => exact fun _ g => g
  case linkLinereset => exact (keeps_checkDir (fun _ _ _ => trivial)).bind fun _ => keeps_modify fun s g => h.drive _ s g
  case rdDp => exact h.rdDp _
  case wrDp => exact h.wrDp _ _
  case rdAp => exact h.rdAp _
  case wrAp => exact h.wrAp _ _ (hS.elim (fun x => absurd (by simp) x) .inr)
  case memWr32 => exact h.memWr _ _
  case memRd32 => exact h.memRd _
  case connect => exact ends_connect h.connect h.fresh
  case halt => exact keeps_halt h.control
  case setReg => exact keeps_setReg h.control _ _
  case resume => exact keeps_resume h.control
  case load =>
    refine keeps_getBind fun _ => (keeps_refuseUnless (.inr trivial)).bind fun _ => (keeps_refuseUnless
        (.inr trivial)).bind fun _ => ?_
    exact ends_runLoad (P0 := Holds G) h.connect h.control (h.passes _) (h.passes _) (fun _ g => g) h.fresh (fun _ _ g => g)
        (fun _ g => g) _
  case writeBlocks => exact (keeps_admittedPlan _).bind fun _ => keeps_writeBlocks (h.passes _) _
  case verifyBlocks => exact (keeps_admittedPlan _).bind fun _ => keeps_verifyBlocks (h.passes _) _
  case xfer => exact absurd (by simp) hi
  case dpw8Select => exact absurd (by simp) hi
  case dpwcReserved =>
    intro u g
    have : Machine.xfer (Request.writeDp 3 s.op.value) u = .error (.refused .dpWrite0xC) u := rfl
    show match Machine.xfer (Request.writeDp 3 s.op.value) u with
      | .ok a t => Holds G t
      | .error .failed t => Holds G t
      | .error _ _ => True
    rw [this]; trivial
  case apw0Csw => exact h.xfer _ (.inr (.inr ⟨rfl, hS.elim (fun x => absurd (by simp) x) .inr⟩))
  all_goals first
    | exact h.xfer _ (.inl rfl)
    | exact h.xfer _ (.inr (.inl ⟨rfl, by simp [Request.writeDp]⟩))
    | exact h.xfer _ (.inr (.inr ⟨rfl, .inl (by simp [Request.writeAp])⟩))
end

/-- The bank cache is true (R36, R205). -/
theorem cacheView_bank : CacheView True (fun _ ss t => ss.selValid = true → t.select = ss.selCache) where
  same := fun c ss ss' t t' h1 h2 _ h4 _ g hv => by rw [h4, h2]; exact g (h1.symm.trans hv)
  cache := fun _ _ _ _ _ _ => rfl
  csw := fun _ _ _ _ _ g => g
  ensure := by
    have rb : Robust (fun (_ : Config) ss t => ss.selValid = true → t.select = ss.selCache) (fun _ ss t => ss.selValid = true →
        t.select = ss.selCache) :=
      ⟨fun _ _ _ _ _ g => g, fun _ _ _ _ _ g => g, fun _ _ _ _ g => g⟩
    refine keeps_ensureCsw (fun v => ?_) fun _ g => g
    exact ends_wrAp (B := fun _ ss t => ss.selValid = true → t.select = ss.selCache) rb rb apCsw v (fun _ _ _ g _ _ => g)
        (fun _ _ _ _ _ _ => rfl) fun c ss t g hv => by
      rw [(sel_apWrite c _ v t).1]; exact g hv
  fresh := fun _ _ hv => by cases hv

/-- Both caches are true (R36, R37, R206). -/
theorem cacheView_agrees : CacheView False (fun c ss t => paramsValid c = true ∧ Agrees ss t) where
  same := fun c ss ss' t t' h1 h2 h3 h4 h5 g => ⟨g.1, fun hv => by rw [h4, h2]; exact g.2.bank (h1.symm.trans hv),
      fun hv => by rw [h5]; exact g.2.csw (h3.symm.trans hv)⟩
  cache := fun _ _ _ _ g => ⟨g.1, fun _ => rfl, fun hv => g.2.csw hv⟩
  csw := fun h => h.elim
  ensure := by
    intro s g
    have h := ends_ensureCsw (K := True) (H := True) (c0 := s.cfg) (u := s.target) (P := fun _ => True) (P' := fun _ => True)
        (fun _ => g.1) apart_true (fun _ h => h) (fun _ h _ => h) s
      ⟨⟨rfl, Core.refl _, fun _ => g.2, fun _ => rfl⟩, trivial⟩
    revert h
    rcases ensureCsw s with ⟨a, t⟩ | ⟨e, t⟩
    · exact fun h => ⟨by rw [h.cfg]; exact g.1, h.agrees trivial⟩
    · cases e
      · exact fun h => ⟨by rw [h.cfg]; exact g.1, h.agrees trivial⟩
      · exact id
      · exact id
  fresh := fun s g => ⟨g.1, ⟨fun hv => (by cases hv), fun hv => (by cases hv)⟩⟩


/-! ## Properties of the target alone -/

/-- A property of the target alone that every transaction among `Q` keeps. -/
structure TargetStable (Q : Request → Prop) (T : Target → Prop) : Prop where
  read : ∀ rq c d t, Q rq → rq.rnw = true → T t → T (targetRead c rq.apndp rq.a d t)
  write : ∀ rq c t, Q rq → rq.rnw = false → T t → T (targetWrite c rq.apndp rq.a rq.data t)
  fault : ∀ t, T t → T (targetFault t)
  rec1 : Q (Request.readDp dpCtrlStat)
  rec2 : Q (Request.writeDp dpAbort abortClear)

abbrev OfTarget (T : Target → Prop) (s : State) : Prop := T s.target

theorem TargetStable.acc {Q : Request → Prop} {T : Target → Prop} (h : TargetStable Q T) : AccessStable True Q (OfTarget T)
    (OfTarget T) where
  exchange := fun rq hq => by
    refine keeps_xfer (.inr trivial) (fun _ _ _ => trivial) fun s hs _ => ?_
    obtain ⟨hr, d, p, inp, n, e⟩ | ⟨hr, inp, n, e⟩ | ⟨ack, inp, n, _, _, e⟩ := exchange_cases rq s <;> rw [e]
    · exact h.read rq _ _ _ hq hr hs
    · exact h.write rq _ _ hq hr hs
    · show T (if _ then _ else _)
      split
      · exact h.fault _ hs
      · exact hs
  recoverReads := h.rec1
  recoverWrites := h.rec2
  waitCount := fun _ _ _ h => h
  retried := fun _ _ h => h
  inspected := fun _ _ h => h
  sticky := fun _ h => h
  result := fun _ _ _ h => h
  failed := fun _ _ _ h => h

theorem TargetStable.ap {Q : Request → Prop} {T : Target → Prop} (h : TargetStable Q T) (hs : ∀ v, Q
    (Request.writeDp dpSelect v)) : ApStable True Q (OfTarget T) (OfTarget T) :=
  { h.acc with bankCheck := keeps_bankCheck h.acc hs fun _ _ h => h }

theorem TargetStable.rdDp {Q : Request → Prop} {T : Target → Prop} (h : TargetStable Q T) {a : BitVec 8} (hq : Q
    (Request.readDp (regOffset a))) : Keeps True (OfTarget T) (OfTarget T) (rdDp a) :=
  keeps_rdDp h.acc (.inr trivial) hq
theorem TargetStable.wrDp {Q : Request → Prop} {T : Target → Prop} (h : TargetStable Q T) {a : BitVec 8} {v : Word} (hq : Q
    (Request.writeDp (regOffset a) v)) : Keeps True (OfTarget T) (OfTarget T) (wrDp a v) :=
  keeps_wrDp h.acc (.inr trivial) hq fun s hs => by
    unfold afterWrDp
    split
    · exact hs
    · split <;> exact hs
theorem TargetStable.rdAp {Q : Request → Prop} {T : Target → Prop} (h : TargetStable Q T) (hs : ∀ v, Q
    (Request.writeDp dpSelect v)) {a : BitVec 8} (hq : Q (Request.readAp (regOffset a))) (hr : Q (Request.readDp dpRdbuff)) :
    Keeps True (OfTarget T) (OfTarget T) (rdAp a) := keeps_rdAp (h.ap hs) (.inr trivial) hq hr
theorem TargetStable.wrAp {Q : Request → Prop} {T : Target → Prop} (h : TargetStable Q T) (hs : ∀ v, Q
    (Request.writeDp dpSelect v)) {a : BitVec 8} {v : Word} (hq : Q (Request.writeAp (regOffset a) v)) :
    Keeps True (OfTarget T) (OfTarget T) (wrAp a v) := keeps_wrAp (h.ap hs) (.inr trivial) hq

/-! ## Register by register -/
theorem idcode_read (c : Config) (ap : Bool) (a : BitVec 2) (d : Option Word) (t : Target) (h : ap = true ∨ a ≠ 0) :
    (targetRead c ap a d t).idcode = t.idcode := by
  cases ap with
  | true => exact (core_readAp c a t).idcode
  | false =>
    have ha : a ≠ 0 := h.resolve_left (by decide)
    unfold targetRead
    simp only [Bool.false_eq_true, if_false]
    split
    · unfold targetReadDp
      rw [if_neg ha]
      split
      · split <;> rfl
      · split <;> rfl
    · rfl
theorem idcode_write (c : Config) (ap : Bool) (a : BitVec 2) (v : Word) (t : Target) :
    (targetWrite c ap a v t).idcode = t.idcode := by
  cases ap with
  | false => exact (core_writeDp c a v t).idcode
  | true =>
    by_cases h3 : a = 3
    · subst h3
      have st : ∀ a w u, (storeTarget a w u).idcode = u.idcode := by
        intro a w u
        unfold storeTarget
        split
        · simp
        · split
          · unfold writeDcrsr
            simp only [freeDhcsrStatus_idcode]
            split
            · split <;> rfl
            · rfl
          · split <;> rfl
      rcases core_writeDrw c v t with ⟨_, h⟩ | ⟨_, _, h⟩ | ⟨_, _, w, d, h⟩ <;> rw [h]
      · exact (core_advanceTar _ _).idcode.trans (st _ _ _)
      · exact (core_advanceTar _ _).idcode.trans (st _ _ _)
    · exact (core_writeAp c a v t h3).idcode

theorem targetStable_idcode (x : Word) : TargetStable (fun rq => ¬(rq.apndp = false ∧ rq.rnw = true ∧ rq.a = 0))
    (fun t => t.idcode = x) where
  read := fun rq c d t hq hr h => (idcode_read c _ _ d t (by
    cases h1 : rq.apndp with
    | true => exact .inl rfl
    | false => exact .inr fun h2 => hq ⟨h1, hr, h2⟩)).trans h
  write := fun rq c t _ _ h => (idcode_write c _ _ _ t).trans h
  fault := fun _ h => h
  rec1 := by rintro ⟨_, _, h⟩; cases h
  rec2 := by rintro ⟨_, h, _⟩; cases h

theorem targetStable_select (x : Word) : TargetStable (fun rq => ¬(rq.apndp = false ∧ rq.rnw = false ∧ rq.a = 2))
    (fun t => t.select = x) where
  read := fun rq c d t _ _ h => (sel_read c _ _ d t).1.trans h
  write := fun rq c t hq hr h => by
    cases h1 : rq.apndp with
    | true => exact (sel_apWrite c _ _ t).1.trans h
    | false => exact (sel_dpWrite c _ _ t fun h2 => hq ⟨h1, hr, h2⟩).1.trans h
  fault := fun _ h => h
  rec1 := by rintro ⟨_, h, _⟩; cases h
  rec2 := by rintro ⟨_, _, h⟩; cases h

theorem csw_dpWrite (c : Config) (a : BitVec 2) (v : Word) (t : Target) : (targetWrite c false a v t).csw = t.csw ∧
    (targetWrite c false a v t).tar = t.tar := by
  unfold targetWrite
  simp only [Bool.false_eq_true, if_false]
  split
  · exact ⟨rfl, rfl⟩
  · split
    · unfold writeCtrlStat; split <;> exact ⟨rfl, rfl⟩
    · split <;> exact ⟨rfl, rfl⟩

theorem targetStable_csw (x : Word) : TargetStable (fun rq => ¬(rq.apndp = true ∧ rq.rnw = false ∧ rq.a = 0))
    (fun t => t.csw = x) where
  read := fun rq c d t _ _ h => (sel_read c _ _ d t).2.trans h
  write := fun rq c t hq hr h => by
    cases h1 : rq.apndp with
    | true => exact ((sel_apWrite c _ _ t).2 fun h2 => hq ⟨h1, hr, h2⟩).trans h
    | false => exact (csw_dpWrite c _ _ t).1.trans h
  fault := fun _ h => h
  rec1 := by rintro ⟨h, _, _⟩; cases h
  rec2 := by rintro ⟨h, _, _⟩; cases h

theorem tar_read (c : Config) (ap : Bool) (a : BitVec 2) (d : Option Word) (t : Target) (h : ap = false ∨ a ≠ 3) :
    (targetRead c ap a d t).tar = t.tar := by
  cases ap with
  | true =>
    have ha := h.resolve_left (by decide)
    show (targetReadAp c a t).tar = _
    unfold targetReadAp
    rw [if_neg fun x => ha (by simpa using (Bool.and_eq_true_iff.1 x).2)]
    rfl
  | false =>
    unfold targetRead
    simp only [Bool.false_eq_true, if_false]
    split
    · unfold targetReadDp
      split
      · rfl
      · split
        · split <;> rfl
        · split <;> rfl
    · rfl
theorem tar_apWrite (c : Config) (a : BitVec 2) (v : Word) (t : Target) (h1 : a ≠ 1) (h3 : a ≠ 3) :
    (targetWrite c true a v t).tar = t.tar := by
  unfold targetWrite
  simp only [if_true, if_neg h1, if_neg h3]
  split
  · split <;> rfl
  · rfl

theorem targetStable_tar (x : Word) : TargetStable (fun rq => ¬(rq.apndp = true ∧ (rq.a = 3 ∨ rq.rnw = false ∧ rq.a = 1)))
    (fun t => t.tar = x) where
  read := fun rq c d t hq hr h => (tar_read c _ _ d t (by
    cases h1 : rq.apndp with
    | false => exact .inl rfl
    | true => exact .inr fun h2 => hq ⟨h1, .inl h2⟩)).trans h
  write := fun rq c t hq hr h => by
    cases h1 : rq.apndp with
    | true => exact (tar_apWrite c _ _ t (fun h2 => hq ⟨h1, .inr ⟨hr, h2⟩⟩) (fun h2 => hq ⟨h1, .inl h2⟩)).trans h
    | false => exact (csw_dpWrite c _ _ t).2.trans h
  fault := fun _ h => h
  rec1 := by rintro ⟨h, _⟩; cases h
  rec2 := by rintro ⟨h, _⟩; cases h

theorem status_advance (c : Config) (t : Target) : (advanceTar c t).dhcsrStatus = t.dhcsrStatus := by rw [advanceTar_frame]

/-- The status bits of DHCSR change at a read of RDBUFF and at a store (log 27). -/
theorem status_read (c : Config) (ap : Bool) (a : BitVec 2) (d : Option Word) (t : Target) (h : ap = true ∨ a ≠ 3) :
    (targetRead c ap a d t).dhcsrStatus = t.dhcsrStatus := by
  cases ap with
  | true =>
    show (targetReadAp c a t).dhcsrStatus = _
    unfold targetReadAp
    split
    · exact status_advance c _
    · rfl
  | false =>
    have ha : a ≠ 3 := h.resolve_left (by decide)
    unfold targetRead
    simp only [Bool.false_eq_true, if_false]
    split
    · unfold targetReadDp
      split
      · rfl
      · split
        · split <;> rfl
        · rw [if_neg (show a ≠ dpRdbuff from ha)]
    · rfl

theorem status_write (c : Config) (ap : Bool) (a : BitVec 2) (v : Word) (t : Target) (h : ap = false ∨ a ≠ 3) :
    (targetWrite c ap a v t).dhcsrStatus = t.dhcsrStatus := by
  unfold targetWrite
  cases ap with
  | true =>
    simp only [if_true, if_neg (h.resolve_left (by decide))]
    split
    · split
      · rfl
      · split <;> rfl
    · rfl
  | false =>
    simp only [Bool.false_eq_true, if_false]
    split
    · rfl
    · split
      · unfold writeCtrlStat; split <;> rfl
      · split <;> rfl

/-- A store away from DHCSR and DCRSR leaves the status bits. -/
theorem status_storeTarget {a : Addr32} (h1 : a ≠ dhcsrAddr) (h2 : a ≠ dcrsrAddr) (v : Word) (t : Target) :
    (storeTarget a v t).dhcsrStatus = t.dhcsrStatus := by
  unfold storeTarget
  rw [if_neg h1, if_neg h2]
  split <;> rfl

/-- The transactions at offset 3 that are an AP write or a DP read are those of DRW writes and RDBUFF reads. -/
theorem targetStable_status (x : Word) :
    TargetStable (fun rq => ¬(rq.a = 3 ∧ rq.apndp ≠ rq.rnw)) (fun t => t.dhcsrStatus = x) where
  read := fun rq c d t hq hr h => (status_read c _ _ d t (by
    cases h1 : rq.apndp with
    | true => exact .inl rfl
    | false => exact .inr fun h2 => hq ⟨h2, by rw [h1, hr]; decide⟩)).trans h
  write := fun rq c t hq hr h => (status_write c _ _ _ t (by
    cases h1 : rq.apndp with
    | false => exact .inl rfl
    | true => exact .inr fun h2 => hq ⟨h2, by rw [h1, hr]; decide⟩)).trans h
  fault := fun _ h => h
  rec1 := by rintro ⟨h, _⟩; cases h
  rec2 := by rintro ⟨h, _⟩; cases h

/-- Memory, debug registers and core registers are as in `u`. -/
def SameStore (u t : Target) : Prop := t.mem = u.mem ∧ SameCoreRegs u t
theorem targetStable_core (u : Target) : TargetStable (fun rq => ¬(rq.apndp = true ∧ rq.rnw = false ∧ rq.a = 3)) (SameStore u) where
  read := fun rq c d t _ _ h => by
    cases h1 : rq.apndp with
    | true =>
      have k := core_readAp c rq.a t
      exact ⟨k.mem.trans h.1, k.dhcsr.trans h.2.1, k.dcrsr.trans h.2.2.1, k.dcrdr.trans h.2.2.2.1, k.regs.trans h.2.2.2.2⟩
    | false =>
      have k := core_readDp c rq.a d t
      exact ⟨k.2.2.2.2.trans h.1, k.1.trans h.2.1, k.2.1.trans h.2.2.1, k.2.2.1.trans h.2.2.2.1, k.2.2.2.1.trans h.2.2.2.2⟩
  write := fun rq c t hq hr h => by
    have k : Core t (targetWrite c rq.apndp rq.a rq.data t) := by
      cases h1 : rq.apndp with
      | true => exact core_writeAp c _ _ t fun h2 => hq ⟨h1, hr, h2⟩
      | false => exact core_writeDp c _ _ t
    exact ⟨k.mem.trans h.1, k.dhcsr.trans h.2.1, k.dcrsr.trans h.2.2.1, k.dcrdr.trans h.2.2.2.1, k.regs.trans h.2.2.2.2⟩
  fault := fun _ h => h
  rec1 := by rintro ⟨h, _⟩; cases h
  rec2 := by rintro ⟨h, _⟩; cases h

end Sys2Proof.Machine
end

