-- ==== Sys2Proof/Laws/Commands.lean ====
section
/-! SUPPORT. A register command (R150 to R155) in which one transaction meets WAIT, a FAULT or a protocol error, the SELECT
write of its bank check, the posted read and the RDBUFF read included. -/

namespace Sys2Proof.Machine

/-- What a transaction that succeeded leaves besides its accesses; `g` is what the recovery, if any, did to the session. -/
structure Settled (a : Access) (g : Session → Session) (n : Nat) (b : Bool) (s t : State) : Prop where
  sess : t.sess = g s.sess
  waitCount : t.dp.waitCount = n
  retried : t.dp.faultRetried = b
  rdata : a.rq.rnw = true → t.dp.rdata = a.answer

/-- No recovery, or one. -/
def Recovering (g : Session → Session) : Prop := g = id ∨ ∃ v, g = recovered v

/-! ## Chains of transactions -/

/-- A place in a chain of accesses: the first of them, or one further on. -/
theorem split_cons {x a : Access} {l b c : List Access} (h : x :: l = b ++ a :: c) :
    (b = [] ∧ a = x ∧ c = l) ∨ ∃ b', b = x :: b' ∧ l = b' ++ a :: c := by
  cases b with
  | nil => simp only [List.nil_append, List.cons.injEq] at h; exact .inl ⟨rfl, h.1.symm, h.2.symm⟩
  | cons y b => simp only [List.cons_append, List.cons.injEq] at h; exact .inr ⟨b, by rw [h.1], h.2⟩

/-- `m` makes the accesses `L`, with the session after them `f` of the one before, and `R`; also when one of them takes the
accesses `A` to succeed (`settles`), and it stops with one that fails (`fails`), where `p` says how the session then is. -/
structure Chain (cfg : Config) (m : Engine Unit) (L : List Access) (f : Session → Session)
    (p : List Access → Session → Session) (R : State → Prop) : Prop where
  good : ∀ t : State, t.cfg = cfg → Does m L t fun _ u => u.sess = f t.sess ∧ R u
  settles : ∀ (t : State) (b : List Access) (a : Access) (c A : List Access) (g : Session → Session) (n : Nat) (r : Bool), t.cfg = cfg →
    L = b ++ a :: c → Recovering g → (∀ u : State, u.cfg = cfg → Does (transact a.rq) A u fun _ w => Settled a g n r u w) →
    Does m (b ++ A ++ c) t fun _ u => u.sess = g (f t.sess) ∧ R u ∧ (c = [] → u.dp.waitCount = n ∧ u.dp.faultRetried = r)
  fails : ∀ (t : State) (b : List Access) (a : Access) (c A : List Access) (e : Session → Session) (cause : FailCause)
      (X : State → Prop), t.cfg = cfg → L = b ++ a :: c →
    (∀ u : State, u.cfg = cfg → Fails (transact a.rq) A u fun w => Failed cause none (e u.sess) u w ∧ X w) →
    Fails m (b ++ A) t fun w => Failed cause none (e (p b t.sess)) t w ∧ X w

/-- The last transaction of a command, then writes of the session and the results. -/
theorem chain_last (cfg : Config) (x : Access) (hx : x.Good) (k : Unit → Engine Unit) (f : Session → Session) (R : State → Prop)
    (hf : ∀ g ss, Recovering g → f (g ss) = g (f ss))
    (hk : ∀ t : State, (x.rq.rnw = true → t.dp.rdata = x.answer) →
      Does (k ()) [] t fun _ u => u.sess = f t.sess ∧ R u ∧ u.dp = t.dp) :
    Chain cfg (transact x.rq >>= k) [x] f (fun _ => id) R where
  good := fun t _ => (transact_does x hx t).followed fun _ u _ _ hu => (hk u hu.rdata).weaken fun _ w hw =>
    ⟨by rw [hw.1, hu.sess], hw.2.1⟩
  settles := by
    intro t b a c A g n r hc h hg H
    rcases split_cons h with ⟨rfl, rfl, rfl⟩ | ⟨b', _, h⟩
    · rw [List.nil_append, List.append_nil]
      exact (H t hc).followed fun _ u _ _ hu => (hk u hu.rdata).weaken fun _ w hw =>
        ⟨by rw [hw.1, hu.sess, hf g _ hg], hw.2.1, fun _ => by rw [hw.2.2]; exact ⟨hu.waitCount, hu.retried⟩⟩
    · cases b' <;> cases h
  fails := by
    intro t b a c A e cause X hc h H
    rcases split_cons h with ⟨rfl, rfl, rfl⟩ | ⟨b', _, h⟩
    · exact (H t hc).stop
    · cases b' <;> cases h

/-- A transaction, a write of the session, and the rest of the command. -/
theorem chain_cons (cfg : Config) (x : Access) (hx : x.Good) (w : Session → Session) {m : Engine Unit} {L : List Access}
    {R : State → Prop} (hw : ∀ g ss, Recovering g → w (g ss) = g (w ss)) (hL : L ≠ []) (hm : Chain cfg m L id (fun _ => id) R) :
    Chain cfg (transact x.rq >>= fun _ => (modify fun s => { s with sess := w s.sess } : Engine Unit) >>= fun _ => m) (x :: L) w
      (fun b ss => if b = [] then ss else w ss) R where
  good := fun t hc => (transact_does x hx t).bind (bs := L) fun _ u _ d hu => does_modifyBind (fun d => { d with })
    ((hm.good { u with sess := w u.sess } (d.cfg.trans hc)).weaken fun _ v hv => ⟨by rw [hv.1]; simp only [id_eq, hu.sess], hv.2⟩)
  settles := by
    intro t b a c A g n r hc h hg H
    rcases split_cons h with ⟨rfl, rfl, hcl⟩ | ⟨b', rfl, h2⟩
    · rw [List.nil_append, hcl]
      exact (H t hc).bind fun _ u _ d hu => does_modifyBind (fun d => { d with })
        ((hm.good { u with sess := w u.sess } (d.cfg.trans hc)).weaken fun _ v hv =>
          ⟨by rw [hv.1]; simp only [id_eq, hu.sess, hw g _ hg], hv.2, fun h => absurd h hL⟩)
    · rw [List.cons_append, List.cons_append, ← List.singleton_append]
      exact (transact_does x hx t).bind fun _ u _ d hu => does_modifyBind (fun d => { d with })
        ((hm.settles { u with sess := w u.sess } b' a c A g n r (d.cfg.trans hc) h2 hg H).weaken fun _ v hv =>
          ⟨by rw [hv.1]; simp only [id_eq, hu.sess], hv.2⟩)
  fails := by
    intro t b a c A e cause X hc h H
    rcases split_cons h with ⟨rfl, rfl, hcl⟩ | ⟨b', rfl, h2⟩
    · exact (H t hc).stop
    · rw [List.cons_append, ← List.singleton_append]
      refine (transact_does x hx t).fails fun _ u _ d hu => fails_modifyBind (fun d => { d with }) ?_
      refine (hm.fails { u with sess := w u.sess } b' a c A e cause X (d.cfg.trans hc) h2 H).weaken fun v hv => ⟨?_, hv.2⟩
      have d' : Did [x] _ t { u with sess := w u.sess } := { d with }
      have f := Failed.after d' hv.1
      simp only [id_eq, hu.sess] at f
      rwa [if_neg (by simp)]

/-! ## The four register commands -/

theorem recovering_commutes {w : Session → Session} (h : ∀ v ss, w (recovered v ss) = recovered v (w ss)) :
    ∀ g ss, Recovering g → w (g ss) = g (w ss) := by
  rintro g ss (rfl | ⟨v, rfl⟩)
  · rfl
  · exact h v ss

/-- The end of a read: its data is the result. -/
theorem chain_readEnd (cfg : Config) (x : Access) (hx : x.Good) (hr : x.rq.rnw = true) (R : State → Prop)
    (hR : ∀ t : State, t.res.ok = true → t.res.value = x.answer → R t) :
    Chain cfg (transact x.rq >>= fun _ => do modify resultFromRdata; modify (setOk true)) [x] id (fun _ => id) R :=
  chain_last cfg x hx _ id R (fun _ _ _ => rfl) fun t ht => does_modifyBind (fun d => { d with })
    (does_modify (fun d => { d with }) ⟨rfl, hR _ rfl (ht hr), rfl⟩)

/-- The end of an AP write. -/
theorem chain_writeEnd (cfg : Config) (x : Access) (hx : x.Good) (R : State → Prop) (hR : ∀ t : State, t.res.ok = true → R t) :
    Chain cfg (transact x.rq >>= fun _ => modify (setOk true)) [x] id (fun _ => id) R :=
  chain_last cfg x hx _ id R (fun _ _ _ => rfl) fun _ _ => does_modify (fun d => { d with }) ⟨rfl, hR _ rfl, rfl⟩

/-- The two reads of `RD_AP`. -/
theorem chain_apRead (cfg : Config) (o : BitVec 2) (posted v : Word) (R : State → Prop)
    (hR : ∀ t : State, t.res.ok = true → t.res.value = v → R t) :
    Chain cfg (do
        transact (Request.readAp o)
        transact (Request.readDp dpRdbuff)
        modify resultFromRdata
        modify (setOk true))
      [Access.read (Request.readAp o) posted, Access.read (Request.readDp dpRdbuff) v] id (fun _ => id) R := by
  have h := chain_cons cfg (Access.read (Request.readAp o) posted) (good_readAp _ _) id (fun _ _ _ => rfl) (by simp)
    (chain_readEnd cfg (Access.read (Request.readDp dpRdbuff) v) (good_read _ _) rfl R hR)
  have e : (fun (b : List Access) (ss : Session) => if b = [] then ss else id ss) = fun _ => id := by
    funext b ss
    by_cases hb : b = [] <;> simp [hb]
  rw [e] at h
  exact h

/-- An AP access after its bank check (R150): the chain of its own transactions, with the SELECT write before it when the
session calls for one. -/
theorem chain_bank (s : State) (addr : BitVec 8) {m : Engine Unit} {L : List Access} {R : State → Prop} (hL : L ≠ [])
    (hm : Chain s.cfg m L id (fun _ => id) R) :
    ∃ (m' : Engine Unit) (f : Session → Session) (p : List Access → Session → Session),
      Chain s.cfg m' (bankAccesses s.cfg s.sess addr ++ L) f p R ∧ (bankCheck addr >>= fun _ => m) s = m' s ∧
      f s.sess = withBank s.cfg s.sess addr ∧ ∀ b, p b s.sess = if b = [] then s.sess else withBank s.cfg s.sess addr := by
  by_cases hc : s.sess.selValid = true ∧ s.sess.selCache = selectValue s.cfg (apBank addr)
  · have hb : withBank s.cfg s.sess addr = s.sess := by unfold withBank; rw [← hc.1, ← hc.2]
    refine ⟨m, id, fun _ => id, ?_, ?_, hb.symm, fun b => ?_⟩
    · unfold bankAccesses
      rw [if_pos hc]
      exact hm
    · refine bind_of_ok (a := ()) ?_
      unfold bankCheck
      rw [get_bind, if_neg (by simp [hc])]
      rfl
    · rw [hb]; exact (ite_self _).symm
  · have h := chain_cons s.cfg (Access.write (Request.writeDp dpSelect (selectValue s.cfg (apBank addr)))) (good_writeDp _ _ (by decide))
      (fun ss => withBank s.cfg ss addr) (recovering_commutes (w := fun ss => withBank s.cfg ss addr) fun _ _ => rfl) hL hm
    have e : bankAccesses s.cfg s.sess addr ++ L =
        Access.write (Request.writeDp dpSelect (selectValue s.cfg (apBank addr))) :: L := by
      unfold bankAccesses
      rw [if_neg hc]
      rfl
    rw [e]
    refine ⟨_, _, _, h, ?_, rfl, fun b => rfl⟩
    unfold bankCheck
    simp only [bind_assoc, get_bind]
    rw [if_pos (by rw [not_and_or] at hc; simpa using hc)]
    simp only [bind_assoc]
    rfl

/-- A register command is the chain of its accesses. -/
theorem command_chain (i : Instr) (s : State) (hi : i ∈ [Instr.rdDp, .wrDp, .rdAp, .wrAp]) (hw : i.wellFormed s.cfg s.op = true)
    (posted v : Word) :
    ∃ (m : Engine Unit) (f : Session → Session) (p : List Access → Session → Session),
      Chain s.cfg m (commandAccesses s.cfg s.op s.sess posted v i) f p
        (fun u => u.res.ok = true ∧ (i = .rdDp ∨ i = .rdAp → u.res.value = v)) ∧
      Instr.operation s i s = m s ∧ f s.sess = commandSession s.cfg s.op s.sess i ∧
      ∀ b a c, commandAccesses s.cfg s.op s.sess posted v i = b ++ a :: c → p b s.sess = sessionBefore s.cfg s.op s.sess b := by
  have one : ∀ {x a : Access} {b c : List Access}, [x] = b ++ a :: c → b = [] := by
    intro x a b c h
    rcases split_cons h with ⟨h, _⟩ | ⟨b', _, h⟩
    · exact h
    · cases b' <;> cases h
  simp only [List.mem_cons, List.not_mem_nil, or_false] at hi
  rcases hi with rfl | rfl | rfl | rfl
  · refine ⟨_, id, fun _ => id, chain_readEnd s.cfg (Access.read (Request.readDp (regOffset s.op.addr)) v) (good_read _ _) rfl _
      fun t h1 h2 => ⟨h1, fun _ => h2⟩, ?_, rfl, fun b a c h => ?_⟩
    · have hw' : dpReadAddrOk s.op.addr = true := hw
      simp only [Instr.operation, rdDp, hw', refuseUnless_true, pure_bind]
      rfl
    · unfold sessionBefore; rw [if_pos (one h)]; rfl
  · have hw' : dpWriteAddrOk s.op.addr = true := hw
    let f : Session → Session := fun ss => commandSession s.cfg s.op ss .wrDp
    have hf : ∀ u : State, (afterWrDp s.op.addr s.op.value u).sess = f u.sess := by
      intro u
      simp only [f, commandSession, afterWrDp, cacheSelect]
      rcases dpWriteAddrOk_cases hw' with h | h | h <;> rw [h] <;> rfl
    have hg : (Access.write (Request.writeDp (regOffset s.op.addr) s.op.value)).Good :=
      ⟨writeDp_addr_ok hw' _, rfl, by simp [Access.outcome, Access.write, Request.writeDp]⟩
    refine ⟨_, f, fun _ => id, chain_last s.cfg (Access.write (Request.writeDp (regOffset s.op.addr) s.op.value)) hg
      (fun _ => do modify (afterWrDp s.op.addr s.op.value); modify (setOk true)) f _ (recovering_commutes fun c ss => ?_) fun t _ => ?_,
      ?_, rfl, fun b a c h => ?_⟩
    · simp only [f, commandSession, recovered]
      split
      · rfl
      · split <;> rfl
    · refine does_modifyBind (fun d => ?_) (does_modify (fun d => { d with }) ⟨hf t, ⟨rfl, fun h => by rcases h with h | h <;> cases h⟩, ?_⟩)
      · unfold afterWrDp
        split
        · exact { d with }
        · split
          · exact { d with }
          · exact d
      · show (afterWrDp s.op.addr s.op.value t).dp = t.dp
        unfold afterWrDp
        split
        · rfl
        · split <;> rfl
    · simp only [Instr.operation, wrDp, hw', refuseUnless_true, pure_bind]
      rfl
    · unfold sessionBefore; rw [if_pos (one h)]; rfl
  · have hw' : apAddrOk s.op.addr = true := hw
    obtain ⟨m', f, p, h1, h2, h3, h4⟩ := chain_bank s s.op.addr (by simp)
      (chain_apRead s.cfg (regOffset s.op.addr) posted v (fun u => u.res.ok = true ∧ (Instr.rdAp = .rdDp ∨ Instr.rdAp = .rdAp → u.res.value = v))
        fun t h1 h2 => ⟨h1, fun _ => h2⟩)
    refine ⟨m', f, p, h1, ?_, h3, fun b _ _ _ => h4 b⟩
    rw [← h2]
    simp only [Instr.operation, rdAp, hw', refuseUnless_true, pure_bind]
  · have hw' : apAddrOk s.op.addr = true := hw
    obtain ⟨m', f, p, h1, h2, h3, h4⟩ := chain_bank s s.op.addr (by simp)
      (chain_writeEnd s.cfg (Access.write (Request.writeAp (regOffset s.op.addr) s.op.value)) (good_writeAp _ _)
        (fun u => u.res.ok = true ∧ (Instr.wrAp = .rdDp ∨ Instr.wrAp = .rdAp → u.res.value = v))
        fun t h1 => ⟨h1, fun h => by rcases h with h | h <;> cases h⟩)
    refine ⟨m', f, p, h1, ?_, h3, fun b _ _ _ => h4 b⟩
    rw [← h2]
    simp only [Instr.operation, wrAp, hw', refuseUnless_true, pure_bind]
    rfl

/-- A register command one of whose transactions takes the accesses `A` to succeed. -/
theorem command_settles (i : Instr) (s : State) (hi : i ∈ [Instr.rdDp, .wrDp, .rdAp, .wrAp]) (hw : i.wellFormed s.cfg s.op = true)
    {posted v : Word} {b c A : List Access} {a : Access} (h : commandAccesses s.cfg s.op s.sess posted v i = b ++ a :: c)
    {g : Session → Session} {n : Nat} {r : Bool} (hg : Recovering g)
    (H : ∀ u : State, u.cfg = s.cfg → Does (transact a.rq) A u fun _ w => Settled a g n r u w) :
    Does (Instr.operation s i) (b ++ A ++ c) s fun _ u => u.res.ok = true ∧ (i = .rdDp ∨ i = .rdAp → u.res.value = v) ∧
      u.sess = g (commandSession s.cfg s.op s.sess i) ∧ (c = [] → u.dp.waitCount = n ∧ u.dp.faultRetried = r) := by
  obtain ⟨m, f, p, hm, e, hf, _⟩ := command_chain i s hi hw posted v
  intro rest hd hr
  obtain ⟨_, t, e2, d, h1, h2, h3⟩ := hm.settles s b a c A g n r rfl h hg H rest hd hr
  exact ⟨(), t, e.trans e2, d, h2.1, h2.2, by rw [h1, hf], h3⟩

/-- A register command one of whose transactions fails. -/
theorem command_fails (i : Instr) (s : State) (hi : i ∈ [Instr.rdDp, .wrDp, .rdAp, .wrAp]) (hw : i.wellFormed s.cfg s.op = true)
    {posted v : Word} {b c A : List Access} {a : Access} (h : commandAccesses s.cfg s.op s.sess posted v i = b ++ a :: c)
    {g : Session → Session} {cause : FailCause} {X : State → Prop}
    (H : ∀ u : State, u.cfg = s.cfg → Fails (transact a.rq) A u fun w => Failed cause none (g u.sess) u w ∧ X w) :
    Fails (Instr.operation s i) (b ++ A) s fun w => Failed cause none (g (sessionBefore s.cfg s.op s.sess b)) s w ∧ X w := by
  obtain ⟨m, f, p, hm, e, _, hp⟩ := command_chain i s hi hw posted v
  intro rest hd hr
  obtain ⟨t, e2, d, h1⟩ := hm.fails s b a c A g cause X rfl h H rest hd hr
  rw [hp b a c h] at h1
  exact ⟨t, e.trans e2, d, h1⟩

/-- Every access of a register command is answered OK. -/
theorem command_good (i : Instr) (s : State) (hi : i ∈ [Instr.rdDp, .wrDp, .rdAp, .wrAp]) (hw : i.wellFormed s.cfg s.op = true)
    {posted v : Word} {a : Access} (h : a ∈ commandAccesses s.cfg s.op s.sess posted v i) : a.Good := by
  have bank : a ∈ bankAccesses s.cfg s.sess s.op.addr → a.Good := by
    unfold bankAccesses
    split
    · intro h; cases h
    · intro h
      rw [List.mem_singleton.1 h]
      exact good_writeDp _ _ (by decide)
  simp only [List.mem_cons, List.not_mem_nil, or_false] at hi
  rcases hi with rfl | rfl | rfl | rfl
  · rw [List.mem_singleton.1 h]; exact good_read _ _
  · rw [List.mem_singleton.1 h]
    exact ⟨writeDp_addr_ok hw _, rfl, by simp [Access.outcome, Access.write, Request.writeDp]⟩
  · rcases List.mem_append.1 h with h | h
    · exact bank h
    · rcases List.mem_cons.1 h with rfl | h
      · exact good_readAp _ _
      · rw [List.mem_singleton.1 h]; exact good_read _ _
  · rcases List.mem_append.1 h with h | h
    · exact bank h
    · rw [List.mem_singleton.1 h]; exact good_writeAp _ _

end Sys2Proof.Machine
end

