-- ==== Sys2Proof/Laws/Image.lean ====
section
/-! SUPPORT. What a load operation leaves in the target (43_connection_control.md R168 to R170, 44_memory_loader.md R174 to R177; log 7). -/

namespace Sys2Proof.Machine

/-! ## The words of an admitted plan lie apart -/

def Within (lo hi : Nat) (x : Addr32 × Word) : Prop := lo ≤ x.1.toNat ∧ x.1.toNat + 4 ≤ hi

def WordsApart (x y : Addr32 × Word) : Prop := x.1.toNat + 4 ≤ y.1.toNat ∨ y.1.toNat + 4 ≤ x.1.toNat

theorem wordsAt_in (base : Addr32) (ws : List Word) : ∀ j, base.toNat + 4 * (j + ws.length) ≤ 4294967296 →
    (∀ x ∈ wordsAt base j ws, Within (base.toNat + 4 * j) (base.toNat + 4 * (j + ws.length)) x) ∧
        (wordsAt base j ws).Pairwise WordsApart := by
  induction ws with
  | nil => intro j _; simp [wordsAt]
  | cons w ws ih =>
    intro j hj
    simp only [List.length_cons] at hj ⊢
    obtain ⟨h1, h2⟩ := ih (j + 1) (by omega)
    have ha : (base + BitVec.ofNat 32 (4 * j)).toNat = base.toNat + 4 * j := by
      simp only [BitVec.toNat_add, BitVec.toNat_ofNat]
      omega
    simp only [wordsAt, List.mem_cons, List.pairwise_cons, forall_eq_or_imp]
    refine ⟨⟨⟨by rw [ha], by rw [ha]; omega⟩, fun x hx => ?_⟩, fun x hx => ?_, h2⟩
    · obtain ⟨a, b⟩ := h1 x hx
      exact ⟨by omega, by omega⟩
    · obtain ⟨a, b⟩ := h1 x hx
      left; show (base + BitVec.ofNat 32 (4 * j)).toNat + 4 ≤ _
      rw [ha]; omega

/-- A section whose bytes are `len` long, whole words, inside the address space. -/
structure WholeSection (s : Section) : Prop where
  len : s.bytes.length = s.len
  align : s.len % 4 = 0
  fits : s.addr.toNat + s.len ≤ 4294967296

theorem section_words {s : Section} (h : WholeSection s) : (∀ x ∈ wordsAt s.addr 0 (sectionWords s), Within s.addr.toNat
    (s.addr.toNat + s.len) x) ∧ (wordsAt s.addr 0 (sectionWords s)).Pairwise WordsApart := by
  have e : (sectionWords s).length = s.len / 4 := by
    unfold sectionWords
    refine wordsOfBytes_length _ _ ?_
    simp only [List.length_take, h.len, Nat.min_self]
    have := h.align
    omega
  have hl : 4 * (s.len / 4) = s.len := by have := h.align; omega
  obtain ⟨a, b⟩ := wordsAt_in s.addr (sectionWords s) 0 (by rw [e, Nat.zero_add, hl]; exact h.fits)
  rw [e, Nat.zero_add, hl] at a
  exact ⟨fun x hx => by simpa using a x hx, b⟩

theorem sections_off (secs : List Section) (hg : ∀ s ∈ secs, WholeSection s) (hd : sectionsDisjoint secs = true) :
    (secs.flatMap fun s => wordsAt s.addr 0 (sectionWords s)).Pairwise WordsApart ∧ ∀ x ∈ secs.flatMap
        fun s => wordsAt s.addr 0 (sectionWords s), x.1.toNat + 4 ≤ 4294967296 := by
  induction secs with
  | nil => simp
  | cons s secs ih =>
    simp only [sectionsDisjoint, Bool.and_eq_true, List.all_eq_true, Bool.not_eq_true'] at hd
    obtain ⟨i1, i2⟩ := ih (fun x hx => hg x (by simp [hx])) hd.2
    obtain ⟨g1, g2⟩ := section_words (hg s (by simp))
    simp only [List.flatMap_cons]
    refine ⟨List.pairwise_append.2 ⟨g2, i1, fun x hx y hy => ?_⟩, fun x hx => ?_⟩
    · obtain ⟨u, hu, hy⟩ := List.mem_flatMap.1 hy
      have a := g1 x hx
      have b := (section_words (hg u (by simp [hu]))).1 y hy
      have hov := hd.1 u hu
      unfold sectionsOverlap at hov
      simp only [Bool.and_eq_false_iff, decide_eq_false_iff_not] at hov
      unfold Within at a b
      unfold WordsApart
      omega
    · rcases List.mem_append.1 hx with hx | hx
      · have := g1 x hx
        have := (hg s (by simp)).fits
        unfold Within at *
        omega
      · exact i2 x hx

theorem sections_len (as : List Addr32) : ∀ bs : List Buffer, (∀ b ∈ bs, b.len = b.bytes.length) →
    ∀ s ∈ List.zipWith (fun a (b : Buffer) => ({ addr := a, bytes := b.bytes, len := b.len } : Section)) as bs,
        s.bytes.length = s.len := by
  induction as with
  | nil => intro bs _ s hs; simp at hs
  | cons a as ih =>
    intro bs hb s hs
    cases bs with
    | nil => simp at hs
    | cons b bs =>
      simp only [List.zipWith_cons_cons, List.mem_cons] at hs
      rcases hs with rfl | hs
      · exact (hb b (by simp)).symm
      · exact ih bs (fun x hx => hb x (by simp [hx])) s hs

theorem plan_off (cfg : Config) (p : LoadPlan) (h : planAdmitted cfg p = true) :
    (planWords p).Pairwise WordsApart ∧ ∀ x ∈ planWords p, x.1.toNat + 4 ≤ 4294967296 := by
  unfold planAdmitted at h
  simp only [Bool.and_eq_true, List.all_eq_true] at h
  obtain ⟨⟨⟨⟨⟨h1, _⟩, h3⟩, h4⟩, h5⟩, _⟩ := h
  simp only [countsAgree, Bool.and_eq_true, List.all_eq_true, beq_iff_eq] at h1
  refine sections_off _ (fun s hs => ⟨sections_len _ _ h1.2 s hs, ?_, ?_⟩) h3
  · have := h4 s hs
    simp only [sectionAligned, Bool.and_eq_true, beq_iff_eq] at this
    exact this.2
  · have := h5 s hs
    simpa only [sectionFits, decide_eq_true_eq] using this

theorem byteAddr_eq {a : Addr32} {k : Nat} (hk : k < 4) (ha : a.toNat + 4 ≤ 4294967296) : byteAddr a k = a.toNat + k := by
  simp only [byteAddr, BitVec.toNat_add, BitVec.toNat_ofNat]
  omega

theorem store_outside (ws : List (Addr32 × Word)) : ∀ m b, (∀ w ∈ ws, ∀ k < 4, b ≠ byteAddr w.1 k) → readByte
    (storeWords m ws) b = readByte m b := by
  induction ws with
  | nil => intro m b _; rfl
  | cons w ws ih =>
    intro m b hb
    show readByte (storeWords (writeWord m w.1 w.2) ws) b = _
    rw [ih _ b fun x hx => hb x (by simp [hx])]
    exact readByte_writeWord_ne _ _ _ _ (hb w (by simp))

theorem word_of_bytes (v : Word) : wordOfBytes (byteOfWord v 0) (byteOfWord v 1) (byteOfWord v 2) (byteOfWord v 3) = v := by
  apply BitVec.eq_of_getLsbD_eq
  intro i hi
  simp only [wordOfBytes, byteOfWord, BitVec.getLsbD_append, BitVec.getLsbD_extractLsb']
  interval_cases i <;> simp

theorem store_inside (ws : List (Addr32 × Word)) : ∀ m, Memory.wf m = true → ws.Pairwise WordsApart → (∀ x ∈ ws,
    x.1.toNat + 4 ≤ 4294967296) →
    ∀ w ∈ ws, readWord (storeWords m ws) w.1 = w.2 := by
  induction ws with
  | nil => intro m _ _ _ w hw; simp at hw
  | cons x ws ih =>
    intro m hm hp hl w hw
    rw [List.pairwise_cons] at hp
    have hm' := wf_writeWord m hm x.1 x.2
    show readWord (storeWords (writeWord m x.1 x.2) ws) w.1 = w.2
    rcases List.mem_cons.1 hw with rfl | hw
    · have each : ∀ k < 4, readByte (storeWords (writeWord m w.1 w.2) ws) (byteAddr w.1 k) = byteOfWord w.2 k := by
        intro k hk
        rw [store_outside ws _ _ fun y hy j hj => ?_]
        · exact readByte_writeWord_self m hm _ _ _ hk
        · rw [byteAddr_eq hk (hl w (by simp)), byteAddr_eq hj (hl y (by simp [hy]))]
          have := hp.1 y hy
          unfold WordsApart at this
          omega
      unfold readWord
      rw [each 0 (by omega), each 1 (by omega), each 2 (by omega), each 3 (by omega)]
      exact word_of_bytes w.2
    · exact ih _ hm' hp.2 (fun y hy => hl y (by simp [hy])) w hw

theorem dcrsrValue_bits (r : BitVec 5) : (dcrsrValue r).getLsbD 16 = true ∧ (dcrsrValue r).extractLsb' 0 5 = r := by
  revert r; decide

/-- What `SET_REG` leaves in the core (R208, R209). -/
def RegSet (t0 : Target) (order : SetRegOrder) (r : BitVec 5) (v : Word) (t : Target) : Prop :=
  t.dcrdr = v ∧ t.dhcsr = t0.dhcsr ∧ t.mem = t0.mem ∧ t.coreRegs =
    if coreHalted t0 then t0.coreRegs.set r.toNat (if order = .dataThenSelect then v else t0.dcrdr) else t0.coreRegs

theorem stored_dcrsr (r : BitVec 5) (u t : Target) (h : Stored True dcrsrAddr (dcrsrValue r) u t) :
    t.dcrdr = u.dcrdr ∧ t.dhcsr = u.dhcsr ∧ t.mem = u.mem ∧
      t.coreRegs = if coreHalted u then u.coreRegs.set r.toNat u.dcrdr else u.coreRegs := by
  have k := h.exact trivial fun _ => (dcrsrValue_bits r).1
  have e : storeTarget dcrsrAddr (dcrsrValue r) u = freeDhcsrStatus sRegRdy { u with
      dcrsr := dcrsrValue r
      coreRegs := if coreHalted u then u.coreRegs.set r.toNat u.dcrdr else u.coreRegs } := by
    unfold storeTarget
    rw [if_neg (by decide), if_pos rfl, writeDcrsr_write _ u (dcrsrValue_bits r).1, (dcrsrValue_bits r).2]
  rw [e] at k
  exact ⟨k.dcrdr, k.dhcsr, k.mem, k.regs⟩

theorem stored_dcrdr (v : Word) (u t : Target) (h : Stored True dcrdrAddr v u t) :
    t.dcrdr = v ∧ t.dhcsr = u.dhcsr ∧ t.mem = u.mem ∧ t.coreRegs = u.coreRegs ∧ coreHalted t = coreHalted u := by
  have k := h.exact trivial fun hx => absurd hx (by decide)
  have e : storeTarget dcrdrAddr v u = { u with dcrdr := v } := by
    unfold storeTarget
    rw [if_neg (by decide), if_neg (by decide), if_pos rfl]
  rw [e] at k
  exact ⟨k.dcrdr, k.dhcsr, k.mem, k.regs, h.halted trivial (by decide) fun hx => absurd hx (by decide)⟩

/-- `SET_REG` with true caches. -/
theorem ends_setReg_exact (c0 : Config) (hp : paramsValid c0 = true) (r : BitVec 5) (v : Word) (t0 : Target)
    (F : Target → Prop) (hF : ∀ t, F t) :
    Ends True (Holds (Exactly True c0 fun t => t.dcrdr = t0.dcrdr ∧ t.dhcsr = t0.dhcsr ∧ t.mem = t0.mem ∧
        t.coreRegs = t0.coreRegs ∧ coreHalted t = coreHalted t0)) (setReg r v)
      (fun _ => Holds (Exactly True c0 (RegSet t0 c0.setRegOrder r v))) (Holds (Exactly True c0 F)) := by
  have co : ∀ a b c d, CoreOnly fun t => t.dcrdr = a ∧ t.dhcsr = b ∧ t.mem = c ∧ t.coreRegs = d :=
    fun a b c d u t h k => ⟨k.dcrdr.trans h.1, k.dhcsr.trans h.2.1, k.mem.trans h.2.2.1, k.regs.trans h.2.2.2⟩
  cases ho : c0.setRegOrder with
  | selectThenData =>
    refine ends_setReg_of (fun _ => hp) r (W1 := fun t => t.dcrdr = t0.dcrdr ∧ t.dhcsr = t0.dhcsr ∧ t.mem = t0.mem ∧
      t.coreRegs = if coreHalted t0 then t0.coreRegs.set r.toNat t0.dcrdr else t0.coreRegs) (fun _ => co _ _ _ _) (co _ _ _ _)
      (fun _ => ⟨fun u t hu h => ?_, fun u t hu h => ?_⟩) (fun h => by rw [ho] at h; cases h) (fun _ _ _ _ => hF _)
    · have := stored_dcrsr r u t h
      exact ⟨this.1.trans hu.1, this.2.1.trans hu.2.1, this.2.2.1.trans hu.2.2.1, by
        rw [this.2.2.2, hu.2.2.2.1, hu.2.2.2.2, hu.1]⟩
    · have := stored_dcrdr v u t h
      exact ⟨this.1, this.2.1.trans hu.2.1, this.2.2.1.trans hu.2.2.1, by rw [this.2.2.2.1, hu.2.2.2]; rfl⟩
  | dataThenSelect =>
    refine ends_setReg_of (fun _ => hp) r (W1 := fun t => t.dcrdr = v ∧ t.dhcsr = t0.dhcsr ∧ t.mem = t0.mem ∧
      t.coreRegs = t0.coreRegs ∧ coreHalted t = coreHalted t0) (fun h => by rw [ho] at h; cases h) (co _ _ _ _)
      (fun h => by rw [ho] at h; cases h) (fun _ => ⟨fun u t hu h => ?_, fun u t hu h => ?_⟩) (fun _ _ _ _ => hF _)
    · have := stored_dcrdr v u t h
      exact ⟨this.1, this.2.1.trans hu.2.1, this.2.2.1.trans hu.2.2.1, this.2.2.2.1.trans hu.2.2.2.1,
        this.2.2.2.2.trans hu.2.2.2.2⟩
    · have := stored_dcrsr r u t h
      exact ⟨this.1.trans hu.1, this.2.1.trans hu.2.1, this.2.2.1.trans hu.2.2.1, by
        rw [this.2.2.2, hu.2.2.2.1, hu.2.2.2.2, hu.1]; rfl⟩

theorem connect_read (c : Config) (a : BitVec 2) (ha : a = 0 ∨ a = 1) (d : Option Word) (t : Target) :
    targetRead c false a d t = { t with idcode := (targetRead c false a d t).idcode, ctrlStat := (targetRead c false a d t).ctrlStat, draws := (targetRead c false a d t).draws } := by
  cases d with
  | none => rfl
  | some d =>
    rcases ha with rfl | rfl
    · rfl
    · simp only [targetRead, targetReadDp, dpCtrlStat]
      by_cases h : dpBankZero t = true <;> simp [h]

theorem connect_write (c : Config) (a : BitVec 2) (ha : a = 0 ∨ a = 1) (v : Word) (t : Target) :
    targetWrite c false a v t = { t with idcode := (targetWrite c false a v t).idcode, ctrlStat := (targetWrite c false a v t).ctrlStat, draws := (targetWrite c false a v t).draws } := by
  rcases ha with rfl | rfl
  · rfl
  · simp only [targetWrite, dpCtrlStat, dpAbort, writeCtrlStat, drawWord]
    by_cases h : dpBankZero t = true <;> simp [h]

/-! ## The load operation -/

def DataFirst (c : Config) : Prop := c.setRegOrder = .dataThenSelect

/-- What a `SET_REG` under DataThenSelect leaves of registers that were among `R`, in Debug state or not. -/
def SetIn (r : BitVec 5) (v : Word) (R : List Word → Prop) (x : List Word) : Prop :=
  ∃ y, R y ∧ (x = y ∨ x = y.set r.toNat v)

theorem ends_setReg_chain (c0 : Config) (hp : paramsValid c0 = true) (r : BitVec 5) (v : Word) (m : List Host.Cell)
    (R : List Word → Prop) {F : Target → Prop} (hF : ∀ t, t.mem = m → F t) :
    Ends True (Holds (Exactly True c0 fun t => t.mem = m ∧ t.dhcsr = 3#32 ∧ (DataFirst c0 → R t.coreRegs))) (setReg r v)
      (fun _ => Holds (Exactly True c0 fun t => t.mem = m ∧ t.dhcsr = 3#32 ∧ (DataFirst c0 →
          SetIn r v R t.coreRegs))) (Holds (Exactly True c0 F)) := by
  have co : ∀ P : List Word → Prop, CoreOnly fun t => t.mem = m ∧ t.dhcsr = 3#32 ∧ (DataFirst c0 → P t.coreRegs) :=
    fun P u t h k => ⟨k.mem.trans h.1, k.dhcsr.trans h.2.1, fun d => by rw [k.regs]; exact h.2.2 d⟩
  have co1 : CoreOnly fun t => t.mem = m ∧ t.dhcsr = 3#32 ∧ (DataFirst c0 → R t.coreRegs ∧ t.dcrdr = v) :=
    fun u t h k => ⟨k.mem.trans h.1, k.dhcsr.trans h.2.1, fun d => by rw [k.regs, k.dcrdr]; exact h.2.2 d⟩
  refine ends_setReg_of (fun _ => hp) r (W1 := fun t => t.mem = m ∧ t.dhcsr = 3#32 ∧ (DataFirst c0 → R t.coreRegs ∧
      t.dcrdr = v)) (fun _ => co1) (co _) (fun ho => ?_) (fun ho => ?_) ?_
  · have nd : ¬DataFirst c0 := fun d => by rw [DataFirst, ho] at d; cases d
    refine ⟨fun u t hu h => ?_, fun u t hu h => ?_⟩
    · have := stored_dcrsr r u t h
      exact ⟨this.2.2.1.trans hu.1, this.2.1.trans hu.2.1, fun d => absurd d nd⟩
    · have := stored_dcrdr v u t h
      exact ⟨this.2.2.1.trans hu.1, this.2.1.trans hu.2.1, fun d => absurd d nd⟩
  · refine ⟨fun u t hu h => ?_, fun u t hu h => ?_⟩
    · have := stored_dcrdr v u t h
      exact ⟨this.2.2.1.trans hu.1, this.2.1.trans hu.2.1, fun d => ⟨by rw [this.2.2.2.1]; exact hu.2.2 d, this.1⟩⟩
    · have := stored_dcrsr r u t h
      refine ⟨this.2.2.1.trans hu.1, this.2.1.trans hu.2.1, fun d => ⟨u.coreRegs, (hu.2.2 d).1, ?_⟩⟩
      rw [this.2.2.2, (hu.2.2 d).2]
      cases coreHalted u
      · exact .inl rfl
      · exact .inr rfl
  · rintro u t (h | h | h) k <;> exact hF t (k.mem.trans h.1)

structure CoreKept (c0 : Config) (m0 : List Host.Cell) (r0 : List Word) (s : State) : Prop where
  cfg : s.cfg = c0
  sv : s.sess.selValid = false
  cw : s.sess.cswConfigured = false
  mem : s.target.mem = m0
  regs : s.target.coreRegs = r0

section
variable (c0 : Config) (m0 : List Host.Cell) (r0 : List Word)
theorem coreKept_Access : AccessStable True (fun rq => rq.apndp = false ∧ (rq.a = 0 ∨ rq.a = 1)) (CoreKept c0 m0 r0)
    (CoreKept c0 m0 r0) where
  exchange := fun rq hq => by
    refine keeps_xfer (.inr trivial) (fun _ _ _ => trivial) fun s h _ => ?_
    have f := exchange_frame rq s
    have tg : (exchange rq s).target = { s.target with idcode := (exchange rq s).target.idcode, ctrlStat := (exchange rq s).target.ctrlStat, draws := (exchange rq s).target.draws } := by
      rcases exchange_cases rq s with ⟨_, d, p, inp, n, e⟩ | ⟨_, inp, n, e⟩ | ⟨ack, inp, n, _, _, e⟩ <;> rw [e]
      · simp only [readDone, hq.1]; exact connect_read _ _ hq.2 _ _
      · simp only [writeDone, hq.1]; exact connect_write _ _ hq.2 _ _
      · simp only [failDone]
        split <;> rfl
    exact ⟨f.1.trans h.cfg, by rw [f.2.2.1]; exact h.sv, by rw [f.2.2.1]; exact h.cw, by rw [tg]; exact h.mem,
        by rw [tg]; exact h.regs⟩
  recoverReads := ⟨rfl, .inr rfl⟩
  recoverWrites := ⟨rfl, .inl rfl⟩
  waitCount := fun _ _ _ h => { h with }
  retried := fun _ _ h => { h with }
  inspected := fun _ _ h => { h with }
  sticky := fun _ h => { h with }
  result := fun _ _ _ h => { h with }
  failed := fun _ _ _ h => { h with }

theorem coreKept_RdDp (a : BitVec 8) (ha : regOffset a = 0 ∨ regOffset a = 1) : Keeps True (CoreKept c0 m0 r0)
    (CoreKept c0 m0 r0) (rdDp a) :=
  keeps_rdDp (coreKept_Access c0 m0 r0) (.inr trivial) ⟨rfl, ha⟩

theorem coreKept_WrDp (a : BitVec 8) (v : Word) (ha : regOffset a = 0 ∨ regOffset a = 1) (h8 : a ≠ 0x8) : Keeps True
    (CoreKept c0 m0 r0) (CoreKept c0 m0 r0) (wrDp a v) :=
  keeps_wrDp (coreKept_Access c0 m0 r0) (.inr trivial) ⟨rfl, ha⟩ fun s h => by
    unfold afterWrDp
    rw [if_neg h8]
    split <;> exact { h with }

theorem coreKept_Drive (bits : List Bool) (s : State) (h : CoreKept c0 m0 r0 s) : CoreKept c0 m0 r0 (driveBits bits s) := by
  rw [driveBits_eq]; exact { h with }

theorem coreKept_Connect : ConnectStable True (CoreKept c0 m0 r0) (CoreKept c0 m0 r0) where
  linkWrite := fun _ b _ _ => (keeps_checkDir (fun _ _ _ => trivial)).bind fun _ => keeps_modify fun s h => coreKept_Drive c0 m0 r0 _ s h
  lineReset := (keeps_checkDir (fun _ _ _ => trivial)).bind fun _ => keeps_modify fun s h => coreKept_Drive c0 m0 r0 _ s h
  readId := coreKept_RdDp c0 m0 r0 _ (.inl rfl)
  readCtrlStat := fun _ _ => keeps_poll (coreKept_RdDp c0 m0 r0 _ (.inr rfl)) (fun _ _ h => { h with }) _ _
  writeAbort := coreKept_WrDp c0 m0 r0 _ _ (.inl rfl) (by decide)
  writeCtrlStat := coreKept_WrDp c0 m0 r0 _ _ (.inr rfl) (by decide)
  enter := fun s _ p h => { h with }
  ready := fun _ h => { h with }
  inspected := fun _ _ h => { h with }
  result := fun _ _ _ h => { h with }
  failed := fun _ _ _ h => { h with }
end

/-- What a load operation under DataThenSelect leaves in the core's registers: each of its two writes has reached its register
when the core was in Debug state as it was made, and otherwise changed none (R208). -/
def LoadRegs (p : LoadPlan) (r0 : List Word) : List Word → Prop := SetIn 15 p.entry (SetIn 13 p.sp (· = r0))

theorem ends_runLoad_target (c0 : Config) (hp : paramsValid c0 = true) (p : LoadPlan) (hs : planStays c0 p)
    (hm : planInMemory p) (m0 : List Host.Cell) (r0 : List Word) :
    Ends True (fun s => s.cfg = c0 ∧ s.target.mem = m0 ∧ s.target.coreRegs = r0) (runLoad p)
      (fun _ t => t.target.mem = storeWords m0 (planWords p) ∧ t.target.dhcsr = 1#32 ∧ (DataFirst c0 →
          LoadRegs p r0 t.target.coreRegs))
      (fun t => ∃ done todo, planWords p = done ++ todo ∧ t.target.mem = storeWords m0 done) := by
  let m1 := storeWords m0 (planWords p)
  let F : Target → Prop := fun t => ∃ done todo, planWords p = done ++ todo ∧ t.mem = storeWords m0 done
  have hF0 : ∀ t : Target, t.mem = m0 → F t := fun t h => ⟨[], _, rfl, h⟩
  have hF1 : ∀ t : Target, t.mem = m1 → F t := fun t h => ⟨_, [], by simp, h⟩
  let W0 : Target → Prop := fun t => t.mem = m0 ∧ t.coreRegs = r0
  have fin : Ends True (Holds (Exactly True c0 fun t => t.mem = m1 ∧ t.dhcsr = 3#32 ∧ (DataFirst c0 → t.coreRegs = r0))) (do
      modify (setLoad .loaded)
      setReg 13 p.sp
      setReg 15 p.entry
      resume
      modify endLoad
      modify (setOk true)) (fun _ t => t.target.mem = m1 ∧ t.target.dhcsr = 1#32 ∧ (DataFirst c0 →
          LoadRegs p r0 t.target.coreRegs))
      (Holds (Exactly True c0 F)) := by
    refine Ends.bind (Q := fun _ => Holds (Exactly True c0 fun t => t.mem = m1 ∧ t.dhcsr = 3#32 ∧ (DataFirst c0 →
        t.coreRegs = r0))) (fun _ h => h) fun _ => ?_
    refine (ends_setReg_chain c0 hp 13 p.sp m1 (· = r0) hF1).bind fun _ => (ends_setReg_chain c0 hp 15 p.entry m1 _ hF1).bind fun _ => ?_
    refine (ends_resume_of (K := True) (W := fun t => t.mem = m1 ∧ t.dhcsr = 3#32 ∧ (DataFirst c0 →
        LoadRegs p r0 t.coreRegs))
      (W' := fun t => t.mem = m1 ∧ t.dhcsr = 1#32 ∧ (DataFirst c0 → LoadRegs p r0 t.coreRegs))
          (fun _ => hp) (fun u t hu h => ?_)
      (fun t h => hF1 t h.1) (fun u t h k => ⟨k.mem.trans h.1, k.dhcsr.trans h.2.1, fun d => by rw [k.regs]; exact h.2.2 d⟩)).bind
          fun _ => ?_
    · have k := h.exact trivial fun hx => absurd hx (by decide)
      exact ⟨k.mem.trans (by simpa [storeTarget, dhcsrResume] using hu.1), by rw [k.dhcsr]; simp [storeTarget, dhcsrResume],
          fun d => by rw [k.regs]; simpa [storeTarget, dhcsrResume] using hu.2.2 d⟩
    · exact Ends.bind (Q := fun _ t => t.target.mem = m1 ∧ t.target.dhcsr = 1#32 ∧ (DataFirst c0 →
        LoadRegs p r0 t.target.coreRegs)) (fun _ h => h.target) fun _ => fun _ h => h
  have out : ∀ s, CoreKept c0 m0 r0 s → Agrees s.sess s.target := fun s h => ⟨fun x => (by rw [h.sv] at x; cases x), fun x =>
      (by rw [h.cw] at x; cases x)⟩
  have conn : Ends True (fun s => s.cfg = c0 ∧ s.target.mem = m0 ∧ s.target.coreRegs = r0) connect (fun _ => Holds
      (Exactly True c0 W0)) (Holds (Exactly True c0 F)) :=
    (ends_connect (coreKept_Connect c0 m0 r0) fun s h => ⟨h.1, rfl, rfl, h.2.1, h.2.2⟩).weaken (fun _ h => h)
        (fun _ s h => ⟨h.cfg, fun _ => out s h, h.mem, h.regs⟩)
      fun s h => ⟨h.cfg, fun _ => out s h, hF0 _ h.mem⟩
  have up : ∀ s, Holds (Exactly True c0 F) s → ∃ done todo, planWords p = done ++ todo ∧
      s.target.mem = storeWords m0 done := fun s h => h.target
  have main : Ends True (fun s => s.cfg = c0 ∧ s.target.mem = m0 ∧ s.target.coreRegs = r0) (runLoad p)
      (fun _ t => t.target.mem = storeWords m0 (planWords p) ∧ t.target.dhcsr = 1#32 ∧ (DataFirst c0 →
          LoadRegs p r0 t.target.coreRegs))
      (Holds (Exactly True c0 F)) := by
    unfold runLoad
    refine Ends.bind (Q := fun _ s => s.cfg = c0 ∧ s.target.mem = m0 ∧ s.target.coreRegs = r0) (fun _ h => h)
        fun _ => conn.bind fun _ => ?_
    refine Ends.bind (Q := fun _ => Holds (Exactly True c0 W0)) (fun _ h => h) fun _ => ?_
    refine (ends_halt_of (K := True) (W := W0) (W' := fun t => t.mem = m0 ∧ t.dhcsr = 3#32 ∧ t.coreRegs = r0) (F := F) (fun _ => hp)
      (fun u t h k => ⟨k.mem.trans h.1, k.dhcsr.trans h.2.1, k.regs.trans h.2.2⟩) (fun u t hu h => ?_) (fun t h => hF0 t
          (h.elim (fun x => x.1) (fun x => x.1)))
      (fun u t h k => ⟨k.mem.trans h.1, k.regs.trans h.2⟩)).bind fun _ => ?_
    · have k := h.exact trivial fun hx => absurd hx (by decide)
      exact ⟨k.mem.trans (by simpa [storeTarget, dhcsrHalt] using hu.1), by rw [k.dhcsr]; simp [storeTarget, dhcsrHalt],
          k.regs.trans (by simpa [storeTarget, dhcsrHalt] using hu.2)⟩
    refine Ends.bind (Q := fun _ => Holds (Exactly True c0 fun t => t.mem = m0 ∧ t.dhcsr = 3#32 ∧ t.coreRegs = r0))
        (fun _ h => h) fun _ => ?_
    have wb : Ends True (Holds (Exactly True c0 fun t => t.mem = m0 ∧ t.dhcsr = 3#32 ∧ t.coreRegs = r0)) (writeBlocks p)
        (fun _ => Holds (Exactly True c0 fun t => t.mem = m1 ∧ t.dhcsr = 3#32 ∧ (DataFirst c0 → t.coreRegs = r0))) (Holds
            (Exactly True c0 F)) :=
      pointwise (H := True) fun u hu => (ends_writeBlocks c0 hp p hs hm u).weaken (fun _ h => h)
        (fun _ s h => ⟨h.cfg, h.agrees, by rw [h.target.1.mem, hu.1], h.target.1.dhcsr.trans hu.2.1,
            fun _ => h.target.1.regs.trans hu.2.2⟩)
        fun s h => ⟨h.cfg, fun _ => h.agrees, by
          obtain ⟨d, td, e, k⟩ := h.some_
          exact ⟨d, td, e, by rw [k.mem, hu.1]⟩⟩
    refine wb.bind fun _ => ?_
    refine Ends.bind keeps_get fun s => ?_
    have vb : Keeps True (Holds (Exactly True c0 fun t => t.mem = m1 ∧ t.dhcsr = 3#32 ∧ (DataFirst c0 → t.coreRegs = r0)))
        (Holds (Exactly True c0 F)) (verifyBlocks p) := by
      have := fun u => keeps_verifyBlocks_at (K := True) (c0 := c0) (u := u) (fun _ => hp) p
      exact pointwise (H := False) fun u hu => (this u).weaken (fun _ h => h)
        (fun _ s h => ⟨h.cfg, h.agrees, h.core.mem.trans hu.1, h.core.dhcsr.trans hu.2.1, fun d => h.core.regs.trans (hu.2.2 d)⟩)
        fun s h => ⟨h.cfg, h.agrees, hF1 _ (h.core.mem.trans hu.1)⟩
    exact ends_ite (fun _ => vb.bind fun _ => fin) fun _ => fin
  exact main.weaken (fun _ h => h) (fun _ _ h => h) up

end Sys2Proof.Machine
end

