-- ==== Sys2Proof/Laws/CoreAccesses.lean ====
section
/-! SUPPORT. What the accesses of `SET_REG` and of a load operation leave in the core when every exchange is answered OK
(43_connection_control.md R168 to R170, 44_memory_loader.md R174 to R177, R208, R209). -/

namespace Sys2Proof.Machine

/-- A store that keeps Debug state and the registers but for what it says. -/
theorem storeAccess_core (cfg : Config) (hp : paramsValid cfg = true) (ss : Session) (a : Addr32) (v : Word) (t : Target)
    (h : Agrees ss t) (hv : a = dcrsrAddr → v.getLsbD 16 = true) :
    Core (storeTarget a v t) (targetAfter cfg (memWriteAccesses cfg ss a v) t) ∧
      Prepared cfg (targetAfter cfg (memWriteAccesses cfg ss a v) t) ∧
      (a ≠ dhcsrAddr → coreHalted (targetAfter cfg (memWriteAccesses cfg ss a v) t) = coreHalted t) := by
  obtain ⟨t0, h1, h2, _, h4⟩ := memWrite_accesses cfg hp ss a v t h
  have s1 : SameDebug t t0 := by rw [h1]; exact ⟨⟨rfl, rfl, rfl, rfl, rfl, rfl⟩, rfl⟩
  rw [h4]
  refine ⟨(storeTarget_core hv s1).trans (core_advanceTar cfg _), prepared_drw cfg v t0 h2 a, fun ha => ?_⟩
  rw [coreHalted_advanceTar, coreHalted_storeTarget ha hv, s1.2]

/-- The accesses of a `SET_REG` under DataThenSelect whose poll ends with `last` (R169, R208, R209). -/
theorem setReg_accesses (cfg : Config) (hp : paramsValid cfg = true) (ho : cfg.setRegOrder = .dataThenSelect) (ss : Session)
    (r : BitVec 5) (v : Word) (early : List (Word × Word)) (last : Word × Word) (t : Target) (h : Agrees ss t) :
    let u := targetAfter cfg (setRegAccesses cfg ss r v (early ++ [last])) t
    coreHalted u = last.2.getLsbD 17 ∧ Prepared cfg u ∧
      u.coreRegs = if coreHalted t then t.coreRegs.set r.toNat v else t.coreRegs := by
  simp only [setRegAccesses, ho]
  rw [targetAfter_append, targetAfter_append]
  obtain ⟨c1, p1, q1⟩ := storeAccess_core cfg hp ss dcrdrAddr v t h fun hx => absurd hx (by decide)
  have q1 := q1 (by decide)
  generalize targetAfter cfg (memWriteAccesses cfg ss dcrdrAddr v) t = t1 at *
  obtain ⟨c2, p2, _⟩ := storeAccess_core cfg hp (afterMem cfg ss) dcrsrAddr (dcrsrValue r) t1 (agrees_afterMem cfg ss t1 p1)
    fun _ => (dcrsrValue_bits r).1
  generalize targetAfter cfg (memWriteAccesses cfg (afterMem cfg ss) dcrsrAddr (dcrsrValue r)) t1 = t2 at *
  obtain ⟨k, kp⟩ := pollDhcsr_accesses cfg hp last early (afterMem cfg ss) t2 (agrees_afterMem cfg ss t2 p2)
  refine ⟨k.halted, kp, k.regs.trans (c2.regs.trans ?_)⟩
  unfold storeTarget
  rw [if_neg (by decide), if_pos rfl, writeDcrsr_write _ t1 (dcrsrValue_bits r).1, (dcrsrValue_bits r).2]
  have e1 : t1.dcrdr = v := by
    rw [c1.dcrdr]; simp [storeTarget, dcrdrAddr, dhcsrAddr, dcrsrAddr]
  have e2 : t1.coreRegs = t.coreRegs := by
    rw [c1.regs]; simp [storeTarget, dcrdrAddr, dhcsrAddr, dcrsrAddr]
  simp only [freeDhcsrStatus_coreRegs, q1, e1, e2]

/-- One word of a verification pass away from DHCSR shows no status bit and leaves the core alone. -/
theorem verifyWord_accesses (cfg : Config) (ss : Session) (a : Addr32) (d w : Word) (t : Target) (h : InPass cfg ss t)
    (hb : tarKnown cfg ss a → (a - 4).toNat / cfg.tarWrapBytes = ((a - 4).toNat + 4) / cfg.tarWrapBytes) (ha : a ≠ dhcsrAddr) :
    InPass cfg (wordSession cfg ss a)
        (targetAfter cfg (tarAccesses cfg ss a ++ [Access.read (Request.readAp 3) d, Access.read (Request.readDp dpRdbuff) w]) t) ∧
      SameCore t (targetAfter cfg
        (tarAccesses cfg ss a ++ [Access.read (Request.readAp 3) d, Access.read (Request.readDp dpRdbuff) w]) t) := by
  obtain ⟨t0, h1, h2, h3, h4⟩ := tar_accesses cfg ss a t h hb
  obtain ⟨c1, _⟩ := h1.core
  obtain ⟨f1, f2, f3⟩ := wordSession_fields cfg ss a
  have hr : reachesDrw cfg 3 t0 = true := by simp [reachesDrw, memApSelected_select cfg t0 h2.select]
  have e : targetAfter cfg [Access.read (Request.readAp 3) d, Access.read (Request.readDp dpRdbuff) w] t0 =
      showRdbuff w (advanceTar cfg (postRead cfg 3 t0)) := by
    rw [targetAfter_cons, targetAfter_cons, targetAfter_nil, onTarget_read _ _ _ _ rfl, onTarget_read _ _ _ _ rfl]
    show targetReadDp dpRdbuff w (targetReadAp cfg 3 t0) = _
    unfold targetReadAp
    rw [if_pos hr]
    rfl
  have hposted : (postRead cfg 3 t0).dhcsrPosted = false := by
    show (reachesDrw cfg 3 t0 && csw32 t0.csw && t0.tar == dhcsrAddr) = false
    rw [h3]
    simp [ha]
  have htar : (a : Addr32).toNat / cfg.tarWrapBytes = (a.toNat + 4) / cfg.tarWrapBytes →
      (advanceTar cfg (postRead cfg 3 t0)).tar = a + 4 := by
    intro hblock
    have hcw := h2.csw
    unfold advanceTar
    simp only [postRead_csw, postRead_tar, hcw.1, hcw.2, h3]
    rw [if_neg (by decide), if_pos ⟨trivial, trivial, hblock⟩]
  rw [targetAfter_append, h4, e]
  refine ⟨⟨⟨fun _ => ?_, fun _ => ?_⟩, f3.trans h.configured, fun _ hblock => ?_⟩, c1.trans ⟨?_, ?_, ?_, ?_⟩⟩
  · rw [showRdbuff_select, advanceTar_frame, f1]; exact h2.select
  · rw [showRdbuff_csw, advanceTar_frame]; exact h2.csw
  · rw [f2] at hblock ⊢
    rw [show a + 4 - 4 = a by simp] at hblock
    exact htar hblock
  · rw [advanceTar_frame]; rfl
  · rw [advanceTar_frame]; rfl
  · rw [advanceTar_frame]; rfl
  · rw [showRdbuff_dhcsrStatus, advanceTar_frame]
    exact if_neg (by rw [hposted]; simp)

theorem verifyWords_accesses (cfg : Config) (posted : Nat → Word) (ws : List (Addr32 × Word)) : ∀ k ss t, InPass cfg ss t →
    burstsStay cfg ss ws → (∀ w ∈ ws, w.1 ≠ dhcsrAddr ∧ w.1 ≠ dcrsrAddr ∧ w.1 ≠ dcrdrAddr) →
    InPass cfg (wordsSession cfg ss ws) (targetAfter cfg (verifyWordAccesses posted cfg k ss ws) t) ∧
      SameCore t (targetAfter cfg (verifyWordAccesses posted cfg k ss ws) t) := by
  induction ws with
  | nil => exact fun _ ss t h _ _ => ⟨h, rfl, rfl, rfl, rfl⟩
  | cons x ws ih =>
    obtain ⟨a, w⟩ := x
    intro k ss t h hb hm
    obtain ⟨h1, h2⟩ := verifyWord_accesses cfg ss a (posted k) w t h hb.1 (hm (a, w) (by simp)).1
    have e : verifyWordAccesses posted cfg k ss ((a, w) :: ws) =
        (tarAccesses cfg ss a ++ [Access.read (Request.readAp 3) (posted k), Access.read (Request.readDp dpRdbuff) w]) ++
          verifyWordAccesses posted cfg (k + 1) (wordSession cfg ss a) ws := by
      simp [verifyWordAccesses]
    rw [e, targetAfter_append]
    obtain ⟨k1, k2⟩ := ih (k + 1) _ _ h1 hb.2 fun v hv => hm v (by simp [hv])
    exact ⟨k1, h2.trans k2⟩

theorem verifyPass_accesses (cfg : Config) (hp : paramsValid cfg = true) (posted : Nat → Word) (ss : Session) (p : LoadPlan)
    (t : Target) (h : Agrees ss t) (hs : planStays cfg p) (hm : planInMemory p) :
    let u := targetAfter cfg (cswAccesses cfg ss ++ verifyWordAccesses posted cfg 0 (passSession cfg ss) (planWords p)) t
    SameCore t u ∧ Agrees (wordsSession cfg (passSession cfg ss) (planWords p)) u := by
  obtain ⟨h1, h2, h3⟩ := csw_accesses cfg hp ss t h
  simp only []
  rw [targetAfter_append]
  obtain ⟨k1, k2⟩ := verifyWords_accesses cfg posted (planWords p) 0 (passSession cfg ss) (targetAfter cfg (cswAccesses cfg ss) t)
    ⟨⟨h2.bank, h2.csw⟩, h3, fun h => by cases h⟩ (planStays_from cfg p ss hs) hm
  exact ⟨h1.core.1.trans k2, k1.agrees⟩

/-- The accesses of `CONNECT` leave the core alone (R163 to R167). -/
theorem connect_accesses (cfg : Config) (id : Word) (reads : List Word) (t : Target) :
    (targetAfter cfg (connectAccesses id reads) t).coreRegs = t.coreRegs := by
  have rd : ∀ (reads : List Word) (t : Target),
      (targetAfter cfg (reads.map (Access.read (Request.readDp dpCtrlStat))) t).coreRegs = t.coreRegs := by
    intro reads
    induction reads with
    | nil => exact fun _ => rfl
    | cons v reads ih =>
      intro t
      rw [List.map_cons, targetAfter_cons, ih, onTarget_read _ _ _ _ rfl]
      show (targetRead cfg false 1 (some v) t).coreRegs = _
      rw [connect_read cfg 1 (.inr rfl) (some v) t]
  unfold connectAccesses
  rw [targetAfter_cons, targetAfter_cons, targetAfter_cons, rd, onTarget_read _ _ _ _ rfl, onTarget_write _ _ _ rfl, onTarget_write _ _ _ rfl]
  show (targetWrite cfg false 1 _ (targetWrite cfg false 0 _ (targetRead cfg false 0 (some id) t))).coreRegs = _
  rw [connect_write cfg 1 (.inr rfl), connect_write cfg 0 (.inl rfl), connect_read cfg 0 (.inl rfl)]

/-- The accesses of a load operation under DataThenSelect set the stack pointer, and the program counter when the core is still
seen in Debug state as it is written; they leave the core released. -/
theorem load_accesses (cfg : Config) (hp : paramsValid cfg = true) (p : LoadPlan) (hs : planStays cfg p) (hm : planInMemory p)
    (ho : cfg.setRegOrder = .dataThenSelect) (r : LoadAnswers) (hh : r.haltLast.2.getLsbD 17 = true) (ss : Session) (t : Target) :
    let u := targetAfter cfg (loadAccesses cfg p r ss) t
    u.dhcsr = 0x00000001 ∧ u.coreRegs =
      if r.spLast.2.getLsbD 17 then (t.coreRegs.set 13 p.sp).set 15 p.entry else t.coreRegs.set 13 p.sp := by
  simp only [loadAccesses, targetAfter_append cfg (_ ++ _), targetAfter_append cfg (connectAccesses _ _)]
  have c0 := connect_accesses cfg r.idcode (r.powerUp ++ [r.powerUpLast]) t
  generalize targetAfter cfg (connectAccesses r.idcode (r.powerUp ++ [r.powerUpLast])) t = t0 at *
  have a0 : Agrees (r.connected ss) t0 := ⟨fun h => (by cases h), fun h => (by cases h)⟩
  obtain ⟨h1, _, h3, h4⟩ := halt_accesses cfg hp (r.connected ss) r.halt r.haltLast t0 a0
  generalize targetAfter cfg (memWriteAccesses cfg (r.connected ss) dhcsrAddr dhcsrHalt ++
    pollAccesses cfg (afterMem cfg (r.connected ss)) (r.halt ++ [r.haltLast])) t0 = t1 at *
  have a1 : Agrees (r.afterHalt cfg ss) t1 := ⟨(agrees_afterMem cfg _ t1 h4).bank, (agrees_afterMem cfg _ t1 h4).csw⟩
  obtain ⟨_, k2, k3⟩ := writePass_accesses cfg hp (r.afterHalt cfg ss) p t1 a1 hs hm
  generalize targetAfter cfg (cswAccesses cfg (r.afterHalt cfg ss) ++
    writeWordAccesses cfg (passSession cfg (r.afterHalt cfg ss)) (planWords p)) t1 = t2 at *
  have k3 : Agrees (r.written cfg p ss) t2 := k3
  have v : SameCore t2 (targetAfter cfg (if cfg.verify = true then cswAccesses cfg (r.written cfg p ss) ++
        verifyWordAccesses r.posted cfg 0 (passSession cfg (r.written cfg p ss)) (planWords p) else []) t2) ∧
      Agrees (r.loaded cfg p ss) (targetAfter cfg (if cfg.verify = true then cswAccesses cfg (r.written cfg p ss) ++
        verifyWordAccesses r.posted cfg 0 (passSession cfg (r.written cfg p ss)) (planWords p) else []) t2) := by
    unfold LoadAnswers.loaded
    by_cases hv : cfg.verify = true
    · rw [if_pos hv, if_pos hv]
      exact verifyPass_accesses cfg hp r.posted _ p t2 k3 hs hm
    · rw [if_neg hv, if_neg hv]
      exact ⟨⟨rfl, rfl, rfl, rfl⟩, k3⟩
  generalize targetAfter cfg (if cfg.verify = true then _ else _) t2 = t3 at *
  obtain ⟨v1, v2⟩ := v
  have hd : coreHalted t3 = true := by
    unfold coreHalted
    rw [v1.status, k2.status, h1]
    simp [dhcsrStatusBits, hh]
  obtain ⟨s1, s2, s3⟩ := setReg_accesses cfg hp ho (r.loaded cfg p ss) 13 p.sp r.sp r.spLast t3 v2
  generalize targetAfter cfg (setRegAccesses cfg (r.loaded cfg p ss) 13 p.sp (r.sp ++ [r.spLast])) t3 = t4 at *
  obtain ⟨_, e2, e3⟩ := setReg_accesses cfg hp ho (r.ready cfg p ss) 15 p.entry r.pc r.pcLast t4 (agrees_afterMem cfg _ t4 s2)
  generalize targetAfter cfg (setRegAccesses cfg (r.ready cfg p ss) 15 p.entry (r.pc ++ [r.pcLast])) t4 = t5 at *
  obtain ⟨f1, _, _⟩ := storeAccess_core cfg hp (r.ready cfg p ss) dhcsrAddr dhcsrResume t5 (agrees_afterMem cfg _ t5 e2)
    fun hx => absurd hx (by decide)
  refine ⟨f1.dhcsr.trans ?_, f1.regs.trans ?_⟩
  · unfold storeTarget
    rw [if_pos rfl, writeDhcsr_dhcsr, if_pos (by decide)]
    decide
  · unfold storeTarget
    rw [if_pos rfl, writeDhcsr_coreRegs, e3, s1, s3, hd, v1.regs, k2.regs, h3, c0]
    rfl

end Sys2Proof.Machine
end

