-- ==== Sys2Proof/Laws/PerInstr.lean ====
section
/-! SUPPORT. What is stated of every constructor of `Instr`, one lemma each: its encoding decodes to it and leaves the bytes after
it (30_encoding.md R87, R90, R103). -/

namespace Sys2Proof.Laws.RoundTrip

def Statement (i : Instr) : Prop :=
  ∀ rest, decode (encode i ++ rest) = .ok (i, rest)

theorem dpw0Abort : Statement .dpw0Abort := fun _ => rfl
theorem dpw4Ctrlstat : Statement .dpw4Ctrlstat := fun _ => rfl
theorem dpw8Select : Statement .dpw8Select := fun _ => rfl
theorem dpwcReserved : Statement .dpwcReserved := fun _ => rfl
theorem dpr0Idcode : Statement .dpr0Idcode := fun _ => rfl
theorem dpr4Ctrlstat : Statement .dpr4Ctrlstat := fun _ => rfl
theorem dpr8Resend : Statement .dpr8Resend := fun _ => rfl
theorem dprcRdbuff : Statement .dprcRdbuff := fun _ => rfl
theorem apw0Csw : Statement .apw0Csw := fun _ => rfl
theorem apw4Tar : Statement .apw4Tar := fun _ => rfl
theorem apw8Reserved : Statement .apw8Reserved := fun _ => rfl
theorem apwcDrw : Statement .apwcDrw := fun _ => rfl
theorem apr0Csw : Statement .apr0Csw := fun _ => rfl
theorem apr4Tar : Statement .apr4Tar := fun _ => rfl
theorem apr8Reserved : Statement .apr8Reserved := fun _ => rfl
theorem aprcDrw : Statement .aprcDrw := fun _ => rfl
theorem linkClock : Statement .linkClock := fun _ => rfl
theorem linkWrite : Statement .linkWrite := fun _ => rfl
theorem linkRead : Statement .linkRead := fun _ => rfl
theorem linkTrn : Statement .linkTrn := fun _ => rfl
theorem linkLinereset : Statement .linkLinereset := fun _ => rfl
theorem xfer : Statement .xfer := fun _ => rfl
theorem rdDp : Statement .rdDp := fun _ => rfl
theorem wrDp : Statement .wrDp := fun _ => rfl
theorem rdAp : Statement .rdAp := fun _ => rfl
theorem wrAp : Statement .wrAp := fun _ => rfl
theorem memWr32 : Statement .memWr32 := fun _ => rfl
theorem memRd32 : Statement .memRd32 := fun _ => rfl
theorem connect : Statement .connect := fun _ => rfl
theorem halt : Statement .halt := fun _ => rfl
theorem setReg : Statement .setReg := fun _ => rfl
theorem resume : Statement .resume := fun _ => rfl
theorem load : Statement .load := fun _ => rfl
theorem writeBlocks : Statement .writeBlocks := fun _ => rfl
theorem verifyBlocks : Statement .verifyBlocks := fun _ => rfl

end Sys2Proof.Laws.RoundTrip
end

