-- ==== Sys2Proof/Laws/Plan.lean ====
section
/-! SUPPORT. The check of a Load Plan is the six conditions of R172. -/

namespace Sys2Proof.Machine

theorem mem_planSections {p : LoadPlan} {P : Section → Prop} :
    (∀ s ∈ planSections p, P s) ↔ ∀ s ∈ p.addrs.zip p.buffers, P { addr := s.1, bytes := s.2.bytes, len := s.2.len } := by
  simp only [planSections, ← List.map_uncurry_zip_eq_zipWith, List.mem_map, forall_exists_index, and_imp,
    forall_apply_eq_imp_iff₂]
  rfl

theorem inRegion_iff (a : Nat) (rs : List Region) : rs.any (inRegion a) = true ↔ InRegions rs a := by
  simp [InRegions, inRegion]

theorem not_overlap_iff (s t : Section) : sectionsOverlap s t = false ↔
    ∀ i < s.len, ∀ j < t.len, s.addr.toNat + i ≠ t.addr.toNat + j := by
  simp only [sectionsOverlap, Bool.and_eq_false_iff, decide_eq_false_iff_not]
  constructor
  · intro h i hi j hj e
    omega
  · intro h
    by_contra hn
    push Not at hn
    obtain ⟨⟨⟨h1, h2⟩, h3⟩, h4⟩ := hn
    by_cases hst : s.addr.toNat ≤ t.addr.toNat
    · exact h (t.addr.toNat - s.addr.toNat) (by omega) 0 h2 (by omega)
    · exact h 0 h1 (s.addr.toNat - t.addr.toNat) (by omega) (by omega)

theorem sectionsDisjoint_iff (l : List Section) : sectionsDisjoint l = true ↔
    l.Pairwise fun s t => ∀ i < s.len, ∀ j < t.len, s.addr.toNat + i ≠ t.addr.toNat + j := by
  induction l with
  | nil => simp [sectionsDisjoint]
  | cons s rest ih =>
    simp only [sectionsDisjoint, Bool.and_eq_true, List.all_eq_true, Bool.not_eq_true', not_overlap_iff, List.pairwise_cons, ih]

theorem sectionLegal_iff (cfg : Config) (ram : Bool) (s : Section) (hs : s.addr.toNat + s.len ≤ 4294967296) :
    sectionLegal cfg ram s = true ↔
      ∀ i < s.len, InRegions (if ram then cfg.legalWhenRam else cfg.legalOtherwise) (s.addr.toNat + i) := by
  simp only [sectionLegal, List.all_eq_true, List.mem_range, legalRange, inRegion_iff]
  constructor <;> intro h i hi <;> have := h i hi <;>
    rw [BitVec.toNat_add, BitVec.toNat_ofNat, Nat.mod_eq_of_lt (a := i) (by omega), Nat.mod_eq_of_lt (by omega)] at * <;> exact this

/-- `admitted(plan)` is R172. -/
theorem planAdmitted_iff (cfg : Config) (p : LoadPlan) : planAdmitted cfg p = true ↔ Admits cfg p := by
  have apart : sectionsDisjoint (planSections p) = true ↔
      (p.addrs.zip p.buffers).Pairwise fun s t => ∀ i < s.2.len, ∀ j < t.2.len, s.1.toNat + i ≠ t.1.toNat + j := by
    rw [sectionsDisjoint_iff, planSections, ← List.map_uncurry_zip_eq_zipWith, List.pairwise_map]
    rfl
  have legal : (∀ s ∈ p.addrs.zip p.buffers, s.1.toNat + s.2.len ≤ 4294967296) →
      ((planSections p).all (sectionLegal cfg p.ramPolicy) = true ↔ ∀ s ∈ p.addrs.zip p.buffers, ∀ i < s.2.len,
        InRegions (if p.ramPolicy then cfg.legalWhenRam else cfg.legalOtherwise) (s.1.toNat + i)) := by
    intro hf
    rw [List.all_eq_true, mem_planSections]
    exact forall₂_congr fun s hs => sectionLegal_iff cfg _ _ (hf s hs)
  have fits : (planSections p).all sectionFits = true ↔ ∀ s ∈ p.addrs.zip p.buffers, s.1.toNat + s.2.len ≤ 4294967296 := by
    rw [List.all_eq_true, mem_planSections]
    simp [sectionFits]
  have aligned : (planSections p).all sectionAligned = true ↔
      ∀ s ∈ p.addrs.zip p.buffers, s.1.toNat % 4 = 0 ∧ s.2.len % 4 = 0 := by
    rw [List.all_eq_true, mem_planSections]
    simp [sectionAligned]
  simp only [planAdmitted, Bool.and_eq_true, apart, fits, aligned, countsAgree, entryAndSpOk, reachable, inRegion_iff, bne_iff_ne, ne_eq,
    beq_iff_eq, List.all_eq_true (p := fun b : Buffer => b.len == b.bytes.length)]
  constructor
  · rintro ⟨⟨⟨⟨⟨⟨⟨h1, h2⟩, h3⟩, ⟨⟨h4, h5⟩, h6⟩, h7⟩, h8⟩, h9⟩, h10⟩, h11⟩
    exact ⟨h1, h2, h3, ⟨h4, h6⟩, ⟨h5, h7⟩, h8, h9, h10, (legal h10).1 h11⟩
  · rintro ⟨h1, h2, h3, ⟨h4, h6⟩, ⟨h5, h7⟩, h8, h9, h10, h11⟩
    exact ⟨⟨⟨⟨⟨⟨⟨h1, h2⟩, h3⟩, ⟨⟨h4, h5⟩, h6⟩, h7⟩, h8⟩, h9⟩, h10⟩, (legal h10).2 h11⟩

end Sys2Proof.Machine
end

