-- ==== Sys2Proof/Laws/Segments.lean ====
section
/-! SUPPORT. What the layered commands put on the wire: whole segments (R93 to R97, R105). -/

namespace Sys2Proof.Machine

/-- Since `base`, the trace is segments of configuration `c`. -/
def Emits (c : Config) (base : List Cycle) (u : State) : Prop :=
  u.cfg = c ∧ ∃ parts : List (List Cycle), (∀ w ∈ parts, Segment c w) ∧ u.trace = base ++ parts.flatten

theorem Emits.add {c : Config} {base : List Cycle} {u v : State} (h : Emits c base u) {w : List Cycle} (hw : Segment c w)
    (hc : v.cfg = u.cfg)
    (ht : v.trace = u.trace ++ w) : Emits c base v := by
  obtain ⟨h1, parts, h2, h3⟩ := h
  refine ⟨hc.trans h1, parts ++ [w], ?_, by rw [ht, h3]; simp⟩
  intro x hx
  rcases List.mem_append.1 hx with hx | hx
  · exact h2 x hx
  · rw [List.mem_singleton.1 hx]; exact hw

/-- The layered commands emit whole segments. -/
theorem emits_stable (c : Config) (base : List Cycle) : EngineStable True (Emits c base) (Emits c base) where
  exchange := fun rq s hq _ h => by
    have hc := h.1
    rcases exchange_cases rq s with ⟨hr, d, p, inp, n, e⟩ | ⟨hr, inp, n, e⟩ | ⟨ack, inp, n, hl, hne, e⟩ <;> rw [e]
    · have := Segment.exchange (cfg := c) ⟨rq, okAck, d, p⟩ rfl hq
      rw [Access.cycles, if_pos rfl, if_pos hr] at this
      exact h.add this rfl (by simp only [readDone, hc])
    · have := Segment.exchange (cfg := c) ⟨rq, okAck, 0, true⟩ rfl hq
      rw [Access.cycles, if_pos rfl, if_neg (by simp [hr])] at this
      exact h.add this rfl (by simp only [writeDone, hc])
    · have := Segment.exchange (cfg := c) ⟨rq, ack, 0, true⟩ hl hq
      rw [Access.cycles, if_neg ((classify_ne_ok ack hl).1 hne)] at this
      exact h.add this rfl (by simp only [failDone, hc])
  drive := fun bits s hb _ h => by
    obtain ⟨u, hu, hb⟩ := hb
    rw [hu.1] at hb
    rw [driveBits_eq]
    rcases hb with hb | hb | hb
    · exact h.add (.activation bits (.inl hb)) rfl rfl
    · exact h.add (.activation bits (.inr hb)) rfl rfl
    · exact h.add .lineReset rfl (by subst hb; simp [lineResetCycles])
  hazard := fun _ _ _ => trivial
  counters := fun _ _ _ _ h => h
  results := fun _ _ _ h => h
  session := fun _ _ _ h => h
  fresh := fun _ h => h
  position := fun _ _ h => h
  failed := fun _ _ _ h => h

end Sys2Proof.Machine
end

