-- ==== Sys2Proof/Laws/TwoRuns.lean ====
section
/-! SUPPORT. Two runs side by side (70_reset_and_hazards.md R199): what two states must share so that a computation shows the same cycles,
draws the same bits and ends alike from both. -/

namespace Sys2Proof.Machine

/-- two-run Hoare triples -/
def TwoRuns {α : Type} (P : State → State → Prop) (m : Engine α) (Q : α → State → State → Prop) (E : State → State → Prop) : Prop :=
  ∀ s s', P s s' → match m s, m s' with
    | .ok a t, .ok a' t' => a = a' ∧ Q a t t'
    | .error e t, .error e' t' => e = e' ∧ E t t'
    | _, _ => False

theorem TwoRuns.bind {α β : Type} {P E : State → State → Prop} {Q : α → State → State → Prop} {R : β → State → State → Prop} {m : Engine α} {f : α → Engine β}
    (hm : TwoRuns P m Q E) (hf : ∀ a, TwoRuns (Q a) (f a) R E) : TwoRuns P (m >>= f) R E := by
  intro s s' hs
  have h := hm s s' hs
  cases h1 : m s with
  | ok a t =>
    cases h2 : m s' with
    | ok a' t' =>
      rw [h1, h2] at h
      obtain ⟨rfl, h⟩ := h
      rw [bind_of_ok h1, bind_of_ok h2]
      exact hf a t t' h
    | error e' t' => rw [h1, h2] at h; exact h.elim
  | error e t =>
    cases h2 : m s' with
    | ok a' t' => rw [h1, h2] at h; exact h.elim
    | error e' t' =>
      rw [h1, h2] at h
      rw [bind_of_error h1, bind_of_error h2]
      exact h

theorem TwoRuns.mod {P E : State → State → Prop} {Q : Unit → State → State → Prop} {f : State → State} (h : ∀ s s', P s s' → Q
    () (f s) (f s')) : TwoRuns P (modify f) Q E :=
  fun s s' hs => ⟨rfl, h s s' hs⟩

theorem TwoRuns.weaken {α : Type} {P P' E : State → State → Prop} {Q Q' : α → State → State → Prop} {m : Engine α}
    (h : TwoRuns P m Q E) (hp : ∀ s s', P' s s' → P s s') (hq : ∀ a s s', Q a s s' → Q' a s s') : TwoRuns P' m Q' E := by
  intro s s' hs
  have := h s s' (hp s s' hs)
  revert this
  rcases m s with ⟨a, t⟩ | ⟨e, t⟩ <;> rcases m s' with ⟨a', t'⟩ | ⟨e', t'⟩
  · exact fun h => ⟨h.1, hq _ _ _ h.2⟩
  all_goals exact id

variable {nb : Bool}
/-- what the two runs share -/
structure Shares (nb : Bool) (s s' : State) : Prop where
  cfg : s.cfg = s'.cfg
  inp : s.targetIn = s'.targetIn
  draws : s.draws = s'.draws
  trace : s.trace = s'.trace
  dir : s.link.lastDir ≠ .target
  dir' : s'.link.lastDir ≠ .target
  busy : s.busy = s'.busy
  load : s.load = s'.load
  phase : s.seq.phase = s'.seq.phase
  sv : s.sess.selValid = s'.sess.selValid
  sc : s.sess.selValid = true → s.sess.selCache = s'.sess.selCache
  cw : s.sess.cswConfigured = s'.sess.cswConfigured
  fi : s.sess.failInfo = s'.sess.failInfo
  tv : s.sess.tarValid = s'.sess.tarValid
  na : nb = true → s.sess.tarValid = true → s.sess.nextAddr = s'.sess.nextAddr
  bc : s.sess.burstCount = s'.sess.burstCount
  conn : s.sess.conn = s'.sess.conn

/-- at the end -/
structure EndsAlike (s s' : State) : Prop extends Shares false s s' where
  same : s.res.ok = s'.res.ok

theorem Shares.weak {s s' : State} (h : Shares nb s s') : Shares false s s' := { h with na := fun x => by cases x }

theorem Shares.fail {s s' : State} (h : (Shares nb) s s') (c a) : EndsAlike (failEntry c a s) (failEntry c a s') :=
  ⟨{ h.weak with
      busy := rfl
      load := by show (if s.busy then _ else _) = (if s'.busy then _ else _); rw [h.busy, h.load]
      fi := by show some (s.sess.failInfo.getD _) = some (s'.sess.failInfo.getD _); rw [h.fi, h.phase] }, rfl⟩

/-- after an exchange: outcome shared, and rdata when OK and read -/
structure AfterExchange (nb : Bool) (rq : Request) (s s' : State) : Prop extends Shares nb s s' where
  out : s.dp.outcome = s'.dp.outcome
  wc : s.dp.waitCount = s'.dp.waitCount
  rd : rq.rnw = true → s.dp.outcome = .ok → s.dp.rdata = s'.dp.rdata

structure SharesCount (nb : Bool) (s s' : State) : Prop extends Shares nb s s' where
  wc : s.dp.waitCount = s'.dp.waitCount

theorem sample_same (n : Nat) : ∀ s s' : State, s.targetIn = s'.targetIn → s.draws = s'.draws →
    (sampleBits n s).1 = (sampleBits n s').1 ∧ (sampleBits n s).2.targetIn = (sampleBits n s').2.targetIn ∧
        (sampleBits n s).2.draws = (sampleBits n s').2.draws := by
  induction n with
  | zero => exact fun s s' h1 h2 => ⟨rfl, h1, h2⟩
  | succ n ih =>
    intro s s' h1 h2
    have key : (cycleT s).1 = (cycleT s').1 ∧ (cycleT s).2.targetIn = (cycleT s').2.targetIn ∧ (cycleT s).2.draws =
        (cycleT s').2.draws := by
      unfold cycleT sampleBit
      rw [← h1]
      cases s.targetIn <;> simp [h2, h1]
    obtain ⟨k1, k2, k3⟩ := ih (cycleT s).2 (cycleT s').2 key.2.1 key.2.2
    simp only [sampleBits]
    exact ⟨by rw [key.1, k1], k2, k3⟩

structure SameWire (s s' : State) : Prop where
  cfg : s.cfg = s'.cfg
  inp : s.targetIn = s'.targetIn
  draws : s.draws = s'.draws
  trace : s.trace = s'.trace

theorem SameWire.drive {s s' : State} (h : SameWire s s') (b : List Bool) : SameWire (driveBits b s) (driveBits b s') := by
  rw [driveBits_eq, driveBits_eq]; exact { h with trace := by show s.trace ++ _ = s'.trace ++ _; rw [h.trace] }

theorem SameWire.z {s s' : State} (h : SameWire s s') : SameWire (cycleZ s)
    (cycleZ s') := { h with trace := by show s.trace ++ _ = s'.trace ++ _; rw [h.trace] }

theorem SameWire.idle {s s' : State} (h : SameWire s s') (n : Nat) : SameWire (idle n s) (idle n s') := by
  unfold Machine.idle; rw [h.cfg]; exact h.drive _

theorem SameWire.sample {s s' : State} (h : SameWire s s') (n : Nat) : (sampleBits n s).1 = (sampleBits n s').1 ∧ SameWire
    (sampleBits n s).2 (sampleBits n s').2 := by
  obtain ⟨k1, k2, k3⟩ := sample_same n s s' h.inp h.draws
  refine ⟨k1, ?_⟩
  have e := (sampleBits_spec n s).2
  have e' := (sampleBits_spec n s').2
  exact ⟨by rw [e, e']; exact h.cfg, k2, k3, by rw [e, e']; show s.trace ++ _ = s'.trace ++ _; rw [h.trace, k1]⟩


def dataPhase (rq : Request) (u : State) : State := if u.dp.outcome = .ok then if rq.rnw then readPhase rq u else writePhase rq u else noDataPhase u

theorem exchange_eq_dataPhase (rq : Request) (s : State) : exchange rq s = setOk ((dataPhase rq (ackPhase
    (requestPhase rq s))).dp.outcome == .ok) (dataPhase rq (ackPhase (requestPhase rq s))) := rfl

theorem read_two (rq : Request) {u u' : State} (h : SameWire u u') : SameWire (readPhase rq u) (readPhase rq u') ∧
    (readPhase rq u).dp.outcome = (readPhase rq u').dp.outcome ∧
    (readPhase rq u).dp.rdata = (readPhase rq u').dp.rdata := by
  obtain ⟨a1, a2⟩ := h.sample 32
  obtain ⟨b1, b2⟩ := a2.sample 1
  unfold readPhase
  simp only
  rw [a1, b1]
  generalize (sampleBits 32 u').1 = bits
  generalize (sampleBits 1 (sampleBits 32 u').2).1 = p
  generalize (sampleBits 1 (sampleBits 32 u').2).2 = w' at *
  generalize (sampleBits 1 (sampleBits 32 u).2).2 = w at *
  have key : ∀ (d : Datapath) (d' : Datapath) (t t' : Target), d.outcome = d'.outcome → d.rdata = d'.rdata →
      SameWire (Machine.idle w.cfg.idleCycles (cycleZ { w with dp := d, target := t })) (Machine.idle w'.cfg.idleCycles
          (cycleZ { w' with dp := d', target := t' })) := by
    intro d d' t t' _ _
    have : SameWire { w with dp := d, target := t } { w' with dp := d', target := t' } := { b2 with }
    have := this.z.idle w.cfg.idleCycles
    rwa [show w'.cfg.idleCycles = w.cfg.idleCycles from by rw [b2.cfg]]
  have keep : ∀ n (v : State), (Machine.idle n (cycleZ v)).dp = v.dp := fun n v => by unfold Machine.idle; rw [driveBits_eq]; rfl
  refine ⟨?_, ?_, ?_⟩
  · have := fun t t' => key { w.dp with rdata := valLSB 32 bits, rpar := p.getD 0 false, outcome := readOutcome (valLSB 32 bits) (p.getD 0 false) } { w'.dp with rdata := valLSB 32 bits, rpar := p.getD 0 false, outcome := readOutcome (valLSB 32 bits) (p.getD 0 false) } t t' rfl rfl
    have := this (targetRead w.cfg rq.apndp rq.a (if readOutcome (valLSB 32 bits) (p.getD 0 false) = .ok then some
        (valLSB 32 bits) else none) w.target) (targetRead w'.cfg rq.apndp rq.a (if readOutcome (valLSB 32 bits)
        (p.getD 0 false) = .ok then some (valLSB 32 bits) else none) w'.target)
    exact { this with }
  · show (Machine.idle _ (cycleZ _)).dp.outcome = (Machine.idle _ (cycleZ _)).dp.outcome
    rw [keep, keep]
  · show (Machine.idle _ (cycleZ _)).dp.rdata = (Machine.idle _ (cycleZ _)).dp.rdata
    rw [keep, keep]

theorem write_two (rq : Request) {u u' : State} (h : SameWire u u') (ho : u.dp.outcome = u'.dp.outcome) : SameWire
    (writePhase rq u) (writePhase rq u') ∧ (writePhase rq u).dp.outcome = (writePhase rq u').dp.outcome := by
  unfold writePhase
  simp only
  have a : SameWire { cycleZ u with dp := { (cycleZ u).dp with wdata := rq.data, wpar := parity32 rq.data } } { cycleZ u' with dp := { (cycleZ u').dp with wdata := rq.data, wpar := parity32 rq.data } } := { h.z with }
  have b := a.drive (bitsLSB rq.data ++ [parity32 rq.data])
  have keep : ∀ n (v : State), (Machine.idle n v).dp = v.dp := fun n v => by unfold Machine.idle; rw [driveBits_eq]
  have keepd : ∀ n (v : State), (driveBits n v).dp = v.dp := fun n v => by rw [driveBits_eq]
  refine ⟨?_, ?_⟩
  · have c : SameWire { driveBits (bitsLSB rq.data ++ [parity32 rq.data]) { cycleZ u with dp := { (cycleZ u).dp with wdata := rq.data, wpar := parity32 rq.data } } with target := targetWrite (driveBits (bitsLSB rq.data ++ [parity32 rq.data]) { cycleZ u with dp := { (cycleZ u).dp with wdata := rq.data, wpar := parity32 rq.data } }).cfg rq.apndp rq.a rq.data (driveBits (bitsLSB rq.data ++ [parity32 rq.data]) { cycleZ u with dp := { (cycleZ u).dp with wdata := rq.data, wpar := parity32 rq.data } }).target }
        { driveBits (bitsLSB rq.data ++ [parity32 rq.data]) { cycleZ u' with dp := { (cycleZ u').dp with wdata := rq.data, wpar := parity32 rq.data } } with target := targetWrite (driveBits (bitsLSB rq.data ++ [parity32 rq.data]) { cycleZ u' with dp := { (cycleZ u').dp with wdata := rq.data, wpar := parity32 rq.data } }).cfg rq.apndp rq.a rq.data (driveBits (bitsLSB rq.data ++ [parity32 rq.data]) { cycleZ u' with dp := { (cycleZ u').dp with wdata := rq.data, wpar := parity32 rq.data } }).target } := { b with }
    have k := c.idle u.cfg.idleAfterWrite
    have e1 : ∀ (l : List Bool) (v : State), (driveBits l v).cfg = v.cfg := fun l v => by rw [driveBits_eq]
    have e2 : u'.cfg = u.cfg := h.cfg.symm
    simp only [e1]
    show SameWire (Machine.idle u.cfg.idleAfterWrite _) (Machine.idle u'.cfg.idleAfterWrite _)
    rw [show u'.cfg.idleAfterWrite = u.cfg.idleAfterWrite from by rw [e2]]
    simp only [e1] at k
    exact k
  · rw [keep, keep]
    simp only [keepd]
    exact ho

theorem nodata_two {u u' : State} (h : SameWire u u') (ho : u.dp.outcome = u'.dp.outcome) : SameWire (noDataPhase u)
    (noDataPhase u') ∧ (noDataPhase u).dp.outcome = (noDataPhase u').dp.outcome := by
  have k : SameWire (Machine.idle u.cfg.idleCycles (cycleZ u)) (Machine.idle u'.cfg.idleCycles
      (cycleZ u')) := by rw [h.cfg]; exact h.z.idle _
  have keep : ∀ n (v : State), (Machine.idle n (cycleZ v)).dp = v.dp := fun n v => by unfold Machine.idle; rw [driveBits_eq]; rfl
  unfold noDataPhase
  simp only [keep, ho]
  split
  · exact ⟨{ k with }, by simp only [keep, ho]⟩
  · exact ⟨k, by simp only [keep, ho]⟩

theorem exchange_two (rq : Request) (s s' : State) (h : SameWire s s') : SameWire (exchange rq s) (exchange rq s') ∧
    (exchange rq s).dp.outcome = (exchange rq s').dp.outcome ∧
    (rq.rnw = true → (exchange rq s).dp.outcome = .ok → (exchange rq s).dp.rdata = (exchange rq s').dp.rdata) ∧
        (exchange rq s).res.ok = (exchange rq s').res.ok := by
  have h1 : SameWire (requestPhase rq s) (requestPhase rq s') := by
    have a : SameWire { s with dp := { s.dp with req := requestByte rq.apndp rq.rnw rq.a } } { s' with dp := { s'.dp with req := requestByte rq.apndp rq.rnw rq.a } } := { h with }
    exact (a.drive _).z
  have h2 : SameWire (ackPhase (requestPhase rq s)) (ackPhase (requestPhase rq s')) ∧ (ackPhase
      (requestPhase rq s)).dp.outcome = (ackPhase (requestPhase rq s')).dp.outcome := by
    obtain ⟨k1, k2⟩ := h1.sample 3
    unfold ackPhase
    simp only
    rw [k1]
    exact ⟨{ k2 with }, rfl⟩
  rw [exchange_eq_dataPhase, exchange_eq_dataPhase]
  generalize ackPhase (requestPhase rq s) = u at *
  generalize ackPhase (requestPhase rq s') = u' at *
  obtain ⟨h2, ho⟩ := h2
  have hd : SameWire (dataPhase rq u) (dataPhase rq u') ∧ (dataPhase rq u).dp.outcome = (dataPhase rq u').dp.outcome ∧
      (rq.rnw = true → (dataPhase rq u).dp.outcome = .ok → (dataPhase rq u).dp.rdata = (dataPhase rq u').dp.rdata) := by
    unfold dataPhase
    rw [← ho]
    by_cases hk : u.dp.outcome = .ok
    · rw [if_pos hk, if_pos hk]
      cases hr : rq.rnw with
      | true =>
        have k := read_two rq h2
        exact ⟨k.1, k.2.1, fun _ _ => k.2.2⟩
      | false =>
        have k := write_two rq h2 ho
        exact ⟨k.1, k.2, fun x => by cases x⟩
    · rw [if_neg hk, if_neg hk]
      have k := nodata_two h2 ho
      refine ⟨k.1, k.2, fun _ hx => absurd ?_ hk⟩
      have keep : (noDataPhase u).dp = u.dp := by
        have kk : ∀ n (v : State), (Machine.idle n (cycleZ v)).dp = v.dp :=
            fun n v => by unfold Machine.idle; rw [driveBits_eq]; rfl
        unfold noDataPhase
        simp only [kk]
        split
        · rfl
        · exact kk _ _
      rw [keep] at hx
      exact hx
  generalize dataPhase rq u = v at *
  generalize dataPhase rq u' = v' at *
  obtain ⟨t, o, r⟩ := hd
  exact ⟨{ t with }, o, r, by show (_ == _) = (_ == _); rw [o]⟩

/-! ## up to transact -/
theorem Shares.sameWire {s s' : State} (h : (Shares nb) s s') : SameWire s s' := ⟨h.cfg, h.inp, h.draws, h.trace⟩

theorem two_xfer (rq : Request) (hc : rq.isDpWriteC = false) : TwoRuns (SharesCount nb) (xfer rq)
    (fun _ => AfterExchange nb rq) EndsAlike := by
  intro s s' h
  simp only [xfer, hc, Bool.not_false, refuseUnless_true, pure_bind, bind_of_ok (checkDir_ok h.dir), bind_of_ok
      (checkDir_ok h.dir')]
  show True ∧ AfterExchange nb rq (exchange rq s) (exchange rq s')
  refine ⟨trivial, ?_⟩
  obtain ⟨t, o, r, _⟩ := exchange_two rq s s' h.sameWire
  have f := exchange_frame rq s
  have f' := exchange_frame rq s'
  exact { cfg := t.cfg, inp := t.inp, draws := t.draws, trace := t.trace, dir := exchange_lastDir rq s, dir' := exchange_lastDir rq s'
          busy := by rw [f.2.2.2.2.2.1, f'.2.2.2.2.2.1]; exact h.busy
          load := by rw [f.2.2.2.1, f'.2.2.2.1]; exact h.load
          phase := by rw [f.2.2.2.2.1, f'.2.2.2.2.1]; exact h.phase
          sv := by rw [f.2.2.1, f'.2.2.1]; exact h.sv
          sc := by rw [f.2.2.1, f'.2.2.1]; exact h.sc
          cw := by rw [f.2.2.1, f'.2.2.1]; exact h.cw
          fi := by rw [f.2.2.1, f'.2.2.1]; exact h.fi
          tv := by rw [f.2.2.1, f'.2.2.1]; exact h.tv
          na := by rw [f.2.2.1, f'.2.2.1]; exact h.na
          bc := by rw [f.2.2.1, f'.2.2.1]; exact h.bc
          conn := by rw [f.2.2.1, f'.2.2.1]; exact h.conn
          out := o
          wc := by rw [f.2.2.2.2.2.2.2.2.1, f'.2.2.2.2.2.2.2.2.1]; exact h.wc
          rd := r }

theorem two_attempts (rq : Request) (hc : rq.isDpWriteC = false) (n : Nat) : TwoRuns (SharesCount nb) (attempts rq n)
    (fun _ => AfterExchange nb rq) EndsAlike := by
  induction n with
  | zero => exact two_xfer rq hc
  | succ n ih =>
    unfold attempts
    refine (two_xfer rq hc).bind fun _ => ?_
    intro s s' h
    rw [get_bind, get_bind, ← h.out]
    by_cases hw : s.dp.outcome = .wait
    · rw [if_pos hw, modify_bind, modify_bind]
      exact ih _ _ { h with wc := by show s.dp.waitCount + 1 = s'.dp.waitCount + 1; rw [h.wc] }
    · rw [if_neg hw]
      exact ⟨rfl, h⟩

theorem two_series (rq : Request) (hc : rq.isDpWriteC = false) : TwoRuns (Shares nb) (series rq)
    (fun _ => AfterExchange nb rq) EndsAlike := by
  intro s s' h
  unfold series
  rw [modify_bind, modify_bind, get_bind, get_bind]
  have := two_attempts (nb := nb) rq hc s.cfg.waitRetryMax { s with dp := { s.dp with waitCount := 0 } } { s' with dp := { s'.dp with waitCount := 0 } } { h with wc := rfl }
  have e : ({ s' with dp := { s'.dp with waitCount := 0 } } : State).cfg.waitRetryMax = s.cfg.waitRetryMax := by show s'.cfg.waitRetryMax = _; rw [h.cfg]
  rw [e]
  exact this


theorem two_recStep (rq : Request) (hc : rq.isDpWriteC = false) : TwoRuns (Shares nb) (recoveryStep rq) (fun _ s s' =>
    (Shares nb) s s' ∧ (rq.rnw = true → s.dp.rdata = s'.dp.rdata)) EndsAlike := by
  unfold recoveryStep
  refine (two_series rq hc).bind fun _ => ?_
  intro s s' h
  rw [get_bind, get_bind, ← h.out]
  cases ho : s.dp.outcome with
  | ok => exact ⟨rfl, h.toShares, fun hr => h.rd hr ho⟩
  | wait => exact ⟨rfl, h.toShares.fail _ _⟩
  | fault => exact ⟨rfl, h.toShares.fail _ _⟩
  | proterr => exact ⟨rfl, h.toShares.fail _ _⟩

theorem two_recover : TwoRuns (Shares nb) recover (fun _ => (Shares nb)) EndsAlike := by
  unfold recover
  refine (two_recStep _ rfl).bind fun _ => TwoRuns.bind (Q := fun _ => (Shares nb)) (TwoRuns.mod
      fun s s' h => { h.1 with }) fun _ => ?_
  exact (two_recStep _ rfl).bind fun _ => TwoRuns.mod fun s s' h => { h.1 with }

structure AfterTransact (nb : Bool) (rq : Request) (s s' : State) : Prop extends Shares nb s s' where
  rd : rq.rnw = true → s.dp.rdata = s'.dp.rdata

theorem two_transact (rq : Request) (hc : rq.isDpWriteC = false) : TwoRuns (Shares nb) (transact rq)
    (fun _ => AfterTransact nb rq) EndsAlike := by
  unfold transact
  refine TwoRuns.bind (Q := fun _ => (Shares nb)) (TwoRuns.mod fun s s' h => { h with }) fun _ => (two_series rq hc).bind
      fun _ => ?_
  intro s s' h
  rw [get_bind, get_bind, ← h.out]
  have again : TwoRuns (Shares nb) (do
      recover
      modify (setFaultRetried true)
      series rq
      match (← get).dp.outcome with
      | .ok => pure ()
      | .wait => raiseFail .waitExhausted none
      | .fault | .proterr => raiseFail .faultRepeated none) (fun _ => AfterTransact nb rq) EndsAlike := by
    refine two_recover.bind fun _ => TwoRuns.bind (Q := fun _ => (Shares nb)) (TwoRuns.mod fun s s' h => { h with }) fun _ =>
        (two_series rq hc).bind fun _ => ?_
    intro s s' h
    rw [get_bind, get_bind, ← h.out]
    cases ho : s.dp.outcome with
    | ok => exact ⟨rfl, h.toShares, fun hr => h.rd hr ho⟩
    | wait => exact ⟨rfl, h.toShares.fail _ _⟩
    | fault => exact ⟨rfl, h.toShares.fail _ _⟩
    | proterr => exact ⟨rfl, h.toShares.fail _ _⟩
  cases ho : s.dp.outcome with
  | ok => exact ⟨rfl, h.toShares, fun hr => h.rd hr ho⟩
  | wait => exact ⟨rfl, h.toShares.fail _ _⟩
  | fault => exact again _ _ h.toShares
  | proterr => exact again _ _ h.toShares

/-- and with the same result value -/
structure SharesResult (nb : Bool) (s s' : State) : Prop extends Shares nb s s' where
  v : s.res.value = s'.res.value

theorem two_refuse (r) : TwoRuns (Shares nb) (refuseUnless true r) (fun _ => (Shares nb)) EndsAlike := fun s s' h => ⟨rfl, h⟩

theorem two_bank (a) : TwoRuns (Shares nb) (bankCheck a) (fun _ => (Shares nb)) EndsAlike := by
  intro s s' h
  unfold bankCheck
  rw [get_bind, get_bind, ← h.cfg]
  have e : (!s'.sess.selValid || s'.sess.selCache != selectValue s.cfg (apBank a)) =
      (!s.sess.selValid || s.sess.selCache != selectValue s.cfg (apBank a)) := by
    rw [← h.sv]
    cases hv : s.sess.selValid with
    | false => rfl
    | true => rw [h.sc hv]
  rw [e]
  by_cases hb : (!s.sess.selValid || s.sess.selCache != selectValue s.cfg (apBank a)) = true
  · rw [if_pos hb]
    exact ((two_transact (Request.writeDp dpSelect (selectValue s.cfg (apBank a))) rfl).bind (R := fun _ => (Shares nb))
        fun _ => TwoRuns.mod fun s s' h => show Shares nb (cacheSelect _ s)
        (cacheSelect _ s') from { h.toShares with sv := rfl, sc := fun _ => rfl }) s s' h
  · rw [if_neg hb]
    exact ⟨rfl, h⟩

theorem two_rdDp (a) (ha : dpReadAddrOk a = true) : TwoRuns (Shares nb) (rdDp a) (fun _ => (SharesResult nb)) EndsAlike := by
  unfold rdDp
  rw [ha]
  refine (two_refuse _).bind fun _ => (two_transact _ (readDp_ok _)).bind fun _ => TwoRuns.bind (Q := fun _ =>
      (SharesResult nb)) (TwoRuns.mod fun s s' h => { h.toShares with v := h.rd rfl }) fun _ => ?_
  exact TwoRuns.mod fun s s' h => { h with }

theorem two_wrDp (a v) (ha : dpWriteAddrOk a = true) (h8 : a ≠ 0x8) : TwoRuns (Shares nb) (wrDp a v) (fun _ =>
    (Shares nb)) EndsAlike := by
  unfold wrDp
  rw [ha]
  refine (two_refuse _).bind fun _ => (two_transact _ (writeDp_addr_ok ha _)).bind fun _ => TwoRuns.bind (Q := fun _ =>
      (Shares nb)) (TwoRuns.mod fun s s' h => ?_) fun _ => ?_
  · unfold afterWrDp
    rw [if_neg h8, if_neg h8]
    split <;> exact { h.toShares with }
  · exact TwoRuns.mod fun s s' h => { h with }

theorem two_wrAp (a v) (ha : apAddrOk a = true) : TwoRuns (Shares nb) (wrAp a v) (fun _ => (Shares nb)) EndsAlike := by
  unfold wrAp
  rw [ha]
  refine (two_refuse _).bind fun _ => (two_bank _).bind fun _ => (two_transact _ (writeAp_ok _ _)).bind fun _ => ?_
  exact TwoRuns.mod fun s s' h => { h.toShares with }

theorem two_rdAp (a) (ha : apAddrOk a = true) : TwoRuns (Shares nb) (rdAp a) (fun _ s s' => (SharesResult nb) s s' ∧
    s.dp.rdata = s'.dp.rdata) EndsAlike := by
  unfold rdAp
  rw [ha]
  refine (two_refuse _).bind fun _ => (two_bank _).bind fun _ => TwoRuns.bind (Q := fun _ => (Shares nb)) ((two_transact _
      (readAp_ok _)).weaken (fun _ _ h => h) fun _ _ _ h => h.toShares) fun _ => (two_transact _ (readDp_ok _)).bind fun _ => ?_
  refine TwoRuns.bind (Q := fun _ s s' => (SharesResult nb) s s' ∧ s.dp.rdata = s'.dp.rdata) (TwoRuns.mod
      fun s s' h => ⟨{ h.toShares with v := h.rd rfl }, h.rd rfl⟩) fun _ => ?_
  exact TwoRuns.mod fun s s' h => ⟨{ h.1 with }, h.2⟩

theorem two_csw : TwoRuns (Shares nb) ensureCsw (fun _ => (Shares nb)) EndsAlike := by
  intro s s' h
  unfold ensureCsw
  rw [get_bind, get_bind, ← h.cw, ← h.cfg]
  by_cases hc : (!s.sess.cswConfigured) = true
  · rw [if_pos hc]
    exact ((two_wrAp apCsw s.cfg.cswValue rfl).bind (R := fun _ => (Shares nb)) fun _ => TwoRuns.mod
        fun s s' h => show Shares nb { s with sess := { s.sess with cswConfigured := true } } { s' with sess := { s'.sess with cswConfigured := true } } from { h with cw := rfl }) s s' h
  · rw [if_neg hc]
    exact ⟨rfl, h⟩

theorem Shares.forget {s s' : State} (h : (Shares nb) s s') : (Shares nb) (forgetTar s)
    (forgetTar s') := { h with tv := rfl, na := fun _ x => by cases x }

theorem two_memWr (a v) (ha : memAddrOk a = true) : TwoRuns (Shares nb) (memWr32 a v) (fun _ => (Shares nb)) EndsAlike := by
  unfold memWr32
  rw [ha]
  exact (two_refuse _).bind fun _ => two_csw.bind fun _ => (two_wrAp _ _ rfl).bind fun _ => (two_wrAp _ _ rfl).bind
      fun _ => TwoRuns.mod fun s s' h => h.forget

theorem two_memRd (a) (ha : memAddrOk a = true) : TwoRuns (Shares nb) (memRd32 a) (fun _ => (SharesResult nb)) EndsAlike := by
  unfold memRd32
  rw [ha]
  refine (two_refuse _).bind fun _ => two_csw.bind fun _ => (two_wrAp _ _ rfl).bind fun _ => (two_rdAp _ rfl).bind fun _ => ?_
  refine TwoRuns.bind (Q := fun _ => (SharesResult nb)) (TwoRuns.mod fun s s' h => { h.1.toShares with v := h.2 }) fun _ => ?_
  exact TwoRuns.mod fun s s' h => { h.toShares.forget with v := h.v }

theorem two_reads {op : Engine Unit} (ho : TwoRuns (Shares nb) op (fun _ => (SharesResult nb)) EndsAlike) (mask : Word)
    (n : Nat) : ∀ v, TwoRuns (Shares nb) (pollReads op mask n v) (fun _ => (Shares nb)) EndsAlike := by
  induction n with
  | zero => exact fun v s s' h => ⟨rfl, h⟩
  | succ n ih =>
    intro v
    unfold pollReads
    refine ho.bind fun _ => ?_
    intro s s' h
    rw [get_bind, get_bind, modify_bind, modify_bind, ← h.v]
    by_cases hm : s.res.value &&& mask = mask
    · simp only [hm, if_true]
      exact ⟨rfl, { h.toShares with }⟩
    · simp only [hm, if_false]
      exact ih _ _ _ { h.toShares with }

theorem two_poll {op : Engine Unit} (ho : TwoRuns (Shares nb) op (fun _ => (SharesResult nb)) EndsAlike) (mask : Word)
    (n : Nat) : TwoRuns (Shares nb) (poll op mask n) (fun _ => (Shares nb)) EndsAlike := by
  unfold poll
  exact TwoRuns.bind (Q := fun _ => (Shares nb)) (TwoRuns.mod fun s s' h => { h with }) fun _ => two_reads ho mask n 0

/-! ## connect, control, passes -/
theorem Shares.drive {s s' : State} (h : (Shares nb) s s') (b : List Bool) : (Shares nb) (driveBits b s) (driveBits b s') := by
  have k := h.sameWire.drive b
  have e := driveBits_link b s
  have e' := driveBits_link b s'
  have d : (driveBits b s).link.lastDir ≠ .target := by rw [e]; exact drivenLink_not_target _ _ h.dir
  have d' : (driveBits b s').link.lastDir ≠ .target := by rw [e']; exact drivenLink_not_target _ _ h.dir'
  rw [driveBits_eq, driveBits_eq] at *
  exact { h with trace := k.trace, dir := d, dir' := d' }

theorem two_linkWrite (b) : TwoRuns (Shares nb) (linkWrite b) (fun _ => (Shares nb)) EndsAlike := by
  intro s s' h
  unfold linkWrite
  rw [bind_of_ok (checkDir_ok h.dir), bind_of_ok (checkDir_ok h.dir')]
  exact ⟨rfl, h.drive b⟩

theorem two_lineReset : TwoRuns (Shares nb) linkLinereset (fun _ => (Shares nb)) EndsAlike := by
  intro s s' h
  unfold linkLinereset
  rw [bind_of_ok (checkDir_ok h.dir), bind_of_ok (checkDir_ok h.dir')]
  refine ⟨rfl, ?_⟩
  show (Shares nb) (lineReset s) (lineReset s')
  unfold lineReset
  rw [h.cfg]
  exact h.drive _

theorem two_ite {c : Prop} [Decidable c] {m : Engine Unit} (hm : TwoRuns (Shares nb) m (fun _ =>
    (Shares nb)) EndsAlike) : TwoRuns (Shares nb) (if c then m else pure ()) (fun _ => (Shares nb)) EndsAlike := by
  split
  · exact hm
  · exact fun s s' h => ⟨rfl, h⟩

theorem two_activation : TwoRuns (Shares nb) sendActivation (fun _ => (Shares nb)) EndsAlike := by
  intro s s' h
  unfold sendActivation
  rw [get_bind, get_bind, ← h.cfg]
  refine ((two_linkWrite _).bind (R := fun _ => (Shares nb)) fun _ => ?_) s s' h
  have last : TwoRuns (Shares nb) (if s.cfg.resetAfterActivation = true then linkLinereset else pure ()) (fun _ =>
      (Shares nb)) EndsAlike := two_ite two_lineReset
  cases s.cfg.multidropActivation with
  | none => exact last
  | some m => exact (two_linkWrite m).bind fun _ => last

theorem two_id : TwoRuns (Shares nb) idCheck (fun _ => (Shares nb)) EndsAlike := by
  unfold idCheck
  refine (two_rdDp _ rfl).bind fun _ => ?_
  intro s s' h
  rw [get_bind, get_bind, ← h.cfg, ← h.v]
  by_cases hv : s.res.value.extractLsb' 0 4 ≠ s.cfg.idLowNibble
  · rw [if_pos hv]; exact ⟨rfl, h.toShares.fail _ _⟩
  · rw [if_neg hv]; exact ⟨rfl, h.toShares⟩

theorem two_power : TwoRuns (Shares nb) powerUp (fun _ => (Shares nb)) EndsAlike := by
  unfold powerUp
  refine (two_wrDp _ _ rfl (by decide)).bind fun _ => (two_wrDp _ _ rfl (by decide)).bind fun _ => ?_
  intro s s' h
  rw [get_bind, get_bind, ← h.cfg]
  refine ((two_poll (two_rdDp _ rfl) _ _).bind (R := fun _ => (Shares nb)) fun r => ?_) s s' h
  rcases r with ⟨b, v⟩
  refine TwoRuns.bind (Q := fun _ => (Shares nb)) (TwoRuns.mod fun s s' h => { h with }) fun _ => ?_
  cases b
  · exact fun s s' h => ⟨rfl, h.fail _ _⟩
  · exact fun s s' h => ⟨rfl, h⟩

structure BeforeConnect (s s' : State) : Prop extends SameWire s s' where
  dir : s.link.lastDir ≠ .target
  dir' : s'.link.lastDir ≠ .target
  busy : s.busy = s'.busy
  load : s.load = s'.load

theorem two_connect : TwoRuns BeforeConnect connect (fun _ => (Shares nb)) EndsAlike := by
  unfold connect
  refine TwoRuns.bind (Q := fun _ s s' => ∃ u u', BeforeConnect u u' ∧ s = freshSession u ∧ s' = freshSession u')
      (TwoRuns.mod fun s s' h => ⟨s, s', h, rfl, rfl⟩) fun _ => ?_
  refine TwoRuns.bind (Q := fun _ => (Shares nb)) (TwoRuns.mod ?_) fun _ => ?_
  · rintro _ _ ⟨u, u', h, rfl, rfl⟩
    exact { h with phase := rfl, sv := rfl, sc := fun x => (by cases x), cw := rfl, fi := rfl, tv := rfl, na := fun _ x => (by cases x), bc := rfl, conn := rfl }
  have en : ∀ c p, TwoRuns (Shares nb) (modify (enterStep c p)) (fun _ => (Shares nb)) EndsAlike := fun c p => TwoRuns.mod
      fun s s' h => { h with phase := rfl, conn := rfl }
  refine two_lineReset.bind fun _ => (en _ _).bind fun _ => two_activation.bind fun _ => (en _ _).bind fun _ => two_id.bind
      fun _ => (en _ _).bind fun _ => two_power.bind fun _ => ?_
  exact TwoRuns.bind (Q := fun _ => (Shares nb)) (TwoRuns.mod fun s s' h => { h with conn := rfl }) fun _ => TwoRuns.mod
      fun s s' h => { h with }

theorem two_ok : TwoRuns (Shares nb) (modify (setOk true)) (fun _ => (Shares nb)) EndsAlike := TwoRuns.mod
    fun s s' h => { h with }

theorem two_phase (p) : TwoRuns (Shares nb) (modify (setPhase p)) (fun _ => (Shares nb)) EndsAlike := TwoRuns.mod
    fun s s' h => { h with phase := rfl }

theorem two_halted (b) : TwoRuns (Shares nb) (modify (setHalted b)) (fun _ => (Shares nb)) EndsAlike := TwoRuns.mod
    fun s s' h => { h with }

theorem two_halt : TwoRuns (Shares nb) halt (fun _ => (Shares nb)) EndsAlike := by
  unfold halt
  refine (two_phase _).bind fun _ => (two_memWr _ _ rfl).bind fun _ => ?_
  intro s s' h
  rw [get_bind, get_bind, ← h.cfg]
  refine ((two_poll (two_memRd _ rfl) _ _).bind (R := fun _ => (Shares nb)) fun r => ?_) s s' h
  have rest : TwoRuns (Shares nb) (do modify (setHalted true); modify (setOk true)) (fun _ => (Shares nb)) EndsAlike :=
      (two_halted _).bind fun _ => two_ok
  rcases r with ⟨b, v⟩
  cases b
  · exact fun s s' h => ⟨rfl, h.fail _ _⟩
  · exact rest

theorem two_await : TwoRuns (Shares nb) awaitRegRdy (fun _ => (Shares nb)) EndsAlike := by
  unfold awaitRegRdy
  intro s s' h
  rw [get_bind, get_bind, ← h.cfg]
  refine ((two_poll (two_memRd _ rfl) _ _).bind (R := fun _ => (Shares nb)) fun r => ?_) s s' h
  rcases r with ⟨b, v⟩
  cases b
  · exact fun s s' h => ⟨rfl, h.fail _ _⟩
  · exact fun s s' h => ⟨rfl, h⟩

theorem two_setReg (r v) : TwoRuns (Shares nb) (setReg r v) (fun _ => (Shares nb)) EndsAlike := by
  unfold setReg
  refine (two_phase _).bind fun _ => ?_
  intro s s' h
  rw [get_bind, get_bind, ← h.cfg]
  cases s.cfg.setRegOrder with
  | selectThenData => exact ((two_memWr dcrsrAddr (dcrsrValue r) rfl).bind (R := fun _ => (Shares nb))
      fun _ => two_await.bind fun _ => (two_memWr dcrdrAddr v rfl).bind fun _ => two_ok) s s' h
  | dataThenSelect => exact ((two_memWr dcrdrAddr v rfl).bind (R := fun _ => (Shares nb)) fun _ => (two_memWr dcrsrAddr
      (dcrsrValue r) rfl).bind fun _ => two_await.bind fun _ => two_ok) s s' h

theorem two_resume : TwoRuns (Shares nb) resume (fun _ => (Shares nb)) EndsAlike := by
  unfold resume
  exact (two_phase _).bind fun _ => (two_memWr _ _ rfl).bind fun _ => (two_halted _).bind fun _ => two_ok

theorem two_word (op j a w) : TwoRuns (Shares true) (passWord op j a w) (fun _ => Shares true) EndsAlike := by
  have last0 : TwoRuns (Shares false) (modify (advanceBurst a)) (fun _ => Shares true) EndsAlike := TwoRuns.mod fun s s' h =>
    { h with na := fun _ _ => rfl, bc := by show s.sess.burstCount + 1 = s'.sess.burstCount + 1; rw [h.bc] }
  have tail : TwoRuns (Shares false) (do
      match op with
      | .write => wrAp apDrw w
      | .verify =>
        rdAp apDrw
        if (← get).res.value ≠ w then raiseFail .verifyMismatch (some a)
      modify (advanceBurst a)) (fun _ => Shares true) EndsAlike := by
    cases op with
    | write => exact (two_wrAp _ _ rfl).bind fun _ => last0
    | verify =>
      refine (two_rdAp _ rfl).bind fun _ => ?_
      intro s s' h
      rw [get_bind, get_bind, ← h.1.v]
      by_cases hv : s.res.value ≠ w
      · simp only [if_pos hv]
        exact ⟨rfl, h.1.toShares.fail _ _⟩
      · simp only [if_neg hv]
        have := last0 s s' h.1.toShares
        simpa using this
  unfold passWord
  refine TwoRuns.bind (Q := fun _ => Shares true) (TwoRuns.mod fun s s' h => { h with }) fun _ => ?_
  intro s s' h
  rw [get_bind, get_bind]
  have e : needsTar a s' = needsTar a s := by
    unfold needsTar
    rw [← h.tv, ← h.bc, ← h.cfg]
    cases ht : s.sess.tarValid with
    | false => rfl
    | true => rw [h.na rfl ht]
  rw [e]
  by_cases hn : needsTar a s = true
  · rw [if_pos hn]
    exact ((two_wrAp apTar a rfl).bind (R := fun _ => Shares true) fun _ => TwoRuns.bind (Q := fun _ => Shares false)
        (TwoRuns.mod fun s s' (h : Shares true s s') => show Shares false (startBurst s)
        (startBurst s') from { h.weak with tv := rfl, na := fun x => (by cases x), bc := rfl }) fun _ => tail) s s' h
  · rw [if_neg hn]
    exact tail s s' h.weak

theorem two_words (op base ws) : ∀ j, TwoRuns (Shares true) (passWords op base j ws) (fun _ => Shares true) EndsAlike := by
  induction ws with
  | nil => exact fun j s s' h => ⟨rfl, h⟩
  | cons w ws ih => exact fun j => (two_word op j _ w).bind fun _ => ih (j + 1)

theorem two_secs (op secs) : ∀ k, TwoRuns (Shares true) (passSections op k secs) (fun _ => Shares true) EndsAlike := by
  induction secs with
  | nil => exact fun j s s' h => ⟨rfl, h⟩
  | cons w ws ih => exact fun k => TwoRuns.bind (Q := fun _ => Shares true) (TwoRuns.mod fun s s' h => { h with }) fun _ =>
      (two_words op _ _ 0).bind fun _ => ih (k + 1)

theorem two_pass (op p) : TwoRuns (Shares true) (Machine.pass op p) (fun _ => Shares true) EndsAlike := by
  unfold Machine.pass
  exact two_csw.bind fun _ => TwoRuns.bind (Q := fun _ => Shares true) (TwoRuns.mod
      fun s s' h => { h with tv := rfl, na := fun _ x => (by cases x), bc := rfl }) fun _ => two_secs op _ 0

theorem two_writeBlocks (p) : TwoRuns (Shares true) (writeBlocks p) (fun _ => Shares true) EndsAlike := by
  unfold writeBlocks
  exact (two_phase _).bind fun _ => (two_pass _ _).bind fun _ => two_ok

theorem two_verifyBlocks (p) : TwoRuns (Shares true) (verifyBlocks p) (fun _ => Shares true) EndsAlike := by
  unfold verifyBlocks
  exact (two_phase _).bind fun _ => (two_pass _ _).bind fun _ => two_ok

theorem two_runLoad (p) : TwoRuns (fun s s' => s.cfg = s'.cfg ∧ s.targetIn = s'.targetIn ∧ s.draws = s'.draws ∧
    s.link.lastDir ≠ .target ∧ s'.link.lastDir ≠ .target) (runLoad p) (fun _ => EndsAlike) EndsAlike := by
  unfold runLoad
  have ld : ∀ l, TwoRuns (Shares true) (modify (setLoad l)) (fun _ => Shares true) EndsAlike := fun l => TwoRuns.mod
      fun s s' h => { h with load := rfl }
  have last : TwoRuns (Shares true) (do
      modify (setLoad .loaded)
      setReg 13 p.sp
      setReg 15 p.entry
      resume
      modify endLoad
      modify (setOk true)) (fun _ => EndsAlike) EndsAlike := by
    refine (ld _).bind fun _ => (two_setReg _ _).bind fun _ => (two_setReg _ _).bind fun _ => two_resume.bind fun _ => ?_
    exact TwoRuns.bind (Q := fun _ => Shares true) (TwoRuns.mod fun s s' h => { h with busy := rfl, load := rfl })
        fun _ => TwoRuns.mod fun s s' h => ⟨{ h.weak with }, rfl⟩
  refine TwoRuns.bind (Q := fun _ => BeforeConnect) (TwoRuns.mod fun s s' h => ⟨⟨h.1, h.2.1, h.2.2.1, rfl⟩, h.2.2.2.1,
      h.2.2.2.2, rfl, rfl⟩) fun _ => ?_
  refine two_connect.bind fun _ => (ld _).bind fun _ => two_halt.bind fun _ => (ld _).bind fun _ =>
      (two_writeBlocks p).bind fun _ => ?_
  intro s s' h
  rw [get_bind, get_bind, ← h.cfg]
  by_cases hv : s.cfg.verify = true
  · rw [if_pos hv]
    exact ((two_verifyBlocks p).bind (R := fun _ => EndsAlike) fun _ => last) s s' h
  · rw [if_neg hv]
    exact last s s' h

end Sys2Proof.Machine
end

