-- ==== Sys2Proof/Tests/Slice0.lean ====
section
/-! SUPPORT. Small checks. Expected results come from spec/ alone: the words of 30_encoding.md R90 and R103 and the vectors of
95_test_vectors.md, cited by their names. Then one witness for the hypotheses of each statement of Obligations.lean. -/

namespace Sys2Proof.Tests

set_option Elab.async false

open Sys2Proof.Machine

/-! ## Helpers -/

/-- The outcome is a next state with property `p`. -/
def ends (o : Host.Outcome State Fault Refusal) (p : State → Bool) : Bool :=
  match o with
  | .next t => p t
  | _ => false

theorem ends_next {o : Host.Outcome State Fault Refusal} {p : State → Bool} (h : ends o p = true) :
    ∃ t, o = .next t ∧ p t = true := by
  cases o with
  | next t => exact ⟨t, rfl, h⟩
  | fault _ => cases h
  | refused _ => cases h

/-- The parameters of R11 with the bounds and the idle cycles as small as R189 admits. -/
def quick : Config := { Config.defaults with
  idleCycles := 0, waitRetryMax := 1, powerUpPollMax := 1, haltPollMax := 1, regRdyPollMax := 1, maxBurstWords := 2 }

/-- Reset under `cfg` with operands `op`, the target about to present `bits`. -/
def start (cfg : Config) (op : Operands) (bits : List Bool) : State := { State.resetWith cfg with op := op, targetIn := bits }

/-- The same, the last cycle having been driven by `d`. -/
def startAfter (d : Dir) (op : Operands) (bits : List Bool) : State :=
  { start quick op bits with link := { clk := false, oe := decide (d = .host), dout := true, lastDir := d } }

def none_ : Operands := Operands.unwritten
def opAddr (a : BitVec 8) (v : Word) : Operands := { none_ with addr := a, value := v }
def opMem (a v : Word) : Operands := { none_ with value := a, value2 := v }
def opReg (r : BitVec 5) (v : Word) : Operands := { none_ with regId := r, value := v }
def opPlan (p : LoadPlan) : Operands := { none_ with plan := p }

/-- The plan of E7: four bytes at 0x20000000, entry 0x10000001, stack pointer 0x20042000. -/
def planE7 : LoadPlan where
  addrs := [0x20000000]
  buffers := [{ bytes := [0x78, 0x56, 0x34, 0x12], len := 4 }]
  count := 1
  entry := 0x10000001
  sp := 0x20042000
  ramPolicy := true

/-- The answers of the reference target in a load operation (R63, program P3). -/
def answersE7 : LoadAnswers where
  idcode := 0x2BA01477
  powerUp := []
  powerUpLast := 0xF0000000
  halt := []
  haltLast := (0, 0x00030003)
  posted k := BitVec.ofNat 32 k + 9
  sp := []
  spLast := (0, 0x00030003)
  pc := []
  pcLast := (0, 0x00030003)

/-- A session that has connected and written CSW: `SELECT` and `CSW` are as the target holds them. -/
def ready (s : State) : State := { s with
  sess := { s.sess with selValid := true, cswConfigured := true, conn := .ready }
  target := { s.target with csw := 0x12 } }

/-! ## Well-formedness (R105, R107, R172, R189): an ill-formed term for each check -/

theorem test_wf_dp_write_c : Instr.dpwcReserved.wellFormed quick none_ = false := by decide
theorem test_wf_xfer : Instr.xfer.wellFormed quick { none_ with addr := 0xC } = false := by decide
theorem test_wf_rdDp : Instr.rdDp.wellFormed quick { none_ with addr := 0x2 } = false := by decide
theorem test_wf_wrDp : Instr.wrDp.wellFormed quick { none_ with addr := 0xC } = false := by decide
theorem test_wf_rdAp : Instr.rdAp.wellFormed quick { none_ with addr := 0xFD } = false := by decide
theorem test_wf_wrAp : Instr.wrAp.wellFormed quick { none_ with addr := 0x02 } = false := by decide
theorem test_wf_memWr32 : Instr.memWr32.wellFormed quick (opMem 0x20000002 0) = false := by decide
theorem test_wf_memRd32 : Instr.memRd32.wellFormed quick (opMem 0x20000001 0) = false := by decide
/-- R172, one plan for each of its six conditions. -/
theorem test_wf_plan_count : Instr.load.wellFormed quick (opPlan { planE7 with count := 2 }) = false := by decide +kernel
theorem test_wf_plan_entry : Instr.load.wellFormed quick (opPlan { planE7 with entry := 0 }) = false := by decide +kernel
theorem test_wf_plan_overlap : Instr.load.wellFormed quick (opPlan { planE7 with
    addrs := [0x20000000, 0x20000000], buffers := planE7.buffers ++ planE7.buffers, count := 2 }) = false := by decide +kernel
theorem test_wf_plan_alignment : Instr.writeBlocks.wellFormed quick (opPlan { planE7 with addrs := [0x20000002] }) = false := by
  decide +kernel
theorem test_wf_plan_end : Instr.verifyBlocks.wellFormed quick (opPlan { planE7 with
    addrs := [0xFFFFFFFC], buffers := [{ bytes := List.replicate 8 0, len := 8 }] }) = false := by decide +kernel
theorem test_wf_plan_range : Instr.load.wellFormed { quick with legalWhenRam := [] } (opPlan planE7) = false := by decide +kernel
theorem test_wf_plan_admitted : Instr.load.wellFormed quick (opPlan planE7) = true := by decide +kernel

/-! ## Decoding: every word of R90 and R103, written out -/

theorem test_decode_requests : [0b10000001, 0b10101001, 0b10110001, 0b10011001, 0b10100101, 0b10001101, 0b10010101, 0b10111101,
      0b10100011, 0b10001011, 0b10010011, 0b10111011, 0b10000111, 0b10101111, 0b10110111, 0b10011111].map (decodeTableWord 8) =
    [Instr.dpw0Abort, .dpw4Ctrlstat, .dpw8Select, .dpwcReserved, .dpr0Idcode, .dpr4Ctrlstat, .dpr8Resend, .dprcRdbuff,
      .apw0Csw, .apw4Tar, .apw8Reserved, .apwcDrw, .apr0Csw, .apr4Tar, .apr8Reserved, .aprcDrw].map some := by decide

theorem test_decode_commands : [0b00000, 0b00001, 0b00010, 0b00011, 0b00100, 0b01000, 0b10000, 0b10001, 0b10010, 0b10011, 0b10100,
      0b10101, 0b11000, 0b11001, 0b11010, 0b11011, 0b11100, 0b11101, 0b11110].map (decodeTableWord 5) =
    [Instr.linkClock, .linkWrite, .linkRead, .linkTrn, .linkLinereset, .xfer, .rdDp, .wrDp, .rdAp, .wrAp, .memWr32,
      .memRd32, .connect, .halt, .setReg, .resume, .load, .writeBlocks, .verifyBlocks].map some := by decide

/-- E1: a request byte with the parity bit flipped is no request. -/
theorem test_decode_bad_parity : decodeTableWord 8 0x85 = none ∧ decodeTableWord 8 0xA1 = none := by decide

/-- V-PAR-1, V-PAR-3, V-PAR-6, V-PAR-12. -/
theorem test_parity32 : parity32 0 = false ∧ parity32 0x80000000 = true ∧ parity32 0xA05F0001 = true ∧ parity32 0xF0000020 = true := by
  decide +kernel

/-- R183: the codes of the steps and of the causes. -/
theorem test_fail_codes : failStepCode .lineReset = 1 ∧ failStepCode .resume = 11 ∧ failCauseCode .waitExhausted = 1 ∧
    failCauseCode .verifyMismatch = 6 := by decide

/-! ## Link commands -/

/-- V-LINK-1: the bits in order. -/
theorem test_linkWrite : ends (exec .linkWrite (start quick { none_ with bits := [true, false, true] } []))
    (fun t => t.trace == [.h true, .h false, .h true] && t.link == { clk := false, oe := true, dout := true, lastDir := .host }) = true := by
  decide
/-- V-LINK-3. -/
theorem test_linkRead : ends (exec .linkRead (startAfter .released { none_ with count := 3 } [true, false, false]))
    (fun t => t.res.value == 1 && t.trace == [.t true, .t false, .t false] && t.link.lastDir == .target) = true := by decide
/-- V-LINK-11: no bits read. -/
theorem test_linkRead_none : ends (exec .linkRead (startAfter .released none_ []))
    (fun t => t.res.value == 0 && t.trace == [] && t.link.lastDir == .released) = true := by decide
/-- V-LINK-8 and V-LINK-9. -/
theorem test_linkClock : ends (exec .linkClock (startAfter .host none_ [])) (fun t => t.trace == [.h true]) = true ∧
    ends (exec .linkClock (startAfter .released none_ [])) (fun t => t.trace == [.z]) = true := by decide
/-- V-LINK-6 and V-LINK-7. -/
theorem test_linkLinereset : exec .linkLinereset (startAfter .target none_ []) = .fault .directionHazard ∧
    ends (exec .linkLinereset (startAfter .released none_ [])) (fun t => t.trace.length == 52 && !t.link.dout) = true :=
  ⟨rfl, by decide⟩
/-- V-LINK-12. -/
theorem test_linkTrn : ends (exec .linkTrn (startAfter .target none_ [])) (fun t => t.trace == [.z] && t.link.lastDir == .released) = true := by
  decide

/-! ## Exchanges -/

/-- V-FRM-1: the IDCODE read, 48 cycles. -/
theorem test_dpr0Idcode : ends (exec .dpr0Idcode (start Config.defaults none_ (answerBits [Access.read (Request.readDp 0) 0x2BA01477])))
    (fun t => t.res.value == 0x2BA01477 && t.dp.req == 0xA5 && t.trace.length == 48 && t.dp.outcome == .ok) = true := by decide +kernel
/-- R50: bit 0 of IDCODE reads 1, whatever bit the engine sampled. -/
theorem test_idcode_rao : ends (exec .dpr0Idcode (start quick none_ (answerBits [Access.read (Request.readDp 0) 0x2BA01476])))
    (fun t => t.res.value == 0x2BA01476 && t.target.idcode == 0x2BA01477) = true := by decide +kernel
/-- V-FRM-2: the ABORT write, 46 cycles. -/
theorem test_dpw0Abort : ends (exec .dpw0Abort (start Config.defaults (opAddr 0 0x1E) [true, false, false]))
    (fun t => t.dp.req == 0x81 && t.trace.length == 46 && t.trace.getLast? == some (.h false)) = true := by decide +kernel
/-- V-ACK-2 to V-ACK-5: WAIT, FAULT and a floating line, 15 cycles. -/
theorem test_xfer_not_ok : ([[false, true, false], [false, false, true], [false, false, false], [true, true, true]].map fun ack =>
      ends (exec .xfer (start Config.defaults { none_ with rnw := true } ack)) (fun t => t.trace.length == 15 && !t.res.ok)) =
    [true, true, true, true] := by decide +kernel
/-- V-REQ-4. -/
theorem test_dpwcReserved : exec .dpwcReserved (start quick none_ []) = .refused .dpWrite0xC := rfl

/-! ## Register access -/

/-- V-PAR-14: a parity error is recovered. -/
theorem test_rdDp_parity : ends (exec .rdDp (start Config.defaults none_ (answerBits [
      { Access.read (Request.readDp 0) 0x2BA01477 with parity := true }, Access.read (Request.readDp 1) 0xF0000000,
      Access.write (Request.writeDp 0 0x1E), Access.read (Request.readDp 0) 0x2BA01477])))
    (fun t => t.res.value == 0x2BA01477 && t.res.ok && t.sess.stickyCleared) = true := by decide +kernel
/-- V-BANK-3: IDR stands in bank 0xF. -/
theorem test_rdAp_bank : ends (exec .rdAp (start Config.defaults (opAddr 0xFC 0) (answerBits [
      Access.write (Request.writeDp 2 0xF0), Access.read (Request.readAp 3) 0, Access.read (Request.readDp 3) 7])))
    (fun t => t.res.value == 7 && t.sess.selCache == 0xF0) = true := by decide +kernel
/-- V-MEM-1: the word stands little endian in memory. -/
theorem test_memWr32 : ends (exec .memWr32 (start Config.defaults (opMem 0x20000000 0xDEADBEEF)
      (answerBits (memWriteAccesses Config.defaults Session.reset 0x20000000 0xDEADBEEF))))
    (fun t => t.target.mem == [(0x20000000, 0xEF), (0x20000001, 0xBE), (0x20000002, 0xAD), (0x20000003, 0xDE)]) = true := by
  decide +kernel
/-- V-MEM-2. -/
theorem test_memRd32 : ends (exec .memRd32 (ready (start Config.defaults (opMem 0x20000000 0)
      (answerBits ([Access.write (Request.writeAp 1 0x20000000), Access.read (Request.readAp 3) 0, Access.read (Request.readDp 3) 0xDEADBEEF])))))
    (fun t => t.res.value == 0xDEADBEEF && t.target.tar == 0x20000004) = true := by decide +kernel

/-- R59: a read of DHCSR shows the status bits, 16 to 19, 24 and 25, and leaves the control bits. -/
theorem test_dhcsr_status : ends (exec .memRd32 (ready (start quick (opMem dhcsrAddr 0)
      (answerBits ([Access.write (Request.writeAp 1 dhcsrAddr), Access.read (Request.readAp 3) 0, Access.read (Request.readDp 3) 0xFFFFFFFF])))))
    (fun t => t.target.dhcsrStatus == 0x030F0000 && t.target.dhcsr == 0) = true := by decide +kernel
/-- V-RETRY-11: the recovery's ABORT write is answered FAULT. -/
theorem test_recovery_fails : ends (exec .rdDp (start Config.defaults none_ (faultAck ++ (Access.read (Request.readDp 1) 0xF0000020).bits ++ faultAck)))
    (fun t => t.sess.failInfo == some { step := .none, cause := .recoveryFailed, addr := none } && t.trace.length == 15 + 48 + 15) = true := by
  decide +kernel

/-! ## Sequences -/

/-- V-CONN-1: `CONNECT` ends in Ready. -/
theorem test_connect : ends (exec .connect (start Config.defaults none_ (answerBits (connectAccesses 0x2BA01477 [0xF0000000]))))
    (fun t => t.sess.conn == .ready && t.sess.lastCtrlStat == some 0xF0000000) = true := by decide +kernel
/-- V-CONN-3: the identification does not match. -/
theorem test_connect_mismatch : ends (exec .connect (start Config.defaults none_ (answerBits [Access.read (Request.readDp 0) 0x2BA01470])))
    (fun t => t.sess.failInfo == some { step := .idCheck, cause := .idMismatch, addr := none }) = true := by
  decide +kernel
/-- V-TC-1: `HALT` after `CONNECT`. -/
theorem test_halt : ends (exec .halt (start Config.defaults none_ (answerBits (memWriteAccesses Config.defaults Session.reset dhcsrAddr dhcsrHalt
      ++ pollAccesses Config.defaults (afterMem Config.defaults Session.reset) [(0, 0x00030003)]))))
    (fun t => t.sess.halted && t.target.dhcsr == 3) = true := by decide +kernel
/-- E6: the contiguous sections take one TAR write and eight DRW writes. -/
theorem test_writeBlocks : ends (exec .writeBlocks (ready (start Config.defaults (opPlan { planE7 with
      addrs := [0x20000000, 0x20000010]
      buffers := [{ bytes := List.replicate 16 1, len := 16 }, { bytes := List.replicate 16 2, len := 16 }], count := 2 })
      (answerBits (List.replicate 9 (Access.write (Request.writeAp 3 0)))))))
    (fun t => t.sess.burstCount == 8 && t.targetIn == [] && t.target.tar == 0x20000020) = true := by decide +kernel
/-- E7: the load operation ends Running, true. -/
theorem test_load : ends (exec .load (start Config.defaults (opPlan planE7)
      (answerBits (loadAccesses Config.defaults planE7 answersE7 Session.reset))))
    (fun t => t.load == .running && t.res.ok && t.targetIn == [] && readWord t.target.mem 0x20000000 == 0x12345678) = true := by
  decide +kernel

/-- V-CONN-1, V-TC-1, V-MEM-1 and E7: 308, 326, 184 and 1470 cycles. -/
theorem test_cycle_counts :
    let cfg := Config.defaults
    let before := lineResetCycles cfg ++ activationCycles cfg
    (before ++ wireCycles cfg (connectAccesses 0x2BA01477 [0xF0000000])).length = 308 ∧
    (wireCycles cfg (memWriteAccesses cfg Session.reset dhcsrAddr dhcsrHalt
      ++ pollAccesses cfg (afterMem cfg Session.reset) [(0, 0x00030003)])).length = 326 ∧
    (wireCycles cfg (memWriteAccesses cfg Session.reset 0x20000000 0xDEADBEEF)).length = 184 ∧
    (before ++ wireCycles cfg (loadAccesses cfg planE7 answersE7 Session.reset)).length = 1470 := by decide +kernel

/-! ## Witnesses: a state and operands that meet the hypotheses of each statement, one for each of its clauses -/

def idRead : Access := Access.read (Request.readDp 0) 0x2BA01477

theorem witness_DecodeAndEncodeAgree : decode [0b10100101, 0] = .ok (.dpr0Idcode, [0]) := rfl
/-- A state with the byte `w` issued. -/
def issued (w : Byte) (op : Operands) (bits : List Bool) : State :=
  { start quick none_ bits with inbox := [{ word := w, operands := op }] }
theorem witness_ReservedWordsRefused : (issued 0b00101 none_ []).inbox = [{ word := 0b00101, operands := none_ }] ∧
    paramsValid quick = true ∧ (0b00101 : Byte).toNat ∈ [0b00101] ∧ 32 ≤ (0b10000101 : Byte).toNat ∧
    (∀ apndp rnw a, (0b10000101 : Byte) ≠ requestByte apndp rnw a) := by decide +kernel
theorem witness_StepRunsTheDecodedInstruction : (issued 0b00011 none_ []).inbox = [{ word := 0b00011, operands := none_ }] ∧
    paramsValid (issued 0b00011 none_ []).cfg = true ∧ decode [0b00011] = .ok (.linkTrn, []) := ⟨rfl, by decide +kernel, rfl⟩
theorem witness_StepWaitsOrChecksParameters : (start quick none_ []).inbox = [] ∧ (issued 0 none_ []).inbox ≠ [] ∧
    ({ quick with lineResetHigh := 49 } : Config).lineResetHigh < 50 ∧ ({ quick with lineResetIdle := 1 } : Config).lineResetIdle < 2 ∧
    ({ quick with maxBurstWords := 0 } : Config).maxBurstWords = 0 ∧ ({ quick with powerUpPollMax := 0 } : Config).powerUpPollMax = 0 ∧
    ({ quick with haltPollMax := 0 } : Config).haltPollMax = 0 ∧ ({ quick with regRdyPollMax := 0 } : Config).regRdyPollMax = 0 ∧
    (0x00000011 : Word).extractLsb' 0 3 ≠ 0b010 ∧ (0x00000002 : Word).extractLsb' 4 2 ≠ 0b01 := by decide +kernel
theorem witness_LinkWriteDrivesItsBits : (startAfter .target none_ []).link.lastDir = .target ∧
    (startAfter .released none_ []).link.lastDir ≠ .target ∧ (startAfter .released none_ []).op.bits = [] ∧
    (startAfter .host { none_ with bits := [true, false] } []).link.lastDir ≠ .target ∧
    (startAfter .host { none_ with bits := [true, false] } []).op.bits = [true] ++ [false] := by decide
theorem witness_LinkReadSamplesTheTarget : (startAfter .host none_ []).link.lastDir = .host ∧
    (startAfter .target { none_ with count := 0 } []).link.lastDir ≠ .host ∧ (startAfter .released { none_ with count := 32 } []).op.count ≤ 32 ∧
    32 < (startAfter .released { none_ with count := 33 } []).op.count := by decide
theorem witness_LineResetDrivesItsCycles : (startAfter .target none_ []).link.lastDir = .target ∧
    (startAfter .host none_ []).link.lastDir ≠ .target ∧ 50 ≤ quick.lineResetHigh ∧ 2 ≤ quick.lineResetIdle ∧
    ({ quick with lineResetHigh := 49 } : Config).lineResetHigh < 50 ∧ (issued 0b00100 none_ []).inbox ≠ [] := by decide
theorem witness_HostCyclesAfterTargetCyclesFault : let s := startAfter .target none_ []
    Instr.connect.wellFormed s.cfg s.op = true ∧ s.link.lastDir = .target ∧ (Instr.connect = .load → s.busy = false) ∧
    Instr.connect ∉ [Instr.linkClock, .linkRead, .linkTrn, .writeBlocks, .verifyBlocks] := by decide
theorem witness_ReadExchangeCompletes : let s := startAfter .released none_ ([true, false, false] ++ (bitsLSB (5 : Word) ++ [false]) ++ [true])
    wireRequest s.op .aprcDrw = some { apndp := true, rnw := true, a := 3, data := 0 } ∧ s.link.lastDir ≠ .target ∧
    s.targetIn = [true, false, false] ++ (bitsLSB (5 : Word) ++ [false]) ++ [true] := by
  and_intros <;> first | rfl | decide +kernel
theorem witness_WriteExchangeCompletes : let s := startAfter .released { none_ with apndp := true, addr := 0xC } [true, false, false]
    wireRequest s.op .xfer = some { apndp := true, rnw := false, a := 3, data := 0 } ∧ s.link.lastDir ≠ .target ∧
    s.targetIn = [true, false, false] ++ [] := by
  and_intros <;> first | rfl | decide +kernel
theorem witness_FailedExchangeHasNoData : let s := startAfter .host none_ [false, true, false]
    wireRequest s.op .dpw8Select = some { apndp := false, rnw := false, a := 2, data := 0 } ∧ s.link.lastDir ≠ .target ∧
    [false, true, false].length = 3 ∧ [false, true, false] ≠ [true, false, false] ∧ s.targetIn = [false, true, false] ++ [] := by
  and_intros <;> first | rfl | decide +kernel
theorem witness_ExchangeOutcomeAndFrame : let s := startAfter .host none_ [false, true, false]
    wireRequest s.op .dpr0Idcode = some { apndp := false, rnw := true, a := 0, data := 0 } ∧
    ¬(false = false ∧ true = false ∧ (0 : BitVec 2) = 3) ∧ s.link.lastDir ≠ .target := by
  decide +kernel
/-- A DRW write that reaches the MEM-AP, one that does not, since SELECT names another bank, and one answered WAIT at DHCSR. -/
theorem witness_ExchangeStoresAtTar : let s := startAfter .host none_ [true, false, false]
    let off := { s with target := { s.target with select := 0xF0 } }
    let wait := { s with target := { s.target with tar := dhcsrAddr }, targetIn := [false, true, false] }
    wireRequest s.op .apwcDrw = some (Request.writeAp 3 0) ∧ storeAddr s.cfg (Request.writeAp 3 0) s.target = some 0 ∧
    storeAddr off.cfg (Request.writeAp 3 0) off.target = none ∧ ¬(true = false ∧ false = true ∧ (3 : BitVec 2) = 3) ∧
    storeAddr s.cfg (Request.writeAp 3 0) s.target ∉ [some dhcsrAddr, some dcrsrAddr] ∧ (∃ t, exec .apwcDrw s = .next t) ∧
    (∃ t, exec .apwcDrw off = .next t) ∧ ∃ t, exec .apwcDrw wait = .next t ∧ (t.dp.ack != 0b001) = true :=
  ⟨by decide +kernel, by decide +kernel, by decide +kernel, by decide, by decide +kernel, ⟨_, rfl⟩, ⟨_, rfl⟩, ends_next (by decide +kernel)⟩
theorem witness_DrwAccessesUseTar : let s := ready (startAfter .host { none_ with value := 0x12345678 } [true, false, false])
    let u := { s with targetIn := [true, false, false] ++ (bitsLSB (5 : Word) ++ [true]) ++ [] }
    s.link.lastDir ≠ .target ∧ memApSelected s.cfg s.target = true ∧ csw32 s.target.csw = true ∧ cswInc s.target.csw = 0b01 ∧
    s.target.tar.toNat / s.cfg.tarWrapBytes = (s.target.tar.toNat + 4) / s.cfg.tarWrapBytes ∧
    s.targetIn = [true, false, false] ++ [] ∧ Memory.wf s.target.mem = true ∧ s.target.tar ∉ [dhcsrAddr, dcrsrAddr, dcrdrAddr] ∧
    u.targetIn = [true, false, false] ++ (bitsLSB (5 : Word) ++ [true]) ++ [] := by
  and_intros <;> first | rfl | decide +kernel
theorem witness_WritesReachTheirRegisters : let s := startAfter .none { none_ with value := 0x50000000 } [true, false, false]
    s.link.lastDir ≠ .target ∧ s.targetIn = [true, false, false] ++ [] ∧ s.target.select.extractLsb' 0 4 = 0 ∧
    memApSelected s.cfg s.target = true := by
  and_intros <;> first | rfl | decide +kernel
/-- Of the last clause the witness is that of `OnlyLegalRequestsAreEmitted`, which has the same hypotheses. -/
theorem witness_DpWriteAtCIsRefused : let op := { none_ with addr := 0xC }
    op.apndp = false ∧ op.rnw = false ∧ op.addr.extractLsb' 2 2 = 3 ∧ op.addr = 0xC ∧
    Instr.rdDp ∉ [Instr.linkClock, .linkWrite, .linkRead, .linkTrn] ∧
    ∃ t, exec .rdDp (start quick none_ (answerBits [idRead])) = .next t ∧ t.res.ok = true :=
  ⟨rfl, rfl, by decide, rfl, by decide, ends_next (by decide +kernel)⟩
/-- The empty plan is not admitted: R172 wants an entry address. -/
theorem not_admits_unwritten : ¬Admits quick (start quick none_ []).op.plan := fun h => h.entry.1 rfl
theorem witness_BadOperandsRefused : (0x1 : BitVec 8) ∉ [0x0, 0x4, 0x8, 0xC] ∧ (0xC : BitVec 8) ∉ [0x0, 0x4, 0x8] ∧
    (0x02 : BitVec 8).extractLsb' 0 2 ≠ 0 ∧ (0x20000002 : Word).extractLsb' 0 2 ≠ 0 ∧
    ({ start quick none_ [] with busy := true } : State).busy = true ∧ planAdmitted quick planE7 = true ∧
    ¬Admits quick (start quick none_ []).op.plan ∧ (start quick none_ []).busy = false :=
  ⟨by decide, by decide, by decide, by decide, rfl, by decide +kernel, not_admits_unwritten, rfl⟩
theorem witness_RdDpReturnsTheRegister : let s := start quick (opAddr 0xC 0) (answerBits [Access.read (Request.readDp 3) 9] ++ [])
    s.op.addr ∈ [0x0, 0x4, 0x8, 0xC] ∧ s.link.lastDir ≠ .target ∧
    s.targetIn = answerBits [Access.read (Request.readDp (s.op.addr.extractLsb' 2 2)) 9] ++ [] := by
  and_intros <;> first | rfl | decide +kernel
theorem witness_WrDpWritesTheRegister : [0x0, 0x4, 0x8].all fun a =>
    let s := start quick (opAddr a 7) (okAck ++ [true])
    s.op.addr ∈ [0x0, 0x4, 0x8] ∧ s.link.lastDir ≠ .target ∧
    s.targetIn = answerBits [Access.write (Request.writeDp (s.op.addr.extractLsb' 2 2) s.op.value)] ++ [true] := by
  rfl
theorem witness_RdApReturnsRdbuff :
    let as := [Access.write (Request.writeDp 2 0xF0), Access.read (Request.readAp 3) 1, Access.read (Request.readDp 3) 2]
    let s := start quick (opAddr 0xFC 0) (answerBits as ++ [])
    s.op.addr.extractLsb' 0 2 = 0 ∧ s.link.lastDir ≠ .target ∧ s.targetIn = answerBits (bankAccesses s.cfg s.sess s.op.addr
      ++ [Access.read (Request.readAp (s.op.addr.extractLsb' 2 2)) 1, Access.read (Request.readDp dpRdbuff) 2]) ++ [] := by
  and_intros <;> first | rfl | decide +kernel
theorem witness_WrApWritesTheRegister :
    let s := start quick (opAddr 0x04 9) (answerBits [Access.write (Request.writeDp 2 0), Access.write (Request.writeAp 1 9)] ++ [])
    s.op.addr.extractLsb' 0 2 = 0 ∧ s.link.lastDir ≠ .target ∧ s.targetIn = answerBits (bankAccesses s.cfg s.sess s.op.addr
      ++ [Access.write (Request.writeAp (s.op.addr.extractLsb' 2 2) s.op.value)]) ++ [] := by
  and_intros <;> first | rfl | decide +kernel
theorem witness_MemWr32WritesTarThenDrw : let s := ready (start quick (opMem 0xFFFFFFFC 9) (okAck ++ okAck))
    s.op.value.extractLsb' 0 2 = 0 ∧ s.link.lastDir ≠ .target ∧
    s.targetIn = answerBits (memWriteAccesses s.cfg s.sess s.op.value s.op.value2) ++ [] := by
  and_intros <;> first | rfl | decide +kernel
/-- A read of DHCSR, the caches true: also a plain read for the other clauses. -/
theorem witness_MemRd32ReadsThroughRdbuff :
    let s := ready (start quick (opMem 0xE000EDF0 0) (answerBits (memReadAccesses quick (ready (start quick none_ [])).sess 0xE000EDF0 1 2) ++ []))
    s.op.value.extractLsb' 0 2 = 0 ∧ s.link.lastDir ≠ .target ∧
    s.targetIn = answerBits (memReadAccesses s.cfg s.sess s.op.value 1 2) ++ [] ∧ s.op.value = 0xE000EDF0 ∧ paramsValid s.cfg = true ∧
    BankCacheTrue s ∧ CswTrue s := by
  refine ⟨by decide, by decide, rfl, rfl, by decide +kernel, fun _ => rfl, fun _ => ?_⟩
  decide
/-- A register command, its operands, and one of its transactions: those before it, it, those after it. -/
structure Turn where
  i : Instr
  op : Operands
  before : List Access
  a : Access
  after : List Access

/-- `RD_DP`, `WR_DP`, the two transactions of `WR_AP`, the three of `RD_AP`. -/
def turns : List Turn :=
  let rdDp := Access.read (Request.readDp 0) 2
  let sel0 := Access.write (Request.writeDp 2 0)
  let tar := Access.write (Request.writeAp 1 9)
  let sel := Access.write (Request.writeDp 2 0xF0)
  let post := Access.read (Request.readAp 3) 1
  let rdbuff := Access.read (Request.readDp 3) 2
  [⟨.rdDp, none_, [], rdDp, []⟩, ⟨.wrDp, opAddr 0x8 0, [], sel0, []⟩,
    ⟨.wrAp, opAddr 0x04 9, [], sel0, [tar]⟩, ⟨.wrAp, opAddr 0x04 9, [sel0], tar, []⟩,
    ⟨.rdAp, opAddr 0xFC 0, [], sel, [post, rdbuff]⟩, ⟨.rdAp, opAddr 0xFC 0, [sel], post, [rdbuff]⟩,
    ⟨.rdAp, opAddr 0xFC 0, [sel, post], rdbuff, []⟩]
/-- Each is a transaction of its command, in the session of reset. -/
theorem turns_split : turns.all (fun t => t.i ∈ [Instr.rdDp, .wrDp, .rdAp, .wrAp] && t.i.wellFormed quick t.op &&
    commandAccesses quick t.op Session.reset 1 2 t.i = t.before ++ t.a :: t.after) = true := by decide +kernel
def Turn.start (t : Turn) (as : List Access) : State := Tests.start quick t.op (answerBits as ++ [])
/-- WAIT as often as the bound allows, and once more. -/
theorem witness_WaitIsRetriedWithinItsBound : turns ≠ [] ∧ 1 ≤ quick.waitRetryMax ∧ ∀ t ∈ turns,
    let s := t.start (t.before ++ t.a.waited 1 ++ t.after)
    let u := t.start (t.before ++ waitedOut quick t.a.rq)
    s.link.lastDir ≠ .target ∧ s.targetIn = answerBits (t.before ++ t.a.waited 1 ++ t.after) ++ [] ∧ u.busy = false ∧
    u.targetIn = answerBits (t.before ++ waitedOut u.cfg t.a.rq) ++ [] :=
  ⟨by simp [turns], by decide, fun _ _ => ⟨show Dir.none ≠ .target by decide, rfl, rfl, rfl⟩⟩
def badParity : Access := { idRead with parity := true }
/-- `a` answered FAULT, and with an acknowledge of R91 that is none. -/
def faulty (a : Access) : Access := { a with ack := faultAck }
def floating (rq : Request) : Access := { rq := rq, ack := [true, true, true], answer := 0, parity := false }
theorem faulty_broken (a : Access) : (faulty a).broken := ⟨rfl, .inl rfl⟩
theorem floating_broken (rq : Request) : (floating rq).broken := ⟨rfl, .inr rfl⟩
theorem witness_OneFaultIsRecovered : badParity.broken ∧ turns ≠ [] ∧ (∀ k ∈ [1, 0, 1, 0], k ≤ quick.waitRetryMax) ∧ ∀ t ∈ turns,
    let as := t.before ++ (faulty t.a).waited 1 ++ recovery 5 0 1 ++ t.a.waited 0 ++ t.after
    let s := t.start as
    (faulty t.a).broken ∧ (faulty t.a).rq = t.a.rq ∧ s.link.lastDir ≠ .target ∧ s.targetIn = answerBits as ++ [] :=
  ⟨⟨rfl, .inr (by decide +kernel)⟩, by simp [turns], by decide,
    fun t _ => ⟨faulty_broken t.a, rfl, show Dir.none ≠ .target by decide, rfl⟩⟩
/-- Every way of R149 to fail after a first FAULT, in every transaction. -/
theorem witness_SecondFaultIsFatal : turns ≠ [] ∧ (∀ k ∈ [0, 1, 0, 1], k ≤ quick.waitRetryMax) ∧ ∀ t ∈ turns,
    let first := t.before ++ (faulty t.a).waited 0
    let read := (Access.read (Request.readDp dpCtrlStat) 5).waited 1
    let abort := Request.writeDp dpAbort 0x0000001E
    (faulty t.a).broken ∧ (faulty t.a).rq = t.a.rq ∧ (t.start []).link.lastDir ≠ .target ∧ (t.start []).busy = false ∧
    (floating (Request.readDp dpCtrlStat)).broken ∧ (floating abort).broken ∧ (floating t.a.rq).broken ∧
    ∀ as ∈ [first ++ (floating (Request.readDp dpCtrlStat)).waited 1, first ++ waitedOut quick (Request.readDp dpCtrlStat),
        first ++ read ++ (floating abort).waited 0, first ++ read ++ waitedOut quick abort,
        first ++ recovery 5 1 0 ++ (floating t.a.rq).waited 1, first ++ recovery 5 1 0 ++ waitedOut quick t.a.rq],
      (t.start as).targetIn = answerBits as ++ [] :=
  ⟨by simp [turns], by decide, fun t _ => ⟨faulty_broken t.a, rfl, show Dir.none ≠ .target by decide, rfl,
    floating_broken _, floating_broken _, floating_broken _, fun _ _ => rfl⟩⟩
theorem witness_ConnectReachesReady : let cfg := { quick with powerUpPollMax := 2 }
    let s := start cfg none_ (answerBits (connectAccesses 0x2BA01477 [0x20000000, 0xF0000000]) ++ [])
    s.link.lastDir ≠ .target ∧ (0x2BA01477 : Word).extractLsb' 0 4 = s.cfg.idLowNibble ∧
    (∀ v ∈ ([0x20000000] : List Word), v &&& 0xA0000000 ≠ 0xA0000000) ∧ (0xF0000000 : Word) &&& 0xA0000000 = 0xA0000000 ∧
    ([0x20000000] : List Word).length < s.cfg.powerUpPollMax ∧
    s.targetIn = answerBits (connectAccesses 0x2BA01477 ([0x20000000] ++ [0xF0000000])) ++ [] := by
  and_intros <;> first | rfl | (simp only [List.mem_singleton, forall_eq]; decide +kernel) | decide +kernel
theorem witness_ConnectFailsAtItsStep :
    let s := start quick none_ (answerBits [Access.read (Request.readDp 0) 0x2BA01470] ++ [])
    let u := start quick none_ (answerBits (connectAccesses 0x2BA01477 [0x80000000]) ++ [])
    s.link.lastDir ≠ .target ∧ s.busy = false ∧ (0x2BA01470 : Word).extractLsb' 0 4 ≠ s.cfg.idLowNibble ∧
    s.targetIn = answerBits [Access.read (Request.readDp 0) 0x2BA01470] ++ [] ∧ (0x2BA01477 : Word).extractLsb' 0 4 = u.cfg.idLowNibble ∧
    (∀ v ∈ ([0x80000000] : List Word), v &&& 0xA0000000 ≠ 0xA0000000) ∧ ([0x80000000] : List Word).length = u.cfg.powerUpPollMax ∧
    u.targetIn = answerBits (connectAccesses 0x2BA01477 [0x80000000]) ++ [] := by
  and_intros <;> first | rfl | (simp only [List.mem_singleton, forall_eq]; decide +kernel) | decide +kernel
theorem witness_HaltSeesTheCoreHalted : let cfg := { quick with haltPollMax := 2 }
    let as := memWriteAccesses cfg Session.reset 0xE000EDF0 0xA05F0003 ++ pollAccesses cfg (afterMem cfg Session.reset) ([(0, 0x10000)] ++ [(0, 0x20000)])
    let s := start cfg none_ (answerBits as ++ [])
    s.link.lastDir ≠ .target ∧ (∀ r ∈ ([(0, 0x10000)] : List (Word × Word)), r.2.getLsbD 17 = false) ∧
    ((0, 0x20000) : Word × Word).2.getLsbD 17 = true ∧ ([(0, 0x10000)] : List (Word × Word)).length < s.cfg.haltPollMax ∧
    s.targetIn = answerBits as ++ [] ∧ paramsValid s.cfg = true ∧ BankCacheTrue s ∧ CswTrue s := by
  refine ⟨by decide, ?_, by decide, by decide, rfl, by decide +kernel, fun h => (by cases h), fun h => (by cases h)⟩
  simp only [List.mem_singleton, forall_eq]
  decide
/-- Both orders of R169. -/
theorem witness_SetRegWritesSelectAndData (order : SetRegOrder) : let cfg := { quick with setRegOrder := order }
    let select : Word := 0x00010000 ||| (13 : BitVec 5).setWidth 32
    let ss := afterMem cfg Session.reset
    let polled := pollAccesses cfg ss ([] ++ [(0, 0x10000)])
    let as := if cfg.setRegOrder = .selectThenData then
        memWriteAccesses cfg Session.reset 0xE000EDF4 select ++ polled ++ memWriteAccesses cfg ss 0xE000EDF8 8
      else memWriteAccesses cfg Session.reset 0xE000EDF8 8 ++ memWriteAccesses cfg ss 0xE000EDF4 select ++ polled
    let s := start cfg (opReg 13 8) (answerBits as ++ [])
    s.link.lastDir ≠ .target ∧ ((0, 0x10000) : Word × Word).2.getLsbD 16 = true ∧ ([] : List (Word × Word)).length < s.cfg.regRdyPollMax ∧
    s.targetIn = answerBits as ++ [] :=
  ⟨show Dir.none ≠ .target by decide, by decide, show 0 < 1 by decide, rfl⟩
theorem witness_ResumeReleasesTheCore :
    let s := start quick none_ (answerBits (memWriteAccesses quick Session.reset 0xE000EDF0 0xA05F0001) ++ [])
    s.link.lastDir ≠ .target ∧ s.targetIn = answerBits (memWriteAccesses s.cfg s.sess 0xE000EDF0 0xA05F0001) ++ [] := by
  and_intros <;> first | rfl | decide +kernel
theorem witness_ControlPollsTimeOut : let reads : List (Word × Word) := [(0, 0)]
    let s := start quick none_ (answerBits (memWriteAccesses quick Session.reset 0xE000EDF0 0xA05F0003
      ++ pollAccesses quick (afterMem quick Session.reset) reads) ++ [])
    let u := start quick (opReg 15 8) (answerBits (setRegTimeoutAccesses quick Session.reset 15 8 reads) ++ [])
    s.link.lastDir ≠ .target ∧ s.busy = false ∧ (∀ r ∈ reads, r.2.getLsbD 17 = false) ∧ reads.length = s.cfg.haltPollMax ∧
    s.targetIn = answerBits (memWriteAccesses s.cfg s.sess 0xE000EDF0 0xA05F0003 ++ pollAccesses s.cfg (afterMem s.cfg s.sess) reads) ++ [] ∧
    (∀ r ∈ reads, r.2.getLsbD 16 = false) ∧ reads.length = u.cfg.regRdyPollMax ∧
    u.targetIn = answerBits (setRegTimeoutAccesses u.cfg u.sess u.op.regId u.op.value reads) ++ [] := by
  and_intros <;> first | rfl | (simp only [List.mem_singleton, forall_eq]; decide +kernel) | decide +kernel
/-! ### Witnesses of statements about every answer of the target -/

/-- The caches of a session that has connected hold what the target holds. -/
theorem caches_ready (cfg : Config) (op : Operands) (bits : List Bool) :
    BankCacheTrue (ready (start cfg op bits)) ∧ CswTrue (ready (start cfg op bits)) :=
  ⟨fun _ => rfl, fun _ => show csw32 0x12 = true ∧ cswInc 0x12 = 1 by decide⟩

/-- `n` writes answered OK, and a read answered OK with `v`. -/
def oks (n : Nat) : List Bool := (List.replicate n okAck).flatten
def data (v : Word) : List Bool := (Access.read (Request.readDp 0) v).bits
/-- A poll of DHCSR that sees both of its bits at once: TAR, the posted read, RDBUFF. -/
def polled : List Bool := oks 1 ++ data 0 ++ data 0x00030003
def memOp (a : Addr32) : State := ready (start quick (opMem a 9) (okAck ++ okAck))
def haltOp : State := ready (start quick none_ (oks 2 ++ polled))
/-- Also of `MemoryCommandFrame`. -/
theorem witness_SuccessfulWritesReachTheTarget : paramsValid quick = true ∧
    ((0x20000000 : Word) ∉ [dhcsrAddr, dcrsrAddr, dcrdrAddr] ∧ ∃ t, exec .memWr32 (memOp 0x20000000) = .next t ∧ t.res.ok = true) ∧
    (∃ t, exec .memWr32 (memOp dcrdrAddr) = .next t ∧ t.res.ok = true) ∧ (∃ t, exec .halt haltOp = .next t ∧ t.res.ok = true) ∧
    ∃ t, exec .resume (memOp 0) = .next t ∧ t.res.ok = true :=
  ⟨by decide +kernel, ⟨by decide, ends_next (by decide +kernel)⟩, ends_next (by decide +kernel), ends_next (by decide +kernel),
    ends_next (by decide +kernel)⟩
/-- A `SET_REG` in either order of the two writes; S_HALT has shown as `halted`. -/
def setRegOp (order : SetRegOrder) (halted : Bool := true) : State :=
  let cfg := { quick with setRegOrder := order }
  let s := ready (start cfg (opReg 13 8) [])
  { s with
    target := { s.target with dhcsr := 3, dhcsrStatus := if halted then 0x00020000 else 0 }
    targetIn := if order = .selectThenData then oks 2 ++ polled ++ oks 2 else oks 4 ++ polled }
/-- R208: a DCRSR write takes effect only in Debug state, whatever C_HALT was written. -/
theorem test_setReg_debugState : [true, false].all (fun h =>
    ends (exec .setReg (setRegOp .dataThenSelect h)) fun t => t.res.ok && (t.target.coreRegs[13]? == some (if h then 8 else 0))) =
      true := by decide +kernel
theorem witness_SetRegReachesTheCore : paramsValid (setRegOp .selectThenData).cfg = true ∧
    coreHalted (setRegOp .selectThenData).target = true ∧ coreHalted (setRegOp .dataThenSelect false).target = false ∧
    BankCacheTrue (setRegOp .selectThenData) ∧ CswTrue (setRegOp .selectThenData) ∧
    (∃ t, exec .setReg (setRegOp .selectThenData) = .next t ∧ t.res.ok = true) ∧
    (∃ t, exec .setReg (setRegOp .dataThenSelect) = .next t ∧ t.res.ok = true) ∧
    ∃ t, exec .setReg (setRegOp .dataThenSelect false) = .next t ∧ t.res.ok = true :=
  ⟨by decide +kernel, by decide +kernel, by decide +kernel, fun _ => rfl, fun _ => ⟨rfl, rfl⟩, ends_next (by decide +kernel),
    ends_next (by decide +kernel), ends_next (by decide +kernel)⟩

/-! ### Witnesses of statements about the passes and the load operation -/

theorem witness_WriteBlocksWritesEveryWord :
    let s := start quick (opPlan planE7) (answerBits (cswAccesses quick Session.reset
      ++ writeWordAccesses quick (passSession quick Session.reset) (planWords planE7)) ++ [])
    planAdmitted s.cfg s.op.plan = true ∧ s.link.lastDir ≠ .target ∧ s.targetIn = answerBits (cswAccesses s.cfg s.sess
      ++ writeWordAccesses s.cfg (passSession s.cfg s.sess) (planWords s.op.plan)) ++ [] := by
  and_intros <;> first | rfl | decide +kernel
/-- Two words, whose posted reads carry data of their own. -/
theorem witness_VerifyBlocksReadsEveryWord : let p := { planE7 with buffers := [{ bytes := [1, 0, 0, 0, 2, 0, 0, 0], len := 8 }] }
    let posted := fun k => BitVec.ofNat 32 (k + 7)
    let s := start quick (opPlan p) (answerBits (cswAccesses quick Session.reset
      ++ verifyWordAccesses posted quick 0 (passSession quick Session.reset) (planWords p)) ++ [])
    posted 0 ≠ posted 1 ∧ (planWords p).length = 2 ∧ planAdmitted s.cfg s.op.plan = true ∧ s.link.lastDir ≠ .target ∧
    s.targetIn = answerBits (cswAccesses s.cfg s.sess
      ++ verifyWordAccesses posted s.cfg 0 (passSession s.cfg s.sess) (planWords s.op.plan)) ++ [] := by
  and_intros <;> first | rfl | decide +kernel
/-- The second word of the first of two sections reads back differently. -/
theorem witness_VerifyMismatchNamesTheWord :
    let p := { planE7 with
      addrs := [0x20000000, 0x20000100]
      buffers := [{ bytes := [1, 0, 0, 0, 2, 0, 0, 0], len := 8 }, { bytes := [3, 0, 0, 0], len := 4 }], count := 2 }
    let sec : Section := { addr := 0x20000000, bytes := [1, 0, 0, 0, 2, 0, 0, 0], len := 8 }
    let later : Section := { addr := 0x20000100, bytes := [3, 0, 0, 0], len := 4 }
    let posted := fun k => BitVec.ofNat 32 (k + 7)
    let read := wordsAt sec.addr 0 [1]
    let ss := wordsSession quick (passSession quick Session.reset) read
    let as := cswAccesses quick Session.reset ++ (verifyWordAccesses posted quick 0 (passSession quick Session.reset) read
      ++ (tarAccesses quick ss 0x20000004 ++ [Access.read (Request.readAp 3) (posted 1), Access.read (Request.readDp dpRdbuff) 7]))
    let s := start quick (opPlan p) (answerBits as ++ [])
    planAdmitted s.cfg s.op.plan = true ∧ s.link.lastDir ≠ .target ∧ s.busy = false ∧ planSections s.op.plan = [] ++ sec :: [later] ∧
    sectionWords sec = [1] ++ 2 :: [] ∧ read.length = 1 ∧ (7 : Word) ≠ 2 ∧ s.targetIn = answerBits as ++ [] := by
  and_intros <;> first | rfl | decide +kernel
def loadStart (cfg : Config) : State := start cfg (opPlan planE7) (answerBits (loadAccesses cfg planE7 answersE7 Session.reset) ++ [])
theorem good_E7 : LoadAnswers.Good quick answersE7 :=
  ⟨by decide, (fun _ h => by cases h), by decide, by decide, (fun _ h => by cases h), by decide, by decide, (fun _ h => by cases h),
    by decide, by decide, (fun _ h => by cases h), by decide, by decide⟩
theorem witness_LoadRunsToRunning : (loadStart quick).busy = false ∧ planAdmitted (loadStart quick).cfg (loadStart quick).op.plan = true ∧
    (loadStart quick).link.lastDir ≠ .target ∧ LoadAnswers.Good (loadStart quick).cfg answersE7 ∧
    (loadStart quick).targetIn = answerBits (loadAccesses (loadStart quick).cfg (loadStart quick).op.plan answersE7 (loadStart quick).sess) ++ [] :=
  ⟨rfl, by decide +kernel, by decide, good_E7, rfl⟩
/-- Two words in one burst, the stack pointer and entry of E7. -/
def planTwo : LoadPlan := { planE7 with buffers := [{ bytes := [1, 0, 0, 0, 2, 0, 0, 0], len := 8 }] }
theorem planTwo_stays (cfg : Config) (h : cfg.tarWrapBytes = 1024) : planStays cfg planTwo :=
  show burstsStay cfg _ [(0x20000000, 1), (0x20000004, 2)] from ⟨fun k => Bool.noConfusion (show false = true from k.1), fun _ => by rw [h]; decide, trivial⟩
theorem planTwo_words : planWords planTwo = [(0x20000000, 1), (0x20000004, 2)] := by decide +kernel
theorem planTwo_inMemory : planInMemory planTwo := by
  unfold planInMemory
  rw [planTwo_words]
  simp [dhcsrAddr, dcrsrAddr, dcrdrAddr]
/-- The answers of a load operation of `planTwo`: `CONNECT`, `HALT`, three writes of the pass, two register writes, `RESUME`. -/
def loadTwo (order : SetRegOrder) : State :=
  let reg := if order = .selectThenData then oks 2 ++ polled ++ oks 2 else oks 4 ++ polled
  start { quick with setRegOrder := order } (opPlan planTwo)
    (data 0x2BA01477 ++ oks 2 ++ data 0xF0000000 ++ oks 4 ++ polled ++ oks 3 ++ reg ++ reg ++ oks 2)
theorem loadTwo_runs (order : SetRegOrder) : ∃ t, exec .load (loadTwo order) = .next t ∧ t.load = .running := by
  have h : ∃ t, exec .load (loadTwo order) = .next t ∧ (t.load == .running) = true := by
    cases order
    · exact ends_next (by decide +kernel)
    · exact ends_next (by decide +kernel)
  obtain ⟨t, ht, hl⟩ := h
  exact ⟨t, ht, by simpa using hl⟩
/-- A load operation that ends Running, and one whose target never answers. -/
theorem witness_LoadEndsRunningOrFailed : (∃ t, exec .load (loadTwo .selectThenData) = .next t ∧ t.load = .running) ∧
    ∃ t, exec .load (start quick (opPlan planE7) (List.replicate 6 true)) = .next t ∧ (t.load == .failed) = true :=
  ⟨loadTwo_runs _, ends_next (by decide +kernel)⟩
theorem witness_LoadPlacesTheImage : let s := loadTwo .selectThenData
    paramsValid s.cfg = true ∧ TargetSafe s ∧ planStays s.cfg s.op.plan ∧ planInMemory s.op.plan ∧
    ∃ t, exec .load s = .next t ∧ t.load = .running :=
  ⟨by decide +kernel, ⟨rfl, rfl, rfl⟩, planTwo_stays _ rfl, planTwo_inMemory, loadTwo_runs _⟩
/-- Answers of a load operation of `planTwo` under DataThenSelect; S_HALT shows in the poll between the register writes or not. -/
def answersTwo (halted : Bool) : LoadAnswers := { answersE7 with spLast := (0, if halted then 0x00030003 else 0x00010003) }
def loadTwoAnswered (halted : Bool) : State :=
  let cfg := { quick with setRegOrder := .dataThenSelect }
  start cfg (opPlan planTwo) (answerBits (loadAccesses cfg planTwo (answersTwo halted) Session.reset) ++ [])
theorem good_answersTwo (halted : Bool) : LoadAnswers.Good (loadTwoAnswered halted).cfg (answersTwo halted) :=
  let g := good_E7
  ⟨g.id, g.powerUpEarly, g.powerUpSeen, g.powerUpBound, g.haltEarly, g.haltSeen, g.haltBound, g.spEarly,
    by cases halted <;> decide, g.spBound, g.pcEarly, g.pcSeen, g.pcBound⟩
/-- The two clauses, the second with S_HALT seen and not seen. -/
theorem witness_LoadSetsTheCore : (let s := loadTwo .dataThenSelect
      paramsValid s.cfg = true ∧ planStays s.cfg s.op.plan ∧ planInMemory s.op.plan ∧ s.cfg.setRegOrder = .dataThenSelect ∧
      ∃ t, exec .load s = .next t ∧ t.load = .running) ∧
    ∀ halted, let s := loadTwoAnswered halted
      paramsValid s.cfg = true ∧ planStays s.cfg s.op.plan ∧ planInMemory s.op.plan ∧ s.cfg.setRegOrder = .dataThenSelect ∧
      s.busy = false ∧ planAdmitted s.cfg s.op.plan = true ∧ s.link.lastDir ≠ .target ∧ LoadAnswers.Good s.cfg (answersTwo halted) ∧
      (answersTwo halted).spLast.2.getLsbD 17 = halted ∧
      s.targetIn = answerBits (loadAccesses s.cfg s.op.plan (answersTwo halted) s.sess) ++ [] :=
  ⟨⟨by decide +kernel, planTwo_stays _ rfl, planTwo_inMemory, rfl, loadTwo_runs _⟩, fun halted =>
    ⟨by cases halted <;> decide +kernel, planTwo_stays _ rfl, planTwo_inMemory, rfl, rfl, by cases halted <;> decide +kernel,
      by cases halted <;> decide, good_answersTwo halted,
      by cases halted <;> decide, rfl⟩⟩
/-- Another session, another trace and another target. -/
theorem witness_LoadDependsOnAnswersAlone : let s := loadTwo .selectThenData
    let s' := { ready s with trace := [.z], target := { s.target with tar := 8 } }
    s.cfg = s'.cfg ∧ s.op.plan = s'.op.plan ∧ s.targetIn = s'.targetIn ∧ s.draws = s'.draws ∧ s.link.lastDir ≠ .target ∧
    s'.link.lastDir ≠ .target ∧ (∃ t, exec .load s = .next t) ∧ ∃ t', exec .load s' = .next t' := by
  refine ⟨rfl, rfl, rfl, rfl, by decide, by decide, ?_, ?_⟩
  · obtain ⟨t, h, _⟩ := loadTwo_runs .selectThenData
    exact ⟨t, h⟩
  · have h : ends (exec .load { ready (loadTwo .selectThenData) with
        trace := [.z], target := { (loadTwo .selectThenData).target with tar := 8 } }) (fun _ => true) = true := by decide +kernel
    obtain ⟨t, ht, _⟩ := ends_next h
    exact ⟨t, ht⟩

/-! ### Witnesses of the rules of the whole machine -/

theorem witness_WellFormedCommandsComplete : let s := startAfter .released none_ []
    Instr.linkRead.wellFormed s.cfg s.op = true ∧ s.link.lastDir ≠ .target ∧ (Instr.linkRead = .linkRead → s.link.lastDir ≠ .host) ∧
    (Instr.linkRead = .load → s.busy = false) := by decide
/-- A register read that succeeds, and one that fails: also of `RegisterCommandFrame`. -/
theorem witness_CommandsReportTheirFailure : Layered .rdDp ∧ (start quick none_ (answerBits [idRead])).busy = false ∧
    Instr.rdDp ∈ [Instr.rdDp, .wrDp, .rdAp, .wrAp] ∧ (∃ t, exec .rdDp (start quick none_ (answerBits [idRead])) = .next t ∧ t.res.ok = true) ∧
    ∃ t, exec .rdDp (start quick none_ [false, false, false, true, true, true]) = .next t ∧ (!t.res.ok) = true :=
  ⟨by unfold Layered; decide, rfl, by decide, ends_next (by decide +kernel), ends_next (by decide +kernel)⟩
theorem witness_RegisterCommandFrame : [0x00, 0x04, 0x0C].all (fun a =>
    let s := ready (start quick (opAddr a 7) okAck)
    !s.busy && ends (exec .wrAp s) fun t => t.res.ok) = true := by decide +kernel
theorem witness_MemoryCommandFrame : Instr.setReg ∈ [Instr.memWr32, .memRd32, .halt, .setReg, .resume] ∧
    (setRegOp .selectThenData).busy = false ∧ ∃ t, exec .setReg (setRegOp .selectThenData) = .next t ∧ t.res.ok = true :=
  ⟨by decide, rfl, ends_next (by decide +kernel)⟩
def passOp_ : State := ready (start quick (opPlan planTwo) (answerBits [Access.write (Request.writeAp 1 0), Access.write (Request.writeAp 3 0),
  Access.write (Request.writeAp 3 0)]))
/-- The same plan read back as given. -/
def verifyOp_ : State := ready (start quick (opPlan planTwo) (answerBits (
  verifyWordAccesses (fun _ => 0) quick 0 (passSession quick (ready (start quick none_ [])).sess) (planWords planTwo))))
/-- The write pass, and the verification pass. -/
theorem witness_PassFrame : (Instr.writeBlocks ∈ [Instr.writeBlocks, .verifyBlocks] ∧ passOp_.busy = false ∧ paramsValid passOp_.cfg = true ∧
    BankCacheTrue passOp_ ∧ CswTrue passOp_ ∧ planStays passOp_.cfg passOp_.op.plan ∧ planInMemory passOp_.op.plan ∧
    ∃ t, exec .writeBlocks passOp_ = .next t ∧ t.res.ok = true) ∧
    Instr.verifyBlocks ∈ [Instr.writeBlocks, .verifyBlocks] ∧ verifyOp_.busy = false ∧
    ∃ t, exec .verifyBlocks verifyOp_ = .next t ∧ t.res.ok = true :=
  ⟨⟨by decide, rfl, by decide +kernel, (caches_ready _ _ _).1, (caches_ready _ _ _).2, planTwo_stays _ rfl, planTwo_inMemory,
    ends_next (by decide +kernel)⟩, by decide, rfl, ends_next (by decide +kernel)⟩
theorem witness_ConnectFrame : (start quick none_ []).busy = false ∧
    ∃ t, exec .connect (start quick none_ (answerBits (connectAccesses 0x2BA01477 [0xF0000000]))) = .next t ∧ t.res.ok = true :=
  ⟨rfl, ends_next (by decide +kernel)⟩
/-- `LOAD`, which empties the trace, and another command outside a load operation. -/
theorem witness_WhatOnlyLoadWrites : (∃ t, exec .load (loadTwo .selectThenData) = .next t ∧ t.load = .running) ∧
    Instr.rdDp ≠ .load ∧ (start quick none_ (answerBits [idRead])).busy = false ∧
    ∃ t, exec .rdDp (start quick none_ (answerBits [idRead])) = .next t ∧ t.res.ok = true :=
  ⟨loadTwo_runs _, by decide, rfl, ends_next (by decide +kernel)⟩
/-- Reset with an ABORT write request issued. -/
def abortIssued : State := issued 0x81 (opAddr 0 0x1E) okAck
theorem abortIssued_steps : ∃ t, step abortIssued = .next t ∧ t.res.ok = true := ends_next (by decide +kernel)
theorem witness_StepKeepsTheLinkSafe : LinkSafe abortIssued ∧ ∃ t, step abortIssued = .next t ∧ t.res.ok = true :=
  ⟨⟨rfl, by decide, (by intro c h; cases h), rfl⟩, abortIssued_steps⟩
theorem witness_StepKeepsTheCountersBounded : CountersSafe abortIssued ∧ ∃ t, step abortIssued = .next t ∧ t.res.ok = true :=
  ⟨⟨by decide, by decide, by decide⟩, abortIssued_steps⟩
theorem witness_StepKeepsLoadAndTargetSafe : LoadSafe abortIssued ∧ TargetSafe abortIssued ∧
    ∃ t, step abortIssued = .next t ∧ t.res.ok = true :=
  ⟨⟨rfl, .inl rfl⟩, ⟨rfl, rfl, rfl⟩, abortIssued_steps⟩
/-- A step, and the commands of which the second clause speaks. -/
theorem witness_OnlyLegalRequestsAreEmitted : RequestSafe abortIssued ∧ (∃ t, step abortIssued = .next t ∧ t.res.ok = true) ∧
    Instr.load ∉ [Instr.linkClock, .linkWrite, .linkRead, .linkTrn] ∧
    Instr.rdDp ∉ [Instr.linkClock, .linkWrite, .linkRead, .linkTrn] ∧
    (∃ t, exec .load (loadTwo .selectThenData) = .next t ∧ t.load = .running) ∧
    ∃ t, exec .rdDp (start quick none_ (answerBits [idRead])) = .next t ∧ t.res.ok = true :=
  ⟨.inl rfl, abortIssued_steps, by decide, by decide, loadTwo_runs _, ends_next (by decide +kernel)⟩
theorem witness_SessionCachesStayTrue : Instr.memWr32 ∉ [Instr.xfer, .dpw8Select] ∧ Instr.memWr32 ∉ [Instr.apw0Csw, .wrAp] ∧
    BankCacheTrue (memOp 0x20000000) ∧ CswTrue (memOp 0x20000000) ∧ paramsValid (memOp 0x20000000).cfg = true ∧
    ∃ t, exec .memWr32 (memOp 0x20000000) = .next t ∧ t.res.ok = true :=
  ⟨by decide, by decide, (caches_ready _ _ _).1, (caches_ready _ _ _).2, by decide +kernel, ends_next (by decide +kernel)⟩

end Sys2Proof.Tests
end

section
/-! SUPPORT. What the commands write outside a load operation, and the record of cycles, which only grows (O51). -/

namespace Sys2Proof.Machine

/-! ## The record of cycles (R47) -/

/-- The trace of a state continues `base`. -/
def TraceContinues (base : List Cycle) (u : State) : Prop := base <+: u.trace

theorem TraceContinues.append {base w : List Cycle} {u v : State} (h : TraceContinues base u) (ht : v.trace = u.trace ++ w) :
    TraceContinues base v := by
  unfold TraceContinues
  rw [ht]
  exact h.trans (List.prefix_append _ _)

theorem exchange_appends (rq : Request) (s : State) : ∃ w, (exchange rq s).trace = s.trace ++ w := by
  obtain ⟨_, d, p, inp, n, h⟩ | ⟨_, inp, n, h⟩ | ⟨ack, inp, n, _, _, h⟩ := exchange_cases rq s <;> rw [h]
  · exact ⟨readFrame s.cfg rq d p, rfl⟩
  · exact ⟨writeFrame s.cfg rq, rfl⟩
  · exact ⟨failFrame s.cfg rq ack, rfl⟩

theorem linkClock_appends (s : State) : ∃ w, (linkClock s).trace = s.trace ++ w := by
  unfold linkClock
  split
  · exact ⟨[.h s.link.dout], rfl⟩
  · exact ⟨[.z], rfl⟩

theorem linkSample_trace (n : Nat) (s : State) : (linkSample n s).trace = s.trace ++ (sampleBits n s).1.map .t :=
  congrArg State.trace (sampleBits_spec n s).2

theorem traceContinues_stable (base : List Cycle) : EngineStable True (TraceContinues base) (TraceContinues base) where
  exchange := fun rq s _ _ h => (exchange_appends rq s).elim fun _ hw => h.append hw
  drive := fun bits s _ _ h => h.append (driveBits_trace bits s)
  hazard := fun _ _ _ => trivial
  counters := fun _ _ _ _ h => h
  results := fun _ _ _ h => h
  session := fun _ _ _ h => h
  fresh := fun _ h => h
  position := fun _ _ h => h
  failed := fun _ _ _ h => h

theorem traceContinues_links (base : List Cycle) : LinkStable (TraceContinues base) where
  clock := fun s h => (linkClock_appends s).elim fun _ hw => h.append hw
  sample := fun n s _ h => h.append (linkSample_trace n s)
  turnaround := fun s h => h.append (cycleZ_trace s)
  drive := fun bits s _ h => h.append (driveBits_trace bits s)

/-- `LOAD` is left out: it empties the trace first (R177). -/
theorem exec_appends_trace {i : Instr} {s t : State} (hi : i ≠ .load) (he : exec i s = .next t) : ∃ w, t.trace = s.trace ++ w := by
  obtain ⟨w, hw⟩ := (exec_keeps_direct (traceContinues_stable s.trace) (traceContinues_links s.trace) hi
    (List.prefix_refl s.trace) he).elim id id
  exact ⟨w, hw.symm⟩

/-! ## `load` and `busy` outside a load operation (R43, R46) -/

/-- No load operation is in progress, and `load` is `l`. -/
def OutsideLoad (l : Load) (u : State) : Prop := u.load = l ∧ u.busy = false

/-- The failure entry writes `load` only while `busy` (R186). -/
theorem OutsideLoad.failEntry {l : Load} {u : State} (h : OutsideLoad l u) (c : FailCause) (a : Option Addr32) :
    OutsideLoad l (failEntry c a u) := by
  obtain ⟨hl, hb⟩ := h
  exact ⟨by simp [Machine.failEntry, hl, hb], rfl⟩

theorem outsideLoad_stable (l : Load) : EngineStable True (OutsideLoad l) (OutsideLoad l) where
  exchange := fun rq s _ _ h => by
    obtain ⟨_, _, _, hl, _, hb, _⟩ := exchange_frame rq s
    exact ⟨hl.trans h.1, hb.trans h.2⟩
  drive := fun bits s _ _ h => ⟨(driveBits_load bits s).trans h.1, (driveBits_busy bits s).trans h.2⟩
  hazard := fun _ _ _ => trivial
  counters := fun _ _ _ _ h => h
  results := fun _ _ _ h => h
  session := fun _ _ _ h => h
  fresh := fun _ h => h
  position := fun _ _ h => h
  failed := fun _ c a h => h.failEntry c a

theorem exec_outsideLoad {i : Instr} {s t : State} (hi : i ≠ .load) (hb : s.busy = false) (he : exec i s = .next t) :
    OutsideLoad s.load t :=
  (exec_keeps_direct (outsideLoad_stable s.load) (links_of fun _ _ _ _ _ _ h => h) hi ⟨rfl, hb⟩ he).elim id id

/-- Settles O51: the parameters, operands and waiting commands by `exec_cfg_op`, the trace and the load state each by a property
that every instruction but `LOAD` keeps. -/
theorem whatOnlyLoadWrites : Obligations.WhatOnlyLoadWrites := by
  unfold Obligations.WhatOnlyLoadWrites
  intro i s t he
  obtain ⟨hcfg, hop, hinbox⟩ := exec_cfg_op he
  refine ⟨hcfg, hop, hinbox, ?_, fun hi hb => exec_outsideLoad hi hb he⟩
  by_cases hi : i = .load
  · exact ⟨t.trace, by simp [hi]⟩
  · simpa [hi] using exec_appends_trace hi he

end Sys2Proof.Machine
end

section
/-! SUPPORT. What holds at reset and what every step keeps: the link and the turnarounds (O56), the load state and the shape of the
target (O58), and the session's caches (O60). -/

namespace Sys2Proof.Machine

/-! ## Reset (R64, R198) -/

/-- Settles O7, by evaluating `State.resetWith`. -/
theorem resetValues : Obligations.ResetValues := by
  unfold Obligations.ResetValues
  intro cfg
  and_intros <;> rfl

theorem linkSafe_reset (cfg : Config) : LinkSafe (State.resetWith cfg) where
  clkRests := rfl
  drives := by simp [State.resetWith, Link.reset]
  lastDriver := fun _ hc => by cases hc
  turned := rfl

theorem countersSafe_reset (cfg : Config) : CountersSafe (State.resetWith cfg) where
  wait := Nat.zero_le _
  poll := .inl (Nat.zero_le _)
  burst := Nat.zero_le _

theorem targetSafe_reset (cfg : Config) : TargetSafe (State.resetWith cfg) where
  rao := show (1 : Word).getLsbD 0 = true by decide
  memory := rfl
  registers := rfl

/-- Settles O8: at reset every counter is 0, the trace is empty, and no cache is valid. -/
theorem resetIsSafe : Obligations.ResetIsSafe := by
  unfold Obligations.ResetIsSafe
  exact fun cfg => ⟨linkSafe_reset cfg, countersSafe_reset cfg, ⟨rfl, .inl rfl⟩, targetSafe_reset cfg, .inl rfl,
    fun hv => (by cases hv), fun hv => (by cases hv)⟩

/-! ## The link (R21, R22, R24, R201) -/

/-- Settles O56: an accepted command starts with the same link and trace, and every instruction keeps them true. -/
theorem stepKeepsTheLinkSafe : Obligations.StepKeepsTheLinkSafe := by
  unfold Obligations.StepKeepsTheLinkSafe
  intro s t h hs
  obtain rfl | ⟨c, rest, i, -, -, -, he⟩ := step_cases hs
  · exact h
  · exact linkSafe_exec (linkSafe_of h (acceptIssue_link c rest s) (acceptIssue_trace c rest s)) he

/-! ## The load state and the target (R43, R50, R62, R68, R178) -/

/-- A load operation is in progress. -/
def DuringLoad (u : State) : Prop := u.busy = true

/-- A load operation has ended Failed. -/
def LoadFailed (u : State) : Prop := u.load = .failed ∧ u.busy = false

theorem duringLoad_stable : EngineStable True DuringLoad LoadFailed where
  exchange := fun rq s _ _ h => by
    obtain ⟨_, _, _, _, _, hb, _⟩ := exchange_frame rq s
    exact hb.trans h
  drive := fun bits s _ _ h => (driveBits_busy bits s).trans h
  hazard := fun _ _ _ => trivial
  counters := fun _ _ _ _ h => h
  results := fun _ _ _ h => h
  session := fun _ _ _ h => h
  fresh := fun _ h => h
  position := fun _ _ h => h
  failed := fun _ _ _ h => ⟨if_pos h, rfl⟩

/-- A load operation that is accepted ends Running or Failed, whatever state it starts from. -/
theorem loadPlan_ends (p : LoadPlan) :
    Ends True (fun _ => True) (loadPlan p) (fun _ u => u.load = .running ∧ u.busy = false) LoadFailed :=
  have run := ends_runLoad (P00 := fun _ => True) (R := fun _ u => u.load = .running ∧ u.busy = false) duringLoad_stable.connect
    duringLoad_stable.control (duringLoad_stable.passes .write) (duringLoad_stable.passes .verify) (fun _ _ => rfl)
    duringLoad_stable.fresh (fun _ _ h => h) (fun _ _ => ⟨rfl, rfl⟩) p
  Ends.bind keeps_get fun _ => (keeps_refuseUnless (.inr trivial)).bind fun _ => (keeps_refuseUnless (.inr trivial)).bind fun _ => run

theorem loadSafe_exec {i : Instr} {s t : State} (h : LoadSafe s) (he : exec i s = .next t) : LoadSafe t := by
  by_cases hi : i = .load
  · subst hi
    obtain ⟨hl, hb⟩ | ⟨hl, hb⟩ := finish_next (loadPlan_ends s.op.plan) trivial he
    · exact ⟨hb, .inr (.inl hl)⟩
    · exact ⟨hb, .inr (.inr hl)⟩
  · obtain ⟨hl, hb⟩ := exec_outsideLoad hi h.notBusy he
    exact ⟨hb, by rw [hl]; exact h.atRest⟩

/-- Settles O58: `load` by where a load operation ends, the target by the shape that every exchange keeps. -/
theorem stepKeepsLoadAndTargetSafe : Obligations.StepKeepsLoadAndTargetSafe := by
  unfold Obligations.StepKeepsLoadAndTargetSafe
  intro s t hs
  obtain rfl | ⟨c, rest, i, -, -, -, he⟩ := step_cases hs
  · exact ⟨id, id⟩
  · refine ⟨fun h => loadSafe_exec (s := acceptIssue c rest s) ⟨h.notBusy, h.atRest⟩ he, fun h => ?_⟩
    rw [shape_iff] at h ⊢
    exact targetShape_exec (s := acceptIssue c rest s) h he

/-! ## The session's caches (R36, R37, R205, R206) -/

theorem CacheView.exec {S : Prop} {G : View} (h : CacheView S G) {i : Instr} {s t : State} (hi : i ∉ [Instr.xfer, .dpw8Select])
    (hS : i ∉ [Instr.apw0Csw, .wrAp] ∨ S) (hs : Holds G s) (he : exec i s = .next t) : Holds G t :=
  (finish_next (h.all i s hi hS) hs (by rwa [← exec_eq_finish])).elim id id

/-- Settles O60: each cache is a property of the session, SELECT and CSW that every transaction of the commands keeps. -/
theorem sessionCachesStayTrue : Obligations.SessionCachesStayTrue := by
  unfold Obligations.SessionCachesStayTrue
  intro i s t hi hb he
  refine ⟨cacheView_bank.exec hi (.inr trivial) hb he, fun hc hp ht => ?_⟩
  obtain ⟨-, ha⟩ := cacheView_agrees.exec hi (.inl hc) ⟨hp, hb, ht⟩ he
  exact ha.csw

end Sys2Proof.Machine
end

section
/-! SUPPORT. The iteration counters (R31, R33, R174, R193): every command keeps the WAIT count, the poll count and the burst count
within their bounds, whatever the target answers (O57). -/

namespace Sys2Proof.Machine

/-- Under the parameters `c0` the WAIT count is within its bound, the poll count is as `q` says and the burst count as `b` says. -/
structure Counted (c0 : Config) (q b : Nat → Prop) (s : State) : Prop where
  cfg : s.cfg = c0
  wait : s.dp.waitCount ≤ c0.waitRetryMax
  poll : q s.dp.pollCount
  burst : b s.sess.burstCount

/-- An operation that keeps the WAIT count within its bound, and the poll and burst counts as they are described. -/
abbrev KeepsCounted {α : Type} (c0 : Config) (q b : Nat → Prop) (m : Engine α) : Prop := Keeps True (Counted c0 q b) (Counted c0 q b) m

section
variable {c0 : Config} {q b : Nat → Prop} {s : State}

theorem Counted.mono {q' b' : Nat → Prop} (h : Counted c0 q b s) (hq : ∀ n, q n → q' n) (hb : ∀ n, b n → b' n) :
    Counted c0 q' b' s := ⟨h.cfg, h.wait, hq _ h.poll, hb _ h.burst⟩

theorem Counted.exchange (h : Counted c0 q b s) (rq : Request) : Counted c0 q b (exchange rq s) := by
  obtain ⟨hc, -, hs, -, -, -, -, -, hw, -, hp⟩ := exchange_frame rq s
  exact ⟨hc.trans h.cfg, hw ▸ h.wait, hp ▸ h.poll, hs ▸ h.burst⟩

/-! ## Register commands and word helpers -/

theorem counted_xfer (rq : Request) : KeepsCounted c0 q b (xfer rq) :=
  keeps_xfer (.inr trivial) (fun _ _ _ => trivial) fun _ h _ => h.exchange rq

theorem counted_access : AccessStable True (fun _ => True) (Counted c0 q b) (Counted c0 q b) where
  exchange := fun rq _ => counted_xfer rq
  recoverReads := trivial
  recoverWrites := trivial
  waitCount := fun _ _ hn h => { h with wait := h.cfg ▸ hn }
  retried := fun _ _ h => { h with }
  inspected := fun _ _ h => { h with }
  sticky := fun _ h => { h with }
  result := fun _ _ _ h => { h with }
  failed := fun _ _ _ h => { h with }

theorem counted_ap : ApStable True (fun _ => True) (Counted c0 q b) (Counted c0 q b) :=
  { counted_access with bankCheck := keeps_bankCheck counted_access (fun _ => trivial) fun _ _ h => { h with } }

theorem counted_rdDp (addr : BitVec 8) : KeepsCounted c0 q b (rdDp addr) :=
  keeps_rdDp counted_access (.inr trivial) trivial

theorem Counted.afterWrDp (h : Counted c0 q b s) (addr : BitVec 8) (v : Word) : Counted c0 q b (afterWrDp addr v s) := by
  unfold Machine.afterWrDp
  split
  · exact { h with }
  · split
    · exact { h with }
    · exact h

theorem counted_wrDp (addr : BitVec 8) (v : Word) : KeepsCounted c0 q b (wrDp addr v) :=
  keeps_wrDp counted_access (.inr trivial) trivial fun _ h => h.afterWrDp addr v

theorem counted_rdAp (addr : BitVec 8) : KeepsCounted c0 q b (rdAp addr) :=
  keeps_rdAp counted_ap (.inr trivial) trivial trivial

theorem counted_wrAp (addr : BitVec 8) (v : Word) : KeepsCounted c0 q b (wrAp addr v) :=
  keeps_wrAp counted_ap (.inr trivial) trivial

theorem counted_ensureCsw : KeepsCounted c0 q b ensureCsw :=
  keeps_ensureCsw (counted_wrAp apCsw) fun _ h => { h with }

theorem counted_memWr32 (a : Addr32) (v : Word) : KeepsCounted c0 q b (memWr32 a v) :=
  keeps_memWr32 (.inr trivial) counted_ensureCsw (counted_wrAp _ _) (counted_wrAp _ _) fun _ h => { h with }

theorem counted_memRd32 (a : Addr32) : KeepsCounted c0 q b (memRd32 a) :=
  keeps_memRd32 (.inr trivial) counted_ensureCsw (counted_wrAp _ _) (counted_rdAp _) (fun _ _ _ h => { h with }) fun _ h => { h with }

end

/-! ## Polls (R159) -/

/-- The poll count is within one of the bounds of the three polls (R159). -/
def PollBounded (c : Config) (n : Nat) : Prop := n ≤ c.powerUpPollMax ∨ n ≤ c.haltPollMax ∨ n ≤ c.regRdyPollMax

/-- With `n` reads left of a bound, the count is at most the bound less `n`. -/
theorem counted_pollReads {c0 : Config} {b : Nat → Prop} {readOp : Engine Unit} (hr : ∀ q, KeepsCounted c0 q b readOp) (mask : Word)
    (bound n : Nat) : ∀ v, Ends True (Counted c0 (· + n ≤ bound) b) (pollReads readOp mask n v) (fun _ => Counted c0 (· ≤ bound) b)
      (Counted c0 (· ≤ bound) b) := by
  induction n with
  | zero => exact fun v => ends_pure fun _ h => h
  | succ n ih =>
    intro v
    have read := (hr (· + (n + 1) ≤ bound)).weaken (fun _ h => h) (fun _ _ h => h)
      fun _ h => h.mono (q' := (· ≤ bound)) (fun k hk => by omega) fun _ => id
    refine read.bind fun _ => Ends.bind keeps_get fun s => ?_
    refine Ends.bind (Q := fun _ => Counted c0 (· + n ≤ bound) b) (ends_modify fun u h => { h with poll := ?_ }) fun _ => ?_
    · have hp := h.poll
      show u.dp.pollCount + 1 + n ≤ bound
      omega
    · exact ends_ite (fun _ => ends_pure fun _ h => h.mono (fun k hk => by omega) fun _ => id) fun _ => ih _

/-- A poll starts its count afresh and ends it within its bound (R33, R159). -/
theorem counted_poll {c0 : Config} {b : Nat → Prop} {readOp : Engine Unit} (hr : ∀ q, KeepsCounted c0 q b readOp) (mask : Word)
    {bound : Nat} (hb : ∀ n ≤ bound, PollBounded c0 n) : KeepsCounted c0 (PollBounded c0) b (poll readOp mask bound) :=
  Ends.bind (ends_modify fun _ h => { h with poll := Nat.le_of_eq (Nat.zero_add bound) }) fun _ =>
    (counted_pollReads hr mask bound bound 0).weaken (fun _ h => h) (fun _ _ h => h.mono hb fun _ => id) fun _ h => h.mono hb fun _ => id

/-! ## Sequences and passes -/

/-- All three counts are within their bounds. -/
abbrev Bounded (c0 : Config) : State → Prop := Counted c0 (PollBounded c0) (· ≤ c0.maxBurstWords)

section
variable {c0 : Config}

theorem bounded_drive (bits : List Bool) (s : State) (h : Bounded c0 s) : Bounded c0 (driveBits bits s) := by
  rw [driveBits_eq]
  exact { h with }

theorem bounded_links : LinkStable (Bounded c0) := links_of fun _ _ _ _ _ _ h => { h with }

theorem bounded_linkLinereset : Keeps True (Bounded c0) (Bounded c0) linkLinereset :=
  (keeps_checkDir fun _ _ _ => trivial).bind fun _ => keeps_modify fun s h => bounded_drive _ s h

theorem bounded_connect : ConnectStable True (Bounded c0) (Bounded c0) where
  linkWrite := fun _ bits _ _ => keeps_linkWrite bounded_links bits
  lineReset := bounded_linkLinereset
  readId := counted_rdDp _
  readCtrlStat := fun _ h => counted_poll (fun _ => counted_rdDp _) _ fun _ hn => .inl (h.cfg ▸ hn)
  writeAbort := counted_wrDp _ _
  writeCtrlStat := counted_wrDp _ _
  enter := fun _ _ _ h => { h with }
  ready := fun _ h => { h with }
  inspected := fun _ _ h => { h with }
  result := fun _ _ _ h => { h with }
  failed := fun _ _ _ h => { h with }

theorem bounded_fresh (s : State) (h : Bounded c0 s) : Bounded c0 (freshSession s) := { h with burst := Nat.zero_le _ }

theorem bounded_control : ControlStable True (Bounded c0) (Bounded c0) where
  memWrite := fun a v _ => counted_memWr32 a v
  pollHalt := fun _ h => counted_poll (fun _ => counted_memRd32 _) _ fun _ hn => .inr (.inl (h.cfg ▸ hn))
  pollReady := fun _ h => counted_poll (fun _ => counted_memRd32 _) _ fun _ hn => .inr (.inr (h.cfg ▸ hn))
  phase := fun _ _ h => { h with }
  halted := fun _ _ h => { h with }
  result := fun _ _ _ h => { h with }
  failed := fun _ _ _ h => { h with }

/-- There is room for one more word in the burst. -/
abbrev Roomy (c0 : Config) : State → Prop := Counted c0 (PollBounded c0) (· < c0.maxBurstWords)

theorem Counted.bounded {s : State} (h : Roomy c0 s) : Bounded c0 s := h.mono (fun _ => id) fun _ => Nat.le_of_lt

/-- The DRW access of a word, in a burst with room for it. -/
theorem roomy_drw (op : PassOp) (a : Addr32) (w : Word) :
    Ends True (Roomy c0) (do
        match op with
        | .write => wrAp apDrw w
        | .verify =>
          rdAp apDrw
          if (← get).res.value ≠ w then raiseFail .verifyMismatch (some a)
        modify (advanceBurst a)) (fun _ => Bounded c0) (Bounded c0) := by
  have last : Ends True (Roomy c0) (modify (advanceBurst a)) (fun _ => Bounded c0) (Bounded c0) :=
    ends_modify fun _ h => { h with burst := h.burst }
  have stop : ∀ u, Roomy c0 u → Bounded c0 u := fun _ h => h.bounded
  cases op with
  | write => exact ((counted_wrAp apDrw w).weaken (fun _ h => h) (fun _ _ h => h) stop).bind fun _ => last
  | verify =>
    refine ((counted_rdAp apDrw).weaken (fun _ h => h) (fun _ _ h => h) stop).bind fun _ => Ends.bind keeps_get fun _ => ?_
    exact ends_ite (fun _ => Ends.bind (keeps_raiseFail fun u h => { stop u h with }) fun (_ : PUnit) => last) fun _ => last

/-- One word of a pass: TAR is written, and the burst begun anew, when the burst has no room left (R174). -/
theorem bounded_passWord (hm : 1 ≤ c0.maxBurstWords) (op : PassOp) (j : Nat) (a : Addr32) (w : Word) :
    Keeps True (Bounded c0) (Bounded c0) (passWord op j a w) := by
  refine (keeps_modify fun _ h => { h with }).bind fun _ => Ends.bind ends_get fun s => ends_ite (fun _ => ?_) fun hn => ?_
  · have begin_ : Ends True (Bounded c0) (modify startBurst) (fun _ => Roomy c0) (Bounded c0) :=
      ends_modify fun _ h => { h with burst := hm }
    exact ((counted_wrAp apTar a).bind fun _ => begin_.bind fun _ => roomy_drw op a w).weaken (fun _ h => h.2) (fun _ _ h => h)
      fun _ h => h
  · refine (roomy_drw op a w).weaken ?_ (fun _ _ h => h) fun _ h => h
    rintro t ⟨rfl, h⟩
    rw [needsTar_eq, not_not] at hn
    obtain ⟨-, -, hroom⟩ := hn
    exact { h with burst := Nat.lt_of_le_of_ne h.burst (h.cfg ▸ hroom) }

theorem bounded_passes (hm : 1 ≤ c0.maxBurstWords) (op : PassOp) : PassStable op True (Bounded c0) (Bounded c0) where
  ensureCsw := counted_ensureCsw
  word := bounded_passWord hm op
  start := fun _ h => { h with burst := Nat.zero_le _ }
  section_ := fun _ _ h => { h with }
  phase := fun _ _ h => { h with }
  result := fun _ _ _ h => { h with }

theorem bounded_loadPlan (hm : 1 ≤ c0.maxBurstWords) (p : LoadPlan) : Keeps True (Bounded c0) (Bounded c0) (loadPlan p) :=
  keeps_getBind fun _ => (keeps_refuseUnless (.inr trivial)).bind fun _ => (keeps_refuseUnless (.inr trivial)).bind fun _ =>
    ends_runLoad bounded_connect bounded_control (bounded_passes hm .write) (bounded_passes hm .verify)
      (fun _ h => { h with }) bounded_fresh (fun _ _ h => { h with }) (fun _ h => { h with }) p

/-! ## Every instruction -/

theorem bounded_operation (hm : 1 ≤ c0.maxBurstWords) (s : State) (i : Instr) :
    Keeps True (Bounded c0) (Bounded c0) (Instr.operation s i) := by
  cases i
  case linkClock => exact keeps_modify bounded_links.clock
  case linkWrite => exact keeps_linkWrite bounded_links _
  case linkRead => exact keeps_linkRead bounded_links _
  case linkTrn => exact keeps_modify bounded_links.turnaround
  case linkLinereset => exact bounded_linkLinereset
  case rdDp => exact counted_rdDp _
  case wrDp => exact counted_wrDp _ _
  case rdAp => exact counted_rdAp _
  case wrAp => exact counted_wrAp _ _
  case memWr32 => exact counted_memWr32 _ _
  case memRd32 => exact counted_memRd32 _
  case connect => exact ends_connect bounded_connect bounded_fresh
  case halt => exact keeps_halt bounded_control
  case setReg => exact keeps_setReg bounded_control _ _
  case resume => exact keeps_resume bounded_control
  case load => exact bounded_loadPlan hm _
  case writeBlocks => exact (keeps_admittedPlan _).bind fun _ => keeps_writeBlocks (bounded_passes hm _) _
  case verifyBlocks => exact (keeps_admittedPlan _).bind fun _ => keeps_verifyBlocks (bounded_passes hm _) _
  all_goals exact counted_xfer _

end

theorem bounded_iff (s : State) : Bounded s.cfg s ↔ CountersSafe s :=
  ⟨fun h => ⟨h.wait, h.poll, h.burst⟩, fun h => ⟨rfl, h.wait, h.poll, h.burst⟩⟩

theorem params_burst {cfg : Config} (h : paramsValid cfg = true) : 1 ≤ cfg.maxBurstWords := by
  simp only [paramsValid, Bool.and_eq_true, decide_eq_true_eq] at h
  obtain ⟨⟨⟨⟨⟨⟨_, hburst⟩, _⟩, _⟩, _⟩, _⟩, _⟩ := h
  exact hburst

theorem countersSafe_exec {i : Instr} {s t : State} (hp : paramsValid s.cfg = true) (h : CountersSafe s) (he : exec i s = .next t) :
    CountersSafe t := by
  have ht : Bounded s.cfg t := (finish_next (bounded_operation (params_burst hp) s i) ((bounded_iff s).2 h)
    (by rwa [← exec_eq_finish])).elim id id
  rw [← bounded_iff]
  exact ht.cfg.symm ▸ ht

/-- Settles O57: a command is accepted only with a burst limit of at least 1, and then every operation keeps the counts bounded. -/
theorem stepKeepsTheCountersBounded : Obligations.StepKeepsTheCountersBounded := by
  unfold Obligations.StepKeepsTheCountersBounded
  intro s t h hs
  obtain rfl | ⟨c, rest, i, -, hp, -, he⟩ := step_cases hs
  · exact h
  · exact countersSafe_exec (s := acceptIssue c rest s) hp ⟨h.wait, h.poll, h.burst⟩ he

end Sys2Proof.Machine
end

section
/-! SUPPORT. The wire requests as one exchange (R131 to R146), and what an exchange acknowledged OK does to the target: where it stores
(O19, O20) and which register it writes (O21). -/

namespace Sys2Proof.Machine

/-! ## A wire request is one exchange -/

/-- A read sends no data of its own. -/
theorem xfer_read_data (apndp : Bool) (a : BitVec 2) (v w : Word) :
    xfer { apndp := apndp, rnw := true, a := a, data := v } = xfer { apndp := apndp, rnw := true, a := a, data := w } := by
  have hq : requestPhase { apndp := apndp, rnw := true, a := a, data := v } =
      requestPhase { apndp := apndp, rnw := true, a := a, data := w } := rfl
  have hr : readPhase { apndp := apndp, rnw := true, a := a, data := v } =
      readPhase { apndp := apndp, rnw := true, a := a, data := w } := rfl
  have he : exchange { apndp := apndp, rnw := true, a := a, data := v } =
      exchange { apndp := apndp, rnw := true, a := a, data := w } := funext fun s => by
    simp only [exchange, hq, hr, if_pos]
  simp only [xfer, Request.isDpWriteC, he]

theorem operation_wire {i : Instr} {s : State} {rq : Request} (h : wireRequest s.op i = some rq) : Instr.operation s i = xfer rq := by
  cases i
  case dpr0Idcode | dpr4Ctrlstat | dpr8Resend | dprcRdbuff | apr0Csw | apr4Tar | apr8Reserved | aprcDrw =>
    cases h
    exact xfer_read_data _ _ _ _
  case dpw0Abort | dpw4Ctrlstat | dpw8Select | dpwcReserved | apw0Csw | apw4Tar | apw8Reserved | apwcDrw | xfer =>
    cases h
    rfl
  all_goals cases h

theorem exec_wire {i : Instr} {s : State} {rq : Request} (h : wireRequest s.op i = some rq) : exec i s = finish (xfer rq) s := by
  rw [exec_eq_finish, operation_wire h]

/-- An exchange that completes has passed its two checks (R115, R129). -/
theorem xfer_next {rq : Request} {s t : State} (h : finish (xfer rq) s = .next t) : t = exchange rq s := by
  have he : Ends True (· = s) (xfer rq) (fun _ u => u = exchange rq s) fun _ => False := by
    refine Ends.bind (keeps_refuseUnless (.inr trivial)) fun _ => Ends.bind (keeps_checkDir fun _ _ _ => trivial) fun _ => ?_
    exact ends_modify fun u hu => congrArg _ hu
  exact (finish_next he rfl h).elim id False.elim

theorem xfer_completes {rq : Request} {s : State} (hc : rq.isDpWriteC = false) (hd : s.link.lastDir ≠ .target) :
    finish (xfer rq) s = .next (exchange rq s) := by
  unfold xfer
  rw [hc]
  exact finish_ok (bind_of_ok (checkDir_ok hd))

/-- A write request answered OK. -/
theorem exec_write_ok {i : Instr} {s : State} {rq : Request} {rest : List Bool} (h : wireRequest s.op i = some rq) (hw : rq.rnw = false)
    (hc : rq.isDpWriteC = false) (hd : s.link.lastDir ≠ .target) (hin : s.targetIn = okAck ++ rest) :
    exec i s = .next (writeDone rq rest s.draws s) := by
  rw [exec_wire h, xfer_completes hc hd, exchange_write_scripted rq s rest hw hin]

/-- A read request answered OK. -/
theorem exec_read_ok {i : Instr} {s : State} {rq : Request} {d : Word} {p : Bool} {rest : List Bool} (h : wireRequest s.op i = some rq)
    (hr : rq.rnw = true) (hd : s.link.lastDir ≠ .target) (hin : s.targetIn = okAck ++ (bitsLSB d ++ [p]) ++ rest) :
    exec i s = .next (readDone rq d p rest s.draws s) := by
  rw [exec_wire h, xfer_completes (by simp [Request.isDpWriteC, hr]) hd, exchange_read_scripted rq s d p rest hr hin]

/-! ## Where an exchange stores (R57, R75) -/

/-- Memory, the core's registers and the status bits of DHCSR are as in `t`. -/
def NoStore (t u : Target) : Prop := SameStore t u ∧ u.dhcsrStatus = t.dhcsrStatus

theorem sameStore_refl (t : Target) : SameStore t t := ⟨rfl, rfl, rfl, rfl, rfl⟩

theorem SameStore.bytes {t u : Target} (h : SameStore t u) : SameBytes t.mem u.mem := fun b => by rw [h.1]

theorem storeAddr_read {c : Config} {rq : Request} (t : Target) (hr : rq.rnw = true) : storeAddr c rq t = none :=
  if_neg fun h => by rw [hr] at h; exact absurd h.2.1 (by decide)

/-- A write acknowledged OK stores nothing, or it is a DRW write that stores one word at TAR. -/
theorem targetWrite_stores (c : Config) (rq : Request) (t : Target) (hw : rq.rnw = false) :
    (storeAddr c rq t = none ∧ NoStore t (targetWrite c rq.apndp rq.a rq.data t)) ∨
    (storeAddr c rq t = some t.tar ∧
      ∃ w d, targetWrite c rq.apndp rq.a rq.data t = advanceTar c (storeTarget t.tar w { t with draws := d })) := by
  by_cases hdrw : rq.apndp = true ∧ rq.rnw = false ∧ rq.a = 3
  · obtain ⟨hap, -, ha⟩ := hdrw
    rw [hap, ha]
    obtain ⟨hm, he⟩ | ⟨hm, -, he⟩ | ⟨hm, -, w, d, he⟩ := core_writeDrw c rq.data t
    · rw [he]
      exact .inl ⟨if_neg fun h => by rw [hm] at h; exact absurd h.2.2.2 (by decide), sameStore_refl t, rfl⟩
    · exact .inr ⟨if_pos ⟨hap, hw, ha, hm⟩, rq.data, t.draws, he⟩
    · exact .inr ⟨if_pos ⟨hap, hw, ha, hm⟩, w, d, he⟩
  · refine .inl ⟨if_neg fun ⟨h1, h2, h3, _⟩ => hdrw ⟨h1, h2, h3⟩, ?_, ?_⟩
    · exact (targetStable_core t).write rq c t hdrw hw (sameStore_refl t)
    · refine status_write c _ _ _ t ?_
      cases hap : rq.apndp with
      | false => exact .inl rfl
      | true => exact .inr fun ha => hdrw ⟨hap, hw, ha⟩

theorem failDone_stores (rq : Request) (ack inp : List Bool) (n : Nat) (s : State) : NoStore s.target (failDone rq ack inp n s).target := by
  show NoStore s.target (if _ then targetFault s.target else s.target)
  split
  · exact ⟨(targetStable_core _).fault _ (sameStore_refl _), rfl⟩
  · exact ⟨sameStore_refl _, rfl⟩

/-- Settles O19, by the three ways an exchange can end: a read and an exchange not acknowledged OK store nothing, a write stores at TAR
or nothing. -/
theorem exchangeStoresAtTar : Obligations.ExchangeStoresAtTar := by
  unfold Obligations.ExchangeStoresAtTar
  intro i s rq t hwire he
  rw [exec_wire hwire] at he
  obtain rfl := xfer_next he
  obtain ⟨hr, d, p, inp, n, e⟩ | ⟨hw, inp, n, e⟩ | ⟨ack, inp, n, -, hack, e⟩ := exchange_cases rq s <;> rw [e]
  · -- a read
    have hs : SameStore s.target (readDone rq d p inp n s).target :=
      (targetStable_core s.target).read rq _ _ _ (fun h => by rw [hr] at h; exact absurd h.2.1 (by decide)) hr (sameStore_refl _)
    refine ⟨fun a ha => ?_, fun _ => ⟨hs.bytes, hs.2⟩, fun hbuff _ => status_read _ _ _ _ _ ?_⟩
    · rw [storeAddr_read _ hr] at ha
      cases ha
    · cases hap : rq.apndp with
      | true => exact .inl rfl
      | false => exact .inr fun ha => hbuff ⟨hap, hr, ha⟩
  · -- a write acknowledged OK
    have hok : ¬(writeDone rq inp n s).dp.ack ≠ 0b001 := not_not_intro rfl
    obtain ⟨ha, hs, hstatus⟩ | ⟨ha, w, d, ht⟩ := targetWrite_stores s.cfg rq s.target hw
    · exact ⟨fun a h => (by rw [ha] at h; cases h), fun _ => ⟨hs.bytes, hs.2⟩, fun _ _ => hstatus⟩
    · have hmem : SameBytesBut s.target.tar s.target.mem (writeDone rq inp n s).target.mem := by
        show SameBytesBut _ _ (targetWrite _ _ _ _ _).mem
        rw [ht, (core_advanceTar _ _).mem]
        exact mem_storeTarget s.target.tar w { s.target with draws := d }
      refine ⟨fun a h => ?_, fun h => ?_, fun _ h => ?_⟩
      · obtain rfl : s.target.tar = a := by simpa [ha] using h
        exact hmem
      · exact absurd (h.resolve_right hok) (by simp [ha])
      · have hne := h.resolve_right hok
        simp only [ha, List.mem_cons, Option.some.injEq, List.not_mem_nil, or_false, not_or] at hne
        show (targetWrite _ _ _ _ _).dhcsrStatus = _
        rw [ht, status_advance]
        exact status_storeTarget hne.1 hne.2 w _
  · -- an exchange that is not acknowledged OK
    obtain ⟨hs, hstatus⟩ := failDone_stores rq ack inp n s
    exact ⟨fun a _ b _ => hs.bytes b, fun _ => ⟨hs.bytes, hs.2⟩, fun _ _ => hstatus⟩

/-! ## DRW accesses (R56, R57, R142, R146) -/

/-- Inside its block TAR advances by 4 (R56, R210). -/
theorem advanceTar_inBlock {c : Config} {t : Target} (h32 : csw32 t.csw = true) (hinc : cswInc t.csw = 0b01)
    (hb : t.tar.toNat / c.tarWrapBytes = (t.tar.toNat + 4) / c.tarWrapBytes) : (advanceTar c t).tar = t.tar + 4 := by
  unfold advanceTar
  rw [hinc, if_neg (by decide), if_pos ⟨rfl, h32, hb⟩]

theorem targetWrite_drw {c : Config} {t : Target} (v : Word) (hm : memApSelected c t = true) (h32 : csw32 t.csw = true) :
    targetWrite c true 3 v t = advanceTar c (storeTarget t.tar v t) := by
  simp [targetWrite, hm, writeDrw, h32]

theorem targetReadAp_drw {c : Config} {t : Target} (hm : memApSelected c t = true) :
    targetReadAp c 3 t = advanceTar c (postRead c 3 t) :=
  if_pos (by simp [reachesDrw, hm])

/-- A store away from the core debug registers, in a canonical memory. -/
theorem storeTarget_word {a : Addr32} {t : Target} (v : Word) (ha : a ∉ [dhcsrAddr, dcrsrAddr, dcrdrAddr])
    (hwf : Memory.wf t.mem = true) :
    (∀ k < 4, readByte (storeTarget a v t).mem (byteAddr a k) = v.extractLsb' (8 * k) 8) ∧
      SameBytesBut a t.mem (storeTarget a v t).mem ∧ SameCoreRegs t (storeTarget a v t) := by
  rw [storeTarget_mem a v t (notin ha)]
  exact ⟨fun k hk => readByte_writeWord_self t.mem hwf a v k hk, fun b hb => readByte_writeWord_ne t.mem a v b hb, rfl, rfl, rfl, rfl⟩

theorem Core.sameCoreRegs {t u : Target} (h : Core t u) : SameCoreRegs t u := ⟨h.dhcsr, h.dcrsr, h.dcrdr, h.regs⟩

theorem SameCoreRegs.trans {t u v : Target} (h : SameCoreRegs t u) (k : SameCoreRegs u v) : SameCoreRegs t v :=
  ⟨k.1.trans h.1, k.2.1.trans h.2.1, k.2.2.1.trans h.2.2.1, k.2.2.2.trans h.2.2.2⟩

/-- Settles O20: a DRW access is a store, or a posted read, after which TAR advances. -/
theorem drwAccessesUseTar : Obligations.DrwAccessesUseTar := by
  unfold Obligations.DrwAccessesUseTar
  intro s hd hm h32 hinc
  refine ⟨fun rest hin hwf => ⟨_, exec_write_ok (rq := Request.writeAp 3 s.op.value) rfl rfl rfl hd hin, ?_⟩,
    fun d p rest hin => ⟨_, exec_read_ok (rq := { Request.readAp 3 with data := s.op.value }) rfl rfl hd hin, ?_⟩⟩
  · have ht : (writeDone (Request.writeAp 3 s.op.value) rest s.draws s).target =
        advanceTar s.cfg (storeTarget s.target.tar s.op.value s.target) := targetWrite_drw s.op.value hm h32
    obtain ⟨-, hcsw, htar⟩ := storeTarget_frame s.target.tar s.op.value s.target
    have hadv := core_advanceTar s.cfg (storeTarget s.target.tar s.op.value s.target)
    rw [ht]
    refine ⟨fun hb => ?_, fun ha => ?_⟩
    · rw [advanceTar_inBlock (by rw [hcsw]; exact h32) (by rw [hcsw]; exact hinc) (by rw [htar]; exact hb), htar]
    · obtain ⟨hbytes, hbut, hcore⟩ := storeTarget_word s.op.value ha hwf
      rw [hadv.mem]
      exact ⟨hbytes, hbut, hcore.trans hadv.sameCoreRegs⟩
  · have ht : (readDone { Request.readAp 3 with data := s.op.value } d p rest s.draws s).target = targetReadAp s.cfg 3 s.target := rfl
    have hcore := core_readAp s.cfg 3 s.target
    obtain ⟨hsel, hcsw⟩ := sel_read s.cfg true 3 none s.target
    refine ⟨fun hb => ?_, rfl, hcore.mem, hcore.sameCoreRegs, hsel, hcsw⟩
    rw [ht, targetReadAp_drw hm]
    exact advanceTar_inBlock h32 hinc hb

/-! ## Writes of the other registers (R51 to R53, R55, R56) -/

theorem cswFields_merge (old v : Word) :
    csw32 (merge cswRO old v) = csw32 v ∧ cswInc (merge cswRO old v) = cswInc v := by
  have bit : ∀ k, k < 6 → (merge cswRO old v).getLsbD k = v.getLsbD k := fun k hk => by
    simp only [merge, cswRO, BitVec.getLsbD_or, BitVec.getLsbD_and, BitVec.getLsbD_not]
    interval_cases k <;> simp
  have hsize : (merge cswRO old v).extractLsb' 0 3 = v.extractLsb' 0 3 := BitVec.eq_of_getLsbD_eq fun i hi => by
    simp only [BitVec.getLsbD_extractLsb', bit (0 + i) (by omega)]
  have hinc : (merge cswRO old v).extractLsb' 4 2 = v.extractLsb' 4 2 := BitVec.eq_of_getLsbD_eq fun i hi => by
    simp only [BitVec.getLsbD_extractLsb', bit (4 + i) (by omega)]
  exact ⟨by rw [csw32, csw32, hsize], hinc⟩

/-- ORUNERRCLR, WDERRCLR, STKERRCLR and STKCMPCLR clear STICKYORUN, WDATAERR, STICKYERR and STICKYCMP (R51). -/
theorem abortMask_bit (v : Word) (k : Nat) (hk : k < 32) : (abortMask v).getLsbD k =
    (decide (k = 4) && v.getLsbD 1 || decide (k = 5) && v.getLsbD 2 || decide (k = 7) && v.getLsbD 3 || decide (k = 1) && v.getLsbD 4) := by
  have flag : ∀ b n, (if v.getLsbD b then BitVec.twoPow 32 n else 0 : Word).getLsbD k = (decide (k = n) && v.getLsbD b) := fun b n => by
    cases v.getLsbD b <;> simp [hk]
  simp only [abortMask, BitVec.getLsbD_or, flag]

/-- The power-up requests of CTRL/STAT, bits 28 and 30, take the data of a write (R52). -/
theorem powerUpRequest_merge (v x : Word) :
    (merge ctrlStatRW v x).getLsbD 28 = v.getLsbD 28 ∧ (merge ctrlStatRW v x).getLsbD 30 = v.getLsbD 30 := by
  simp [merge, ctrlStatRW]

/-- Settles O21: the target after each write is `targetWrite` at its register. -/
theorem writesReachTheirRegisters : Obligations.WritesReachTheirRegisters := by
  unfold Obligations.WritesReachTheirRegisters
  intro s rest hd hin
  refine ⟨⟨_, exec_write_ok (rq := Request.writeDp 2 s.op.value) rfl rfl rfl hd hin, rfl⟩,
    ⟨_, exec_write_ok (rq := Request.writeDp 0 s.op.value) rfl rfl rfl hd hin, rfl, fun k hk => ?_⟩,
    fun hbank => ⟨_, exec_write_ok (rq := Request.writeDp 1 s.op.value) rfl rfl rfl hd hin, ?_⟩,
    fun hm => ⟨_, exec_write_ok (rq := Request.writeAp 1 s.op.value) rfl rfl rfl hd hin, ?_⟩,
    fun hm => ⟨_, exec_write_ok (rq := Request.writeAp 0 s.op.value) rfl rfl rfl hd hin, ?_⟩⟩
  · show (s.target.ctrlStat &&& ~~~abortMask s.op.value).getLsbD k = _
    rw [BitVec.getLsbD_and, BitVec.getLsbD_not, abortMask_bit _ _ hk]
    simp [hk, Bool.and_assoc]
  · have ht : (writeDone (Request.writeDp 1 s.op.value) rest s.draws s).target = writeCtrlStat s.op.value s.target := rfl
    rw [ht, writeCtrlStat, if_pos (by simp [dpBankZero, hbank])]
    exact ⟨rfl, powerUpRequest_merge _ _⟩
  · show targetWrite s.cfg true 1 s.op.value s.target = _
    simp [targetWrite, hm]
  · have ht : (writeDone (Request.writeAp 0 s.op.value) rest s.draws s).target =
        { s.target with csw := merge cswRO s.target.csw s.op.value } := by
      show targetWrite s.cfg true 0 s.op.value s.target = _
      simp [targetWrite, hm]
    rw [ht]
    exact ⟨rfl, cswFields_merge _ _⟩

end Sys2Proof.Machine
end

section
/-! SUPPORT. The memory helpers, `HALT` and the passes answered OK (O29, O35, O41 to O43), and the writes of a memory command that
succeeds, whatever the target answered on the way (O39). -/

namespace Sys2Proof.Machine

/-- The caches are true in the one sense that the laws on the target use (R36, R37). -/
theorem agrees_of {s : State} (hb : BankCacheTrue s) (hc : CswTrue s) : Agrees s.sess s.target := ⟨hb, hc⟩

/-! ## Memory helpers and `HALT`, answered OK -/

theorem memAddrOk_of {a : Addr32} (h : a.extractLsb' 0 2 = 0) : memAddrOk a = true := by simp [memAddrOk, h]

/-- Settles O29: the accesses are those of `memRd32_does`, and what they show of DHCSR is `readDhcsr_accesses`. -/
theorem memRd32ReadsThroughRdbuff : Obligations.MemRd32ReadsThroughRdbuff := by
  unfold Obligations.MemRd32ReadsThroughRdbuff
  intro s posted v rest ha hd as hin
  obtain ⟨_, t, e, d, hsess, hvalue, hok, -⟩ := memRd32_does s.op.value (memAddrOk_of ha) posted v s rest hd hin
  refine ⟨t, finish_ok e, d.toRan, hvalue, hok, hsess, fun haddr hp hb hc => ?_⟩
  obtain ⟨hsees, -⟩ := readDhcsr_accesses s.cfg hp s.sess posted v s.target (agrees_of hb hc)
  rw [d.target, haddr]
  exact hsees.status

/-- A poll with a mask of one bit looks at that bit. -/
theorem and_sHalt_iff (v : Word) : v &&& sHalt = sHalt ↔ v.getLsbD 17 = true := by
  rw [show sHalt = BitVec.twoPow 32 17 by decide, BitVec.and_twoPow]
  cases v.getLsbD 17 <;> decide

/-- Settles O35: the accesses are those of `halt_does`, and what they leave in DHCSR is `halt_accesses`. -/
theorem haltSeesTheCoreHalted : Obligations.HaltSeesTheCoreHalted := by
  unfold Obligations.HaltSeesTheCoreHalted
  intro s early last rest hd hearly hlast hbound as hin
  have he : ∀ r ∈ early, r.2 &&& sHalt ≠ sHalt := fun r hr => by rw [Ne, and_sHalt_iff, hearly r hr]; decide
  obtain ⟨_, t, e, d, hsess, -, hok⟩ := halt_does early last s he ((and_sHalt_iff _).2 hlast) hbound rest hd hin
  refine ⟨t, finish_ok e, { d.toRan with }, hsess, hok, d.phase, d.load, fun hp hb hc => ?_⟩
  obtain ⟨hstatus, hdhcsr, -, -⟩ := halt_accesses s.cfg hp s.sess early last s.target (agrees_of hb hc)
  rw [d.target]
  exact ⟨hdhcsr, hstatus⟩

/-! ## Writes that succeed, whatever the target answers -/

/-- A failure is reported in `RES_OK` (R186). -/
theorem reported_stable : EngineStable True (fun _ => True) (fun u => u.res.ok = false) where
  exchange := fun _ _ _ _ _ => trivial
  drive := fun _ _ _ _ _ => trivial
  hazard := fun _ _ _ => trivial
  counters := fun _ _ _ _ _ => trivial
  results := fun _ _ _ _ => trivial
  session := fun _ _ _ _ => trivial
  fresh := fun _ _ => trivial
  position := fun _ _ _ => trivial
  failed := fun _ _ _ _ => rfl

/-- A command that succeeds has run to its end. -/
theorem exec_succeeds {i : Instr} {s t : State} {P E : State → Prop} {Q : Unit → State → Prop} (hi : i ≠ .load)
    (h : Ends True P (Instr.operation s i) Q E) (hs : P s) (he : exec i s = .next t) (hok : t.res.ok = true) : Q () t := by
  have hr := operation_keeps reported_stable s i (fun _ => links_of fun _ _ _ _ _ _ _ => trivial) hi
  rw [exec_eq_finish] at he
  obtain ⟨hq, -⟩ | ⟨-, hf⟩ := finish_next (h.and hr) ⟨hs, trivial⟩ he
  · exact hq
  · rw [hf] at hok
    cases hok

/-- A `MEM_WR32` that succeeds with true caches has made its store. -/
theorem memWr32_stored {s t : State} (hp : paramsValid s.cfg = true) (ha : Agrees s.sess s.target) (he : exec .memWr32 s = .next t)
    (hok : t.res.ok = true) : Stored True s.op.value s.op.value2 s.target t.target :=
  (exec_succeeds (i := .memWr32) (by decide) (ends_memWr32 (K := True) (c0 := s.cfg) (u := s.target) fun _ => hp)
    ⟨rfl, Core.refl _, fun _ => ha, fun _ => rfl⟩ he hok).stored

theorem storeTarget_dhcsr {v : Word} (hv : v.extractLsb' 16 16 = 0xA05F) (t : Target) :
    (storeTarget dhcsrAddr v t).dhcsr = v &&& 0x0000000F := by
  rw [storeTarget, if_pos rfl, writeDhcsr_dhcsr, if_pos hv]

/-- The control bits of DHCSR after a store there with the key. -/
theorem Stored.dhcsr {v : Word} {u t : Target} (h : Stored True dhcsrAddr v u t) (hv : v.extractLsb' 16 16 = 0xA05F) :
    t.dhcsr = v &&& 0x0000000F :=
  (h.exact trivial fun h => absurd h (by decide)).dhcsr.trans (storeTarget_dhcsr hv u)

/-- The control bits of DHCSR are `x`. -/
def DhcsrIs (x : Word) (t : Target) : Prop := t.dhcsr = x

theorem dhcsrIs_coreOnly (x : Word) : CoreOnly (DhcsrIs x) := fun _ _ h k => k.dhcsr.trans h

/-- A `HALT` that succeeds with true caches has set C_HALT and C_DEBUGEN (R168). -/
theorem halt_dhcsr {s t : State} (hp : paramsValid s.cfg = true) (ha : Agrees s.sess s.target) (he : exec .halt s = .next t)
    (hok : t.res.ok = true) : t.target.dhcsr = 0x00000003 :=
  (exec_succeeds (i := .halt) (by decide) (ends_halt_of (K := True) (c0 := s.cfg) (W := fun _ => True) (W' := DhcsrIs 3)
    (F := fun _ => True) (fun _ => hp) (dhcsrIs_coreOnly 3) (fun _ _ _ h => h.dhcsr (by decide)) (fun _ _ => trivial) fun _ _ _ _ => trivial)
    ⟨rfl, fun _ => ha, trivial⟩ he hok).target

/-- A `RESUME` that succeeds with true caches has left C_DEBUGEN alone set (R170). -/
theorem resume_dhcsr {s t : State} (hp : paramsValid s.cfg = true) (ha : Agrees s.sess s.target) (he : exec .resume s = .next t)
    (hok : t.res.ok = true) : t.target.dhcsr = 0x00000001 :=
  (exec_succeeds (i := .resume) (by decide) (ends_resume_of (K := True) (c0 := s.cfg) (W := fun _ => True) (W' := DhcsrIs 1)
    (F := fun _ => True) (fun _ => hp) (fun _ _ _ h => h.dhcsr (by decide)) (fun _ _ => trivial) fun _ _ _ _ => trivial)
    ⟨rfl, fun _ => ha, trivial⟩ he hok).target

/-- Settles O39: a command that succeeds has made its store, and a store at the address asked for is what `storeTarget` says. -/
theorem successfulWritesReachTheTarget : Obligations.SuccessfulWritesReachTheTarget := by
  unfold Obligations.SuccessfulWritesReachTheTarget
  intro s t hp hb hc
  have ha := agrees_of hb hc
  refine ⟨fun he hok => ⟨fun haddr => ?_, fun haddr => ?_⟩, halt_dhcsr hp ha, resume_dhcsr hp ha⟩
  · have hst := (memWr32_stored hp ha he hok).exact trivial fun h => absurd h (notin haddr).2.1
    rw [storeTarget_mem _ _ _ (notin haddr)] at hst
    exact ⟨hst.mem, hst.dhcsr, hst.dcrsr, hst.dcrdr, hst.regs⟩
  · have hst := (memWr32_stored hp ha he hok).exact trivial fun h => absurd (haddr.symm.trans h) (by decide)
    rw [hst.dcrdr, haddr]
    rfl

/-! ## The passes (R174 to R176) -/

/-- A pass issued as a command over an admitted plan runs as the pass. -/
theorem finish_admitted {p : LoadPlan} {m : Engine Unit} {s : State} (h : planAdmitted s.cfg p = true) :
    finish (do admittedPlan p; m) s = finish m s := by
  have hok : admittedPlan p s = .ok () s := by
    rw [admittedPlan, get_bind, h]
    rfl
  unfold finish
  rw [bind_of_ok hok]

/-- Settles O41, by the run `writeBlocks_does` of the write pass. -/
theorem writeBlocksWritesEveryWord : Obligations.WriteBlocksWritesEveryWord := by
  unfold Obligations.WriteBlocksWritesEveryWord
  intro s rest hp hd as hin
  obtain ⟨_, t, e, d, hsess, hok, hseq⟩ := writeBlocks_does s.op.plan s rest hd hin
  exact ⟨t, (finish_admitted hp).trans (finish_ok e), { d.toRan with }, hok, hseq, d.load, hsess⟩

/-- Settles O42, by the run `verifyBlocks_does` of the verification pass. -/
theorem verifyBlocksReadsEveryWord : Obligations.VerifyBlocksReadsEveryWord := by
  unfold Obligations.VerifyBlocksReadsEveryWord
  intro s posted rest hp hd as hin
  obtain ⟨_, t, e, d, hsess, hok, hseq⟩ := verifyBlocks_does posted s.op.plan s rest hd hin
  exact ⟨t, (finish_admitted hp).trans (finish_ok e), { d.toRan with }, hok, hseq, d.load, hsess⟩

theorem wordSession_failInfo (cfg : Config) (ss : Session) (a : Addr32) : (wordSession cfg ss a).failInfo = ss.failInfo := by
  unfold wordSession tarSession
  split <;> rfl

theorem wordsSession_failInfo (cfg : Config) (ws : List (Addr32 × Word)) : ∀ ss, (wordsSession cfg ss ws).failInfo = ss.failInfo := by
  induction ws with
  | nil => exact fun _ => rfl
  | cons w ws ih => exact fun ss => (ih _).trans (wordSession_failInfo cfg ss w.1)

theorem tarSession_failInfo (cfg : Config) (ss : Session) (a : Addr32) : (tarSession cfg ss a).failInfo = ss.failInfo := by
  unfold tarSession
  split <;> rfl

theorem passSession_failInfo (cfg : Config) (ss : Session) : (passSession cfg ss).failInfo = ss.failInfo := by
  unfold passSession withCsw
  split <;> rfl

/-- Settles O43, by the failure `verifyBlocks_mismatch` of the verification pass; its accesses leave an earlier failure record. -/
theorem verifyMismatchNamesTheWord : Obligations.VerifyMismatchNamesTheWord := by
  unfold Obligations.VerifyMismatchNamesTheWord
  intro s posted got earlier sec later before w after rest hp hd hbusy hsecs hwords hne a read ss as hin
  obtain ⟨t, e, ran, failed, hseq⟩ :=
    verifyBlocks_mismatch posted got sec before after w hwords hne earlier later s.op.plan hsecs s rest hd hin
  obtain ⟨hsess, hok, hload, -⟩ := failed_weaken failed
  refine ⟨t, (finish_admitted hp).trans (finish_failed e), ran, hok, ?_, hseq, ?_⟩
  · rw [hload, hbusy]
    rfl
  · rw [hsess, tarSession_failInfo, wordsSession_failInfo, passSession_failInfo]

end Sys2Proof.Machine
end

section
/-! SUPPORT. The words of the language: which bytes are request bytes and which are commands, so that decoder and encoder are inverse
to each other (O1 to O4), and what a step does with the word it takes (O4, O5). -/

namespace Sys2Proof.Laws.RoundTrip

/-- One equation per constructor of `Instr`. -/
theorem decode_encode (i : Instr) : Statement i := by
  cases i
  exacts [dpw0Abort, dpw4Ctrlstat, dpw8Select, dpwcReserved, dpr0Idcode, dpr4Ctrlstat, dpr8Resend, dprcRdbuff, apw0Csw, apw4Tar,
    apw8Reserved, apwcDrw, apr0Csw, apr4Tar, apr8Reserved, aprcDrw, linkClock, linkWrite, linkRead, linkTrn, linkLinereset, xfer, rdDp,
    wrDp, rdAp, wrAp, memWr32, memRd32, connect, halt, setReg, resume, load, writeBlocks, verifyBlocks]

end Sys2Proof.Laws.RoundTrip

namespace Sys2Proof

/-! ## The request byte (R87, R88) -/

/-- Settles O1: there are sixteen request bytes. -/
theorem requestByteLayout : Obligations.RequestByteLayout := by
  unfold Obligations.RequestByteLayout
  decide

/-- The check of the decoder (R105), on the fields it reads. -/
def framedRequest (b : Byte) : Bool :=
  b.getLsbD 0 && !b.getLsbD 6 && b.getLsbD 7 && b.getLsbD 5 == reqParity (b.getLsbD 1) (b.getLsbD 2) (b.getLsbD 3) (b.getLsbD 4)

/-- `A[3:2]` of a byte read as a request (R87). -/
def addressField (b : Byte) : BitVec 2 := BitVec.ofBool (b.getLsbD 4) ++ BitVec.ofBool (b.getLsbD 3)

theorem decodeRequest_eq (b : Byte) : decodeRequest b =
    if framedRequest b then some (requestInstr (b.getLsbD 1) (b.getLsbD 2) (addressField b)) else none := rfl

theorem addressField_bits (b : Byte) : (addressField b).getLsbD 0 = b.getLsbD 3 ∧ (addressField b).getLsbD 1 = b.getLsbD 4 := by
  unfold addressField
  cases b.getLsbD 3 <;> cases b.getLsbD 4 <;> decide

/-- A byte with the fixed bits and the parity of R87 is the request byte of its fields: the two agree in each of the eight bits. -/
theorem eq_requestByte_of_framed {b : Byte} (h : framedRequest b = true) :
    b = requestByte (b.getLsbD 1) (b.getLsbD 2) (addressField b) := by
  obtain ⟨r0, r1, r2, r3, r4, r5, r6, r7, -⟩ := requestByteLayout (b.getLsbD 1) (b.getLsbD 2) (addressField b)
  obtain ⟨a0, a1⟩ := addressField_bits b
  simp only [framedRequest, Bool.and_eq_true, Bool.not_eq_true', beq_iff_eq, reqParity] at h
  obtain ⟨⟨⟨start, stop⟩, park⟩, parity⟩ := h
  refine BitVec.eq_of_getLsbD_eq fun k hk => ?_
  interval_cases k
  · rw [start, r0]
  · rw [r1]
  · rw [r2]
  · rw [r3, a0]
  · rw [r4, a1]
  · rw [parity, r5, a0, a1]
  · rw [stop, r6]
  · rw [park, r7]

theorem requestFields_requestInstr : ∀ apndp rnw a, (requestInstr apndp rnw a).requestFields = some (apndp, rnw, a) := by
  decide

/-- The encoding of a wire request is its request byte. -/
theorem encodeByte_requestInstr (apndp rnw : Bool) (a : BitVec 2) : encodeByte (requestInstr apndp rnw a) = requestByte apndp rnw a := by
  unfold encodeByte
  rw [requestFields_requestInstr]

theorem encodeByte_of_decodeRequest {b : Byte} {i : Instr} (h : decodeRequest b = some i) : encodeByte i = b := by
  rw [decodeRequest_eq] at h
  by_cases hf : framedRequest b = true
  · rw [if_pos hf] at h
    cases h
    rw [encodeByte_requestInstr, ← eq_requestByte_of_framed hf]
  · rw [if_neg hf] at h
    cases h

theorem decodeRequest_none {b : Byte} (h : ∀ apndp rnw a, b ≠ requestByte apndp rnw a) : decodeRequest b = none := by
  rw [decodeRequest_eq, if_neg fun hf => h _ _ _ (eq_requestByte_of_framed hf)]

/-! ## Command codes (R103, R107; log 4) -/

/-- The command map is one to one: a code with a row is the code of that row. -/
theorem commandCode_of_commandInstr : ∀ code, ∀ i ∈ commandInstr code, i.requestFields = none ∧ i.commandCode = some code := by
  decide

theorem encodeByte_of_commandInstr {code : BitVec 5} {i : Instr} (h : commandInstr code = some i) : encodeByte i = code.setWidth 8 := by
  obtain ⟨hf, hc⟩ := commandCode_of_commandInstr code i h
  unfold encodeByte
  rw [hf, hc]

/-- Bits [7:5] of a byte are zero when its value is a 5-bit code. -/
theorem codeBits_zero_iff (b : Byte) : (b.extractLsb' 5 3 == 0) = true ↔ b.toNat < 32 := by
  have hb := b.isLt
  rw [beq_iff_eq, BitVec.toNat_eq, BitVec.extractLsb'_toNat, Nat.shiftRight_eq_div_pow]
  change b.toNat / 2 ^ 5 % 2 ^ 3 = 0 ↔ b.toNat < 32
  omega

theorem decodeByte_of_lt {b : Byte} (h : b.toNat < 32) :
    decodeByte b = (commandInstr (b.setWidth 5)).elim (.error .reservedCmd) .ok := by
  unfold decodeByte
  rw [if_pos ((codeBits_zero_iff b).2 h)]
  cases commandInstr (b.setWidth 5) <;> rfl

theorem decodeByte_of_le {b : Byte} (h : 32 ≤ b.toNat) : decodeByte b = (decodeRequest b).elim (.error .malformedRequest) .ok := by
  unfold decodeByte
  rw [if_neg (mt (codeBits_zero_iff b).1 (Nat.not_lt.2 h))]
  cases decodeRequest b <;> rfl

/-- A 5-bit code loses nothing in the five bits of a command word. -/
theorem setWidth_code {b : Byte} (h : b.toNat < 32) : (b.setWidth 5).setWidth 8 = b := by
  apply BitVec.eq_of_toNat_eq
  simp only [BitVec.toNat_setWidth]
  omega

/-! ## Decoder and encoder -/

theorem encodeByte_of_decodeByte {b : Byte} {i : Instr} (h : decodeByte b = .ok i) : encodeByte i = b := by
  by_cases hb : b.toNat < 32
  · rw [decodeByte_of_lt hb] at h
    cases hc : commandInstr (b.setWidth 5) with
    | none => rw [hc] at h; cases h
    | some j =>
      rw [hc] at h
      cases h
      rw [encodeByte_of_commandInstr hc, setWidth_code hb]
  · rw [decodeByte_of_le (Nat.not_lt.1 hb)] at h
    cases hr : decodeRequest b with
    | none => rw [hr] at h; cases h
    | some j =>
      rw [hr] at h
      cases h
      exact encodeByte_of_decodeRequest hr

/-- The decoder takes one byte. -/
theorem decode_cons_ok {b : Byte} {rest left : List Byte} {i : Instr} (h : decode (b :: rest) = .ok (i, left)) :
    decodeByte b = .ok i ∧ left = rest := by
  cases hb : decodeByte b <;> simp only [decode, hb] at h <;> cases h
  exact ⟨rfl, rfl⟩

/-- Settles O3: every encoding decodes to its instruction, and a byte that decodes is a request byte, which its own fields give back, or
a command code, which has one row. -/
theorem decodeAndEncodeAgree : Obligations.DecodeAndEncodeAgree := by
  unfold Obligations.DecodeAndEncodeAgree
  refine ⟨Laws.RoundTrip.decode_encode, fun b rest i left h => ?_⟩
  obtain ⟨hb, hl⟩ := decode_cons_ok h
  exact ⟨hl, congrArg (fun w => [w]) (encodeByte_of_decodeByte hb)⟩

/-- Settles O2, by evaluating the decoder on each word. -/
theorem tableWordsDecode : Obligations.TableWordsDecode := by
  unfold Obligations.TableWordsDecode
  and_intros <;> rfl

end Sys2Proof

namespace Sys2Proof.Machine

/-! ## The word that a step takes (R102, R107, R188, R189) -/

section
variable {s : State} {c : Issue} {rest : List Issue}

theorem step_decoded (hin : s.inbox = c :: rest) (hp : paramsValid s.cfg = true) {i : Instr} (h : decodeByte c.word = .ok i) :
    step s = exec i (acceptIssue c rest s) := by
  unfold step nextCommand
  simp only [hin, hp, if_true, h]

theorem step_rejected (hin : s.inbox = c :: rest) (hp : paramsValid s.cfg = true) {e : DecodeError} (h : decodeByte c.word = .error e) :
    step s = .refused (decodeRefusal e) := by
  unfold step nextCommand
  simp only [hin, hp, if_true, h]

theorem step_badParam (hin : s.inbox ≠ []) (hp : paramsValid s.cfg = false) : step s = .refused .badParam := by
  obtain ⟨c, rest, hc⟩ := List.exists_cons_of_ne_nil hin
  unfold step nextCommand
  simp [hc, hp]

end

/-- The codes of R107. -/
def reservedCodes : List Nat :=
  [0b00101, 0b00110, 0b00111, 0b01001, 0b01010, 0b01011, 0b01100, 0b01101, 0b01110, 0b01111, 0b10110, 0b10111, 0b11111]

theorem commandInstr_reserved : ∀ n ∈ reservedCodes, n < 32 ∧ commandInstr ((BitVec.ofNat 8 n).setWidth 5) = none := by
  decide

theorem decodeByte_reserved {b : Byte} (h : b.toNat ∈ reservedCodes) : decodeByte b = .error .reservedCmd := by
  obtain ⟨hlt, hnone⟩ := commandInstr_reserved b.toNat h
  rw [BitVec.ofNat_toNat, BitVec.setWidth_eq] at hnone
  rw [decodeByte_of_lt hlt, hnone]
  rfl

/-- A byte that is neither a command word nor a request byte (R105; log 4). -/
theorem decodeByte_malformed {b : Byte} (hb : 32 ≤ b.toNat) (h : ∀ apndp rnw a, b ≠ requestByte apndp rnw a) :
    decodeByte b = .error .malformedRequest := by
  rw [decodeByte_of_le hb, decodeRequest_none h]
  rfl

/-- Settles O4: a reserved code has no row in the command map, and a byte that the decoder takes for a request is a request byte. -/
theorem reservedWordsRefused : Obligations.ReservedWordsRefused := by
  unfold Obligations.ReservedWordsRefused
  intro s c rest hin hp
  exact ⟨fun h => step_rejected hin hp (decodeByte_reserved h), fun hb h => step_rejected hin hp (decodeByte_malformed hb h)⟩

/-- Settles O5: a word that decodes whole is one byte that decodes, and a step runs what it decodes to (`step_decoded`). -/
theorem stepRunsTheDecodedInstruction : Obligations.StepRunsTheDecodedInstruction := by
  unfold Obligations.StepRunsTheDecodedInstruction
  intro s c rest i hin hp hd
  exact step_decoded hin hp (decode_cons_ok hd).1

end Sys2Proof.Machine
end

section
/-! SUPPORT. What one command drives on the wire: the line reset (O13), and the frame and the end of one exchange (O15 to O17). -/

namespace Sys2Proof.Machine

/-! ## The line reset (R96, R121) -/

theorem finish_fault {m : Engine Unit} {s t : State} {f : Fault} (h : m s = .error (.fault f) t) : finish m s = .fault f := by
  simp [finish, h]

theorem exec_linkLinereset {s : State} (h : s.link.lastDir ≠ .target) : exec .linkLinereset s = .next (lineReset s) :=
  finish_ok (bind_of_ok (checkDir_ok h))

/-- A line reset ends with the line low: `lineResetIdle` is at least 1. -/
theorem drivenLink_lineReset (high : Nat) {low : Nat} (h : low ≠ 0) (l : Link) :
    drivenLink (List.replicate high true ++ List.replicate low false) l = drivingLink false := by
  obtain ⟨n, rfl⟩ := Nat.exists_eq_succ_of_ne_zero h
  rw [List.replicate_succ', ← List.append_assoc, drivenLink_append_single]

/-- The line-reset minima are parameter ranges of R189. -/
theorem paramsValid_shortReset {cfg : Config} (h : cfg.lineResetHigh < 50 ∨ cfg.lineResetIdle < 2) : paramsValid cfg = false := by
  unfold paramsValid
  rcases h with h | h <;> simp [Nat.not_le.2 h]

/-- Settles O13: the driven cycles by `lineReset_eq`, the fault by the direction check, the refusal by the parameter check. -/
theorem lineResetDrivesItsCycles : Obligations.LineResetDrivesItsCycles := by
  unfold Obligations.LineResetDrivesItsCycles
  intro s
  refine ⟨fun h => ?_, fun h _ hidle => ?_, fun h hin => step_badParam hin (paramsValid_shortReset h)⟩
  · exact finish_fault (bind_of_error (checkDir_fault h))
  · rw [exec_linkLinereset h, lineReset_eq, drivenLink_lineReset _ (by omega)]
    rfl

/-! ## One exchange (R93 to R95) -/

/-- A wire request and `XFER` carry `OP_VALUE` as their data (log 17). -/
theorem wireRequest_data {op : Operands} {i : Instr} {rq : Request} (h : wireRequest op i = some rq) : rq.data = op.value := by
  unfold wireRequest at h
  split at h
  · cases h
    rfl
  · obtain ⟨_, _, rfl⟩ := Option.map_eq_some_iff.1 h
    rfl

/-- Request 0x99 (R105). -/
theorem isDpWriteC_eq_false_iff (rq : Request) : rq.isDpWriteC = false ↔ ¬(rq.apndp = false ∧ rq.rnw = false ∧ rq.a = 3) := by
  simp [Request.isDpWriteC]

@[simp] theorem length_requestCycles (rq : Request) : (requestCycles rq).length = 9 := by
  simp [requestCycles, hostCycles]

theorem length_readFrame (cfg : Config) (rq : Request) (d : Word) (p : Bool) :
    (readFrame cfg rq d p).length = 46 + cfg.idleCycles := by
  simp +arith [readFrame, targetCycles, okAck, idleRun]

theorem length_writeFrame (cfg : Config) (rq : Request) : (writeFrame cfg rq).length = 46 + cfg.idleAfterWrite := by
  simp +arith [writeFrame, targetCycles, hostCycles, okAck, idleRun]

theorem length_failFrame (cfg : Config) (rq : Request) {ack : List Bool} (h : ack.length = 3) :
    (failFrame cfg rq ack).length = 13 + cfg.idleCycles := by
  simp +arith [failFrame, targetCycles, idleRun, h]

/-- An exchange not acknowledged OK. -/
theorem exec_not_ok {i : Instr} {s : State} {rq : Request} {ack rest : List Bool} (h : wireRequest s.op i = some rq)
    (hc : rq.isDpWriteC = false) (hd : s.link.lastDir ≠ .target) (hl : ack.length = 3) (hne : ack ≠ okAck)
    (hin : s.targetIn = ack ++ rest) : exec i s = .next (failDone rq ack rest s.draws s) := by
  rw [exec_wire h, xfer_completes hc hd, exchange_fail_scripted rq s ack rest hl ((classify_ne_ok ack hl).2 hne) hin]

/-- Settles O15: the whole next state is `exec_read_ok`; the trace is the frame of R93, written out. -/
theorem readExchangeCompletes : Obligations.ReadExchangeCompletes := by
  unfold Obligations.ReadExchangeCompletes
  intro i s rq d p rest hw hr hd hin
  refine ⟨exec_read_ok hw hr hd hin, ?_, length_readFrame s.cfg rq d p⟩
  simp [readDone, readFrame, requestCycles, hostCycles, targetCycles, okAck, idleRun]

/-- Settles O16: the whole next state is `exec_write_ok`; the trace is the frame of R94, written out. -/
theorem writeExchangeCompletes : Obligations.WriteExchangeCompletes := by
  unfold Obligations.WriteExchangeCompletes
  intro i s rq rest hw hr hc hd hin
  have hc : rq.isDpWriteC = false := (isDpWriteC_eq_false_iff rq).2 fun ⟨hap, _, ha⟩ => hc ⟨hap, ha⟩
  refine ⟨exec_write_ok hw hr hc hd hin, ?_, length_writeFrame s.cfg rq⟩
  simp [writeDone, writeFrame, requestCycles, hostCycles, targetCycles, okAck, idleRun, wireRequest_data hw]

/-- Settles O17: the whole next state is `exec_not_ok`; the trace is the frame of R95, written out. -/
theorem failedExchangeHasNoData : Obligations.FailedExchangeHasNoData := by
  unfold Obligations.FailedExchangeHasNoData
  intro i s rq ack rest hw hc hd hl hne hin
  refine ⟨exec_not_ok hw ((isDpWriteC_eq_false_iff rq).2 hc) hd hl hne hin, ?_, length_failFrame s.cfg rq hl⟩
  simp [failDone, failFrame, requestCycles, hostCycles, targetCycles, idleRun]

end Sys2Proof.Machine
end

section
/-! SUPPORT. Legal requests: what `REQ` holds after any step, and what the commands above the raw link put on the wire (O59). -/

namespace Sys2Proof.Machine

/-! ## `REQ` (R87, R88, R105) -/

theorem exchange_req (rq : Request) (s : State) : (exchange rq s).dp.req = requestByte rq.apndp rq.rnw rq.a := by
  obtain ⟨_, d, p, inp, n, h⟩ | ⟨_, inp, n, h⟩ | ⟨ack, inp, n, _, _, h⟩ := exchange_cases rq s <;> rw [h] <;> rfl

/-- Only the DP write at 0xC has request byte 0x99 (R105). -/
theorem requestByte_ne_0x99 : ∀ apndp rnw a, ¬(apndp = false ∧ rnw = false ∧ a = 3) → requestByte apndp rnw a ≠ 0x99 := by
  decide

theorem requestSafe_exchange {rq : Request} (hc : rq.isDpWriteC = false) (s : State) : RequestSafe (exchange rq s) := by
  refine .inr ⟨rq.apndp, rq.rnw, rq.a, exchange_req rq s, ?_⟩
  rw [exchange_req]
  exact requestByte_ne_0x99 _ _ _ ((isDpWriteC_eq_false_iff rq).1 hc)

theorem requestSafe_stable : EngineStable True RequestSafe RequestSafe where
  exchange := fun _ s hc _ _ => requestSafe_exchange hc s
  drive := fun bits s _ _ h => by rw [driveBits_eq]; exact h
  hazard := fun _ _ _ => trivial
  counters := fun _ _ _ _ h => h
  results := fun _ _ _ h => h
  session := fun _ _ _ h => h
  fresh := fun _ h => h
  position := fun _ _ h => h
  failed := fun _ _ _ h => h

theorem requestSafe_exec {i : Instr} {s t : State} (h : RequestSafe s) (he : exec i s = .next t) : RequestSafe t :=
  exec_keeps requestSafe_stable (links_of fun _ _ _ _ _ _ h => h) ⟨fun _ h => h, fun _ _ h => h, fun _ h => h⟩ h he

/-! ## Whole segments (R93 to R97) -/

theorem Emits.refl (s : State) : Emits s.cfg s.trace s := ⟨rfl, [], by simp, by simp⟩

/-- The trace of a load operation starts empty (R177). -/
theorem loadPlan_emits (c : Config) (p : LoadPlan) :
    Ends True (fun u => u.cfg = c) (loadPlan p) (fun _ => Emits c []) (Emits c []) :=
  have h := emits_stable c []
  have run := ends_runLoad (P00 := fun u => u.cfg = c) (R := fun _ => Emits c []) h.connect h.control (h.passes .write)
    (h.passes .verify) (fun u hc => hc ▸ Emits.refl (beginLoad u)) h.fresh (fun _ _ hu => hu) (fun _ hu => hu) p
  Ends.bind keeps_get fun _ => (keeps_refuseUnless (.inr trivial)).bind fun _ => (keeps_refuseUnless (.inr trivial)).bind fun _ => run

theorem exec_emits {i : Instr} {s t : State} (hi : i ∉ [Instr.linkClock, .linkWrite, .linkRead, .linkTrn]) (he : exec i s = .next t) :
    Emits s.cfg (if i = .load then [] else s.trace) t := by
  by_cases hl : i = .load
  · subst hl
    exact (finish_next (loadPlan_emits s.cfg s.op.plan) rfl he).elim id id
  · rw [if_neg hl]
    rw [exec_eq_finish] at he
    exact (finish_next (operation_keeps (emits_stable s.cfg s.trace) s i (fun h => absurd h hi) hl) (Emits.refl s) he).elim id id

/-- Settles O59: `REQ` changes only in an exchange, whose request is not 0x99, and every operation above the raw link appends whole
segments to the trace. -/
theorem onlyLegalRequestsAreEmitted : Obligations.OnlyLegalRequestsAreEmitted := by
  unfold Obligations.OnlyLegalRequestsAreEmitted
  refine ⟨fun s t h hs => ?_, fun i s t hi he => (exec_emits hi he).2⟩
  obtain rfl | ⟨c, rest, i, -, -, -, he⟩ := step_cases hs
  · exact h
  · exact requestSafe_exec (s := acceptIssue c rest s) h he

end Sys2Proof.Machine
end

section
/-! SUPPORT. What each raw link command does (O9 to O12), and the direction check that every command meets before the first cycle it
drives (O14). -/

namespace Sys2Proof.Machine

/-! ## The raw link commands (R117 to R120) -/

/-- LINK_CLOCK in closed form: only a driving host leaves its mark on `oe` and `dout`, and it leaves the values they have (R117). -/
theorem linkClock_eq (s : State) : linkClock s = { s with
    link := { s.link with clk := false, lastDir := if s.link.oe then .host else .released }
    trace := s.trace ++ [if s.link.oe then .h s.link.dout else .z] } := by
  unfold linkClock
  cases hoe : s.link.oe
  · simp [cycleZ, hoe]
  · simp [cycleH, hoe]

/-- Settles O9: LINK_CLOCK is one cycle of the present drive state (`linkClock_eq`). -/
theorem linkClockRepeatsTheDrive : Obligations.LinkClockRepeatsTheDrive := by
  unfold Obligations.LinkClockRepeatsTheDrive
  exact fun s => congrArg Host.Outcome.next (linkClock_eq s)

theorem exec_linkWrite {s : State} (h : s.link.lastDir ≠ .target) : exec .linkWrite s = .next (driveBits s.op.bits s) :=
  finish_ok (bind_of_ok (checkDir_ok h))

/-- Settles O10: the direction check, then the driven cycles of `driveBits_eq`, the last of which is left on the line. -/
theorem linkWriteDrivesItsBits : Obligations.LinkWriteDrivesItsBits := by
  unfold Obligations.LinkWriteDrivesItsBits
  intro s
  refine ⟨fun h => finish_fault (bind_of_error (checkDir_fault h)), fun h hnone => ?_, fun bs b h hbits => ?_⟩
  · rw [exec_linkWrite h, hnone, driveBits_nil]
  · have hlink : drivenLink s.op.bits s.link = drivingLink b := by rw [hbits, drivenLink_append_single]
    rw [exec_linkWrite h, driveBits_eq, hlink]
    rfl

/-- The sampling of LINK_READ in closed form (R119; log 1, log 13). -/
theorem linkSample_eq (n : Nat) (s : State) : linkSample n s = { s with
    link := sampledLink n s.link
    res := { s.res with
      value := if n ≤ 32 then valLSB 32 (sampleBits n s).1 else s.res.value, bits := (sampleBits n s).1 }
    trace := s.trace ++ (sampleBits n s).1.map .t
    targetIn := s.targetIn.drop n
    draws := s.draws + (n - s.targetIn.length) } := by
  obtain ⟨-, hstate⟩ := sampleBits_spec n s
  obtain ⟨-, hin, hdraws⟩ := sampleBits_answers n s
  rw [hin, hdraws] at hstate
  simp only [linkSample, hstate]

theorem exec_linkRead {s : State} (h : s.link.lastDir ≠ .host) : exec .linkRead s = .next (linkSample s.op.count s) :=
  finish_ok (bind_of_ok (checkDir_ok h))

/-- Settles O11: the direction check, then the sampling of `linkSample_eq`; which bits it samples is `sampleBits_answers`. -/
theorem linkReadSamplesTheTarget : Obligations.LinkReadSamplesTheTarget := by
  unfold Obligations.LinkReadSamplesTheTarget
  intro s
  refine ⟨fun h => finish_fault (bind_of_error (checkDir_fault h)), fun h => ?_⟩
  obtain ⟨hlength, -⟩ := sampleBits_spec s.op.count s
  obtain ⟨hscripted, -⟩ := sampleBits_answers s.op.count s
  refine ⟨_, _, hlength, hscripted, fun hn k hk => ?_, fun hn => ?_, (exec_linkRead h).trans (congrArg _ (linkSample_eq _ s))⟩
  · rw [if_pos hn, getLsbD_valLSB 32 _ k hk]
  · rw [if_neg (Nat.not_le.2 hn)]

/-- Settles O12: a turnaround is one released cycle (`turnaround_eq`). -/
theorem linkTrnReleasesOneCycle : Obligations.LinkTrnReleasesOneCycle := by
  unfold Obligations.LinkTrnReleasesOneCycle
  exact fun s => congrArg Host.Outcome.next (turnaround_eq s)

/-! ## Operations that start with host-driven cycles (R115, R188) -/

/-- After a target-driven cycle `m` ends at the direction check, whatever else the state holds. -/
def FaultsUnturned {α : Type} (m : Engine α) : Prop :=
  ∀ s, s.link.lastDir = .target → ∃ t, m s = .error (.fault .directionHazard) t

section
variable {α β : Type}

theorem faultsUnturned_checkDir : FaultsUnturned (checkDir .target) := fun s h => ⟨s, checkDir_fault h⟩

/-- What follows the fault is never reached. -/
theorem FaultsUnturned.bind {m : Engine α} (h : FaultsUnturned m) (f : α → Engine β) : FaultsUnturned (m >>= f) := fun s hs =>
  (h s hs).imp fun _ ht => bind_of_error ht

/-- A write that leaves the link alone may come before. -/
theorem FaultsUnturned.afterModify {g : State → State} {f : Unit → Engine α} (h : FaultsUnturned (f ()))
    (hg : ∀ s, (g s).link = s.link) : FaultsUnturned (modify g >>= f) := fun s hs =>
  h (g s) (by rw [hg]; exact hs)

theorem FaultsUnturned.afterGet {f : State → Engine α} (h : ∀ u, FaultsUnturned (f u)) : FaultsUnturned (get >>= f) := fun s hs =>
  h s s hs

theorem FaultsUnturned.afterCheck {good : Bool} {r : Refusal} {f : Unit → Engine α} (h : FaultsUnturned (f ())) (hgood : good = true) :
    FaultsUnturned (refuseUnless good r >>= f) := by
  rw [hgood, refuseUnless_true, pure_bind]
  exact h

/-- An optional step may come before, when it faults itself. -/
theorem FaultsUnturned.afterOptional {c : Prop} [Decidable c] {m : Engine Unit} {f : Unit → Engine α} (h : FaultsUnturned (f ()))
    (hm : FaultsUnturned m) : FaultsUnturned ((if c then m else pure ()) >>= f) := by
  split
  · exact hm.bind f
  · rw [pure_bind]
    exact h

end

/-! ### Exchanges and transactions (R129, R147, R148) -/

section
variable {rq : Request}

theorem faultsUnturned_xfer (hc : rq.isDpWriteC = false) : FaultsUnturned (xfer rq) :=
  (faultsUnturned_checkDir.bind _).afterCheck (by rw [hc]; rfl)

theorem faultsUnturned_attempts (hc : rq.isDpWriteC = false) : ∀ n, FaultsUnturned (attempts rq n)
  | 0 => faultsUnturned_xfer hc
  | _ + 1 => (faultsUnturned_xfer hc).bind _

theorem faultsUnturned_series (hc : rq.isDpWriteC = false) : FaultsUnturned (series rq) :=
  FaultsUnturned.afterModify (.afterGet fun _ => faultsUnturned_attempts hc _) fun _ => rfl

theorem faultsUnturned_transact (hc : rq.isDpWriteC = false) : FaultsUnturned (transact rq) :=
  ((faultsUnturned_series hc).bind _).afterModify fun _ => rfl

end

/-! ### Register commands and word helpers (R150 to R158) -/

/-- A bank check either writes SELECT or changes nothing (R150). -/
theorem FaultsUnturned.afterBankCheck {α : Type} {f : Unit → Engine α} (h : FaultsUnturned (f ())) (addr : BitVec 8) :
    FaultsUnturned (bankCheck addr >>= f) := by
  unfold bankCheck
  rw [bind_assoc]
  exact .afterGet fun _ => h.afterOptional ((faultsUnturned_transact (writeDp_dpSelect_ok _)).bind _)

theorem faultsUnturned_rdDp {addr : BitVec 8} (ha : dpReadAddrOk addr = true) : FaultsUnturned (rdDp addr) :=
  ((faultsUnturned_transact (readDp_ok _)).bind _).afterCheck ha

theorem faultsUnturned_wrDp {addr : BitVec 8} (ha : dpWriteAddrOk addr = true) (v : Word) : FaultsUnturned (wrDp addr v) :=
  ((faultsUnturned_transact (writeDp_addr_ok ha v)).bind _).afterCheck ha

theorem faultsUnturned_rdAp {addr : BitVec 8} (ha : apAddrOk addr = true) : FaultsUnturned (rdAp addr) :=
  (((faultsUnturned_transact (readAp_ok _)).bind _).afterBankCheck addr).afterCheck ha

theorem faultsUnturned_wrAp {addr : BitVec 8} (ha : apAddrOk addr = true) (v : Word) : FaultsUnturned (wrAp addr v) :=
  (((faultsUnturned_transact (writeAp_ok _ v)).bind _).afterBankCheck addr).afterCheck ha

/-- CSW is written or left as it is (R156). -/
theorem FaultsUnturned.afterEnsureCsw {α : Type} {f : Unit → Engine α} (h : FaultsUnturned (f ())) :
    FaultsUnturned (ensureCsw >>= f) := by
  unfold ensureCsw
  rw [bind_assoc]
  exact .afterGet fun _ => h.afterOptional ((faultsUnturned_wrAp rfl _).bind _)

theorem faultsUnturned_memWr32 {addr : Addr32} (ha : memAddrOk addr = true) (v : Word) : FaultsUnturned (memWr32 addr v) :=
  ((faultsUnturned_wrAp rfl addr).bind _).afterEnsureCsw.afterCheck ha

theorem faultsUnturned_memRd32 {addr : Addr32} (ha : memAddrOk addr = true) : FaultsUnturned (memRd32 addr) :=
  ((faultsUnturned_wrAp rfl addr).bind _).afterEnsureCsw.afterCheck ha

/-! ### Sequences (R162, R168 to R170, R177) -/

theorem faultsUnturned_linkWrite (bits : List Bool) : FaultsUnturned (linkWrite bits) := faultsUnturned_checkDir.bind _

theorem faultsUnturned_linkLinereset : FaultsUnturned linkLinereset := faultsUnturned_checkDir.bind _

theorem faultsUnturned_connect : FaultsUnturned connect :=
  .afterModify (.afterModify (faultsUnturned_linkLinereset.bind _) fun _ => rfl) fun _ => rfl

theorem faultsUnturned_halt : FaultsUnturned halt :=
  ((faultsUnturned_memWr32 rfl dhcsrHalt).bind _).afterModify fun _ => rfl

theorem faultsUnturned_setReg (regId : BitVec 5) (v : Word) : FaultsUnturned (setReg regId v) := by
  refine .afterModify (.afterGet fun u => ?_) fun _ => rfl
  cases u.cfg.setRegOrder
  case selectThenData => exact (faultsUnturned_memWr32 rfl _).bind _
  case dataThenSelect => exact (faultsUnturned_memWr32 rfl _).bind _

theorem faultsUnturned_resume : FaultsUnturned resume :=
  ((faultsUnturned_memWr32 rfl dhcsrResume).bind _).afterModify fun _ => rfl

theorem faultsUnturned_runLoad (p : LoadPlan) : FaultsUnturned (runLoad p) :=
  (faultsUnturned_connect.bind _).afterModify fun _ => rfl

/-- A load operation that is not refused is its run (R46, R172, R177). -/
theorem loadPlan_accepted {p : LoadPlan} {s : State} (hb : s.busy = false) (ha : planAdmitted s.cfg p = true) :
    loadPlan p s = runLoad p s := by
  unfold loadPlan
  rw [get_bind, hb, ha]
  rfl

/-! ### Every instruction -/

/-- Each form but `LOAD`, whose acceptance depends on the state, that starts with host-driven cycles. -/
theorem faultsUnturned_operation {i : Instr} {s : State} (hw : i.wellFormed s.cfg s.op = true) (hl : i ≠ .load)
    (hi : i ∉ [Instr.linkClock, .linkRead, .linkTrn, .writeBlocks, .verifyBlocks]) : FaultsUnturned (Instr.operation s i) := by
  cases i
  case linkClock | linkRead | linkTrn | writeBlocks | verifyBlocks => exact absurd (by decide) hi
  case load => exact absurd rfl hl
  case dpwcReserved => cases hw
  case xfer => exact faultsUnturned_xfer (Bool.eq_false_of_not_eq_true' hw)
  case linkWrite => exact faultsUnturned_linkWrite _
  case linkLinereset => exact faultsUnturned_linkLinereset
  case rdDp => exact faultsUnturned_rdDp hw
  case wrDp => exact faultsUnturned_wrDp hw _
  case rdAp => exact faultsUnturned_rdAp hw
  case wrAp => exact faultsUnturned_wrAp hw _
  case memWr32 => exact faultsUnturned_memWr32 hw _
  case memRd32 => exact faultsUnturned_memRd32 hw
  case connect => exact faultsUnturned_connect
  case halt => exact faultsUnturned_halt
  case setReg => exact faultsUnturned_setReg _ _
  case resume => exact faultsUnturned_resume
  all_goals exact faultsUnturned_xfer rfl

/-- Settles O14: every operation of these meets the direction check before its first cycle (`faultsUnturned_operation`), and so does a
load operation that is not refused. -/
theorem hostCyclesAfterTargetCyclesFault : Obligations.HostCyclesAfterTargetCyclesFault := by
  unfold Obligations.HostCyclesAfterTargetCyclesFault
  intro i s hw hd hb hi
  have hstop : ∃ t, Instr.operation s i s = .error (.fault .directionHazard) t := by
    by_cases hl : i = .load
    · subst hl
      exact (faultsUnturned_runLoad s.op.plan s hd).imp fun _ ht => (loadPlan_accepted (hb rfl) hw).trans ht
    · exact faultsUnturned_operation hw hl hi s hd
  obtain ⟨t, ht⟩ := hstop
  rw [exec_eq_finish]
  exact finish_fault ht

end Sys2Proof.Machine
end

section
/-! SUPPORT. The class of an exchange and what it writes in the datapath (O18), and that request 0x99 never reaches the wire (O22). -/

namespace Sys2Proof.Machine

/-! ## The class of an exchange (R126, R127) -/

theorem classify_eq_wait_iff (ack : BitVec 3) : classify ack = .wait ↔ ack = 0b010 := by
  revert ack
  decide

theorem classify_eq_fault_iff (ack : BitVec 3) : classify ack = .fault ↔ ack = 0b100 := by
  revert ack
  decide

/-- Wrong parity makes a read answered OK a protocol error (R126). -/
theorem readOutcome_eq_ok_iff (d : Word) (p : Bool) : readOutcome d p = .ok ↔ p = parity32 d := by
  simp [readOutcome]

theorem readOutcome_ne_wait_fault (d : Word) (p : Bool) : readOutcome d p ≠ .wait ∧ readOutcome d p ≠ .fault := by
  unfold readOutcome
  split <;> exact ⟨nofun, nofun⟩

theorem exchange_outcome (rq : Request) (s : State) :
    ((exchange rq s).dp.outcome = .ok ↔
      (exchange rq s).dp.ack = 0b001 ∧ (rq.rnw = true → (exchange rq s).dp.rpar = parity32 (exchange rq s).dp.rdata)) ∧
    ((exchange rq s).dp.outcome = .wait ↔ (exchange rq s).dp.ack = 0b010) ∧
    ((exchange rq s).dp.outcome = .fault ↔ (exchange rq s).dp.ack = 0b100) := by
  obtain ⟨hr, d, p, inp, n, e⟩ | ⟨hw, inp, n, e⟩ | ⟨ack, inp, n, -, hack, e⟩ := exchange_cases rq s <;> rw [e]
  · obtain ⟨hwait, hfault⟩ := readOutcome_ne_wait_fault d p
    refine ⟨(readOutcome_eq_ok_iff d p).trans ⟨fun hp => ⟨rfl, fun _ => hp⟩, fun h => h.2 hr⟩, ?_, ?_⟩
    · exact iff_of_false hwait (show (0b001 : BitVec 3) ≠ 0b010 by decide)
    · exact iff_of_false hfault (show (0b001 : BitVec 3) ≠ 0b100 by decide)
  · refine ⟨iff_of_true rfl ⟨rfl, fun hr => absurd hr (by simp [hw])⟩, ?_, ?_⟩
    · exact iff_of_false nofun (show (0b001 : BitVec 3) ≠ 0b010 by decide)
    · exact iff_of_false nofun (show (0b001 : BitVec 3) ≠ 0b100 by decide)
  · refine ⟨iff_of_false hack fun h => hack ((classify_eq_ok _).2 h.1), ?_, ?_⟩
    · exact classify_eq_wait_iff _
    · exact classify_eq_fault_iff _

/-- `RES_OK` reports the class (R129). -/
theorem exchange_resOk_iff (rq : Request) (s : State) : (exchange rq s).res.ok = true ↔ (exchange rq s).dp.outcome = .ok :=
  beq_iff_eq

/-! ## The data of an exchange (R93 to R95, R125) -/

/-- A read answered OK delivers what it read, with right or wrong parity (log 11); no other exchange has read data. -/
theorem exchange_readData (rq : Request) (s : State) :
    (rq.rnw = true → (exchange rq s).dp.ack = 0b001 → (exchange rq s).res.value = (exchange rq s).dp.rdata) ∧
    (¬(rq.rnw = true ∧ (exchange rq s).dp.ack = 0b001) →
      (exchange rq s).dp.rdata = s.dp.rdata ∧ (exchange rq s).dp.rpar = s.dp.rpar ∧ (exchange rq s).res.value = s.res.value) := by
  obtain ⟨hr, d, p, inp, n, e⟩ | ⟨hw, inp, n, e⟩ | ⟨ack, inp, n, -, hack, e⟩ := exchange_cases rq s <;> rw [e]
  · exact ⟨fun _ _ => rfl, fun h => absurd ⟨hr, rfl⟩ h⟩
  · exact ⟨fun hr => absurd hr (by simp [hw]), fun _ => ⟨rfl, rfl, rfl⟩⟩
  · exact ⟨fun _ h => absurd ((classify_eq_ok _).2 h) hack, fun _ => ⟨rfl, rfl, rfl⟩⟩

/-- A write answered OK sends its data with their parity; no other exchange has write data. -/
theorem exchange_writeData (rq : Request) (s : State) :
    (¬(rq.rnw = false ∧ (exchange rq s).dp.ack = 0b001) →
      (exchange rq s).dp.wdata = s.dp.wdata ∧ (exchange rq s).dp.wpar = s.dp.wpar) ∧
    (rq.rnw = false → (exchange rq s).dp.ack = 0b001 →
      (exchange rq s).dp.wdata = rq.data ∧ (exchange rq s).dp.wpar = parity32 rq.data) := by
  obtain ⟨hr, d, p, inp, n, e⟩ | ⟨hw, inp, n, e⟩ | ⟨ack, inp, n, -, hack, e⟩ := exchange_cases rq s <;> rw [e]
  · exact ⟨fun _ => ⟨rfl, rfl⟩, fun hw => absurd hw (by simp [hr])⟩
  · exact ⟨fun h => absurd ⟨hw, rfl⟩ h, fun _ _ => ⟨rfl, rfl⟩⟩
  · exact ⟨fun _ => ⟨rfl, rfl⟩, fun _ h => absurd ((classify_eq_ok _).2 h) hack⟩

/-- Settles O18: the class by `exchange_outcome`, the data by `exchange_readData` and `exchange_writeData`, the rest by
`exchange_frame`. -/
theorem exchangeOutcomeAndFrame : Obligations.ExchangeOutcomeAndFrame := by
  unfold Obligations.ExchangeOutcomeAndFrame
  intro i s rq hwire hc hd
  obtain ⟨hok, hwait, hfault⟩ := exchange_outcome rq s
  obtain ⟨hread, hnoread⟩ := exchange_readData rq s
  obtain ⟨hnowrite, hwrite⟩ := exchange_writeData rq s
  rw [wireRequest_data hwire] at hwrite
  obtain ⟨hcfg, hop, hsess, hload, hseq, hbusy, hinbox, hbits, hcount, hretried, hpoll⟩ := exchange_frame rq s
  exact ⟨exchange rq s, (exec_wire hwire).trans (xfer_completes ((isDpWriteC_eq_false_iff rq).2 hc) hd), exchange_req rq s, hok, hwait,
    hfault, exchange_resOk_iff rq s, hread, hnoread, hnowrite, hwrite, hcount, hretried, hpoll, hcfg, hop, hinbox, hbits, hsess, hload,
    hseq, hbusy, exchange_lastDir rq s⟩

/-! ## Request 0x99 (R105, R134) -/

theorem finish_refused {m : Engine Unit} {s t : State} {r : Refusal} (h : m s = .error (.refused r) t) : finish m s = .refused r := by
  simp [finish, h]

/-- A check that fails refuses the command, whatever would follow. -/
theorem finish_refuseUnless {good : Bool} (hbad : good = false) (r : Refusal) (f : Unit → Engine Unit) (s : State) :
    finish (refuseUnless good r >>= f) s = .refused r := by
  rw [hbad, refuseUnless_false]
  exact finish_refused (bind_of_error (refuse_run r s))

theorem exec_wire_dpWriteC {i : Instr} {s : State} {rq : Request} (h : wireRequest s.op i = some rq) (hc : rq.isDpWriteC = true) :
    exec i s = .refused .dpWrite0xC := by
  rw [exec_wire h]
  exact finish_refuseUnless (by rw [hc]; rfl) _ _ s

theorem exec_wrDp_badAddr {s : State} (h : dpWriteAddrOk s.op.addr = false) : exec .wrDp s = .refused .badDPAddr := by
  rw [exec_eq_finish]
  exact finish_refuseUnless h _ _ s

/-- A segment is a line reset, activation bits, or an exchange whose request byte is not 0x99. -/
theorem Segment.cases_requestByte {cfg : Config} {w : List Cycle} (h : Segment cfg w) :
    w = lineResetCycles cfg ∨
    (∃ bits, (bits = cfg.activationBits ∨ cfg.multidropActivation = some bits) ∧ w = bits.map .h) ∨
    ∃ a : Access, a.ack.length = 3 ∧ requestByte a.rq.apndp a.rq.rnw a.rq.a ≠ 0x99 ∧ w = a.cycles cfg := by
  cases h with
  | lineReset => exact .inl rfl
  | activation bits hbits => exact .inr (.inl ⟨bits, hbits, rfl⟩)
  | exchange a hack hc => exact .inr (.inr ⟨a, hack, requestByte_ne_0x99 _ _ _ ((isDpWriteC_eq_false_iff a.rq).1 hc), rfl⟩)

/-- Settles O22: the refusals are the first check of each command; the wire carries whole segments (`exec_emits`), and no segment is an
exchange with request 0x99. -/
theorem dpWriteAtCIsRefused : Obligations.DpWriteAtCIsRefused := by
  unfold Obligations.DpWriteAtCIsRefused
  refine ⟨by decide, fun s => ⟨exec_wire_dpWriteC rfl rfl, fun hap hrnw ha => exec_wire_dpWriteC rfl ?_, fun ha => ?_,
    fun i t hi he => ?_⟩⟩
  · simp [Request.isDpWriteC, regOffset, hap, hrnw, ha]
  · exact exec_wrDp_badAddr (by rw [ha]; rfl)
  · obtain ⟨-, parts, hparts, htrace⟩ := exec_emits hi he
    exact ⟨parts, htrace, fun w hw => (hparts w hw).cases_requestByte⟩

end Sys2Proof.Machine
end

section
/-! SUPPORT. The register commands and `MEM_WR32` answered OK (O24 to O28), and a register command in which one transaction meets WAIT,
a FAULT or a protocol error (O30 to O32); the polls of Target Control that time out (O38). -/

namespace Sys2Proof.Machine

/-! ## Answered OK (R151 to R157) -/

theorem dpReadAddrOk_of {addr : BitVec 8} (h : addr ∈ [0x0, 0x4, 0x8, 0xC]) : dpReadAddrOk addr = true := by
  simpa [dpReadAddrOk, or_assoc] using h

theorem dpWriteAddrOk_of {addr : BitVec 8} (h : addr ∈ [0x0, 0x4, 0x8]) : dpWriteAddrOk addr = true := by
  simpa [dpWriteAddrOk, or_assoc] using h

theorem apAddrOk_of {addr : BitVec 8} (h : addr.extractLsb' 0 2 = 0) : apAddrOk addr = true := by simp [apAddrOk, h]

/-- Settles O24, by the run `rdDp_does`. -/
theorem rdDpReturnsTheRegister : Obligations.RdDpReturnsTheRegister := by
  unfold Obligations.RdDpReturnsTheRegister
  intro s v rest ha hd as hin
  obtain ⟨_, t, e, d, hsess, hvalue, hok, -⟩ := rdDp_does s.op.addr (dpReadAddrOk_of ha) v s rest hd hin
  exact ⟨t, finish_ok e, d.toRan, hvalue, hok, hsess⟩

/-- Settles O25, by the run `wrDp_does`; what the session then is depends on the address alone. -/
theorem wrDpWritesTheRegister : Obligations.WrDpWritesTheRegister := by
  unfold Obligations.WrDpWritesTheRegister
  intro s rest ha hd as hin
  obtain ⟨_, t, e, d, hsess, hok, -⟩ := wrDp_does s.op.addr (dpWriteAddrOk_of ha) s.op.value s rest hd hin
  refine ⟨t, finish_ok e, d.toRan, hok, fun h => ?_, fun h => ?_, fun h => ?_⟩ <;> rw [hsess, h] <;> rfl

/-- Settles O26, by the run `rdAp_does`. -/
theorem rdApReturnsRdbuff : Obligations.RdApReturnsRdbuff := by
  unfold Obligations.RdApReturnsRdbuff
  intro s posted v rest ha hd as hin
  obtain ⟨_, t, e, d, hsess, hvalue, hok, -⟩ := rdAp_does s.op.addr (apAddrOk_of ha) posted v s rest hd hin
  exact ⟨t, finish_ok e, d.toRan, hvalue, hok, hsess⟩

/-- Settles O27, by the run `wrAp_does`. -/
theorem wrApWritesTheRegister : Obligations.WrApWritesTheRegister := by
  unfold Obligations.WrApWritesTheRegister
  intro s rest ha hd as hin
  obtain ⟨_, t, e, d, hsess, hok, -⟩ := wrAp_does s.op.addr (apAddrOk_of ha) s.op.value s rest hd hin
  exact ⟨t, finish_ok e, d.toRan, hok, hsess⟩

/-- Settles O28, by the run `memWr32_does`. -/
theorem memWr32WritesTarThenDrw : Obligations.MemWr32WritesTarThenDrw := by
  unfold Obligations.MemWr32WritesTarThenDrw
  intro s rest ha hd as hin
  obtain ⟨_, t, e, d, hsess, hok, -⟩ := memWr32_does s.op.value (memAddrOk_of ha) s.op.value2 s rest hd hin
  exact ⟨t, finish_ok e, d.toRan, hok, hsess⟩

/-! ## One transaction that is not answered OK at once (R147 to R149) -/

/-- `a` is one of the transactions of a register command that the engine accepts with the link turned, after `before`. -/
structure Placed (i : Instr) (s : State) (posted v : Word) (before : List Access) (a : Access) (after : List Access) : Prop where
  register : i ∈ [Instr.rdDp, .wrDp, .rdAp, .wrAp]
  wellFormed : i.wellFormed s.cfg s.op = true
  turned : s.link.lastDir ≠ .target
  split : commandAccesses s.cfg s.op s.sess posted v i = before ++ a :: after

theorem sessionBefore_failInfo (cfg : Config) (op : Operands) (ss : Session) (before : List Access) :
    (sessionBefore cfg op ss before).failInfo = ss.failInfo := by
  unfold sessionBefore
  split <;> rfl

section
variable {i : Instr} {s : State} {posted v : Word} {before after A : List Access} {a : Access} {rest : List Bool}

theorem Placed.good (p : Placed i s posted v before a after) : a.Good :=
  command_good i s p.register p.wellFormed (posted := posted) (v := v) (by rw [p.split]; simp)

/-- `command_settles` for the instruction: one of the transactions takes the accesses `A` to succeed. -/
theorem Placed.settles (p : Placed i s posted v before a after) (hin : s.targetIn = answerBits (before ++ A ++ after) ++ rest)
    {g : Session → Session} {n : Nat} {r : Bool} (hg : Recovering g)
    (H : ∀ u : State, u.cfg = s.cfg → Does (transact a.rq) A u fun _ w => Settled a g n r u w) :
    ∃ t, exec i s = .next t ∧
      Ran (wireCycles s.cfg (before ++ A ++ after)) (targetAfter s.cfg (before ++ A ++ after) s.target) rest s t ∧ t.res.ok = true ∧
      (i = .rdDp ∨ i = .rdAp → t.res.value = v) ∧ (after = [] → t.dp.waitCount = n ∧ t.dp.faultRetried = r) ∧ t.load = s.load ∧
      t.sess = g (commandSession s.cfg s.op s.sess i) := by
  obtain ⟨_, t, e, d, hok, hvalue, hsess, hlast⟩ := command_settles i s p.register p.wellFormed p.split hg H rest p.turned hin
  exact ⟨t, by rw [exec_eq_finish, finish_ok e], d.toRan, hok, hvalue, hlast, d.load, hsess⟩

/-- `command_fails` for the instruction, outside a load operation: one of the transactions fails after the accesses `A`. -/
theorem Placed.fails (p : Placed i s posted v before a after) (hin : s.targetIn = answerBits (before ++ A) ++ rest)
    (hb : s.busy = false) {g : Session → Session} (hg : ∀ ss, (g ss).failInfo = ss.failInfo) {cause : FailCause} {X : State → Prop}
    (H : ∀ u : State, u.cfg = s.cfg → Fails (transact a.rq) A u fun w => Failed cause none (g u.sess) u w ∧ X w) :
    ∃ t, exec i s = .next t ∧ Ran (wireCycles s.cfg (before ++ A)) (targetAfter s.cfg (before ++ A) s.target) rest s t ∧
      t.res.ok = false ∧ t.load = s.load ∧ t.sess = { g (sessionBefore s.cfg s.op s.sess before) with
        failInfo := some (s.sess.failInfo.getD { step := s.seq.phase, cause := cause, addr := none }) } ∧ X t := by
  obtain ⟨t, e, ran, f, hX⟩ := command_fails i s p.register p.wellFormed p.split H rest p.turned hin
  refine ⟨t, by rw [exec_eq_finish, finish_failed e], ran, f.ok, by rw [f.load, hb]; rfl, ?_, hX⟩
  rw [f.sess, hg, sessionBefore_failInfo]

end

/-- `k` answers WAIT within the bound, then OK: the transaction succeeds without a recovery. -/
theorem transact_settles_waited {a : Access} (hg : a.Good) {k : Nat} {u : State} (hk : k ≤ u.cfg.waitRetryMax) :
    Does (transact a.rq) (a.waited k) u fun _ w => Settled a id k false u w :=
  (transact_waits a hg k u hk).weaken fun _ _ h => ⟨h.sess, h.waitCount, h.retried, h.rdata⟩

/-- Settles O30: within the bound the transaction succeeds, beyond it it fails, and `Placed.settles` and `Placed.fails` say what the
command then does. -/
theorem waitIsRetriedWithinItsBound : Obligations.WaitIsRetriedWithinItsBound := by
  unfold Obligations.WaitIsRetriedWithinItsBound
  intro i s posted v before a after rest hi hw hd hsplit out
  have p : Placed i s posted v before a after := ⟨hi, hw, hd, hsplit⟩
  refine ⟨?_, ?_⟩
  · intro k hk as hin
    obtain ⟨t, e, ran, hok, hvalue, hlast, hload, hsess⟩ :=
      p.settles hin (.inl rfl) fun u hu => transact_settles_waited p.good (hu ▸ hk)
    exact ⟨t, e, ran, hok, hvalue, fun h => (hlast h).1, hload, hsess⟩
  · intro hin hbusy
    obtain ⟨t, e, ran, hok, hload, hsess, hcount⟩ :=
      p.fails hin hbusy (g := id) (fun _ => rfl) (X := fun w => w.dp.waitCount = s.cfg.waitRetryMax) fun u hu => by
        rw [← hu]
        exact transact_exhausted a.rq p.good.emitted u
    exact ⟨t, e, ran, hok, hcount, hload, hsess⟩

/-- Settles O31: the transaction succeeds by `transact_recovers`. -/
theorem oneFaultIsRecovered : Obligations.OneFaultIsRecovered := by
  unfold Obligations.OneFaultIsRecovered
  intro i s posted v before a after bad ctrl k0 k1 k2 k3 rest hi hw hd hsplit hbad hrq hk as hin
  have p : Placed i s posted v before a after := ⟨hi, hw, hd, hsplit⟩
  have has : as = before ++ (bad.waited k0 ++ (recovery ctrl k1 k2 ++ a.waited k3)) ++ after := by simp [as]
  rw [has] at hin ⊢
  obtain ⟨t, e, ran, hok, hvalue, hlast, hload, hsess⟩ := p.settles hin (.inr ⟨ctrl, rfl⟩) fun u hu =>
    (transact_recovers bad a hbad hrq p.good ctrl k0 k1 k2 k3 u (by rw [hu]; exact hk)).weaken
      fun _ _ ⟨hsess, hretried, hcount, hdata⟩ => ⟨hsess, hcount, hretried, hdata⟩
  exact ⟨t, e, ran, hok, hvalue, fun h => (hlast h).symm, hload, hsess⟩

/-! ### A second FAULT or protocol error, or WAIT beyond the bound (R147 to R149, R187) -/

/-- With the answers of `as` next, the command makes the accesses `as` and ends with the failure `cause`, its session else `ss`. -/
def FailsWith (i : Instr) (s : State) (rest : List Bool) (as : List Access) (cause : FailCause) (ss : Session) : Prop :=
  s.targetIn = answerBits as ++ rest →
    ∃ t, exec i s = .next t ∧ Ran (wireCycles s.cfg as) (targetAfter s.cfg as s.target) rest s t ∧ t.res.ok = false ∧
      t.load = s.load ∧ t.sess = { ss with
        failInfo := some (s.sess.failInfo.getD { step := s.seq.phase, cause := cause, addr := none }) }

/-- The transaction placed at `a` meets the FAULT or protocol error `bad` after `k` answers WAIT, outside a load operation. -/
structure BrokenAt (i : Instr) (s : State) (posted v : Word) (before : List Access) (a : Access) (after : List Access) (bad : Access)
    (k : Nat) : Prop extends Placed i s posted v before a after where
  notBusy : s.busy = false
  broken : bad.broken
  request : bad.rq = a.rq
  within : k ≤ s.cfg.waitRetryMax

section
variable {i : Instr} {s : State} {posted v : Word} {before after A : List Access} {a bad : Access} {rest : List Bool} {cause : FailCause}
  {ctrl : Word} {k0 k1 k2 : Nat}

theorem BrokenAt.emitted (p : BrokenAt i s posted v before a after bad k0) : bad.rq.isDpWriteC = false := by
  rw [p.request]
  exact p.good.emitted

/-- The end of the transaction is the end of the command. -/
theorem BrokenAt.fatal (p : BrokenAt i s posted v before a after bad k0) {g : Session → Session}
    (hg : ∀ ss, (g ss).failInfo = ss.failInfo)
    (H : ∀ u : State, u.cfg = s.cfg → Fails (transact bad.rq) (bad.waited k0 ++ A) u (Failed cause none (g u.sess) u)) :
    FailsWith i s rest (before ++ (bad.waited k0 ++ A)) cause (g (sessionBefore s.cfg s.op s.sess before)) := by
  intro hin
  obtain ⟨t, e, ran, hok, hload, hsess, -⟩ := p.fails hin p.notBusy hg (X := fun _ => True) fun u hu => by
    rw [← p.request]
    exact (H u hu).weaken fun _ f => ⟨f, trivial⟩
  exact ⟨t, e, ran, hok, hload, hsess⟩

/-- The recovery fails in its CTRL/STAT read. -/
theorem BrokenAt.inRead (p : BrokenAt i s posted v before a after bad k0)
    (H : ∀ u : State, u.cfg = s.cfg → Fails (recoveryStep (Request.readDp dpCtrlStat)) A u (Failed cause none u.sess u)) :
    FailsWith i s rest (before ++ bad.waited k0 ++ A) cause (sessionBefore s.cfg s.op s.sess before) := by
  rw [List.append_assoc]
  exact p.fatal (g := id) (fun _ => rfl) fun u hu => transact_recoveryFails (f := id) bad p.broken p.emitted k0 u (hu ▸ p.within)
    fun w hw => recover_readFails (H w (hw.trans hu))

/-- The recovery fails in its ABORT write. -/
theorem BrokenAt.inWrite (p : BrokenAt i s posted v before a after bad k0) (hk : k1 ≤ s.cfg.waitRetryMax)
    (H : ∀ u : State, u.cfg = s.cfg → Fails (recoveryStep (Request.writeDp dpAbort abortClear)) A u (Failed cause none u.sess u)) :
    FailsWith i s rest (before ++ bad.waited k0 ++ (Access.read (Request.readDp dpCtrlStat) ctrl).waited k1 ++ A) cause
      { sessionBefore s.cfg s.op s.sess before with lastCtrlStat := some ctrl } := by
  rw [List.append_assoc, List.append_assoc]
  exact p.fatal (g := fun ss => { ss with lastCtrlStat := some ctrl }) (fun _ => rfl) fun u hu =>
    transact_recoveryFails (f := fun ss => { ss with lastCtrlStat := some ctrl }) bad p.broken p.emitted k0 u (hu ▸ p.within) fun w hw =>
      recover_writeFails ctrl k1 w (by rw [hw, hu]; exact hk) fun x hx => H x (hx.trans (hw.trans hu))

/-- After the recovery, the re-issued transaction does not end in OK. -/
theorem BrokenAt.inRetry (p : BrokenAt i s posted v before a after bad k0) (hk1 : k1 ≤ s.cfg.waitRetryMax)
    (hk2 : k2 ≤ s.cfg.waitRetryMax) (last : Access) (n : Nat)
    (hl : last.outcome = .wait ∧ cause = .waitExhausted ∨ (last.outcome = .fault ∨ last.outcome = .proterr) ∧ cause = .faultRepeated)
    (H : ∀ u : State, u.cfg = s.cfg → Does (series a.rq) A u fun _ w => Exchanged last n u w) :
    FailsWith i s rest (before ++ bad.waited k0 ++ recovery ctrl k1 k2 ++ A) cause
      (recovered ctrl (sessionBefore s.cfg s.op s.sess before)) := by
  rw [List.append_assoc, List.append_assoc]
  refine p.fatal (g := recovered ctrl) (fun _ => rfl) fun u hu =>
    transact_retryFails bad last p.broken p.emitted ctrl k0 k1 k2 n u (by simp [hu, p.within, hk1, hk2]) hl fun w hw => ?_
  rw [p.request]
  exact H w (hw.trans hu)

end

/-- Settles O32: a FAULT or protocol error, or WAIT beyond the bound, in each of the three places where the transaction can still
fail. -/
theorem secondFaultIsFatal : Obligations.SecondFaultIsFatal := by
  unfold Obligations.SecondFaultIsFatal
  intro i s posted v before a after bad bad2 ctrl k0 k1 k2 k3 rest hi hw hd hbusy hsplit hbad hrq hbad2 hk
  simp only [List.mem_cons, List.not_mem_nil, or_false, forall_eq_or_imp, forall_eq] at hk
  obtain ⟨hk0, hk1, hk2, hk3⟩ := hk
  have p : BrokenAt i s posted v before a after bad k0 := ⟨⟨hi, hw, hd, hsplit⟩, hbusy, hbad, hrq, hk0⟩
  refine ⟨fun h => p.inRead fun u hu => ?_, p.inRead fun u hu => ?_, fun h => p.inWrite hk1 fun u hu => ?_,
    p.inWrite hk1 fun u hu => ?_, fun h => p.inRetry hk1 hk2 bad2 k3 (.inr ⟨hbad2.2, rfl⟩) fun u hu => ?_,
    p.inRetry hk1 hk2 (Access.waiting a.rq) s.cfg.waitRetryMax (.inl ⟨waiting_outcome _, rfl⟩) fun u hu => ?_⟩
  · rw [← h]
    exact recoveryStep_fails bad2 hbad2 (by rw [h]; rfl) k1 u (hu ▸ hk1)
  · rw [← hu]
    exact recoveryStep_exhausted _ rfl u
  · rw [show Request.writeDp dpAbort abortClear = bad2.rq from h.symm]
    exact recoveryStep_fails bad2 hbad2 (by rw [h]; rfl) k2 u (hu ▸ hk2)
  · rw [← hu]
    exact recoveryStep_exhausted _ rfl u
  · rw [← h]
    exact broken_series bad2 hbad2 (by rw [h]; exact p.good.emitted) k3 u (hu ▸ hk3)
  · rw [← hu]
    exact series_waitedOut a.rq p.good.emitted u

/-! ## Polls that time out (R159, R168, R169) -/

theorem afterMem_failInfo (cfg : Config) (ss : Session) : (afterMem cfg ss).failInfo = ss.failInfo := by
  unfold afterMem withCsw
  split <;> rfl

theorem and_sRegRdy_iff (v : Word) : v &&& sRegRdy = sRegRdy ↔ v.getLsbD 16 = true := by
  rw [show sRegRdy = BitVec.twoPow 32 16 by decide, BitVec.and_twoPow]
  cases v.getLsbD 16 <;> decide

/-- Settles O38, by the failures `halt_timeout` and `setReg_timeout`. -/
theorem controlPollsTimeOut : Obligations.ControlPollsTimeOut := by
  unfold Obligations.ControlPollsTimeOut
  intro s reads rest hd hbusy
  refine ⟨?_, ?_⟩ <;> intro hearly hbound as hin
  · obtain ⟨t, e, ran, f⟩ := halt_timeout reads s (fun r hr => by rw [Ne, and_sHalt_iff, hearly r hr]; decide) hbound rest hd hin
    obtain ⟨hsess, hok, hload, -⟩ := failed_weaken f
    exact ⟨t, finish_failed e, ran, hok, by rw [hload, hbusy]; rfl, by rw [hsess, afterMem_failInfo]⟩
  · obtain ⟨t, e, ran, f⟩ := setReg_timeout s.op.regId s.op.value reads s
      (fun r hr => by rw [Ne, and_sRegRdy_iff, hearly r hr]; decide) hbound rest hd hin
    obtain ⟨hsess, hok, hload, -⟩ := failed_weaken f
    exact ⟨t, finish_failed e, ran, hok, by rw [hload, hbusy]; rfl, by rw [hsess, afterMem_failInfo]⟩

end Sys2Proof.Machine
end

section
/-! SUPPORT. The frames of the register commands (O52), of the memory helpers and of Target Control (O53), whatever the target answers:
what they leave of the engine's own state (`Framed`), and of the target by the transactions (`RequestOf`) and the stores (`StoresAt`)
that each of them makes. -/

namespace Sys2Proof.Machine

/-! ## The engine's own state -/

/-- What a command may write of the session besides `stickyCleared`, `lastCtrlStat` and `failInfo`. -/
structure Writes where
  /-- The bank cache (R150, R152). -/
  bank : Prop
  /-- `cswConfigured` and `tarValid`, and the poll count (R156 to R159). -/
  memory : Prop
  /-- `halted` (R168, R170). -/
  halted : Prop

/-- The state `s` differs from `s0` in the session by what `w` allows; the position is `q`, and `LINK_READ`'s bits are as before. -/
structure Framed (w : Writes) (q : Sequencer) (s0 s : State) : Prop where
  seq : s.seq = q
  bits : s.res.bits = s0.res.bits
  conn : s.sess.conn = s0.sess.conn
  nextAddr : s.sess.nextAddr = s0.sess.nextAddr
  burst : s.sess.burstCount = s0.sess.burstCount
  bank : ¬w.bank → s.sess.selValid = s0.sess.selValid ∧ s.sess.selCache = s0.sess.selCache
  csw : ¬w.memory → s.sess.cswConfigured = s0.sess.cswConfigured
  tar : ¬w.memory → s.sess.tarValid = s0.sess.tarValid
  polls : ¬w.memory → s.dp.pollCount = s0.dp.pollCount
  halted : ¬w.halted → s.sess.halted = s0.sess.halted

/-- An operation that keeps the frame, also where it raises a failure. -/
abbrev KeepsFrame {α : Type} (w : Writes) (q : Sequencer) (s0 : State) (m : Engine α) : Prop :=
  Keeps True (Framed w q s0) (Framed w q s0) m

/-- A state with another step entered. -/
theorem framed_setPhase (w : Writes) (p : Phase) (s : State) : Framed w { s.seq with phase := p } s (setPhase p s) :=
  ⟨rfl, rfl, rfl, rfl, rfl, fun _ => ⟨rfl, rfl⟩, fun _ => rfl, fun _ => rfl, fun _ => rfl, fun _ => rfl⟩

theorem framed_refl (w : Writes) (s : State) : Framed w s.seq s s := framed_setPhase w s.seq.phase s

section
variable {w : Writes} {q : Sequencer} {s0 : State}

theorem Framed.exchange {s : State} (h : Framed w q s0 s) (rq : Request) : Framed w q s0 (exchange rq s) := by
  obtain ⟨-, -, hsess, -, hseq, -, -, hbits, -, -, hpolls⟩ := exchange_frame rq s
  constructor
  case seq => exact hseq.trans h.seq
  case bits => exact hbits.trans h.bits
  case polls => exact fun hm => hpolls.trans (h.polls hm)
  all_goals rw [hsess]
  exacts [h.conn, h.nextAddr, h.burst, h.bank, h.csw, h.tar, h.halted]

theorem framed_access : AccessStable True (fun _ => True) (Framed w q s0) (Framed w q s0) where
  exchange := fun rq _ => keeps_xfer (.inr trivial) (fun _ _ _ => trivial) fun _ h _ => h.exchange rq
  recoverReads := trivial
  recoverWrites := trivial
  waitCount := fun _ _ _ h => { h with }
  retried := fun _ _ h => { h with }
  inspected := fun _ _ h => { h with }
  sticky := fun _ h => { h with }
  result := fun _ _ _ h => { h with }
  failed := fun _ _ _ h => { h with }

theorem Framed.cacheSelect {s : State} (h : Framed w q s0 s) (hb : w.bank) (v : Word) : Framed w q s0 (cacheSelect v s) :=
  { h with bank := fun hn => absurd hb hn }

theorem framed_ap (hb : w.bank) : ApStable True (fun _ => True) (Framed w q s0) (Framed w q s0) :=
  { framed_access with bankCheck := keeps_bankCheck framed_access (fun _ => trivial) fun _ v h => h.cacheSelect hb v }

/-! ### Register commands (R151 to R155) -/

theorem framed_rdDp (addr : BitVec 8) : KeepsFrame w q s0 (rdDp addr) :=
  keeps_rdDp framed_access (.inr trivial) trivial

theorem framed_wrDp {addr : BitVec 8} (hb : addr = 0x8 → w.bank) (v : Word) : KeepsFrame w q s0 (wrDp addr v) :=
  keeps_wrDp framed_access (.inr trivial) trivial fun s h => by
    unfold afterWrDp
    split
    · exact h.cacheSelect (hb ‹_›) v
    · split
      · exact { h with }
      · exact h

theorem framed_rdAp (hb : w.bank) (addr : BitVec 8) : KeepsFrame w q s0 (rdAp addr) :=
  keeps_rdAp (framed_ap hb) (.inr trivial) trivial trivial

theorem framed_wrAp (hb : w.bank) (addr : BitVec 8) (v : Word) : KeepsFrame w q s0 (wrAp addr v) :=
  keeps_wrAp (framed_ap hb) (.inr trivial) trivial

/-! ### Memory helpers and Target Control (R156 to R159, R168 to R170) -/

theorem Framed.forgetTar {s : State} (h : Framed w q s0 s) (hm : w.memory) : Framed w q s0 (forgetTar s) :=
  { h with tar := fun hn => absurd hm hn }

theorem framed_ensureCsw (hb : w.bank) (hm : w.memory) : KeepsFrame w q s0 ensureCsw :=
  keeps_ensureCsw (framed_wrAp hb apCsw) fun _ h => { h with csw := fun hn => absurd hm hn }

theorem framed_memWr32 (hb : w.bank) (hm : w.memory) (a : Addr32) (v : Word) : KeepsFrame w q s0 (memWr32 a v) :=
  keeps_memWr32 (.inr trivial) (framed_ensureCsw hb hm) (framed_wrAp hb _ _) (framed_wrAp hb _ _) fun _ h => h.forgetTar hm

theorem framed_memRd32 (hb : w.bank) (hm : w.memory) (a : Addr32) : KeepsFrame w q s0 (memRd32 a) :=
  keeps_memRd32 (.inr trivial) (framed_ensureCsw hb hm) (framed_wrAp hb _ _) (framed_rdAp hb _) (fun _ _ _ h => { h with })
    fun _ h => h.forgetTar hm

theorem framed_pollDhcsr (hb : w.bank) (hm : w.memory) (mask : Word) (n : Nat) :
    KeepsFrame w q s0 (poll (memRd32 dhcsrAddr) mask n) :=
  keeps_poll (framed_memRd32 hb hm dhcsrAddr) (fun _ _ h => { h with polls := fun hn => absurd hm hn }) mask n

theorem framed_setOk (ok : Bool) : KeepsFrame w q s0 (modify (setOk ok)) := keeps_modify fun _ h => { h with }

theorem framed_setHalted (hh : w.halted) (b : Bool) : KeepsFrame w q s0 (modify (setHalted b)) :=
  keeps_modify fun _ h => { h with halted := fun hn => absurd hh hn }

theorem framed_raiseFail {α : Type} (c : FailCause) (a : Option Addr32) : KeepsFrame w q s0 (raiseFail c a : Engine α) :=
  keeps_raiseFail fun _ h => { h with }

theorem framed_awaitRegRdy (hb : w.bank) (hm : w.memory) : KeepsFrame w q s0 awaitRegRdy :=
  keeps_getBind fun _ => (framed_pollDhcsr hb hm _ _).bind fun _ =>
    keeps_ite (fun _ => framed_raiseFail _ _) fun _ => keeps_pure _

end

section
variable {w : Writes}

/-- From `s` on, an operation leaves the frame, with step `p` entered. -/
abbrev FramesFrom (w : Writes) (p : Phase) (s : State) (m : Engine Unit) : Prop :=
  Ends True (· = s) m (fun _ => Framed w { s.seq with phase := p } s) (Framed w { s.seq with phase := p } s)

theorem KeepsFrame.from_refl {s : State} {m : Engine Unit} (h : KeepsFrame w s.seq s m) : FramesFrom w s.seq.phase s m :=
  h.weaken (fun _ hu => hu ▸ framed_refl w s) (fun _ _ h => h) fun _ h => h

/-- A command of Target Control begins by entering its step (R44). -/
theorem KeepsFrame.entering {s : State} {p : Phase} {k : Unit → Engine Unit} (h : KeepsFrame w { s.seq with phase := p } s (k ())) :
    FramesFrom w p s ((modify (setPhase p) : Engine Unit) >>= k) :=
  Ends.bind (Q := fun _ => Framed w { s.seq with phase := p } s) (ends_modify fun _ hu => hu ▸ framed_setPhase w p s) fun _ => h

theorem framed_halt (hb : w.bank) (hm : w.memory) (hh : w.halted) (s : State) : FramesFrom w .halt s halt := by
  refine KeepsFrame.entering ((framed_memWr32 hb hm _ _).bind fun _ => keeps_getBind fun _ => (framed_pollDhcsr hb hm _ _).bind fun r => ?_)
  have rest : KeepsFrame w { s.seq with phase := .halt } s (do modify (setHalted true); modify (setOk true)) :=
    (framed_setHalted hh true).bind fun _ => framed_setOk true
  exact keeps_ite (fun _ => Ends.bind (framed_raiseFail _ _) fun (_ : PUnit) => rest) fun _ => rest

theorem framed_setReg (hb : w.bank) (hm : w.memory) (r : BitVec 5) (v : Word) (s : State) :
    FramesFrom w (setRegPhase r) s (setReg r v) := by
  refine KeepsFrame.entering (keeps_getBind fun u => ?_)
  cases u.cfg.setRegOrder with
  | selectThenData =>
    exact (framed_memWr32 hb hm _ _).bind fun _ => (framed_awaitRegRdy hb hm).bind fun _ =>
      (framed_memWr32 hb hm _ _).bind fun _ => framed_setOk true
  | dataThenSelect =>
    exact (framed_memWr32 hb hm _ _).bind fun _ => (framed_memWr32 hb hm _ _).bind fun _ =>
      (framed_awaitRegRdy hb hm).bind fun _ => framed_setOk true

theorem framed_resume (hb : w.bank) (hm : w.memory) (hh : w.halted) (s : State) : FramesFrom w .resume s resume :=
  KeepsFrame.entering ((framed_memWr32 hb hm _ _).bind fun _ => (framed_setHalted hh false).bind fun _ => framed_setOk true)

end

/-- What a register command may write: the bank cache, unless it is a DP access away from SELECT. -/
def registerWrites (op : Operands) (i : Instr) : Writes :=
  { bank := ¬(i = .rdDp ∨ i = .wrDp ∧ op.addr ≠ 0x8), memory := False, halted := False }

theorem exec_framed {w : Writes} {p : Phase} {i : Instr} {s t : State} (h : FramesFrom w p s (Instr.operation s i))
    (he : exec i s = .next t) : Framed w { s.seq with phase := p } s t :=
  (finish_next h rfl (by rwa [← exec_eq_finish])).elim id id

theorem registerCommand_framed {i : Instr} {s t : State} (hi : i ∈ [Instr.rdDp, .wrDp, .rdAp, .wrAp]) (he : exec i s = .next t) :
    Framed (registerWrites s.op i) s.seq s t := by
  refine exec_framed (KeepsFrame.from_refl ?_) he
  simp only [List.mem_cons, List.not_mem_nil, or_false] at hi
  obtain rfl | rfl | rfl | rfl := hi
  · exact framed_rdDp _
  · exact framed_wrDp (fun h => by simp [registerWrites, h]) _
  · exact framed_rdAp (by simp [registerWrites]) _
  · exact framed_wrAp (by simp [registerWrites]) _ _

/-- What a memory helper or a command of Target Control may write: `halted` only in `HALT` and `RESUME`. -/
def memoryWrites (i : Instr) : Writes := { bank := True, memory := True, halted := i = .halt ∨ i = .resume }

theorem memoryCommand_framed {i : Instr} {s t : State} (hi : i ∈ [Instr.memWr32, .memRd32, .halt, .setReg, .resume])
    (he : exec i s = .next t) : Framed (memoryWrites i) { s.seq with phase := phaseOf s.op s.seq.phase i } s t := by
  refine exec_framed ?_ he
  simp only [List.mem_cons, List.not_mem_nil, or_false] at hi
  obtain rfl | rfl | rfl | rfl | rfl := hi
  · exact KeepsFrame.from_refl (framed_memWr32 trivial trivial _ _)
  · exact KeepsFrame.from_refl (framed_memRd32 trivial trivial _)
  · exact framed_halt trivial trivial (Or.inl rfl) s
  · exact framed_setReg trivial trivial _ _ s
  · exact framed_resume trivial trivial (Or.inr rfl) s

/-! ## The target under a register command -/

/-- The transactions that a register command makes besides those of a recovery (R150 to R155). -/
inductive RequestOf (op : Operands) : Instr → Request → Prop where
  | rdDp : RequestOf op .rdDp (Request.readDp (regOffset op.addr))
  | wrDp (h : dpWriteAddrOk op.addr = true) : RequestOf op .wrDp (Request.writeDp (regOffset op.addr) op.value)
  | rdApBank (v : Word) : RequestOf op .rdAp (Request.writeDp dpSelect v)
  | rdApPosted : RequestOf op .rdAp (Request.readAp (regOffset op.addr))
  | rdApResult : RequestOf op .rdAp (Request.readDp dpRdbuff)
  | wrApBank (v : Word) : RequestOf op .wrAp (Request.writeDp dpSelect v)
  | wrAp : RequestOf op .wrAp (Request.writeAp (regOffset op.addr) op.value)

/-- A register command keeps what each of its transactions keeps. -/
theorem registerCommand_target {Q : Request → Prop} {T : Target → Prop} (h : TargetStable Q T) {i : Instr} {s t : State}
    (hi : i ∈ [Instr.rdDp, .wrDp, .rdAp, .wrAp]) (hq : ∀ rq, RequestOf s.op i rq → Q rq) (hs : T s.target) (he : exec i s = .next t) :
    T t.target := by
  have run : Keeps True (OfTarget T) (OfTarget T) (Instr.operation s i) → T t.target := fun k =>
    (finish_next k hs (by rwa [← exec_eq_finish])).elim id id
  simp only [List.mem_cons, List.not_mem_nil, or_false] at hi
  obtain rfl | rfl | rfl | rfl := hi
  · exact run (h.rdDp (hq _ .rdDp))
  · cases hw : dpWriteAddrOk s.op.addr with
    | true => exact run (h.wrDp (hq _ (.wrDp hw)))
    | false =>
      rw [exec_wrDp_badAddr hw] at he
      cases he
  · exact run (h.rdAp (fun v => hq _ (.rdApBank v)) (hq _ .rdApPosted) (hq _ .rdApResult))
  · exact run (h.wrAp (fun v => hq _ (.wrApBank v)) (hq _ .wrAp))

theorem regOffset_ne_two {addr : BitVec 8} (h : dpWriteAddrOk addr = true) (h8 : addr ≠ 0x8) : regOffset addr ≠ 2 := by
  obtain rfl | rfl | rfl := dpWriteAddrOk_cases h
  · decide
  · decide
  · exact absurd rfl h8

section
variable {op : Operands} {i : Instr} {rq : Request}

/-- SELECT is written by the bank check and by `WR_DP` at 0x8 alone. -/
theorem RequestOf.not_selectWrite (h : RequestOf op i rq) (hi : i = .rdDp ∨ i = .wrDp ∧ op.addr ≠ 0x8) :
    ¬(rq.apndp = false ∧ rq.rnw = false ∧ rq.a = 2) := by
  cases h with
  | rdDp => simp [Request.readDp]
  | wrDp hok => exact fun ⟨_, _, ha⟩ => regOffset_ne_two hok (hi.resolve_left (by decide)).2 ha
  | _ => simp at hi

/-- IDCODE is read by `RD_DP` alone. -/
theorem RequestOf.not_idcodeRead (h : RequestOf op i rq) (hi : i ≠ .rdDp) : ¬(rq.apndp = false ∧ rq.rnw = true ∧ rq.a = 0) := by
  cases h with
  | rdDp => exact absurd rfl hi
  | rdApResult => decide
  | rdApPosted => simp [Request.readAp]
  | wrAp => simp [Request.writeAp]
  | wrDp | rdApBank | wrApBank => simp [Request.writeDp]

/-- RDBUFF is read by `RD_AP`, and by `RD_DP` at its offset; DRW is written by `WR_AP` at its offset. -/
theorem RequestOf.not_statusAccess (h : RequestOf op i rq) (hi : i = .wrDp ∨ i ≠ .rdAp ∧ regOffset op.addr ≠ 3) :
    ¬(rq.a = 3 ∧ rq.apndp ≠ rq.rnw) := by
  cases h with
  | rdDp | wrAp => exact fun ⟨ha, _⟩ => (hi.resolve_left (by decide)).2 ha
  | wrDp | wrApBank => simp [Request.writeDp]
  | _ => simp at hi

/-- CSW is written by `WR_AP` at its offset alone. -/
theorem RequestOf.not_cswWrite (h : RequestOf op i rq) (hi : i ≠ .wrAp ∨ regOffset op.addr ≠ 0) :
    ¬(rq.apndp = true ∧ rq.rnw = false ∧ rq.a = 0) := by
  cases h with
  | wrAp => exact fun ⟨_, _, ha⟩ => hi.elim (absurd rfl) (absurd ha)
  | rdApPosted => simp [Request.readAp]
  | rdDp | rdApResult => simp [Request.readDp]
  | wrDp | rdApBank | wrApBank => simp [Request.writeDp]

/-- DRW is written by `WR_AP` at its offset alone. -/
theorem RequestOf.not_drwWrite (h : RequestOf op i rq) (hi : i ≠ .wrAp ∨ regOffset op.addr ≠ 3) :
    ¬(rq.apndp = true ∧ rq.rnw = false ∧ rq.a = 3) := by
  cases h with
  | wrAp => exact fun ⟨_, _, ha⟩ => hi.elim (absurd rfl) (absurd ha)
  | rdApPosted => simp [Request.readAp]
  | rdDp | rdApResult => simp [Request.readDp]
  | wrDp | rdApBank | wrApBank => simp [Request.writeDp]

/-- TAR is written by `WR_AP` at its offset, and advances with an AP access at the offset of DRW. -/
theorem RequestOf.not_tarMove (h : RequestOf op i rq) (hi : i = .rdDp ∨ i = .wrDp ∨ (i = .rdAp ∧ regOffset op.addr ≠ 3) ∨
    (i = .wrAp ∧ regOffset op.addr ≠ 1 ∧ regOffset op.addr ≠ 3)) : ¬(rq.apndp = true ∧ (rq.a = 3 ∨ rq.rnw = false ∧ rq.a = 1)) := by
  cases h with
  | rdApPosted => simpa [Request.readAp] using hi
  | wrAp => simpa [Request.writeAp, and_comm] using hi
  | rdDp | rdApResult => simp [Request.readDp]
  | wrDp | rdApBank | wrApBank => simp [Request.writeDp]

end

/-- Memory and TAR are as in `u`. -/
def NotStored (u : Target) : View := fun _ _ t => t.mem = u.mem ∧ t.tar = u.tar

/-- At most the word at the address in TAR of `u` is stored. -/
def StoredAtTar (u : Target) : View := fun _ _ t => SameBytesBut u.tar u.mem t.mem

theorem NotStored.unstored {u t : Target} {c : Config} {ss : Session} (h : NotStored u c ss t) (ss' : Session) :
    StoredAtTar u c ss' t := fun b _ => congrArg (readByte · b) h.1

theorem robust_notStored (u : Target) : Robust (NotStored u) (StoredAtTar u) where
  target := fun _ _ _ _ _ h => h
  session := fun _ _ _ _ _ h => h
  failed := fun _ _ _ _ h => h.unstored _

theorem NotStored.drwWrite {u t : Target} {c : Config} {ss : Session} (h : NotStored u c ss t) (v : Word) :
    StoredAtTar u c ss (targetWrite c true 3 v t) := by
  obtain ⟨hmem, htar⟩ := h
  intro b hb
  rw [← hmem]
  obtain ⟨-, hn⟩ | ⟨-, x, d, hx⟩ := targetWrite_stores c (Request.writeAp 3 v) t rfl
  · exact hn.1.bytes b
  · rw [show targetWrite c true 3 v t = _ from hx, (core_advanceTar _ _).mem]
    exact mem_storeTarget t.tar x { t with draws := d } b (htar ▸ hb)

/-- A DRW write through `WR_AP` stores at TAR, in the one exchange that is acknowledged OK. -/
theorem wrAp_stores {s t : State} (ho : regOffset s.op.addr = 3) (he : exec .wrAp s = .next t) :
    SameBytesBut s.target.tar s.target.mem t.target.mem := by
  have run := ends_wrAp (robust_notStored s.target) (robust_notStored s.target) s.op.addr s.op.value (R := StoredAtTar s.target)
    (fun _ _ _ h _ _ => h) (fun _ _ _ h _ => h) (fun _ _ _ h => by rw [ho]; exact h.drwWrite _)
  exact (finish_next run ⟨rfl, rfl⟩ he).elim id id

/-- Settles O52: the engine's own state by `registerCommand_framed`, each target register by the transactions that write it. -/
theorem registerCommandFrame : Obligations.RegisterCommandFrame := by
  unfold Obligations.RegisterCommandFrame
  intro i s t hi hbusy he
  have hne : i ≠ .load := by rintro rfl; simp at hi
  obtain ⟨hload, hb⟩ := exec_outsideLoad hne hbusy he
  have f := registerCommand_framed hi he
  have keeps : ∀ {Q : Request → Prop} {T : Target → Prop}, TargetStable Q T → (∀ rq, RequestOf s.op i rq → Q rq) → T s.target →
      T t.target := fun h hq hs => registerCommand_target h hi hq hs he
  refine ⟨hload, hb.trans hbusy.symm, f.seq, f.bits, f.polls id, ?_, fun hdp => ?_,
    fun hrd => keeps (targetStable_idcode _) (fun _ hr => hr.not_idcodeRead hrd) rfl,
    fun hst => keeps (targetStable_status _) (fun _ hr => hr.not_statusAccess hst) rfl,
    fun hcsw => keeps (targetStable_csw _) (fun _ hr => hr.not_cswWrite hcsw) rfl,
    fun htar => keeps (targetStable_tar _) (fun _ hr => hr.not_tarMove htar) rfl, ?_, fun hstore => ?_⟩
  · dsimp only
    rw [← f.csw id, ← f.tar id, ← f.halted id, ← f.nextAddr, ← f.burst, ← f.conn]
  · obtain ⟨hvalid, hcache⟩ := f.bank (not_not_intro hdp)
    exact ⟨hvalid, hcache, keeps (targetStable_select _) (fun _ hr => hr.not_selectWrite hdp) rfl⟩
  · rintro rfl ho
    exact wrAp_stores ho he
  · have hs := keeps (targetStable_core _) (fun _ hr => hr.not_drwWrite hstore) (sameStore_refl _)
    exact ⟨hs.bytes, hs.2⟩

/-! ## The target under a memory helper or a command of Target Control -/

/-- Where the stores of a memory helper or of a command of Target Control go. -/
def StoresAt (op : Operands) : Instr → Addr32 → Prop
  | .memWr32, a => a = op.value
  | .halt, a => a = dhcsrAddr
  | .setReg, a => a = dcrsrAddr ∨ a = dcrdrAddr
  | .resume, a => a = dhcsrAddr
  | _, _ => False

/-- A property of the core that every store at an address keeps survives a word write there, whatever word it stores, if any. -/
theorem Stored.keeps {K : Prop} {T : Target → Prop} {a : Addr32} {v : Word} {u t : Target} (h : Stored K a v u t) (hc : CoreOnly T)
    (hs : ∀ x y, T y → T (storeTarget a x y)) (hu : T u) : T t := by
  obtain ⟨t1, ⟨h1, -⟩, ⟨x, -, h2, -⟩ | ⟨-, h2, -⟩⟩ := h
  · exact hc _ _ (hs x _ (hc _ _ hu h1)) h2
  · exact hc _ _ (hc _ _ hu h1) h2

/-- A memory helper or a command of Target Control keeps a property of the core that its stores keep. -/
theorem memoryCommand_target {T : Target → Prop} (hc : CoreOnly T) {i : Instr} {s t : State}
    (hi : i ∈ [Instr.memWr32, .memRd32, .halt, .setReg, .resume]) (hs : ∀ a, StoresAt s.op i a → ∀ x u, T u → T (storeTarget a x u))
    (hT : T s.target) (he : exec i s = .next t) : T t.target := by
  have run : Keeps True (Holds (Exactly False s.cfg T)) (Holds (Exactly False s.cfg T)) (Instr.operation s i) → T t.target := fun k =>
    ((finish_next k (⟨rfl, False.elim, hT⟩ : Exactly False s.cfg T s.cfg s.sess s.target) (by rwa [← exec_eq_finish])).elim id id).target
  have store : ∀ {a v}, StoresAt s.op i a → ∀ u t, T u → Stored False a v u t → T t := fun ha _ _ hu h => h.keeps hc (hs _ ha) hu
  simp only [List.mem_cons, List.not_mem_nil, or_false] at hi
  obtain rfl | rfl | rfl | rfl | rfl := hi
  · exact run (ends_memWr32_of False.elim (store rfl) hc)
  · exact run (keeps_memRd32_of False.elim hc)
  · exact run (ends_halt_of False.elim hc (store rfl) (fun _ h => h.elim id id) hc)
  · exact run (ends_setReg_of (W1 := T) False.elim _ (fun _ => hc) hc (fun _ => ⟨store (.inl rfl), store (.inr rfl)⟩)
      (fun _ => ⟨store (.inr rfl), store (.inl rfl)⟩) fun _ _ h => hc _ _ (h.elim id fun h => h.elim id id))
  · exact run (ends_resume_of False.elim (store rfl) (fun _ h => h) hc)

/-! ### What one store leaves -/

theorem writeDcrsr_frame (v : Word) (t : Target) :
    (writeDcrsr v t).idcode = t.idcode ∧ (writeDcrsr v t).dhcsr = t.dhcsr ∧ (writeDcrsr v t).mem = t.mem := by
  unfold writeDcrsr
  dsimp only
  split
  · split <;> exact ⟨rfl, rfl, rfl⟩
  · exact ⟨rfl, rfl, rfl⟩

theorem storeTarget_dhcsrAddr (v : Word) (t : Target) : storeTarget dhcsrAddr v t = writeDhcsr v t := if_pos rfl

/-- A store changes neither the identification nor, away from DHCSR, its control bits, nor, at a core debug register, memory. -/
theorem storeTarget_leaves (a : Addr32) (v : Word) (t : Target) : (storeTarget a v t).idcode = t.idcode ∧
    (a ≠ dhcsrAddr → (storeTarget a v t).dhcsr = t.dhcsr) ∧ (isDebugAddr a → (storeTarget a v t).mem = t.mem) := by
  by_cases h1 : a = dhcsrAddr
  · rw [h1, storeTarget_dhcsrAddr]
    exact ⟨writeDhcsr_idcode v t, fun h => absurd rfl h, fun _ => writeDhcsr_mem v t⟩
  · unfold storeTarget
    rw [if_neg h1]
    split
    · obtain ⟨hid, hdhcsr, hmem⟩ := writeDcrsr_frame v t
      exact ⟨hid, fun _ => hdhcsr, fun _ => hmem⟩
    · split
      · exact ⟨rfl, fun _ => rfl, fun _ => rfl⟩
      · exact ⟨rfl, fun _ => rfl, fun h => by simp_all [isDebugAddr]⟩

theorem storesAt_debug {op : Operands} {i : Instr} {a : Addr32} (h : StoresAt op i a) (hi : i ≠ .memWr32) : isDebugAddr a := by
  cases i
  case memWr32 => exact absurd rfl hi
  case halt | resume => exact .inl h
  case setReg => exact .inr h
  all_goals exact h.elim

/-- Settles O53: the engine's own state by `memoryCommand_framed`, the target by the stores of each command. -/
theorem memoryCommandFrame : Obligations.MemoryCommandFrame := by
  unfold Obligations.MemoryCommandFrame
  intro i s t hi hbusy he
  have hne : i ≠ .load := by rintro rfl; simp at hi
  obtain ⟨hload, hb⟩ := exec_outsideLoad hne hbusy he
  have f := memoryCommand_framed hi he
  have keeps : ∀ {T : Target → Prop}, CoreOnly T → (∀ a, StoresAt s.op i a → ∀ x u, T u → T (storeTarget a x u)) → T s.target →
      T t.target := fun hc hs hT => memoryCommand_target hc hi hs hT he
  refine ⟨hload, hb.trans hbusy.symm, f.bits, f.seq, ?_, fun h1 h2 => f.halted (not_or.2 ⟨h1, h2⟩), ?_, fun h => ?_, fun h => ?_,
    fun h => ?_, fun h => ?_, fun h => ?_⟩
  · dsimp only
    rw [← f.nextAddr, ← f.burst, ← f.conn]
  · exact keeps (T := fun u => u.idcode = s.target.idcode) (fun _ _ h k => k.idcode.trans h)
      (fun a _ x u h => (storeTarget_leaves a x u).1.trans h) rfl
  · refine keeps (T := fun u => SameBytesBut s.op.value s.target.mem u.mem)
      (fun _ _ h k b hb => (congrArg (readByte · b) k.mem).trans (h b hb))
      (fun a ha x u h' b hb => ?_) fun _ _ => rfl
    subst h
    obtain rfl : a = s.op.value := ha
    exact (mem_storeTarget _ x u b hb).trans (h' b hb)
  · have hmem := keeps (T := fun u => u.mem = s.target.mem) (fun _ _ h k => k.mem.trans h)
      (fun a ha x u h' => ((storeTarget_leaves a x u).2.2 (storesAt_debug ha h)).trans h') rfl
    exact fun b => by rw [hmem]
  · refine keeps (T := SameCoreRegs s.target) (fun _ _ h k => h.trans k.sameCoreRegs) (fun a ha x u h' => ?_) ⟨rfl, rfl, rfl, rfl⟩
    obtain rfl | ⟨rfl, hn⟩ := h
    · exact ha.elim
    · obtain rfl : a = s.op.value := ha
      rw [storeTarget_mem _ _ _ (notin hn)]
      exact h'
  · refine keeps (T := fun u => u.dcrsr = s.target.dcrsr ∧ u.dcrdr = s.target.dcrdr ∧ u.coreRegs = s.target.coreRegs)
      (fun _ _ h k => ⟨k.dcrsr.trans h.1, k.dcrdr.trans h.2.1, k.regs.trans h.2.2⟩) (fun a ha x u h' => ?_) ⟨rfl, rfl, rfl⟩
    obtain rfl : a = dhcsrAddr := by obtain rfl | rfl := h <;> exact ha
    simpa [storeTarget_dhcsrAddr] using h'
  · refine keeps (T := fun u => u.dhcsr = s.target.dhcsr) (fun _ _ h k => k.dhcsr.trans h) (fun a ha x u h' => ?_) rfl
    subst h
    have hd : a ≠ dhcsrAddr := by obtain rfl | rfl := ha <;> decide
    exact ((storeTarget_leaves a x u).2.1 hd).trans h'

end Sys2Proof.Machine
end

section
/-! SUPPORT. `CONNECT` answered OK or stopped at one of its steps, and its frame (O33, O34, O55), `SET_REG` and `RESUME` answered OK
(O36, O37), and what a `SET_REG` or a load operation that succeeds leaves in the core (O40, O47). -/

namespace Sys2Proof.Machine

/-! ## `CONNECT` (R161 to R167) -/

/-- Settles O33, by the run `connect_does` of the connection sequence. -/
theorem connectReachesReady : Obligations.ConnectReachesReady := by
  unfold Obligations.ConnectReachesReady
  intro s id early last rest hd hid hearly hlast hbound as hin
  obtain ⟨t, e, ran, hsess, hok, hload, hbusy, hphase⟩ := connect_does id early last s rest hd hin hid hearly hlast hbound
  exact ⟨t, finish_ok e, ran, hsess, hok, hload, hbusy, hphase⟩

/-- Settles O34, by the failures `connect_idMismatch` of IdCheck and `connect_powerTimeout` of PowerUp. -/
theorem connectFailsAtItsStep : Obligations.ConnectFailsAtItsStep := by
  unfold Obligations.ConnectFailsAtItsStep
  intro s id reads rest hd hbusy
  refine ⟨?_, ?_⟩
  · intro hid as hin
    obtain ⟨t, e, ran, hsess, hok, hload, -⟩ := connect_idMismatch id s rest hd (by simpa [as] using hin) hid
    refine ⟨t, finish_failed e, ?_, by rw [hsess], by rw [hsess], hok, by rw [hload, hbusy]; rfl⟩
    simpa [as] using ran
  · intro hid hreads hbound as hin
    obtain ⟨t, e, ran, hsess, hok, hload, -⟩ := connect_powerTimeout id reads s rest hd hin hid hreads hbound
    exact ⟨t, finish_failed e, ran, by rw [hsess], by rw [hsess], hok, by rw [hload, hbusy]; rfl⟩

/-! ### The frame of `CONNECT`, whatever the target answers -/

/-- `u` differs from `t` at most in the registers of the debug port that `CONNECT` accesses, and in the count of free values. -/
def SameButDp (t u : Target) : Prop := u = { t with idcode := u.idcode, ctrlStat := u.ctrlStat, draws := u.draws }

theorem SameButDp.trans {t u v : Target} (h : SameButDp t u) (k : SameButDp u v) : SameButDp t v :=
  Eq.trans k (by rw [h])

/-- A transaction with IDCODE or ABORT (offset 0) or with CTRL/STAT (offset 1), of which `CONNECT` consists. -/
def OfConnect (rq : Request) : Prop := rq.apndp = false ∧ (rq.a = 0 ∨ rq.a = 1)

theorem exchange_sameButDp {rq : Request} (h : OfConnect rq) (s : State) : SameButDp s.target (exchange rq s).target := by
  obtain ⟨hdp, ha⟩ := h
  obtain ⟨-, d, p, inp, n, e⟩ | ⟨-, inp, n, e⟩ | ⟨ack, inp, n, -, -, e⟩ := exchange_cases rq s <;> rw [e]
  · simp only [readDone, hdp]
    exact connect_read _ _ ha _ _
  · simp only [writeDone, hdp]
    exact connect_write _ _ ha _ _
  · simp only [failDone]
    split <;> rfl

/-- `s` is in a `CONNECT` that began in `s0`: the session is fresh, but for what the sequence keeps of it and what it records. -/
structure ConnectingFrom (s0 s : State) : Prop where
  bits : s.res.bits = s0.res.bits
  seq : s.seq = { s0.seq with phase := s.seq.phase }
  selValid : s.sess.selValid = false
  selCache : s.sess.selCache = s0.sess.selCache
  cswConfigured : s.sess.cswConfigured = false
  halted : s.sess.halted = false
  tarValid : s.sess.tarValid = false
  nextAddr : s.sess.nextAddr = s0.sess.nextAddr
  burstCount : s.sess.burstCount = 0
  target : SameButDp s0.target s.target

theorem connectingFrom_fresh (s : State) : ConnectingFrom s (freshSession s) :=
  ⟨rfl, rfl, rfl, rfl, rfl, rfl, rfl, rfl, rfl, rfl⟩

section
variable {s0 s : State}

theorem ConnectingFrom.exchange (h : ConnectingFrom s0 s) {rq : Request} (hq : OfConnect rq) : ConnectingFrom s0 (exchange rq s) := by
  obtain ⟨-, -, hsess, -, hseq, -, -, hbits, -⟩ := exchange_frame rq s
  constructor
  case bits => exact hbits.trans h.bits
  case seq => rw [hseq]; exact h.seq
  case target => exact h.target.trans (exchange_sameButDp hq s)
  all_goals rw [hsess]
  exacts [h.selValid, h.selCache, h.cswConfigured, h.halted, h.tarValid, h.nextAddr, h.burstCount]

theorem ConnectingFrom.driveBits (h : ConnectingFrom s0 s) (bits : List Bool) : ConnectingFrom s0 (driveBits bits s) := by
  rw [driveBits_eq]
  exact { h with }

theorem ConnectingFrom.afterWrDp (h : ConnectingFrom s0 s) {addr : BitVec 8} (ha : addr ≠ 0x8) (v : Word) :
    ConnectingFrom s0 (afterWrDp addr v s) := by
  rw [Machine.afterWrDp, if_neg ha]
  split
  · exact { h with }
  · exact h

theorem connectingFrom_access : AccessStable True OfConnect (ConnectingFrom s0) (ConnectingFrom s0) where
  exchange := fun _ hq => keeps_xfer (.inr trivial) (fun _ _ _ => trivial) fun _ h _ => h.exchange hq
  recoverReads := ⟨rfl, .inr rfl⟩
  recoverWrites := ⟨rfl, .inl rfl⟩
  waitCount := fun _ _ _ h => { h with }
  retried := fun _ _ h => { h with }
  inspected := fun _ _ h => { h with }
  sticky := fun _ h => { h with }
  result := fun _ _ _ h => { h with }
  failed := fun _ _ _ h => { h with }

theorem connectingFrom_connect : ConnectStable True (ConnectingFrom s0) (ConnectingFrom s0) where
  linkWrite := fun _ bits _ _ => (keeps_checkDir fun _ _ _ => trivial).bind fun _ => keeps_modify fun _ h => h.driveBits bits
  lineReset := (keeps_checkDir fun _ _ _ => trivial).bind fun _ => keeps_modify fun _ h => h.driveBits _
  readId := keeps_rdDp connectingFrom_access (.inr trivial) ⟨rfl, .inl rfl⟩
  readCtrlStat := fun _ _ =>
    keeps_poll (keeps_rdDp connectingFrom_access (.inr trivial) ⟨rfl, .inr rfl⟩) (fun _ _ h => { h with }) _ _
  writeAbort := keeps_wrDp connectingFrom_access (.inr trivial) ⟨rfl, .inl rfl⟩ fun _ h => h.afterWrDp (by decide) _
  writeCtrlStat := keeps_wrDp connectingFrom_access (.inr trivial) ⟨rfl, .inr rfl⟩ fun _ h => h.afterWrDp (by decide) _
  enter := fun _ _ p h => { h with seq := congrArg (fun q : Sequencer => { q with phase := p }) h.seq }
  ready := fun _ h => { h with }
  inspected := fun _ _ h => { h with }
  result := fun _ _ _ h => { h with }
  failed := fun _ _ _ h => { h with }

end

theorem exec_connectingFrom {s t : State} (he : exec .connect s = .next t) : ConnectingFrom s t :=
  (finish_next (ends_connect (P0 := (· = s)) connectingFrom_connect fun _ hu => hu ▸ connectingFrom_fresh _) rfl he).elim id id

/-- Settles O55: `load` and `busy` by `exec_outsideLoad`, the rest by what every step of the sequence keeps. -/
theorem connectFrame : Obligations.ConnectFrame := by
  unfold Obligations.ConnectFrame
  intro s t hbusy he
  obtain ⟨hload, hb⟩ := exec_outsideLoad (by decide) hbusy he
  have h := exec_connectingFrom he
  exact ⟨hload, hb.trans hbusy.symm, h.bits, h.seq, h.selValid, h.selCache, h.cswConfigured, h.halted, h.tarValid, h.nextAddr,
    h.burstCount, h.target⟩

/-! ## `SET_REG` and `RESUME`, answered OK (R169, R170) -/

/-- The accesses of `SET_REG` in each order of the parameter, joined in the order in which they are made. -/
theorem setRegAccesses_eq (cfg : Config) (ss : Session) (r : BitVec 5) (v : Word) (reads : List (Word × Word)) :
    setRegAccesses cfg ss r v reads =
      if cfg.setRegOrder = .selectThenData then
        memWriteAccesses cfg ss dcrsrAddr (dcrsrValue r) ++ pollAccesses cfg (afterMem cfg ss) reads
          ++ memWriteAccesses cfg (afterMem cfg ss) dcrdrAddr v
      else memWriteAccesses cfg ss dcrdrAddr v ++ memWriteAccesses cfg (afterMem cfg ss) dcrsrAddr (dcrsrValue r)
          ++ pollAccesses cfg (afterMem cfg ss) reads := by
  unfold setRegAccesses
  cases cfg.setRegOrder <;> simp

/-- Settles O36, by the run `setReg_does`. -/
theorem setRegWritesSelectAndData : Obligations.SetRegWritesSelectAndData := by
  unfold Obligations.SetRegWritesSelectAndData
  intro s early last rest hd hearly hlast hbound select ss polled as hin
  have he : ∀ r ∈ early, r.2 &&& sRegRdy ≠ sRegRdy := fun r hr => by rw [Ne, and_sRegRdy_iff, hearly r hr]; decide
  have has : setRegAccesses s.cfg s.sess s.op.regId s.op.value (early ++ [last]) = as := setRegAccesses_eq ..
  have run := setReg_does s.op.regId s.op.value early last s he ((and_sRegRdy_iff _).2 hlast) hbound
  rw [has] at run
  obtain ⟨_, t, e, d, hsess, hok⟩ := run rest hd hin
  exact ⟨t, finish_ok e, { d.toRan with }, hsess, hok, d.load, d.phase⟩

/-- Settles O37, by the run `resume_does`. -/
theorem resumeReleasesTheCore : Obligations.ResumeReleasesTheCore := by
  unfold Obligations.ResumeReleasesTheCore
  intro s rest hd as hin
  obtain ⟨_, t, e, d, hsess, hok⟩ := resume_does s rest hd hin
  exact ⟨t, finish_ok e, { d.toRan with }, hsess, hok, d.phase, d.load⟩

/-! ## What a register write leaves in the core (R208, R209) -/

/-- Settles O40: with true caches both stores of a `SET_REG` that succeeds have reached the core, as `ends_setReg_exact` says. -/
theorem setRegReachesTheCore : Obligations.SetRegReachesTheCore := by
  unfold Obligations.SetRegReachesTheCore
  intro s t hp hb hc he hok
  obtain ⟨hdcrdr, hdhcsr, -, hregs⟩ := (exec_succeeds (i := .setReg) (by decide)
    (ends_setReg_exact s.cfg hp s.op.regId s.op.value s.target (fun _ => True) fun _ => trivial)
    ⟨rfl, fun _ => agrees_of hb hc, rfl, rfl, rfl, rfl, rfl⟩ he hok).target
  exact ⟨hdcrdr, hdhcsr, hregs⟩

/-! ## What a load operation leaves in the core (R168 to R170, R177) -/

/-- The registers that `LoadRegs` allows, listed: neither write, one of them, or both have taken effect. -/
theorem LoadRegs.mem {p : LoadPlan} {before regs : List Word} (h : LoadRegs p before regs) :
    regs ∈ [before, before.set 13 p.sp, before.set 15 p.entry, (before.set 13 p.sp).set 15 p.entry] := by
  obtain ⟨_, ⟨_, rfl, rfl | rfl⟩, rfl | rfl⟩ := h <;> simp

/-- What holds after the run of a load operation holds after the command, which may be refused first (R46, R172). -/
theorem ends_loadPlan {P E : State → Prop} {R : Unit → State → Prop} {p : LoadPlan} (h : Ends True P (runLoad p) R E) :
    Ends True P (loadPlan p) R E :=
  Ends.bind keeps_get fun _ => (keeps_refuseUnless (.inr trivial)).bind fun _ => (keeps_refuseUnless (.inr trivial)).bind fun _ => h

/-- A load operation that ends Running has set the core as `ends_runLoad_target` says; one that fails does not end Running. -/
theorem load_running_core {s t : State} (hp : paramsValid s.cfg = true) (hs : planStays s.cfg s.op.plan) (hm : planInMemory s.op.plan)
    (ho : DataFirst s.cfg) (he : exec .load s = .next t) (hrun : t.load = .running) :
    t.target.dhcsr = 0x00000001 ∧ LoadRegs s.op.plan s.target.coreRegs t.target.coreRegs := by
  have run := ends_runLoad_target s.cfg hp s.op.plan hs hm s.target.mem s.target.coreRegs
  obtain ⟨⟨-, hdhcsr, hregs⟩, -⟩ | ⟨-, hfailed, -⟩ :=
    finish_next ((ends_loadPlan run).and (loadPlan_ends s.op.plan)) ⟨⟨rfl, rfl, rfl⟩, trivial⟩ he
  · exact ⟨hdhcsr, hregs ho⟩
  · rw [hrun] at hfailed
    cases hfailed

/-- Settles O47: whatever the target answers, by `load_running_core`; answered OK, by the accesses of `load_does` and what they leave
in the core, `load_accesses`. -/
theorem loadSetsTheCore : Obligations.LoadSetsTheCore := by
  unfold Obligations.LoadSetsTheCore
  intro s hp hs hm ho before stacked
  refine ⟨fun t he hrun => ?_, fun r rest hbusy hplan hd hgood hin => ?_⟩
  · obtain ⟨hdhcsr, hregs⟩ := load_running_core hp hs hm ho he hrun
    exact ⟨hregs.mem, hdhcsr⟩
  · obtain ⟨t, e, ran, -, -, hrun, -⟩ := load_does s.op.plan r s rest hbusy hplan hd hgood hin
    obtain ⟨hdhcsr, hregs⟩ := load_accesses s.cfg hp s.op.plan hs hm ho r ((and_sHalt_iff _).1 hgood.haltSeen) s.sess s.target
    refine ⟨t, finish_ok e, hrun, ?_⟩
    rw [ran.target]
    exact ⟨hdhcsr, hregs⟩

end Sys2Proof.Machine
end

section
/-! SUPPORT. The Memory Loader: the refusals of operands and plans (O23), how a load operation ends (O44, O45), what it stores (O46), that
it depends on its parameters, plan and answers alone (O48), and the frame of the two passes (O54). -/

namespace Sys2Proof.Machine

/-! ## Refusals (R172, R188, R189) -/

/-- A command whose plan check fails is refused, whatever would follow. -/
theorem finish_unadmitted {p : LoadPlan} {s : State} (h : planAdmitted s.cfg p = false) (m : Engine Unit) :
    finish (do admittedPlan p; m) s = .refused .badPlan :=
  finish_refuseUnless h _ (fun _ => m) s

theorem exec_load_reentrant {s : State} (hb : s.busy = true) : exec .load s = .refused .reentrant :=
  finish_refuseUnless (good := !s.busy) (by rw [hb]; rfl) _ _ s

theorem exec_load_badPlan {s : State} (hb : s.busy = false) (h : planAdmitted s.cfg s.op.plan = false) :
    exec .load s = .refused .badPlan := by
  show finish (do refuseUnless (!s.busy) .reentrant; refuseUnless (planAdmitted s.cfg s.op.plan) .badPlan; runLoad s.op.plan) s = _
  rw [hb]
  exact finish_refuseUnless h _ (fun _ => runLoad s.op.plan) s

/-- Settles O23: each check is the first of its command, and the check of a plan is R172 (`planAdmitted_iff`). -/
theorem badOperandsRefused : Obligations.BadOperandsRefused := by
  unfold Obligations.BadOperandsRefused
  intro s
  refine ⟨fun h => finish_refuseUnless ?_ _ _ s, fun h => exec_wrDp_badAddr ?_, fun h => ?_, fun h => ?_, exec_load_reentrant,
    planAdmitted_iff _ _, fun h => ?_⟩
  · simpa [dpReadAddrOk, and_assoc] using h
  · simpa [dpWriteAddrOk, and_assoc] using h
  · have hbad : apAddrOk s.op.addr = false := by simpa [apAddrOk] using h
    exact ⟨finish_refuseUnless hbad _ _ s, finish_refuseUnless hbad _ _ s⟩
  · have hbad : memAddrOk s.op.value = false := by simpa [memAddrOk] using h
    exact ⟨finish_refuseUnless hbad _ _ s, finish_refuseUnless hbad _ _ s⟩
  · rw [← planAdmitted_iff, Bool.not_eq_true] at h
    exact ⟨fun hb => exec_load_badPlan hb h, finish_unadmitted h _, finish_unadmitted h _⟩

/-! ## The passes: the engine's own state (R174 to R176) -/

/-- The command that is a pass, and the step it enters (R44). -/
def PassOp.instr : PassOp → Instr
  | .write => .writeBlocks
  | .verify => .verifyBlocks

def PassOp.phase : PassOp → Phase
  | .write => .write
  | .verify => .verify

/-- A pass with its step entered (R175, R176). -/
def PassOp.run (op : PassOp) (p : LoadPlan) : Engine Unit := do
  modify (setPhase op.phase)
  pass op p
  modify (setOk true)

theorem operation_pass (op : PassOp) (s : State) :
    Instr.operation s op.instr = (do admittedPlan s.op.plan; op.run s.op.plan) := by
  cases op <;> rfl

/-- What a pass issued as a command answers, from how the pass ends; its plan may be refused first (log 10). -/
theorem exec_pass_next {op : PassOp} {P E : State → Prop} {Q : Unit → State → Prop} {s t : State}
    (h : Ends True P (op.run s.op.plan) Q E) (hs : P s) (he : exec op.instr s = .next t) : Q () t ∨ E t := by
  rw [exec_eq_finish, operation_pass] at he
  exact finish_next ((keeps_admittedPlan _).bind fun _ => h) hs he

theorem phaseOf_pass (op : PassOp) (o : Operands) (q : Phase) : phaseOf o q op.instr = op.phase := by
  cases op <;> rfl

/-- A property may be carried from each state that has it alone. -/
theorem Ends.fromEach {α : Type} {X : Prop} {P E : State → Prop} {Q : α → State → Prop} {m : Engine α}
    (h : ∀ s, P s → Ends X (· = s) m Q E) : Ends X P m Q E := fun s hs => h s hs s rfl

/-- What a pass leaves of `s0`, with step `p` entered. -/
structure PassFramed (p : Phase) (s0 s : State) : Prop where
  bits : s.res.bits = s0.res.bits
  phase : s.seq.phase = p
  conn : s.sess.conn = s0.sess.conn
  halted : s.sess.halted = s0.sess.halted

abbrev KeepsPass (p : Phase) (s0 : State) (m : Engine Unit) : Prop := Keeps True (PassFramed p s0) (PassFramed p s0) m

/-- What the AP accesses of a pass may write. -/
def passWrites : Writes := { bank := True, memory := True, halted := False }

section
variable {p : Phase} {s0 : State}

theorem Framed.passFramed {s t : State} (h : Framed passWrites s.seq s t) (hs : PassFramed p s0 s) : PassFramed p s0 t where
  bits := h.bits.trans hs.bits
  phase := h.seq ▸ hs.phase
  conn := h.conn.trans hs.conn
  halted := (h.halted not_false).trans hs.halted

theorem KeepsFrame.keepsPass {m : Engine Unit} (h : ∀ s, KeepsFrame passWrites s.seq s m) : KeepsPass p s0 m :=
  Ends.fromEach fun s hs => (h s).from_refl.weaken (fun _ e => e) (fun _ _ f => f.passFramed hs) fun _ f => f.passFramed hs

theorem keepsPass_wrAp (addr : BitVec 8) (v : Word) : KeepsPass p s0 (wrAp addr v) :=
  KeepsFrame.keepsPass fun _ => framed_wrAp trivial _ _

theorem keepsPass_word (op : PassOp) (j : Nat) (a : Addr32) (w : Word) : KeepsPass p s0 (passWord op j a w) :=
  keeps_passWord (fun _ h => { h with }) (keepsPass_wrAp apTar a) (fun _ h => { h with }) (fun _ => keepsPass_wrAp apDrw w)
    (KeepsFrame.keepsPass fun _ => framed_rdAp trivial _) (fun _ _ _ h => { h with }) fun _ h => { h with }

theorem keepsPass_words (op : PassOp) (base : Addr32) (ws : List Word) : ∀ j, KeepsPass p s0 (passWords op base j ws) := by
  induction ws with
  | nil => exact fun _ => keeps_pure _
  | cons w ws ih => exact fun j => (keepsPass_word op j _ w).bind fun _ => ih (j + 1)

theorem keepsPass_sections (op : PassOp) (secs : List Section) : ∀ k, KeepsPass p s0 (passSections op k secs) := by
  induction secs with
  | nil => exact fun _ => keeps_pure _
  | cons sec secs ih =>
    exact fun k => (keeps_modify fun _ h => { h with }).bind fun _ => (keepsPass_words op _ _ 0).bind fun _ => ih (k + 1)

end

theorem passFramed_run (op : PassOp) (p : LoadPlan) (s : State) :
    Ends True (· = s) (op.run p) (fun _ => PassFramed op.phase s) (PassFramed op.phase s) := by
  have steps : KeepsPass op.phase s (do pass op p; modify (setOk true)) :=
    Ends.bind ((KeepsFrame.keepsPass fun _ => framed_ensureCsw trivial trivial).bind fun _ =>
      (keeps_modify fun _ h => { h with }).bind fun _ => keepsPass_sections op _ 0) fun _ => keeps_modify fun _ h => { h with }
  exact Ends.bind (ends_modify fun _ e => e ▸ ⟨rfl, rfl, rfl, rfl⟩) fun _ => steps

theorem exec_passFramed {op : PassOp} {s t : State} (he : exec op.instr s = .next t) : PassFramed op.phase s t :=
  (exec_pass_next (passFramed_run op s.op.plan s) rfl he).elim id id

/-! ## The passes: the target (R57, R174 to R176) -/

/-- A property of the target that every AP access, SELECT write and read of RDBUFF keeps is kept by a pass. -/
theorem TargetStable.passes {Q : Request → Prop} {T : Target → Prop} (h : TargetStable Q T) (hs : ∀ v, Q (Request.writeDp dpSelect v))
    (hw : ∀ a v, Q (Request.writeAp a v)) (hr : ∀ a, Q (Request.readAp a)) (hb : Q (Request.readDp dpRdbuff)) (op : PassOp) :
    PassStable op True (OfTarget T) (OfTarget T) where
  ensureCsw := keeps_ensureCsw (fun _ => h.wrAp hs (hw _ _)) fun _ h => h
  word := fun _ _ _ => keeps_passWord (fun _ h => h) (h.wrAp hs (hw _ _)) (fun _ h => h) (fun _ => h.wrAp hs (hw _ _))
    (h.rdAp hs (hr _) hb) (fun _ _ _ h => h) fun _ h => h
  start := fun _ h => h
  section_ := fun _ _ h => h
  phase := fun _ _ h => h
  result := fun _ _ _ h => h

/-- No transaction of a pass reads IDCODE (R50). -/
theorem exec_pass_idcode {op : PassOp} {s t : State} (he : exec op.instr s = .next t) : t.target.idcode = s.target.idcode := by
  have h := (targetStable_idcode s.target.idcode).passes (fun _ => by simp [Request.writeDp]) (fun _ _ => by simp [Request.writeAp])
    (fun _ => by simp [Request.readAp]) (by simp [Request.readDp, dpRdbuff]) op
  have run : Keeps True (OfTarget (·.idcode = s.target.idcode)) (OfTarget (·.idcode = s.target.idcode)) (op.run s.op.plan) :=
    Ends.bind (keeps_modify fun _ h => h) fun _ => (keeps_pass h _).bind fun _ => keeps_setOk h.result true
  exact (exec_pass_next run rfl he).elim id id

/-- The verification pass stores nothing, also where the session's caches are false. -/
theorem exec_verifyBlocks_core {s t : State} (he : exec .verifyBlocks s = .next t) : Core s.target t.target :=
  ((exec_pass_next (op := .verify) (keeps_verifyBlocks_at (K := False) (c0 := s.cfg) (u := s.target) False.elim s.op.plan)
    ⟨rfl, Core.refl _, False.elim, False.elim⟩ he).elim id id).core

/-- The write pass stores its words in order, all of them or, when it fails, the first ones. -/
theorem exec_writeBlocks_core {s t : State} (hp : paramsValid s.cfg = true) (ha : Agrees s.sess s.target)
    (hs : planStays s.cfg s.op.plan) (hm : planInMemory s.op.plan) (he : exec .writeBlocks s = .next t) :
    ∃ done todo, planWords s.op.plan = done ++ todo ∧ Core { s.target with mem := storeWords s.target.mem done } t.target := by
  obtain h | h := exec_pass_next (op := .write) (ends_writeBlocks s.cfg hp s.op.plan hs hm s.target)
    ⟨rfl, Core.refl _, fun _ => ha, fun _ => rfl⟩ he
  · exact ⟨planWords s.op.plan, [], (List.append_nil _).symm, h.target.1⟩
  · exact h.some_

/-- Storing words of a plan leaves every byte outside the plan. -/
theorem readByte_storeWords_outside {p : LoadPlan} {done todo : List (Addr32 × Word)} (hw : planWords p = done ++ todo)
    (m : List Host.Cell) {b : Nat} (hb : ¬inPlan p b) : readByte (storeWords m done) b = readByte m b :=
  store_outside done m b fun w hd k hk e => hb ⟨w, hw ▸ List.mem_append_left todo hd, k, hk, e⟩

/-- Settles O54: `load` and `busy` by `exec_outsideLoad`, the engine's own state by `exec_passFramed`, the target by the stores of each
pass. -/
theorem passFrame : Obligations.PassFrame := by
  unfold Obligations.PassFrame
  intro i s t hi hbusy he
  obtain ⟨op, rfl⟩ : ∃ op : PassOp, i = op.instr := by
    simp only [List.mem_cons, List.not_mem_nil, or_false] at hi
    obtain rfl | rfl := hi
    exacts [⟨.write, rfl⟩, ⟨.verify, rfl⟩]
  obtain ⟨hload, hb⟩ := exec_outsideLoad (by cases op <;> decide) hbusy he
  have f := exec_passFramed he
  refine ⟨hload, hb.trans hbusy.symm, f.bits, f.phase.trans (phaseOf_pass op _ _).symm, ?_, exec_pass_idcode he, fun h => ?_,
    fun h hp hbank hcsw hs hm => ?_⟩
  · dsimp only
    rw [← f.conn, ← f.halted]
  · rw [h] at he
    have k := exec_verifyBlocks_core he
    exact ⟨fun b => by rw [k.mem], k.sameCoreRegs⟩
  · rw [h] at he
    obtain ⟨done, todo, hw, k⟩ := exec_writeBlocks_core hp (agrees_of hbank hcsw) hs hm he
    refine ⟨k.sameCoreRegs, fun b hb => ?_⟩
    rw [k.mem]
    exact readByte_storeWords_outside hw _ hb

/-! ## How a load operation ends (R177, R178, R181, R186) -/

/-- A load operation that answers has been accepted and is its run. -/
theorem load_next {s t : State} (he : exec .load s = .next t) :
    planAdmitted s.cfg s.op.plan = true ∧ finish (runLoad s.op.plan) s = .next t := by
  cases hb : s.busy with
  | true =>
    rw [exec_load_reentrant hb] at he
    cases he
  | false =>
    cases ha : planAdmitted s.cfg s.op.plan with
    | false =>
      rw [exec_load_badPlan hb ha] at he
      cases he
    | true =>
      refine ⟨rfl, ?_⟩
      rw [← he]
      show _ = finish (loadPlan s.op.plan) s
      unfold finish
      rw [loadPlan_accepted hb ha]

/-- A load operation is in progress that has not failed. -/
def Loading (u : State) : Prop := u.busy = true ∧ u.sess.failInfo = none

/-- A load operation has ended Failed, and says at which step. -/
structure EndedFailed (u : State) : Prop where
  load : u.load = .failed
  idle : u.busy = false
  result : u.res.ok = false
  record : ∃ r, u.sess.failInfo = some r ∧ r.step = u.seq.phase

/-- A load operation has ended Running, with no failure and the connection in Ready. -/
structure EndedRunning (u : State) : Prop where
  load : u.load = .running
  idle : u.busy = false
  result : u.res.ok = true
  noFailure : u.sess.failInfo = none
  conn : u.sess.conn = .ready

/-- The first failure of a load operation ends it with its record (R186). -/
theorem Loading.failEntry {u : State} (h : Loading u) (c : FailCause) (a : Option Addr32) : EndedFailed (failEntry c a u) where
  load := if_pos h.1
  idle := rfl
  result := rfl
  record := ⟨⟨u.seq.phase, c, a⟩, by simp [Machine.failEntry, h.2], rfl⟩

theorem loading_stable : CommandStable True Loading EndedFailed where
  exchange := fun rq s _ _ h => by
    obtain ⟨-, -, hsess, -, -, hbusy, -⟩ := exchange_frame rq s
    exact ⟨hbusy.trans h.1, hsess ▸ h.2⟩
  drive := fun bits s _ _ h => ⟨(driveBits_busy bits s).trans h.1, driveBits_sess bits s ▸ h.2⟩
  hazard := fun _ _ _ => trivial
  counters := fun _ _ _ _ h => h
  results := fun _ _ _ h => h
  session := fun _ _ hx h => ⟨h.1, hx.trans h.2⟩
  position := fun _ _ h => h
  failed := fun _ c a h => h.failEntry c a

/-- Every operation ends somehow. -/
theorem ends_somehow {α : Type} {P : State → Prop} (m : Engine α) : Ends True P m (fun _ _ => True) fun _ => True := by
  intro s _
  split <;> trivial

/-- A connection sequence that succeeds ends in Ready (R167). -/
theorem connect_ready {P : State → Prop} : Ends True P connect (fun _ s => s.sess.conn = .ready) fun _ => True := by
  unfold connect
  iterate 9 refine Ends.bind (ends_somehow _) fun _ => ?_
  exact Ends.bind (Q := fun _ s => s.sess.conn = .ready) (ends_modify fun _ _ => rfl) fun _ => ends_modify fun _ h => h

/-- The connection stays as it is. -/
abbrev KeepsConn (c : Conn) (m : Engine Unit) : Prop := Keeps True (fun s => s.sess.conn = c) (fun _ => True) m

theorem FramesFrom.keepsConn {w : Writes} {p : Phase} {m : Engine Unit} {c : Conn} (h : ∀ s, FramesFrom w p s m) : KeepsConn c m :=
  Ends.fromEach fun s hs => (h s).weaken (fun _ e => e) (fun _ _ f => f.conn.trans hs) fun _ _ => trivial

theorem keepsConn_pass {c : Conn} (op : PassOp) (p : LoadPlan) : KeepsConn c (op.run p) :=
  Ends.fromEach fun s hs => (passFramed_run op p s).weaken (fun _ e => e) (fun _ _ f => f.conn.trans hs) fun _ _ => trivial

theorem keepsConn_setReg {c : Conn} (r : BitVec 5) (v : Word) : KeepsConn c (setReg r v) :=
  FramesFrom.keepsConn (framed_setReg (w := memoryWrites .setReg) trivial trivial r v)

/-- After its connection sequence, no step of a load operation changes the connection. -/
theorem runLoad_ready (p : LoadPlan) : Ends True (fun _ => True) (runLoad p) (fun _ s => s.sess.conn = .ready) fun _ => True := by
  have resumed : KeepsConn .ready resume := FramesFrom.keepsConn (framed_resume (w := memoryWrites .resume) trivial trivial (.inr rfl))
  have halted : KeepsConn .ready halt := FramesFrom.keepsConn (framed_halt (w := memoryWrites .halt) trivial trivial (.inl rfl))
  have last : KeepsConn .ready (do
      modify (setLoad .loaded)
      setReg 13 p.sp
      setReg 15 p.entry
      resume
      modify endLoad
      modify (setOk true)) :=
    Ends.bind (keeps_modify fun _ h => h) fun _ => (keepsConn_setReg 13 _).bind fun _ => (keepsConn_setReg 15 _).bind fun _ =>
      resumed.bind fun _ => Ends.bind (keeps_modify fun _ h => h) fun _ => keeps_modify fun _ h => h
  refine (ends_somehow _).bind fun _ => connect_ready.bind fun _ => Ends.bind (keeps_modify fun _ h => h) fun _ =>
    halted.bind fun _ => Ends.bind (keeps_modify fun _ h => h) fun _ => (keepsConn_pass .write p).bind fun _ => ?_
  exact keeps_getBind fun _ => ends_ite (fun _ => (keepsConn_pass .verify p).bind fun _ => last) fun _ => last

/-- A load operation ends in one of two ways, whatever the target answers. -/
theorem runLoad_ends (p : LoadPlan) :
    Ends True (fun _ => True) (runLoad p) (fun _ => EndedRunning) EndedFailed := by
  have run := ends_runLoad (P00 := fun _ => True) (P0 := fun u => u.busy = true)
    (R := fun _ u => u.load = .running ∧ u.busy = false ∧ u.res.ok = true ∧ u.sess.failInfo = none)
    loading_stable.connect loading_stable.control (loading_stable.passes .write) (loading_stable.passes .verify) (fun _ _ => rfl)
    (fun _ h => ⟨h, rfl⟩) (fun _ _ h => h) (fun _ h => ⟨rfl, rfl, rfl, h.2⟩) p
  exact (run.and (runLoad_ready p)).weaken (fun _ _ => ⟨trivial, trivial⟩)
    (fun _ _ ⟨⟨hload, hidle, hok, hnone⟩, hconn⟩ => ⟨hload, hidle, hok, hnone, hconn⟩) fun _ h => h.1

theorem load_ends {s t : State} (he : exec .load s = .next t) : EndedRunning t ∨ EndedFailed t :=
  finish_next (runLoad_ends s.op.plan) trivial (load_next he).2

theorem load_running {s t : State} (he : exec .load s = .next t) (h : t.load = .running) : EndedRunning t :=
  (load_ends he).resolve_right fun hf => by
    have hload := hf.load
    rw [h] at hload
    cases hload

/-- Settles O45, by the two ends of `load_ends`. -/
theorem loadEndsRunningOrFailed : Obligations.LoadEndsRunningOrFailed := by
  unfold Obligations.LoadEndsRunningOrFailed
  intro s t he
  obtain h | h := load_ends he
  · exact ⟨h.idle, .inl ⟨h.load, h.result, h.noFailure, h.conn⟩⟩
  · exact ⟨h.idle, .inr ⟨h.load, h.result, h.record⟩⟩

/-- Settles O44, by the run `load_does`; how a load operation that is Running has ended is `load_running`. -/
theorem loadRunsToRunning : Obligations.LoadRunsToRunning := by
  unfold Obligations.LoadRunsToRunning
  intro s r rest hbusy hplan hd hgood as hin
  obtain ⟨t, e, ran, hsess, hok, hrun, hidle, hphase⟩ := load_does s.op.plan r s rest hbusy hplan hd hgood hin
  have he : exec .load s = .next t := finish_ok e
  have h := load_running he hrun
  exact ⟨t, he, ran, hrun, hidle, hok, h.noFailure, h.conn, congrArg Session.halted hsess, hphase⟩

/-! ## What a load operation stores (R175, R177, R186, R210) -/

/-- Settles O46: the stores of a load operation are the plan's words in order (`ends_runLoad_target`), all of them when it ends
Running, and the words of an admitted plan lie apart (`plan_off`). -/
theorem loadPlacesTheImage : Obligations.LoadPlacesTheImage := by
  unfold Obligations.LoadPlacesTheImage
  intro s t hp hsafe hs hm he
  obtain ⟨hplan, hrun⟩ := load_next he
  have run := (ends_runLoad_target s.cfg hp s.op.plan hs hm s.target.mem s.target.coreRegs).and (runLoad_ends s.op.plan)
  obtain ⟨⟨hmem, -⟩, -⟩ | ⟨⟨done, todo, hw, hmem⟩, hfailed⟩ := finish_next run ⟨⟨rfl, rfl, rfl⟩, trivial⟩ hrun
  · obtain ⟨hapart, hfits⟩ := plan_off s.cfg s.op.plan hplan
    rw [hmem]
    exact ⟨fun b hb => readByte_storeWords_outside (List.append_nil _).symm _ hb,
      fun _ => store_inside _ _ hsafe.memory hapart hfits⟩
  · rw [hmem, hfailed.load]
    exact ⟨fun b hb => readByte_storeWords_outside hw _ hb, fun h => by cases h⟩

/-! ## Two load operations (R180, R199) -/

/-- Two commands that answer have ended in the same way. -/
theorem TwoRuns.finish_next {P E : State → State → Prop} {Q : Unit → State → State → Prop} {m : Engine Unit} {s s' t t' : State}
    (h : TwoRuns P m Q E) (hs : P s s') (ht : finish m s = .next t) (ht' : finish m s' = .next t') : Q () t t' ∨ E t t' := by
  have both := h s s' hs
  unfold finish at ht ht'
  rcases hm : m s with ⟨_, u⟩ | ⟨e, u⟩ <;> rcases hm' : m s' with ⟨_, u'⟩ | ⟨e', u'⟩ <;> rw [hm, hm'] at both
  · rw [hm] at ht
    rw [hm'] at ht'
    cases ht
    cases ht'
    exact .inl both.2
  · exact both.elim
  · exact both.elim
  · obtain ⟨rfl, hE⟩ := both
    rw [hm] at ht
    rw [hm'] at ht'
    cases e <;> cases ht
    cases ht'
    exact .inr hE

/-- Settles O48, by the two runs of `two_runLoad`. -/
theorem loadDependsOnAnswersAlone : Obligations.LoadDependsOnAnswersAlone := by
  unfold Obligations.LoadDependsOnAnswersAlone
  intro s s' t t' hcfg hplan hin hdraws hd hd' he he'
  have hrun' := (load_next he').2
  rw [← hplan] at hrun'
  have h : EndsAlike t t' := ((two_runLoad s.op.plan).finish_next ⟨hcfg, hin, hdraws, hd, hd'⟩ (load_next he).2 hrun').elim id id
  refine ⟨?_, h.load, h.conn, h.inp, h.draws⟩
  simp only [observe, h.same, h.fi, h.trace]

end Sys2Proof.Machine
end

section
/-! SUPPORT. How a command ends, whatever the target answers: a well-formed one in a next state (O49), and one above the packet layer
with `RES_OK` and `failInfo` in agreement (O50). -/

namespace Sys2Proof.Machine

/-! ## Completion (R182) -/

/-- From a link that the target does not drive, an operation neither faults nor is refused, and leaves the link so. -/
abbrev Completes (m : Engine Unit) : Prop := Keeps False (fun s => s.link.lastDir ≠ .target) (fun _ => True) m

theorem completes_xfer {rq : Request} (hc : rq.isDpWriteC = false) : Completes (xfer rq) := turned_stable.access.exchange rq hc

theorem completes_linkClock : Completes (modify linkClock) := keeps_modify fun s _ => by
  rw [linkClock_eq]
  cases s.link.oe <;> simp

theorem completes_linkTrn : Completes linkTrn := keeps_modify fun s _ => by simp [turnaround_eq]

theorem completes_linkWrite (bits : List Bool) : Completes (linkWrite bits) :=
  (keeps_checkDir fun _ h hd => h hd).bind fun _ => keeps_modify fun s h => by
    rw [driveBits_link]
    exact drivenLink_not_target _ _ h

/-- Every form but `LINK_READ`, whose direction check is for the host, and those that look a plan over in the state they start from. -/
theorem completes_operation {i : Instr} {s : State} (hw : i.wellFormed s.cfg s.op = true)
    (hi : i ∉ [Instr.linkRead, .load, .writeBlocks, .verifyBlocks]) : Completes (Instr.operation s i) := by
  have h := turned_stable.toCommandStable
  cases i
  case linkRead | load | writeBlocks | verifyBlocks => exact absurd (by decide) hi
  case dpwcReserved => cases hw
  case xfer => exact completes_xfer (Bool.eq_false_of_not_eq_true' hw)
  case linkClock => exact completes_linkClock
  case linkWrite => exact completes_linkWrite _
  case linkTrn => exact completes_linkTrn
  case linkLinereset => exact h.linkLinereset
  case rdDp => exact h.rdDp _ (.inl hw)
  case wrDp => exact h.wrDp _ _ (.inl hw)
  case rdAp => exact h.rdAp _ (.inl hw)
  case wrAp => exact h.wrAp _ _ (.inl hw)
  case memWr32 => exact h.memWr32 _ _ (.inl hw)
  case memRd32 => exact h.memRd32 _ (.inl hw)
  case connect => exact ends_connect h.connect turned_stable.fresh
  case halt => exact keeps_halt h.control
  case setReg => exact keeps_setReg h.control _ _
  case resume => exact keeps_resume h.control
  all_goals exact completes_xfer rfl

/-- Settles O49: no operation stops at a fault or a refusal from a link turned for it (`completes_operation`), nor does a load
operation or a pass whose plan is admitted. -/
theorem wellFormedCommandsComplete : Obligations.WellFormedCommandsComplete := by
  unfold Obligations.WellFormedCommandsComplete
  intro i s hw hd hread hbusy
  by_cases hi : i ∈ [Instr.linkRead, .load, .writeBlocks, .verifyBlocks]
  · simp only [List.mem_cons, List.not_mem_nil, or_false] at hi
    obtain rfl | rfl | rfl | rfl := hi
    · exact ⟨_, exec_linkRead (hread rfl)⟩
    · exact keeps_loadPlan_runs _ s hd (hbusy rfl) hw
    · exact keeps_pass_runs _ (keeps_writeBlocks (turned_stable.passes .write) _) _ s hd hw
    · exact keeps_pass_runs _ (keeps_verifyBlocks (turned_stable.passes .verify) _) _ s hd hw
  · rw [exec_eq_finish]
    exact finish_runs (completes_operation hw hi) hd

/-! ## `RES_OK` of a command that raises no failure (R182) -/

/-- An operation that runs to its end leaves `RES_OK` true, whatever it was before. -/
def EndsOk (m : Engine Unit) : Prop := Ends True (fun _ => True) m (fun _ u => u.res.ok = true) fun _ => True

theorem endsOk_setOk : EndsOk (modify (setOk true)) := ends_modify fun _ _ => rfl

/-- Only the end of a sequence counts. -/
theorem EndsOk.after {α : Type} {m : Engine α} {f : α → Engine Unit} (h : ∀ a, EndsOk (f a)) : EndsOk (m >>= f) :=
  (ends_somehow m).bind h

theorem endsOk_rdDp (addr : BitVec 8) : EndsOk (rdDp addr) := .after fun _ => .after fun _ => .after fun _ => endsOk_setOk

theorem endsOk_wrDp (addr : BitVec 8) (v : Word) : EndsOk (wrDp addr v) := .after fun _ => .after fun _ => .after fun _ => endsOk_setOk

theorem endsOk_rdAp (addr : BitVec 8) : EndsOk (rdAp addr) :=
  .after fun _ => .after fun _ => .after fun _ => .after fun _ => .after fun _ => endsOk_setOk

theorem endsOk_wrAp (addr : BitVec 8) (v : Word) : EndsOk (wrAp addr v) := .after fun _ => .after fun _ => .after fun _ => endsOk_setOk

/-- The word helpers set no `RES_OK` of their own: it is that of their DRW access (R157). -/
theorem endsOk_memWr32 (a : Addr32) (v : Word) : EndsOk (memWr32 a v) :=
  .after fun _ => .after fun _ => .after fun _ => Ends.bind (endsOk_wrAp apDrw v) fun _ => keeps_modify fun _ h => h

theorem endsOk_memRd32 (a : Addr32) : EndsOk (memRd32 a) :=
  .after fun _ => .after fun _ => .after fun _ => Ends.bind (endsOk_rdAp apDrw) fun _ => Ends.bind (keeps_modify fun _ h => h) fun _ =>
    keeps_modify fun _ h => h

theorem endsOk_connect : EndsOk connect := by
  unfold connect
  iterate 10 refine .after fun _ => ?_
  exact endsOk_setOk

theorem endsOk_halt : EndsOk halt :=
  have rest : EndsOk (do modify (setHalted true); modify (setOk true)) := .after fun _ => endsOk_setOk
  .after fun _ => .after fun _ => .after fun _ => .after fun _ =>
    ends_ite (fun _ => EndsOk.after fun (_ : PUnit) => rest) fun _ => rest

theorem endsOk_setReg (r : BitVec 5) (v : Word) : EndsOk (setReg r v) := by
  refine .after fun _ => .after fun s => ?_
  cases s.cfg.setRegOrder with
  | selectThenData => exact .after fun _ => .after fun _ => .after fun _ => endsOk_setOk
  | dataThenSelect => exact .after fun _ => .after fun _ => .after fun _ => endsOk_setOk

theorem endsOk_resume : EndsOk resume := .after fun _ => .after fun _ => .after fun _ => endsOk_setOk

theorem endsOk_pass (op : PassOp) (p : LoadPlan) : EndsOk (op.run p) := .after fun _ => .after fun _ => endsOk_setOk

theorem endsOk_operation {i : Instr} (hi : Layered i) (hl : i ≠ .load) (s : State) : EndsOk (Instr.operation s i) := by
  simp only [Layered, List.mem_cons, List.not_mem_nil, or_false] at hi
  obtain rfl | rfl | rfl | rfl | rfl | rfl | rfl | rfl | rfl | rfl | rfl | rfl | rfl := hi
  · exact endsOk_rdDp _
  · exact endsOk_wrDp _ _
  · exact endsOk_rdAp _
  · exact endsOk_wrAp _ _
  · exact endsOk_memWr32 _ _
  · exact endsOk_memRd32 _
  · exact endsOk_connect
  · exact endsOk_halt
  · exact endsOk_setReg _ _
  · exact endsOk_resume
  · exact absurd rfl hl
  · exact .after fun _ => endsOk_pass .write _
  · exact .after fun _ => endsOk_pass .verify _

/-! ## The failure record of a command (R45, R186) -/

/-- A command has ended with a failure, where `before` was the record it began with: an earlier record is kept, and a new one names
the step in progress. -/
def FailureReported (before : Option FailRecord) (u : State) : Prop :=
  u.res.ok = false ∧ ∃ r, u.sess.failInfo = some r ∧ r = before.getD r ∧ (before = none → r.step = u.seq.phase)

theorem failureReported_failEntry {before : Option FailRecord} {u : State} (h : u.sess.failInfo = before) (c : FailCause)
    (a : Option Addr32) : FailureReported before (failEntry c a u) := by
  subst h
  refine ⟨rfl, _, rfl, ?_, fun hnone => ?_⟩
  · cases u.sess.failInfo <;> rfl
  · rw [hnone]
    rfl

/-- Until a failure is raised the record stays as it was. -/
theorem record_stable (before : Option FailRecord) :
    CommandStable True (fun u => u.sess.failInfo = before) (FailureReported before) where
  exchange := fun rq s _ _ h => by
    obtain ⟨-, -, hsess, -⟩ := exchange_frame rq s
    exact hsess ▸ h
  drive := fun bits s _ _ h => driveBits_sess bits s ▸ h
  hazard := fun _ _ _ => trivial
  counters := fun _ _ _ _ h => h
  results := fun _ _ _ h => h
  session := fun _ _ hx h => hx.trans h
  position := fun _ _ h => h
  failed := fun _ c a h => failureReported_failEntry h c a

/-- How a command ends that began with the record `before`. -/
def EndsReporting (before : Option FailRecord) (u : State) : Prop :=
  (u.res.ok = true ∧ u.sess.failInfo = before) ∨ FailureReported before u

theorem exec_endsReporting {i : Instr} {before : Option FailRecord} {P : State → Prop} {s t : State} (hi : Layered i) (hl : i ≠ .load)
    (record : Ends True P (Instr.operation s i) (fun _ u => u.sess.failInfo = before) (FailureReported before)) (hs : P s)
    (he : exec i s = .next t) : EndsReporting before t :=
  (finish_next ((endsOk_operation hi hl s).and record) ⟨trivial, hs⟩ (by rwa [← exec_eq_finish])).imp id And.right

/-- `CONNECT` starts a fresh session, whose record is empty (R161). -/
theorem connect_endsReporting {s t : State} (he : exec .connect s = .next t) : EndsReporting none t :=
  exec_endsReporting (P := fun _ => True) (by unfold Layered; decide) (by decide)
    (ends_connect (record_stable none).connect fun _ _ => rfl) trivial he

theorem load_endsReporting {s t : State} (he : exec .load s = .next t) : EndsReporting none t :=
  (load_ends he).imp (fun h => ⟨h.result, h.noFailure⟩) fun h =>
    ⟨h.result, h.record.imp fun _ ⟨hr, hstep⟩ => ⟨hr, rfl, fun _ => hstep⟩⟩

theorem command_endsReporting {i : Instr} {s t : State} (hi : Layered i) (hc : i ≠ .connect) (hl : i ≠ .load)
    (he : exec i s = .next t) : EndsReporting s.sess.failInfo t := by
  refine exec_endsReporting hi hl (command_keeps (record_stable s.sess.failInfo) s i (fun hlink => ?_) hl hc) rfl he
  simp only [List.mem_cons, List.not_mem_nil, or_false] at hlink
  obtain rfl | rfl | rfl | rfl := hlink <;> exact absurd hi (by unfold Layered; decide)

/-- Settles O50: `CONNECT` and `LOAD` begin with an empty record, every other command with the one it finds. -/
theorem commandsReportTheirFailure : Obligations.CommandsReportTheirFailure := by
  unfold Obligations.CommandsReportTheirFailure
  intro i s t hi he
  by_cases hfresh : i = .connect ∨ i = .load
  · rw [if_pos hfresh]
    obtain rfl | rfl := hfresh
    · exact connect_endsReporting he
    · exact load_endsReporting he
  · rw [if_neg hfresh]
    rw [not_or] at hfresh
    obtain ⟨hc, hl⟩ := hfresh
    exact command_endsReporting hi hc hl he

end Sys2Proof.Machine
end

section
/-! SUPPORT. The step that takes no command: the empty inbox (R198) and a parameter outside its range (R189; O6). -/

namespace Sys2Proof.Machine

theorem step_waits {s : State} (hin : s.inbox = []) : step s = .next s := by
  unfold step nextCommand
  simp only [hin]

/-- The ranges of R189, each by its breach. -/
theorem paramsValid_eq_false_iff {cfg : Config} : paramsValid cfg = false ↔
    cfg.lineResetHigh < 50 ∨ cfg.lineResetIdle < 2 ∨ cfg.maxBurstWords = 0 ∨ cfg.powerUpPollMax = 0 ∨ cfg.haltPollMax = 0 ∨
      cfg.regRdyPollMax = 0 ∨ cfg.cswValue.extractLsb' 0 3 ≠ 0b010 ∨ cfg.cswValue.extractLsb' 4 2 ≠ 0b01 := by
  simp only [paramsValid, Bool.and_eq_false_iff, decide_eq_false_iff_not, beq_eq_false_iff_ne, Nat.not_le, Nat.lt_one_iff, or_assoc]

/-- Settles O6: an empty inbox holds no command (`step_waits`), and each of the eight breaches makes `paramsValid` false, so that
the step refuses whatever stands first in the inbox (`step_badParam`). -/
theorem stepWaitsOrChecksParameters : Obligations.StepWaitsOrChecksParameters := by
  unfold Obligations.StepWaitsOrChecksParameters
  exact fun s => ⟨step_waits, fun hin hbreach => step_badParam hin (paramsValid_eq_false_iff.2 hbreach)⟩

end Sys2Proof.Machine
end
